-- ==== Sys2Proof/Word.lean ====
section
/-! DEFINITION. The word types of the block: u8 and u16 (00_scope.md R9). -/

namespace Sys2Proof

/-- `u8` of R9: one byte of SRC or DST, one colour channel. -/
abbrev Byte := BitVec 8

/-- `u16` of R9: a PackedColor (R91) or a 16-bit container field (R66). -/
abbrev U16 := BitVec 16

end Sys2Proof
end

