-- ==== Sys2Proof/Config.lean ====
section
/-! DEFINITION. The implementation parameters of 00_scope.md R7: the literals the source fixes, and the
configuration registers of 10_state.md R35, which the environment writes before the block runs. The spec leaves
no result open after which the block goes on, so there is no free value here. -/

namespace Sys2Proof

/-- `DEBOUNCE_MS` (R7, R271). -/
def Config.debounceMs : Nat := 200

/-- `DEFAULT_DELAY_MS` (R7, R190). -/
def Config.defaultDelayMs : Nat := 100

/-- `DICT_SIZE` (R7, R29): entries of DICT and of STK. -/
def Config.dictSize : Nat := 4096

/-- `MAX_CODE_BITS` (R7, R226). -/
def Config.maxCodeBits : Nat := 12

/-- `MODE` (R7, 92_eei_decisions.md D5). -/
inductive Mode where
  | drleFolder
  | gifFile
  deriving DecidableEq, Repr

/-- The configuration registers (R35), every one an OPEN parameter of R7. No rule writes them. -/
structure Cfg where
  surfW : Nat
  surfH : Nat
  frameW : Nat
  frameH : Nat
  offX : Nat
  offY : Nat
  targetLoopMs : Nat
  refreshDiv : Nat
  /-- No rule depends on it (R318). -/
  sleepMs : Nat
  folderCount : Nat
  mode : Mode
  deriving DecidableEq, Repr

/-- The ranges R7 states and the two sums R343 (2) asks for. -/
abbrev Cfg.meetsBoot (c : Cfg) : Prop :=
  1 ≤ c.frameW ∧ c.frameW ≤ c.surfW ∧ 1 ≤ c.frameH ∧ c.frameH ≤ c.surfH ∧
  c.offX + c.frameW * (c.surfW / c.frameW) ≤ c.surfW ∧
  c.offY + c.frameH * (c.surfH / c.frameH) ≤ c.surfH ∧
  1 ≤ c.targetLoopMs ∧ 1 ≤ c.refreshDiv ∧ 1 ≤ c.folderCount

end Sys2Proof
end

