-- ==== Sys2Proof/Syntax.lean ====
section
/-! DEFINITION. The tokens, conversions, operation calls, commands and events of spec/opcode_table.json: one
constructor per row (GIF.HEADER has two rows, one per magic string). Fields are the operands the table and the
rules name; register numbers, flags and field positions are resolved by Decode. -/

namespace Sys2Proof

/-- One colour-table entry (30_encoding.md R102): red, green, blue, 8 bits each. -/
structure Rgb where
  r : Byte
  g : Byte
  b : Byte
  deriving DecidableEq, Repr

/-- The block's instructions. "Token: one decodable element of a stream; this block's analogue of an
instruction" (00_scope.md glossary); events and calls have no binary form (R116). -/
inductive Instr where
  /-- PXC.PACK (R130). -/
  | pxcPack (r g b : Byte)
  /-- PXC.STORE (R131): DST byte address and colour. -/
  | pxcStore (a : Nat) (c : U16)
  /-- DRLE.END (R93, R145): the header `00 00`. -/
  | drleEnd
  /-- DRLE.REC (R92, R144): the header; the payload follows in SRC. -/
  | drleRec (skip write : Byte)
  /-- DRLE.BLIT (R149). -/
  | drleBlit (pos : Nat) (hi lo : Byte)
  /-- DRLE.DECODE (R140) with its operands: the stream, `W H X Y S`, the scale factors, `E`, and the length of
  DST in bytes. A caller that leaves out an optional operand supplies its default: 1, 1 and 0. -/
  | drleDecode (file : List Byte) (w h x y stride scaleX scaleY extra dstLen : Nat)
  /-- DRLE.ENCODE (R155): two packed-colour buffers. -/
  | drleEncode (prev cur : List Byte)
  /-- DRLE.ENCODE_FIRST (R156). -/
  | drleEncodeFirst (cur : List Byte)
  /-- GIF.HEADER, variant GIF87a (R173). -/
  | gifHeader87a
  /-- GIF.HEADER, variant GIF89a (R173). -/
  | gifHeader89a
  /-- GIF.LSD (R176): seven bytes after the header. -/
  | gifLsd (w h : U16) (flags bg aspect : Byte)
  /-- GIF.GCT (R178): the table's entries, none when the descriptor announces no table. -/
  | gifGct (table : List Rgb)
  /-- GIF.GCE (R181): the data of its first sub-block; the rest of the chain follows in SRC. -/
  | gifGce (body : List Byte)
  /-- GIF.EXT (R184): the label; the sub-block chain follows in SRC. -/
  | gifExt (label : Byte)
  /-- GIF.IMAGE (R185): the descriptor; table, minimum code size and image data follow in SRC. -/
  | gifImage (left top w h : U16) (flags : Byte)
  /-- GIF.TRAILER (R192). -/
  | gifTrailer
  /-- GIF.UNKNOWN (R193): the introducer read. -/
  | gifUnknown (intro : Byte)
  /-- GIF.START (R171) with the caller's expected dimensions. -/
  | gifStart (expW expH : Nat)
  /-- GIF.NEXT (R172). -/
  | gifNext
  /-- LZW.IMAGE (R210): its operands are registers. -/
  | lzwImage
  /-- LZW.CLEAR (R218). -/
  | lzwClear
  /-- LZW.END (R219). -/
  | lzwEnd
  /-- LZW.FIRST (R221). -/
  | lzwFirst (c : Nat)
  /-- LZW.LIT (R223). -/
  | lzwLit (c : Nat)
  /-- LZW.DICT (R223). -/
  | lzwDict (c : Nat)
  /-- LZW.KWKWK (R224): its code is `next_code`. -/
  | lzwKwkwk
  /-- LZW.BADCODE: the class of code values that raise `BadCodeFault` (R222, R225). -/
  | lzwBadCode (c : Nat)
  /-- SCH.LOAD (R252). -/
  | schLoad
  /-- SCH.TICK (R257). -/
  | schTick
  /-- SCH.STEP (R259, R260). -/
  | schStep
  /-- SCH.POLL (R270): the clock and the two electrical levels, `true` = high = released. -/
  | schPoll (now : Nat) (a b : Bool)
  /-- SCH.SWITCH (R277). -/
  | schSwitch
  deriving DecidableEq, Repr

end Sys2Proof
end

