-- ==== Sys2Proof/WellFormed.lean ====
section
/-! DEFINITION. Which instructions the formats of 30_encoding.md can express: the operand ranges that the types of
`Instr` do not already carry. Ranges that depend on registers (a literal is below the clear code) are the classes
of R111 and are decided when a code is read. -/

namespace Sys2Proof

/-- The lengths a colour table can have (R102): powers of two in 2..256, or 0 for an absent table. -/
def tableLengths : List Nat := [0, 2, 4, 8, 16, 32, 64, 128, 256]

/-- The instruction can be read from a stream, or called, as the spec lays it out. -/
def Instr.wf : Instr → Bool
  | .pxcPack _ _ _ => true
  | .pxcStore _ _ => true
  | .drleEnd => true
  | .drleRec skip write => !(skip == 0 && write == 0)                     -- R93
  | .drleBlit _ _ _ => true
  | .drleDecode _ _ _ _ _ _ _ _ _ _ => true
  | .drleEncode prev cur => prev.length == cur.length && cur.length % 2 == 0   -- R155
  | .drleEncodeFirst cur => cur.length % 2 == 0                           -- R156
  | .gifHeader87a => true
  | .gifHeader89a => true
  | .gifLsd _ _ _ _ _ => true
  | .gifGct table => tableLengths.contains table.length                   -- R102
  | .gifGce body => decide (body.length ≤ 255)                            -- R105
  | .gifExt label => label != 0xF9                                        -- R103
  | .gifImage _ _ _ _ _ => true
  | .gifTrailer => true
  | .gifUnknown b => b != 0x21 && b != 0x2C && b != 0x3B                  -- R103
  | .gifStart _ _ => true
  | .gifNext => true
  | .lzwImage => true
  | .lzwClear => true
  | .lzwEnd => true
  | .lzwFirst c => decide (c < 2048)                                      -- R27: clear <= 2048
  | .lzwLit c => decide (c < 2048)
  | .lzwDict c => decide (6 ≤ c ∧ c < 4096)                               -- R29
  | .lzwKwkwk => true
  | .lzwBadCode c => decide (c < 4096)                                    -- R112
  | .schLoad => true
  | .schTick => true
  | .schStep => true
  | .schPoll _ _ _ => true
  | .schSwitch => true

end Sys2Proof
end

