-- ==== Sys2Proof/Decode.lean ====
section
/-! DEFINITION. Decoding of 30_encoding.md: bytes at the stream cursor to a token, given the position in the stream's
grammar (R90, R100), and a code value to its class (R111). Then the encoder, from the same tables. -/

namespace Sys2Proof

/-- Where in which input format the block reads: the record sequence of a delta-RLE stream (R94), the parts of a
GIF stream in the order of R100, or the code stream of an image (R108). -/
inductive Pos where
  | drle
  | gifHeader
  | gifLsd
  | gifGct
  | gifBlock
  | lzwCode
  deriving DecidableEq, Repr

/-- Why no token is read. -/
inductive DecodeError where
  /-- SRC ends inside the token (`EOS` of R10). -/
  | truncated
  /-- Six bytes that are neither magic (R173). -/
  | badMagic
  /-- A position whose tokens are not made of whole bytes (the code stream, R110). -/
  | notBytes
  deriving DecidableEq, Repr

/-- `le16(b0, b1)` of R10, that is `{b1, b0}`. -/
def le16 (b0 b1 : Byte) : U16 := b1 ++ b0

/-- Bits 7:0 of a u16. -/
def lo8 (v : U16) : Byte := v.extractLsb' 0 8

/-- Bits 15:8 of a u16. -/
def hi8 (v : U16) : Byte := v.extractLsb' 8 8

/-- Entries of the colour table a packed-flags byte announces (R102): `1 << ((flags & 7) + 1)` if bit 7 is set,
else none. -/
def tableSize (flags : Byte) : Nat :=
  if flags.getLsbD 7 then 2 ^ ((flags &&& 7).toNat + 1) else 0

/-- The first `n` RGB triples of a byte sequence, `none` if it is too short (R102). -/
def readTriples : Nat → List Byte → Option (List Rgb)
  | 0, _ => some []
  | n + 1, r :: g :: b :: rest => (readTriples n rest).map (⟨r, g, b⟩ :: ·)
  | _ + 1, _ => none

/-- `GIF87a` in ASCII (R101). -/
def magic87a : List Byte := [0x47, 0x49, 0x46, 0x38, 0x37, 0x61]

/-- `GIF89a` in ASCII (R101). -/
def magic89a : List Byte := [0x47, 0x49, 0x46, 0x38, 0x39, 0x61]

/-- A delta-RLE record header (R92, R93), two bytes. -/
def decodeRecord : List Byte → Except DecodeError (Instr × Nat)
  | skip :: write :: _ =>
    .ok (if skip = 0 ∧ write = 0 then .drleEnd else .drleRec skip write, 2)
  | _ => .error .truncated

/-- The GIF header (R101, R173): an exact six-byte comparison. -/
def decodeHeader (bytes : List Byte) : Except DecodeError (Instr × Nat) :=
  if bytes.length < 6 then .error .truncated
  else if bytes.take 6 = magic87a then .ok (.gifHeader87a, 6)
  else if bytes.take 6 = magic89a then .ok (.gifHeader89a, 6)
  else .error .badMagic

/-- The logical screen descriptor (R101), seven bytes. -/
def decodeLsd : List Byte → Except DecodeError (Instr × Nat)
  | w0 :: w1 :: h0 :: h1 :: flags :: bg :: aspect :: _ =>
    .ok (.gifLsd (le16 w0 w1) (le16 h0 h1) flags bg aspect, 7)
  | _ => .error .truncated

/-- The global colour table the descriptor's `flags` announce (R102, R178); nothing when there is none. -/
def decodeGct (flags : Byte) (bytes : List Byte) : Except DecodeError (Instr × Nat) :=
  match readTriples (tableSize flags) bytes with
  | some t => .ok (.gifGct t, 3 * tableSize flags)
  | none => .error .truncated

/-- The body of a Graphic Control Extension after `21 F9` (R106, R181): the length byte and its data. -/
def decodeGce : List Byte → Except DecodeError (Instr × Nat)
  | n :: rest =>
    if n.toNat ≤ rest.length then .ok (.gifGce (rest.take n.toNat), 3 + n.toNat) else .error .truncated
  | [] => .error .truncated

/-- An extension after its introducer `21` (R103, R104, R180). -/
def decodeExtension : List Byte → Except DecodeError (Instr × Nat)
  | label :: rest => if label = 0xF9 then decodeGce rest else .ok (.gifExt label, 2)
  | [] => .error .truncated

/-- The image descriptor after its introducer `2C` (R107). -/
def decodeImage : List Byte → Except DecodeError (Instr × Nat)
  | l0 :: l1 :: t0 :: t1 :: w0 :: w1 :: h0 :: h1 :: flags :: _ =>
    .ok (.gifImage (le16 l0 l1) (le16 t0 t1) (le16 w0 w1) (le16 h0 h1) flags, 10)
  | _ => .error .truncated

/-- A top-level block by its introducer (R103, R179). -/
def decodeBlock : List Byte → Except DecodeError (Instr × Nat)
  | b :: rest =>
    if b = 0x21 then decodeExtension rest
    else if b = 0x2C then decodeImage rest
    else if b = 0x3B then .ok (.gifTrailer, 1)
    else .ok (.gifUnknown b, 1)
  | [] => .error .truncated

/-- The token at the head of `bytes` at a position of the grammar, with its length in bytes. `flags` is the screen
descriptor's packed byte, which alone says whether and how long a global colour table is (R102). -/
def decodeAt (p : Pos) (flags : Byte) (bytes : List Byte) : Except DecodeError (Instr × Nat) :=
  match p with
  | .drle => decodeRecord bytes
  | .gifHeader => decodeHeader bytes
  | .gifLsd => decodeLsd bytes
  | .gifGct => decodeGct flags bytes
  | .gifBlock => decodeBlock bytes
  | .lzwCode => .error .notBytes

/-- The registers that decide the class of a code (R111). -/
structure CodeCtx where
  clear : Nat
  endCode : Nat
  nextCode : Nat
  prev : Option Nat
  deriving DecidableEq, Repr

/-- The class of a code value, the tests in the order of R111's table. -/
def decodeCode (x : CodeCtx) (c : Nat) : Instr :=
  if c = x.clear then .lzwClear
  else if c = x.endCode then .lzwEnd
  else
    match x.prev with
    | none => if c < x.clear then .lzwFirst c else .lzwBadCode c
    | some _ =>
      if c < x.clear then .lzwLit c
      else if x.endCode < c ∧ c < x.nextCode then .lzwDict c
      else if c = x.nextCode ∧ x.nextCode < Config.dictSize then .lzwKwkwk
      else .lzwBadCode c

/-! ## The encoder -/

/-- The bytes of a colour table (R102). -/
def tableBytes : List Rgb → List Byte
  | [] => []
  | t :: rest => t.r :: t.g :: t.b :: tableBytes rest

/-- The position and the bytes of a stream token, written from 30_encoding.md R92 to R107; `none` for what has no
byte encoding (calls, commands and events, R116; codes, whose width varies, R112). -/
def encode : Instr → Option (Pos × List Byte)
  | .drleEnd => some (.drle, [0, 0])
  | .drleRec skip write => some (.drle, [skip, write])
  | .gifHeader87a => some (.gifHeader, magic87a)
  | .gifHeader89a => some (.gifHeader, magic89a)
  | .gifLsd w h flags bg aspect =>
    some (.gifLsd, [lo8 w, hi8 w, lo8 h, hi8 h, flags, bg, aspect])
  | .gifGct table => some (.gifGct, tableBytes table)
  | .gifGce body => some (.gifBlock, [0x21, 0xF9, BitVec.ofNat 8 body.length] ++ body)
  | .gifExt label => some (.gifBlock, [0x21, label])
  | .gifImage left top w h flags =>
    some (.gifBlock,
      [0x2C, lo8 left, hi8 left, lo8 top, hi8 top, lo8 w, hi8 w, lo8 h, hi8 h, flags])
  | .gifTrailer => some (.gifBlock, [0x3B])
  | .gifUnknown b => some (.gifBlock, [b])
  | .pxcPack _ _ _ | .pxcStore _ _ | .drleBlit _ _ _ | .drleDecode _ _ _ _ _ _ _ _ _ _ => none
  | .drleEncode _ _ | .drleEncodeFirst _ | .gifStart _ _ | .gifNext | .lzwImage => none
  | .lzwClear | .lzwEnd | .lzwFirst _ | .lzwLit _ | .lzwDict _ | .lzwKwkwk | .lzwBadCode _ => none
  | .schLoad | .schTick | .schStep | .schPoll _ _ _ | .schSwitch => none

/-- The value of a code token in the registers `x` (R111); `none` for what is no code. -/
def encodeCode (x : CodeCtx) : Instr → Option Nat
  | .lzwClear => some x.clear
  | .lzwEnd => some x.endCode
  | .lzwFirst c | .lzwLit c | .lzwDict c | .lzwBadCode c => some c
  | .lzwKwkwk => some x.nextCode
  | .pxcPack _ _ _ | .pxcStore _ _ | .drleBlit _ _ _ | .drleDecode _ _ _ _ _ _ _ _ _ _ => none
  | .drleEncode _ _ | .drleEncodeFirst _ | .gifStart _ _ | .gifNext | .lzwImage => none
  | .drleEnd | .drleRec _ _ | .gifHeader87a | .gifHeader89a | .gifLsd _ _ _ _ _ | .gifGct _ => none
  | .gifGce _ | .gifExt _ | .gifImage _ _ _ _ _ | .gifTrailer | .gifUnknown _ => none
  | .schLoad | .schTick | .schStep | .schPoll _ _ _ | .schSwitch => none

/-- The low `n` bits of a number, least significant first: the bits of one code in stream order (R110). -/
def bitsOf : Nat → Nat → List Bool
  | 0, _ => []
  | n + 1, v => (v % 2 == 1) :: bitsOf n (v / 2)

/-- The number a bit sequence stands for, least significant bit first (R110). -/
def ofBits : List Bool → Nat
  | [] => 0
  | b :: rest => (if b then 1 else 0) + 2 * ofBits rest

/-- Bytes from bits, eight at a time, the last byte filled with zeros (R110). -/
def packBits : Nat → List Bool → List Byte
  | 0, _ => []
  | _ + 1, [] => []
  | n + 1, b :: bs => BitVec.ofNat 8 (ofBits ((b :: bs).take 8)) :: packBits n ((b :: bs).drop 8)

/-- The data bytes of a code stream given as `code/width` pairs (R110, R115). -/
def encodeCodes (codes : List (Nat × Nat)) : List Byte :=
  let bits := codes.flatMap (fun cw => bitsOf cw.2 cw.1)
  packBits bits.length bits

/-! ## Words as spec/opcode_table.json numbers them -/

/-- The `n` bytes of `w`, first byte from bits 7:0. -/
def wordBytes : Nat → Nat → List Byte
  | 0, _ => []
  | n + 1, w => BitVec.ofNat 8 w :: wordBytes n (w / 256)

/-- The length of the longest fixed part of a token of R106: `21 F9 FF` and 255 bytes. -/
def longestToken : Nat := 258

/-- The table gives no position, only a width, so the model chooses one: 8 bits are a block introducer (R103), 48 a
header, 56 a screen descriptor, and 16 bits a record header unless they are `21 F9` (entry 18). -/
def tablePos (nbits w : Nat) : Option Pos :=
  if nbits = 8 then some .gifBlock
  else if nbits = 16 then (if w = 0xF921 then some .gifBlock else some .drle)
  else if nbits = 48 then some .gifHeader
  else if nbits = 56 then some .gifLsd
  else none

/-- The bytes of a table word, followed by the zeros that stand for the bits above it. -/
def tableBytesOf (nbits w : Nat) : List Byte :=
  wordBytes (nbits / 8) w ++ List.replicate longestToken 0

/-- The instruction the decoder reads from a table word. -/
def decodeTableWord (nbits w : Nat) : Option Instr :=
  match tablePos nbits w with
  | none => none
  | some p =>
    match decodeAt p 0 (tableBytesOf nbits w) with
    | .ok (i, _) => some i
    | .error _ => none

end Sys2Proof
end

