-- ==== Sys2Proof/Machine/State.lean ====
section
/-! DEFINITION. The state of the block (10_state.md), one structure per register group of that file, the ports of
00_scope.md R6 that hold data, the reasons a step can stop, and the state after reset. Plain data only. -/

namespace Sys2Proof.Machine

/-- The format errors of the source (60_exceptions.md R301). -/
inductive FormatError where
  | badMagic
  | sizeMismatch
  | interlaced
  deriving DecidableEq, Repr

/-- The model faults of the spec (R304), with the information R304 says is recorded. -/
inductive ModelFault where
  /-- `ConfigFault(DRLE_PARAM)`, R141. -/
  | drleParam
  /-- `ConfigFault(SCALE_ZERO)`, R254. -/
  | scaleZero
  /-- `ConfigFault(EXTRA_NEGATIVE)`, R254. -/
  | extraNegative
  /-- `BoundsFault(DRLE_GEOMETRY)`, R142. -/
  | drleGeometry
  /-- `BoundsFault(GIF_IMAGE_RECT)`, R186. -/
  | gifImageRect
  /-- `LzwParamFault(mcs)`, R211. -/
  | lzwParam (mcs : Byte)
  /-- `BadCodeFault(c)`, R222 and R225. -/
  | badCode (c : Nat)
  /-- `PaletteFault(p)`, R232. -/
  | palette (p : Nat)
  /-- `EmptyFolderFault(folder_idx)`, R252. -/
  | emptyFolder (folder : Nat)
  deriving DecidableEq, Repr

/-- What the block sends to its environment: the events of R6 and the PRESENT requests. -/
inductive Event where
  /-- `FRAME_DONE(delay_ms)`, R190. -/
  | frameDone (delayMs : Nat)
  /-- `STREAM_END`, R172. -/
  | streamEnd
  /-- `ERROR(code)`, R301. -/
  | error (e : FormatError)
  /-- `FOLDER_SWITCH(folder_idx)`, R276. -/
  | folderSwitch (folder : Nat)
  /-- A PRESENT request, R262. -/
  | present
  deriving DecidableEq, Repr

/-- The outcome of the last direct call, the model's own register (entry 16): PXC has no state (R20), the encoder
is a function (R155), and "DRLE has no status register, so the fault is the call's outcome" (R312). -/
inductive Ret where
  | none
  | done
  | color (c : U16)
  | stream (bytes : List Byte)
  | fault (f : ModelFault)
  deriving DecidableEq, Repr

/-- What the environment and the timer do next (entry 2). -/
inductive Input where
  /-- A call, command or event is offered and, if it is enabled, performed as one action (R69). -/
  | op (i : Instr)
  /-- A call or command is started; its tokens are then taken one by one (entry 1). -/
  | start (i : Instr)
  /-- The main context goes on by itself: the next token of an operation in progress, or SCHED's next one. -/
  | turn
  /-- The wall clock reads `ms` from now on (CLK_MS, R315). -/
  | clock (ms : Nat)
  /-- The levels of BTN_A and BTN_B from now on, `true` = electrical high (R270, R343 (4)). -/
  | buttons (a b : Bool)
  /-- The environment connects another input stream (SRC, R76). -/
  | source (bytes : List Byte)
  /-- The reset event (70_reset_and_hazards.md R340). -/
  | reset
  /-- The reset event in the middle of what is performed here (R340): the operation offered, or with none what the main
  context does next; of the bytes of its pixels, in program order, the first `count` have been dealt with (R73, entry 40). -/
  | cut (op : Option Instr) (count : Nat)
  deriving DecidableEq, Repr

/-- A sparse memory of 20_memory.md R60: the entries written so far, by address. -/
abbrev Mem (α : Type) := List (Nat × α)

/-- One DICT entry (R29). -/
structure DictEntry where
  pfx : Nat
  sfx : Nat
  deriving DecidableEq, Repr

/-- `gif_state`, S20 (R24). -/
inductive GifState where
  | idle
  | ready
  | done
  | error
  | faulted
  deriving DecidableEq, Repr

/-- `pal_sel`, S35 (R26). -/
inductive PalSel where
  | noTable
  | globalTable
  | localTable
  deriving DecidableEq, Repr

/-- `sched_state`, S60 (R32). -/
inductive SchedState where
  | loading
  | timedPlayback
  | folderSwitch
  deriving DecidableEq, Repr

/-- DRLE working registers S02 to S06 (R22) and operands S07 to S11 (R23). -/
structure DrleRegs where
  pos : Nat
  recSkip : Byte
  recWrite : Byte
  recLeft : Nat
  pxHi : Byte
  pxLo : Byte
  w : Nat
  h : Nat
  x : Nat
  y : Nat
  stride : Nat
  scaleX : Nat
  scaleY : Nat
  extra : Nat
  deriving DecidableEq, Repr

/-- GIFD container group S20, S22 to S26 (R24), and the fault GIFD recorded (R172, R304). -/
structure GifRegs where
  state : GifState
  expW : Nat
  expH : Nat
  scrW : U16
  scrH : U16
  scrFlags : Byte
  bgIndex : Byte
  gctLen : Nat
  fault : Option ModelFault
  deriving DecidableEq, Repr

/-- GIFD graphic-control group S27 to S30 (R25). -/
structure GceRegs where
  seen : Bool
  delayCs : U16
  transpOn : Bool
  transpIdx : Byte
  deriving DecidableEq, Repr

/-- GIFD image group S31 to S37 (R26). -/
structure ImgRegs where
  left : U16
  top : U16
  w : U16
  h : U16
  flags : Byte
  lctLen : Nat
  palSel : PalSel
  npix : Nat
  pixN : Nat
  deriving DecidableEq, Repr

/-- GIFD LZW group S38 to S43 (R27). -/
structure LzwRegs where
  mcs : Byte
  clear : Nat
  endCode : Nat
  codeSize : Nat
  nextCode : Nat
  prev : Option Nat
  deriving DecidableEq, Repr

/-- GIFD bit reader S44 to S48 (R28). -/
structure BitRegs where
  buf : Nat
  cnt : Nat
  blkRem : Byte
  termSeen : Bool
  eosSeen : Bool
  deriving DecidableEq, Repr

/-- SCHED registers S60 to S69 (R32), the frame-branch-in-progress bit that R270 and R279 test, the fault SCHED
recorded (R312), and whether the main loop still owes the poll of R270 since its last frame (entry 41). -/
structure SchedRegs where
  state : SchedState
  interval : Option Nat
  frameReady : Bool
  frameIdx : Nat
  frameCount : Nat
  passStart : Nat
  decodedCtr : Nat
  scaleX : Nat
  scaleY : Nat
  extraRows : Nat
  folderIdx : Nat
  frameBusy : Bool
  fault : Option ModelFault
  pollDue : Bool
  deriving DecidableEq, Repr

/-- Timer registers S70, S71 (R33). -/
structure TimerRegs where
  armed : Bool
  period : Nat
  deriving DecidableEq, Repr

/-- Button registers S72, S73 (R34); `true` = pressed. -/
structure BtnRegs where
  lastA : Bool
  lastB : Bool
  lastSwitch : Option Nat
  deriving DecidableEq, Repr

/-- The ports BTN_A and BTN_B (R6, R270): electrical levels, `true` = high = released. -/
structure Levels where
  a : Bool
  b : Bool
  deriving DecidableEq, Repr

/-- The state of the block and of its ports. -/
structure State where
  /-- Configuration registers (R35). -/
  cfg : Cfg
  /-- DIR: the frame files of each folder, in sorted order (R251). -/
  dir : List (List (List Byte))
  /-- CLK_MS: `now_ms` (R315). -/
  nowMs : Nat
  /-- BTN_A and BTN_B (R270). -/
  pins : Levels
  /-- SRC (R61). -/
  src : List Byte
  /-- DST (R62). -/
  dst : Mem Byte
  /-- `dst_len`, S12: the length of DST in bytes (R23, R60). -/
  dstLen : Nat
  /-- EVT and PRESENT, oldest first (R14, entry 17). -/
  out : List Event
  /-- The outcome of the last direct call (entry 16). -/
  ret : Ret
  /-- The model fault of a decode called directly, if one was raised since reset (R304, R312; entry 42). -/
  callFault : Option ModelFault
  /-- What the environment and the timer do next, oldest first (entry 2). -/
  inbox : List Input
  /-- Which input format is being read at `sp`; none between operations (entry 1). -/
  ctl : Option Pos
  /-- The stream cursor, S01 and S21 (R36). -/
  sp : Nat
  drle : DrleRegs
  gif : GifRegs
  gce : GceRegs
  img : ImgRegs
  lzw : LzwRegs
  bits : BitRegs
  /-- DICT (R29). -/
  dict : Mem DictEntry
  /-- STK (R30). -/
  stk : Mem Nat
  /-- `stk_n`, S49 (R30). -/
  stkN : Nat
  /-- PALG (R31). -/
  palG : Mem Rgb
  /-- PALL (R31). -/
  palL : Mem Rgb
  sched : SchedRegs
  timer : TimerRegs
  btn : BtnRegs
  deriving DecidableEq, Repr

/-- The machine stops: an access the spec says never happens (R39, R142) was about to be made. Every one is safe:
the block under the spec's rules never gets there. -/
inductive Fault where
  /-- Raised by StorePixel: a byte address at or beyond `dst_len` (R71, entry 9); after a passed image check only where
GIF.START was given other dimensions than the surface's (entry 44). Safe. -/
  | dstOutOfRange (a : Nat)
  /-- Raised by Expand and First: a DICT entry nothing has written (R39). Safe. -/
  | unwrittenDict (c : Nat)
  /-- Raised by EmitStack: a STK entry nothing has written (R39). Safe. -/
  | unwrittenStack (i : Nat)
  /-- Raised by PaletteLookup: an entry below the table's length that nothing has written (R39). Safe. -/
  | unwrittenPalette (p : Nat)
  /-- Raised by Expand and First: a prefix chain longer than the dictionary (R30, R213). Safe. -/
  | chainTooLong
  /-- Raised by a code token run where the class of R111 does not hold (entry 21). Safe. -/
  | codeClass
  /-- Raised by DRLE.BLIT with `pos >= W*H`, outside its precondition (R149, entry 31). Safe. -/
  | blitPosition (pos : Nat)
  /-- Raised at a pass end with no interval (R265, entry 30). Safe. -/
  | noInterval
  deriving DecidableEq, Repr

/-- The model does not accept the input: the `refuse` rows of 93_implementation_defined.md. Every one is safe. -/
inductive Refusal where
  /-- Raised by exec for an instruction that has no meaning yet; no arm does. Safe. -/
  | notModelled (mnemonic : String)
  /-- Raised when a stream token is offered as a command: tokens come from SRC only (R116). Safe. -/
  | streamToken
  /-- Raised when the wall clock is set back (U17). Safe. -/
  | clockDecreases
  /-- Raised by SCH.POLL when it is enabled and its operands are not what CLK_MS, BTN_A and BTN_B read: the operands are
  those readings (R270, entry 12). Safe. -/
  | pollOperands
  /-- Raised when SRC is replaced while a decoder is running on it (R76). Safe. -/
  | srcWhileRunning
  /-- Raised where a configuration value outside R343 (2) would be a divisor of 0 (U18). Safe. -/
  | bootRequirement
  /-- Raised when DIR has no file for a frame it counted (U18). Safe. -/
  | dirAnswer
  /-- Raised by the encoder on buffers of unequal length or of half pixels (R155, N23). Safe. -/
  | unequalBuffers
  deriving DecidableEq, Repr

/-- DRLE registers at reset (R22); the operands, which the spec gives no value (R23), as in entry 6. -/
def DrleRegs.reset : DrleRegs :=
  { pos := 0, recSkip := 0, recWrite := 0, recLeft := 0, pxHi := 0, pxLo := 0
    w := 1, h := 1, x := 0, y := 0, stride := 1, scaleX := 1, scaleY := 1, extra := 0 }

/-- The container group at reset (R24); `exp_w`, `exp_h` as in entry 6. -/
def GifRegs.reset : GifRegs :=
  { state := .idle, expW := 0, expH := 0, scrW := 0, scrH := 0, scrFlags := 0, bgIndex := 0
    gctLen := 0, fault := none }

/-- The graphic-control group at reset (R25): default timing, no transparency. -/
def GceRegs.reset : GceRegs :=
  { seen := false, delayCs := 0, transpOn := false, transpIdx := 0 }

/-- The image group at reset (R26). -/
def ImgRegs.reset : ImgRegs :=
  { left := 0, top := 0, w := 0, h := 0, flags := 0, lctLen := 0, palSel := .noTable, npix := 0, pixN := 0 }

/-- The LZW group at reset (R27). -/
def LzwRegs.reset : LzwRegs :=
  { mcs := 0, clear := 0, endCode := 0, codeSize := 0, nextCode := 0, prev := none }

/-- The bit reader at reset (R28). -/
def BitRegs.reset : BitRegs :=
  { buf := 0, cnt := 0, blkRem := 0, termSeen := false, eosSeen := false }

/-- SCHED at reset (R32). -/
def SchedRegs.reset : SchedRegs :=
  { state := .loading, interval := none, frameReady := false, frameIdx := 0, frameCount := 0
    passStart := 0, decodedCtr := 0, scaleX := 1, scaleY := 1, extraRows := 0, folderIdx := 0
    frameBusy := false, fault := none, pollDue := false }

/-- The timer at reset (R33); its period, which the spec leaves open, as in entry 6. -/
def TimerRegs.reset : TimerRegs := { armed := false, period := 0 }

/-- The buttons at reset (R34): both released, no switch accepted. -/
def BtnRegs.reset : BtnRegs := { lastA := false, lastB := false, lastSwitch := none }

/-- The button ports with nothing connected: "a button that is not connected must read high (released)" (R343 (4)). -/
def Levels.reset : Levels := { a := true, b := true }

/-- Configuration before the environment has written it (entry 5): the least values R7 admits. -/
def Cfg.atReset : Cfg :=
  { surfW := 1, surfH := 1, frameW := 1, frameH := 1, offX := 0, offY := 0, targetLoopMs := 1
    refreshDiv := 1, sleepMs := 0, folderCount := 1, mode := .drleFolder }

/-- The machine right after reset (R340 to R342), nothing connected to its input ports (entry 7). -/
def State.reset : State :=
  { cfg := Cfg.atReset, dir := [], nowMs := 0, pins := Levels.reset, src := [], dst := [], dstLen := 2, out := []
    ret := .none, callFault := none, inbox := [], ctl := none, sp := 0
    drle := DrleRegs.reset, gif := GifRegs.reset, gce := GceRegs.reset, img := ImgRegs.reset
    lzw := LzwRegs.reset, bits := BitRegs.reset, dict := [], stk := [], stkN := 0, palG := [], palL := []
    sched := SchedRegs.reset, timer := TimerRegs.reset, btn := BtnRegs.reset }

/-- The machine after reset with the environment's boot work done (R343): configuration written, DIR answering,
DST of the surface's size. -/
def State.boot (c : Cfg) (dir : List (List (List Byte))) : State :=
  { State.reset with cfg := c, dir := dir, dstLen := 2 * c.surfW * c.surfH }

end Sys2Proof.Machine
end

