-- ==== Sys2Proof/Machine/Ops.lean ====
section
/-! DEFINITION. The named operations over memories, streams, ports and the state machine's exits: sparse memories
(20_memory.md), StreamRead (R10), StorePixel (R11), sub-block draining (R194), the bit reader (R215, R216), and taking
each kind of exception (R172, R300 to R313) beside the reset event (R340). -/

namespace Sys2Proof.Machine

/-- The result type of a step over this machine. -/
abbrev Out := Host.Outcome State Fault Refusal

/-- Go on from a next state; a fault or a refusal stays. -/
def andThen (o : Out) (k : State → Out) : Out :=
  match o with
  | .next s => k s
  | .fault r => .fault r
  | .refused r => .refused r

/-! ## Sparse memories -/

/-- The entry at `a`, if anything has written it. -/
def memRead {α : Type} : Mem α → Nat → Option α
  | [], _ => none
  | (k, v) :: rest, a => if k = a then some v else memRead rest a

/-- Write one entry, keeping addresses strictly rising. -/
def memWrite {α : Type} : Mem α → Nat → α → Mem α
  | [], a, v => [(a, v)]
  | (k, w) :: rest, a, v =>
    if a < k then (a, v) :: (k, w) :: rest
    else if a = k then (a, v) :: rest
    else (k, w) :: memWrite rest a v

/-- `m` with the entries of `full` at some addresses, where `full` has one. -/
def memMerge {α : Type} (full : Mem α) : List Nat → Mem α → Mem α
  | [], m => m
  | a :: rest, m =>
    match memRead full a with
    | none => memMerge full rest m
    | some v => memMerge full rest (memWrite m a v)

/-- The canonical form: addresses strictly rising. An unlisted address has no value, so no entry equals it. -/
abbrev Mem.wf {α : Type} (m : Mem α) : Prop := m.Pairwise (fun x y => x.1 < y.1)

/-! ## SRC -/

/-- `StreamRead(n)` of R10. -/
def streamRead (n : Nat) (s : State) : Option (List Byte) × State :=
  if n = 0 then (some [], s)
  else if s.sp + n ≤ s.src.length then
    (some ((s.src.drop s.sp).take n), { s with sp := s.sp + n })
  else (none, { s with sp := s.src.length })

/-- `StreamByte()` of R10. -/
def streamByte (s : State) : Option Byte × State :=
  match s.src[s.sp]? with
  | some b => (some b, { s with sp := s.sp + 1 })
  | none => (none, { s with sp := s.src.length })

/-- `StreamRead(2)` of R147, as its two bytes. -/
def streamPair (s : State) : Option (Byte × Byte) × State :=
  match s.src[s.sp]?, s.src[s.sp + 1]? with
  | some a, some b => (some (a, b), { s with sp := s.sp + 2 })
  | _, _ => (none, { s with sp := s.src.length })

/-- The cursor after `DrainSubBlocks` (R194) from cursor `sp`; each turn reads a length byte, so as many turns as
SRC has bytes are enough. -/
def drainFrom (src : List Byte) : Nat → Nat → Nat
  | 0, sp => sp
  | fuel + 1, sp =>
    match src[sp]? with
    | none => src.length
    | some n =>
      if n = 0 then sp + 1
      else if sp + 1 + n.toNat ≤ src.length then drainFrom src fuel (sp + 1 + n.toNat)
      else src.length

/-- `DrainSubBlocks()` (R194). -/
def drainSubBlocks (s : State) : State :=
  { s with sp := drainFrom s.src (s.src.length + 1) s.sp }

/-! ## DST -/

/-- `StorePixel(a, hi, lo)` (R11): two byte writes, high byte first. An address outside DST does not exist
(R60, entry 9). -/
def storePixel (a : Nat) (hi lo : Byte) (s : State) : Except Fault State :=
  if a + 1 < s.dstLen then
    .ok { s with dst := memWrite (memWrite s.dst a hi) (a + 1) lo }
  else .error (.dstOutOfRange a)

/-- The same pixel stored at each address in turn. -/
def storeAll : List Nat → Byte → Byte → State → Except Fault State
  | [], _, _, s => .ok s
  | a :: rest, hi, lo, s =>
    match storePixel a hi lo s with
    | .ok s' => storeAll rest hi lo s'
    | .error r => .error r

/-- `DST:a`, for a reader of the display buffer; no rule of the block uses it (R65). -/
def dstByte (s : State) (a : Nat) : Option Byte := memRead s.dst a

/-! ## Palettes -/

/-- Consecutive palette entries from index `i` (R178, R187). -/
def writePalette : List Rgb → Nat → Mem Rgb → Mem Rgb
  | [], _, m => m
  | c :: rest, i, m => writePalette rest (i + 1) (memWrite m i c)

/-! ## Output ports -/

/-- Append to EVT and PRESENT (R6). -/
def emit (e : Event) (s : State) : State := { s with out := s.out ++ [e] }

/-! ## Taking an exception -/

/-- `raise FormatError(code)` (R172, R301, R312): event ERROR(code), `gif_state <- ERROR`, nothing else. -/
def formatError (e : FormatError) (s : State) : State :=
  emit (.error e) { s with ctl := none, gif := { s.gif with state := .error } }

/-- Outcome STREAM_END (R172): the event, `gif_state <- DONE`. -/
def streamEnd (s : State) : State :=
  emit .streamEnd { s with ctl := none, gif := { s.gif with state := .done } }

/-- A model fault in GIFD (R172, R312): no event, the fault is recorded, `gif_state <- FAULTED`. -/
def gifRaise (f : ModelFault) (s : State) : State :=
  { s with ctl := none, gif := { s.gif with state := .faulted, fault := some f } }

/-- A model fault in SCHED (R304, R312): recorded; `sched_state` keeps its value; the timer is disarmed. -/
def schedRaise (f : ModelFault) (s : State) : State :=
  { s with sched := { s.sched with fault := some f }, timer := { s.timer with armed := false } }

/-- A model fault in a decode called directly (R312): the call's outcome. -/
def callRaise (f : ModelFault) (s : State) : State := { s with ret := .fault f, callFault := some f }

/-- The numbers R301 gives the format errors. -/
def formatErrorCode : FormatError → Nat
  | .badMagic => 1
  | .sizeMismatch => 2
  | .interlaced => 3

/-- The number and sub-code (0 where there is none) R304 gives the model faults. -/
def modelFaultCode : ModelFault → Nat × Nat
  | .drleParam => (16, 1)
  | .scaleZero => (16, 2)
  | .extraNegative => (16, 3)
  | .drleGeometry => (17, 1)
  | .gifImageRect => (17, 2)
  | .lzwParam _ => (18, 0)
  | .badCode _ => (19, 0)
  | .palette _ => (20, 0)
  | .emptyFolder _ => (21, 0)

/-- There is no return from an exception (R313): only this event leaves FAULTED. Reset (R340, R341) gives every
register its reset value; configuration, DIR, SRC, the clock, the button levels, the inbox, DST and what was sent belong to
the environment and stay (entry 25). -/
def resetEvent (s : State) : State :=
  { State.boot s.cfg s.dir with
    nowMs := s.nowMs, pins := s.pins, src := s.src, dst := s.dst, out := s.out, inbox := s.inbox }

/-- The reset event in the middle of an operation that would leave DST as `full` (R340): "the decode simply does not
continue, and DST holds whatever was written", here the bytes at the addresses of `reached`, those before it in program
order (R73, entry 40). -/
def resetDuring (full : Mem Byte) (reached : List Nat) (s : State) : State :=
  resetEvent { s with dst := memMerge full reached s.dst }

/-! ## Results of a code token -/

/-- How a code token of 43_lzw.md ends: done, with a model fault raised in the state it leaves (R312), or at an access
that R39 rules out. -/
inductive Res where
  | ok (s : State)
  | raised (f : ModelFault) (s : State)
  | stuck (r : Fault)

/-- Go on from a done result. -/
def Res.bind (r : Res) (k : State → Res) : Res :=
  match r with
  | .ok s => k s
  | .raised f s => .raised f s
  | .stuck r => .stuck r

/-- The step outcome: a raised model fault is taken as GIFD takes it. -/
def Res.settle (r : Res) : Out :=
  match r with
  | .ok s => .next s
  | .raised f s => .next (gifRaise f s)
  | .stuck r => .fault r

/-- An operation that can only stop at an access the spec rules out. -/
def ofExcept (r : Except Fault State) : Out :=
  match r with
  | .ok s => .next s
  | .error r => .fault r

/-! ## The bit reader -/

/-- `NextDataByte()` (R215). -/
def nextDataByte (s : State) : Option Byte × State :=
  if s.bits.termSeen || s.bits.eosSeen then (none, s)
  else if s.bits.blkRem = 0 then
    match streamByte s with
    | (none, s1) => (none, { s1 with bits := { s1.bits with eosSeen := true } })
    | (some n, s1) =>
      if n = 0 then (none, { s1 with bits := { s1.bits with termSeen := true } })
      else
        match streamByte s1 with
        | (none, s2) => (none, { s2 with bits := { s2.bits with blkRem := n, eosSeen := true } })
        | (some b, s2) => (some b, { s2 with bits := { s2.bits with blkRem := n - 1 } })
  else
    match streamByte s with
    | (none, s1) => (none, { s1 with bits := { s1.bits with eosSeen := true } })
    | (some b, s1) => (some b, { s1 with bits := { s1.bits with blkRem := s1.bits.blkRem - 1 } })

/-- One data byte enters the accumulator above the bits it holds (R216). -/
def shiftIn (b : Byte) (s : State) : State :=
  { s with bits := { s.bits with buf := s.bits.buf ||| (b.toNat <<< s.bits.cnt), cnt := s.bits.cnt + 8 } }

/-- A code's bits leave the accumulator (R216). -/
def shiftOut (width : Nat) (s : State) : State :=
  { s with bits := { s.bits with buf := s.bits.buf >>> width, cnt := s.bits.cnt - width } }

/-- The filling loop of `ReadCode` (R216): true when enough bits are there. Each turn adds eight bits, so
`code_size` turns are enough. -/
def fillBits : Nat → State → Bool × State
  | 0, s => (decide (s.lzw.codeSize ≤ s.bits.cnt), s)
  | fuel + 1, s =>
    if s.bits.cnt < s.lzw.codeSize then
      match nextDataByte s with
      | (none, s1) => (false, s1)
      | (some b, s1) => fillBits fuel (shiftIn b s1)
    else (true, s)

/-- `ReadCode()` (R216). -/
def readCode (s : State) : Option Nat × State :=
  match fillBits s.lzw.codeSize s with
  | (false, s1) => (none, s1)
  | (true, s1) =>
    (some (s1.bits.buf &&& (1 <<< s1.lzw.codeSize - 1)), shiftOut s1.lzw.codeSize s1)

end Sys2Proof.Machine
end

