-- ==== Sys2Proof/Machine/Flags.lean ====
section
/-! DEFINITION. Every one-bit test and flag computation of the rules: the bits of the packed bytes (30_encoding.md R101,
R106, R107), the delay a control extension leaves (R190), transparency (R231), the enabling conditions of the scheduler's
events, the debounce window and the button edges (R270 to R274). The block has no arithmetic flags (R37). -/

namespace Sys2Proof.Machine

/-- Bit 0 of the GCE packed byte: the transparent-colour flag (R106, R181). -/
def transparentFlag (packed : Byte) : Bool := packed.getLsbD 0

/-- Bit 6 of `img_flags`: interlaced (R107, R185). -/
def interlaceFlag (flags : Byte) : Bool := flags.getLsbD 6

/-- The delay an image reports (R190). -/
def delayMs (g : GceRegs) : Nat :=
  if g.seen then 10 * g.delayCs.toNat else Config.defaultDelayMs

/-- A pixel index is the transparent one (R231); the full index is compared. -/
def isTransparent (g : GceRegs) (p : Nat) : Bool := g.transpOn && p == g.transpIdx.toNat

/-- SCHED performs its operation for `st`: it is in that state and not faulted (R250, R312). -/
def schedIn (st : SchedState) (s : State) : Bool :=
  decide (s.sched.state = st) && s.sched.fault.isNone

/-- SCH.POLL is enabled (R270): TIMED_PLAYBACK and no frame branch in progress. -/
def pollEnabled (s : State) : Bool := schedIn .timedPlayback s && !s.sched.frameBusy

/-- The operands of a poll are what CLK_MS, BTN_A and BTN_B read (R270). -/
def readsPorts (now : Nat) (a b : Bool) (s : State) : Bool :=
  decide (now = s.nowMs) && a == s.pins.a && b == s.pins.b

/-- Pressed is electrical low (R270). -/
def pressed (level : Bool) : Bool := !level

/-- The poll falls in the debounce window (R271); before the first accepted switch there is no window. -/
def inWindow (b : BtnRegs) (now : Nat) : Bool :=
  match b.lastSwitch with
  | none => false
  | some t => decide (now < t + Config.debounceMs)

/-- A rising pressed edge (R272). -/
def edge (now last : Bool) : Bool := now && !last

/-- SCH.TICK is enabled (R257). -/
def tickEnabled (s : State) : Bool := s.timer.armed

/-- GIFD is the active decoder: a stream is open (R22, R24). "codec and GIF decoder are never both active" (R317), so no
delta-RLE decode begins then (entry 28). -/
def gifActive (s : State) : Bool := decide (s.gif.state = .ready)

/-- GIFD has ended or faulted: "only `GIF.START` ... or reset leaves that state", and from a fault only reset (R313). -/
def gifStopped (s : State) : Bool :=
  match s.gif.state with
  | .done | .error | .faulted => true
  | .idle | .ready => false

/-- SCH.STEP takes its frame branch (R260): the flag is set, and GIFD is not the active decoder. -/
def frameDue (s : State) : Bool := s.sched.frameReady && !gifActive s

/-- The decoded frame is presented (R262). -/
def presents (refreshDiv decodedCtr : Nat) : Bool := decodedCtr % refreshDiv == 0

end Sys2Proof.Machine
end

