-- ==== Sys2Proof/Machine/Operands.lean ====
section
/-! DEFINITION. Every operand form: PackedColor from 24-bit colour (R91, R130), the DST addresses of a scaled pixel block
(R149, R150) and of an image pixel (R195, R233), the operand checks of DRLE.DECODE (R141, R142), the palette a pixel index
goes through (R188, R232), the class of a code (R111), and floor division (R12). -/

namespace Sys2Proof.Machine

/-- `PXC.PACK` (R130). -/
def pack (r g b : Byte) : U16 :=
  ((r &&& 0xF8).zeroExtend 16 <<< 8) ||| ((g &&& 0xFC).zeroExtend 16 <<< 3) |||
    (b >>> 3).zeroExtend 16

/-- `fdiv(a, b)` of R12, for `b >= 1`: Lean's integer division rounds down for a positive divisor. -/
def fdiv (a : Int) (b : Nat) : Int := a / (b : Int)

/-- The checks of R141, then R142, on the operands of `DRLE.DECODE`. -/
def drleCheck (w h x y stride scaleX scaleY extra dstLen : Nat) : Option ModelFault :=
  if w = 0 ∨ h = 0 ∨ stride = 0 ∨ scaleX = 0 ∨ scaleY = 0 then some .drleParam
  else if stride < x + w * scaleX ∨ dstLen / (2 * stride) < y + h * scaleY + extra then
    some .drleGeometry
  else none

/-- The pixel budget `N` (R140). -/
def DrleRegs.budget (d : DrleRegs) : Nat := d.w * d.h

/-- Rows of the block of source row `y` (R150). -/
def blitRows (d : DrleRegs) (y : Nat) : Nat :=
  d.scaleY + (if y + 1 = d.h then d.extra else 0)

/-- The pixel addresses `DRLE.BLIT(pos, ..)` writes, in order (R149): top to bottom, left to right. -/
def blitAddrs (d : DrleRegs) (pos : Nat) : List Nat :=
  let dx := d.x + pos % d.w * d.scaleX
  let dy := d.y + pos / d.w * d.scaleY
  (List.range (blitRows d (pos / d.w))).flatMap fun ry =>
    (List.range d.scaleX).map fun rx => 2 * ((dy + ry) * d.stride + (dx + rx))

/-- The byte address of image pixel number `k` (R195, R233). -/
def imgAddr (g : GifRegs) (m : ImgRegs) (k : Nat) : Nat :=
  2 * ((m.top.toNat + k / m.w.toNat) * g.scrW.toNat + (m.left.toNat + k % m.w.toNat))

/-- The pixel addresses of a scaled frame, in the order a decode stores them: source pixel by source pixel (R146 to R149). -/
def framePixels (d : DrleRegs) : List Nat := (List.range d.budget).flatMap (blitAddrs d)

/-- The pixel addresses of an image, in the order they are drawn (R233). -/
def imagePixels (g : GifRegs) (m : ImgRegs) : List Nat := (List.range m.npix).map (imgAddr g m)

/-- The bytes of pixels, each pixel's high byte before its low byte (R63, R73). -/
def storeOrder (pixels : List Nat) : List Nat := pixels.flatMap fun a => [a, a + 1]

/-- Which palette an image uses (R188). -/
def selectPalette (lctLen gctLen : Nat) : PalSel :=
  if 0 < lctLen then .localTable else if 0 < gctLen then .globalTable else .noTable

/-- The selected palette and its length (R232). -/
def selectedPalette (s : State) : Mem Rgb × Nat :=
  match s.img.palSel with
  | .localTable => (s.palL, s.img.lctLen)
  | .globalTable => (s.palG, s.gif.gctLen)
  | .noTable => ([], 0)

/-- The registers that decide the class of a code (R111). -/
def codeCtx (s : State) : CodeCtx :=
  { clear := s.lzw.clear, endCode := s.lzw.endCode, nextCode := s.lzw.nextCode, prev := s.lzw.prev }

/-- DIR's answer for a folder (R251, R252): its frame files; a folder DIR does not list has none (entry 10). -/
def dirFrames (s : State) (folder : Nat) : List (List Byte) := s.dir.getD folder []

end Sys2Proof.Machine
end

