-- ==== Sys2Proof/Machine/Fetch.lean ====
section
/-! DEFINITION. Fetching the next token of the stream being read: the bytes at `sp` through the decoder (R36, R100,
R144), or one code through the bit reader (R216, R217). Fetching moves the cursor past the token's fixed part. Where there
is no token (EOS, a bad magic, the end of an image) the fetch itself ends the operation as the rule of that place says. -/

namespace Sys2Proof.Machine

/-- A token and the state after its bytes are read, or the state in which the operation has ended without one. -/
inductive Fetched where
  | token (i : Instr) (s : State)
  | ended (s : State)

/-- `stop(cause)` of a DRLE decode (R13, R140): the operation is done and the cause is not kept (D15). A direct call
returns; a frame branch goes on in SCHED. -/
def drleStop (s : State) : State :=
  { s with ctl := none, ret := if s.sched.frameBusy then s.ret else .done }

/-- `Drain()` (R234). -/
def drainImage (s : State) : State :=
  if s.bits.termSeen || s.bits.eosSeen then s
  else
    match streamRead s.bits.blkRem.toNat s with
    | (none, s1) => s1
    | (some _, s1) => drainSubBlocks s1

/-- The end of an image's decoding (R219, R220, R235): drain, then leave the code stream. -/
def endImage (s : State) : State := { drainImage s with ctl := none }

/-- What `EOS` means at a place of the grammar: R144 for a record, R173 for the magic, R175 elsewhere. -/
def endOfStream (p : Pos) (s : State) : State :=
  match p with
  | .drle => drleStop s
  | .gifHeader => formatError .badMagic s
  | .gifLsd => streamEnd s
  | .gifGct => streamEnd s
  | .gifBlock => streamEnd s
  | .lzwCode => endImage s

/-- Fetch a token made of bytes. -/
def fetchBytes (p : Pos) (s : State) : Fetched :=
  match decodeAt p s.gif.scrFlags (s.src.drop s.sp) with
  | .ok (i, n) => .token i { s with sp := s.sp + n }
  | .error .truncated => .ended (endOfStream p { s with sp := s.src.length })
  | .error .badMagic => .ended (formatError .badMagic { s with sp := s.sp + 6 })
  | .error .notBytes => .ended s

/-- Fetch a code (R217): none once the pixel budget is reached (R235) or the data are exhausted (R220). -/
def fetchCode (s : State) : Fetched :=
  if s.img.pixN < s.img.npix then
    match readCode s with
    | (none, s1) => .ended (endImage s1)
    | (some c, s1) => .token (decodeCode (codeCtx s1) c) s1
  else .ended (endImage s)

/-- Fetch at the position the block is reading. -/
def fetchAt (p : Pos) (s : State) : Fetched :=
  match p with
  | .drle => fetchBytes .drle s
  | .gifHeader => fetchBytes .gifHeader s
  | .gifLsd => fetchBytes .gifLsd s
  | .gifGct => fetchBytes .gifGct s
  | .gifBlock => fetchBytes .gifBlock s
  | .lzwCode => fetchCode s

end Sys2Proof.Machine
end

