-- ==== Sys2Proof/Machine/Pxc.lean ====
section
/-! DEFINITION. The pixel codec (40_pixel_codec.md). -/

namespace Sys2Proof.Machine

/-- PXC.PACK (R130): a pure function; its result is what the call returns. -/
def execPxcPack (r g b : Byte) (s : State) : Out := .next { s with ret := .color (pack r g b) }

/-- `PXC.STORE(a, c)` (R131) as the pixel units call it. -/
def storeColor (a : Nat) (c : U16) (s : State) : Except Fault State := storePixel a (hi8 c) (lo8 c) s

/-- PXC.STORE (R131). -/
def execPxcStore (a : Nat) (c : U16) (s : State) : Out := ofExcept (storeColor a c s)

end Sys2Proof.Machine
end

