-- ==== Sys2Proof/Machine/Drle.lean ====
section
/-! DEFINITION. The delta-RLE decoder (41_delta_rle.md R140 to R151). -/

namespace Sys2Proof.Machine

/-- `DRLE.BLIT(pos, hi, lo)` (R149, R150) with the operands held in the registers. -/
def blit (pos : Nat) (hi lo : Byte) (s : State) : Except Fault State :=
  if pos < s.drle.budget then storeAll (blitAddrs s.drle pos) hi lo s
  else .error (.blitPosition pos)

/-- DRLE.BLIT. -/
def execDrleBlit (pos : Nat) (hi lo : Byte) (s : State) : Out := ofExcept (blit pos hi lo s)

/-- The payload of a record (R147, R148), `rec_left` pixels still to come. -/
def drlePayload : Nat → State → Out
  | 0, s => .next { s with drle := { s.drle with recLeft := 0 } }
  | left + 1, s =>
    match streamPair s with
    | (none, s1) => .next (drleStop { s1 with drle := { s1.drle with recLeft := left + 1 } })
    | (some (hi, lo), s1) =>
      match blit s1.drle.pos hi lo { s1 with drle := { s1.drle with pxHi := hi, pxLo := lo } } with
      | .error r => .fault r
      | .ok s2 =>
        let s3 := { s2 with drle := { s2.drle with pos := s2.drle.pos + 1, recLeft := left } }
        if s3.drle.budget ≤ s3.drle.pos then .next (drleStop s3) else drlePayload left s3

/-- A record whose header has been read (R144 to R148). -/
def drleRecord (skip write : Byte) (s : State) : Out :=
  let s1 := { s with drle := { s.drle with recSkip := skip, recWrite := write } }
  if skip = 0 ∧ write = 0 then .next (drleStop s1)
  else
    let s2 := { s1 with drle := { s1.drle with pos := s1.drle.pos + skip.toNat } }
    if s2.drle.budget ≤ s2.drle.pos then .next (drleStop s2)
    else drlePayload write.toNat { s2 with drle := { s2.drle with recLeft := write.toNat } }

/-- DRLE.END (R145): its header is `00 00`. -/
def execDrleEnd (s : State) : Out := drleRecord 0 0 s

/-- DRLE.REC (R144, R146 to R148). -/
def execDrleRec (skip write : Byte) (s : State) : Out := drleRecord skip write s

/-- The tokens of a delta-RLE stream. -/
def drleToken (i : Instr) (s : State) : Out :=
  match i with
  | .drleEnd => execDrleEnd s
  | .drleRec skip write => execDrleRec skip write s
  | _ => .refused .streamToken

/-- The record loop (R144 to R147): token after token until the decode stops. A token takes at least two bytes, so as
many turns as SRC has bytes, and one for its end, are enough. -/
def drleRun : Nat → State → Out
  | 0, s => .next s
  | fuel + 1, s =>
    if s.ctl = some .drle then
      match fetchAt .drle s with
      | .ended s1 => .next s1
      | .token i s1 => andThen (drleToken i s1) (drleRun fuel)
    else .next s

/-- Turns enough for any stream of SRC's length. -/
def drleFuel (s : State) : Nat := s.src.length + 1

/-- The start of a decode whose checks have passed (R143), its operands in the registers. -/
def drleSetup (file : List Byte) (w h x y stride scaleX scaleY extra dstLen : Nat) (s : State) : State :=
  { s with
    src := file, sp := 0, dstLen := dstLen, ctl := some .drle
    drle := { s.drle with
      pos := 0, w := w, h := h, x := x, y := y, stride := stride
      scaleX := scaleX, scaleY := scaleY, extra := extra } }

/-- DRLE.DECODE started: the checks (R141, R142), then R143; no decode begins while GIFD is the active decoder (R317,
entry 28). -/
def drleStart (file : List Byte) (w h x y stride scaleX scaleY extra dstLen : Nat) (s : State) : State :=
  match drleCheck w h x y stride scaleX scaleY extra dstLen with
  | some f => callRaise f s
  | none => if gifActive s then s else drleSetup file w h x y stride scaleX scaleY extra dstLen s

/-- DRLE.DECODE (R140): the checks, then the whole decode, one uninterrupted action (R69). -/
def execDrleDecode (file : List Byte) (w h x y stride scaleX scaleY extra dstLen : Nat) (s : State) : Out :=
  match drleCheck w h x y stride scaleX scaleY extra dstLen with
  | some f => .next (callRaise f s)
  | none =>
    if gifActive s then .next s
    else
      let s1 := drleSetup file w h x y stride scaleX scaleY extra dstLen s
      drleRun (drleFuel s1) s1

end Sys2Proof.Machine
end

