-- ==== Sys2Proof/Machine/Encode.lean ====
section
/-! DEFINITION. The reference delta-RLE encoder (41_delta_rle.md R155, R156), "not device-resident": a function whose
result is what the call returns. -/

namespace Sys2Proof.Machine

/-- One pixel to encode: whether it is the same as in the previous frame, and its two bytes. -/
structure EncPixel where
  same : Bool
  hi : Byte
  lo : Byte
  deriving DecidableEq, Repr

/-- The pixels of a pair of buffers (R155): identical iff both bytes are equal. -/
def encPixels : List Byte → List Byte → List EncPixel
  | p0 :: p1 :: ps, c0 :: c1 :: cs => ⟨p0 == c0 && p1 == c1, c0, c1⟩ :: encPixels ps cs
  | _, _ => []

/-- The pixels of a first frame (R156): every one counts as changed. -/
def firstPixels : List Byte → List EncPixel
  | c0 :: c1 :: cs => ⟨false, c0, c1⟩ :: firstPixels cs
  | _ => []

/-- The length, at most `cap`, of the run at the head with `same = want` (R155: both counts are capped at 255). -/
def runLength (want : Bool) : Nat → List EncPixel → Nat
  | 0, _ => 0
  | _ + 1, [] => 0
  | cap + 1, p :: ps => if p.same = want then runLength want cap ps + 1 else 0

/-- The raw bytes of some pixels. -/
def pixelBytes : List EncPixel → List Byte
  | [] => []
  | p :: ps => p.hi :: p.lo :: pixelBytes ps

/-- The loop of R155: each turn consumes at least one pixel, so as many turns as there are pixels are enough. -/
def encodeLoop : Nat → List EncPixel → List Byte
  | 0, _ => []
  | _ + 1, [] => []
  | fuel + 1, ps =>
    let skip := runLength true 255 ps
    let rest := ps.drop skip
    let write := runLength false 255 rest
    if skip = 0 ∧ write = 0 then []
    else
      [BitVec.ofNat 8 skip, BitVec.ofNat 8 write] ++ pixelBytes (rest.take write) ++
        encodeLoop fuel (rest.drop write)

/-- `DRLE.ENCODE(prev, cur)` (R155). -/
def drleEncode (prev cur : List Byte) : List Byte :=
  let ps := encPixels prev cur
  encodeLoop ps.length ps

/-- `DRLE.ENCODE_FIRST(cur)` (R156). -/
def drleEncodeFirst (cur : List Byte) : List Byte :=
  let ps := firstPixels cur
  encodeLoop ps.length ps

/-- DRLE.ENCODE; buffers of unequal length, or of half a pixel, are outside its domain (R155, N23). -/
def execDrleEncode (prev cur : List Byte) (s : State) : Out :=
  if prev.length = cur.length ∧ cur.length % 2 = 0 then
    .next { s with ret := .stream (drleEncode prev cur) }
  else .refused .unequalBuffers

/-- DRLE.ENCODE_FIRST. -/
def execDrleEncodeFirst (cur : List Byte) (s : State) : Out :=
  if cur.length % 2 = 0 then .next { s with ret := .stream (drleEncodeFirst cur) }
  else .refused .unequalBuffers

end Sys2Proof.Machine
end

