-- ==== Sys2Proof/Machine/Lzw.lean ====
section
/-! DEFINITION. The LZW decompressor (43_lzw.md): pixel output, expansion, dictionary growth, the code tokens, and the
loop of LZW.IMAGE. -/

namespace Sys2Proof.Machine

/-! ## Pixel output -/

/-- `PaletteLookup(p)` (R232), then the store of R233. -/
def drawPixel (p : Nat) (s : State) : Res :=
  if (selectedPalette s).2 ≤ p then .raised (.palette p) s
  else
    match memRead (selectedPalette s).1 p with
    | none => .stuck (.unwrittenPalette p)
    | some c =>
      match storeColor (imgAddr s.gif s.img s.img.pixN) (pack c.r c.g c.b) s with
      | .ok s1 => .ok s1
      | .error r => .stuck r

/-- The pixel cursor moves on (R231). -/
def nextPixel (s : State) : State := { s with img := { s.img with pixN := s.img.pixN + 1 } }

/-- `EmitPixel(p)` (R231): a transparent pixel is skipped, not drawn. -/
def emitPixel (p : Nat) (s : State) : Res :=
  if isTransparent s.gce p then .ok (nextPixel s)
  else (drawPixel p s).bind (fun s1 => .ok (nextPixel s1))

/-- `EmitStack()` (R230), the depth given: pop, and draw while the budget lasts (R235). -/
def emitStack : Nat → State → Res
  | 0, s => .ok { s with stkN := 0 }
  | n + 1, s =>
    if s.img.pixN < s.img.npix then
      match memRead s.stk n with
      | none => .stuck (.unwrittenStack n)
      | some p => (emitPixel p { s with stkN := n }).bind (emitStack n)
    else emitStack n { s with stkN := n }

/-! ## Expansion -/

/-- Push one index on STK (R228); STK has as many entries as the dictionary (R30). -/
def pushStk (v : Nat) (s : State) : Res :=
  if s.stkN < Config.dictSize then
    .ok { s with stk := memWrite s.stk s.stkN v, stkN := s.stkN + 1 }
  else .stuck .chainTooLong

/-- `ExpandOnto(c)` (R228). A chain is at most as long as the dictionary (R213). -/
def expandOnto : Nat → Nat → State → Res
  | 0, _, _ => .stuck .chainTooLong
  | fuel + 1, c, s =>
    if c < s.lzw.clear then pushStk c s
    else
      match memRead s.dict c with
      | none => .stuck (.unwrittenDict c)
      | some e => (pushStk e.sfx s).bind (expandOnto fuel e.pfx)

/-- `Expand(c)` (R228). -/
def expand (c : Nat) (s : State) : Res := expandOnto (Config.dictSize + 1) c { s with stkN := 0 }

/-- The literal at the head of a code's prefix chain (R229). -/
def chainHead : Nat → Nat → State → Except Fault Nat
  | 0, _, _ => .error .chainTooLong
  | fuel + 1, c, s =>
    if c < s.lzw.clear then .ok c
    else
      match memRead s.dict c with
      | none => .error (.unwrittenDict c)
      | some e => chainHead fuel e.pfx s

/-- `First(c)` (R229). -/
def firstIndex (c : Nat) (s : State) : Except Fault Nat := chainHead (Config.dictSize + 1) c s

/-- `AddEntry(p, f)` (R226, R227). -/
def addEntry (p f : Nat) (s : State) : State :=
  if s.lzw.nextCode < Config.dictSize then
    { s with
      dict := memWrite s.dict s.lzw.nextCode { pfx := p, sfx := f }
      lzw := { s.lzw with
        nextCode := s.lzw.nextCode + 1
        codeSize :=
          if s.lzw.nextCode + 1 = 1 <<< s.lzw.codeSize ∧ s.lzw.codeSize < Config.maxCodeBits then
            s.lzw.codeSize + 1
          else s.lzw.codeSize } }
  else s

/-- `prev <- c` (R236). -/
def setPrev (c : Nat) (s : State) : State := { s with lzw := { s.lzw with prev := some c } }

/-- The end of a turn of R217: `AddEntry(prev, f)`, `EmitStack()`, `prev <- c`. -/
def finishCode (p f c : Nat) (s : State) : Res :=
  let s1 := addEntry p f s
  (emitStack s1.stkN s1).bind (fun s2 => .ok (setPrev c s2))

/-! ## The code tokens -/

/-- A code already defined (R223). -/
def knownCode (c : Nat) (s : State) : Res :=
  match s.lzw.prev with
  | none => .stuck .codeClass
  | some p =>
    match firstIndex c s with
    | .error r => .stuck r
    | .ok f => (expand c s).bind (finishCode p f c)

/-- LZW.CLEAR (R218). -/
def codeClear (s : State) : Res :=
  .ok { s with lzw := { s.lzw with
    codeSize := s.lzw.mcs.toNat + 1, nextCode := s.lzw.clear + 2, prev := none } }

/-- LZW.END (R219), with the drain step that follows it. -/
def codeEnd (s : State) : Res := .ok (endImage s)

/-- LZW.FIRST (R221). -/
def codeFirst (c : Nat) (s : State) : Res :=
  if decodeCode (codeCtx s) c = .lzwFirst c then (emitPixel c s).bind (fun s1 => .ok (setPrev c s1))
  else .stuck .codeClass

/-- LZW.LIT (R223). -/
def codeLit (c : Nat) (s : State) : Res :=
  if decodeCode (codeCtx s) c = .lzwLit c then knownCode c s else .stuck .codeClass

/-- LZW.DICT (R223). -/
def codeDict (c : Nat) (s : State) : Res :=
  if decodeCode (codeCtx s) c = .lzwDict c then knownCode c s else .stuck .codeClass

/-- LZW.KWKWK (R224): the first index goes to the bottom of the stack, the previous expansion on top of it. -/
def codeKwkwk (s : State) : Res :=
  match s.lzw.prev with
  | none => .stuck .codeClass
  | some p =>
    if decodeCode (codeCtx s) s.lzw.nextCode = .lzwKwkwk then
      match firstIndex p s with
      | .error r => .stuck r
      | .ok f =>
        ((pushStk f { s with stkN := 0 }).bind (expandOnto (Config.dictSize + 1) p)).bind
          (finishCode p f s.lzw.nextCode)
    else .stuck .codeClass

/-- LZW.BADCODE (R222, R225). -/
def codeBad (c : Nat) (s : State) : Res :=
  if decodeCode (codeCtx s) c = .lzwBadCode c then .raised (.badCode c) s else .stuck .codeClass

def execLzwClear (s : State) : Out := (codeClear s).settle
def execLzwEnd (s : State) : Out := (codeEnd s).settle
def execLzwFirst (c : Nat) (s : State) : Out := (codeFirst c s).settle
def execLzwLit (c : Nat) (s : State) : Out := (codeLit c s).settle
def execLzwDict (c : Nat) (s : State) : Out := (codeDict c s).settle
def execLzwKwkwk (s : State) : Out := (codeKwkwk s).settle
def execLzwBadCode (c : Nat) (s : State) : Out := (codeBad c s).settle

/-! ## LZW.IMAGE -/

/-- The tokens of a code stream. -/
def lzwToken (i : Instr) (s : State) : Res :=
  match i with
  | .lzwClear => codeClear s
  | .lzwEnd => codeEnd s
  | .lzwFirst c => codeFirst c s
  | .lzwLit c => codeLit c s
  | .lzwDict c => codeDict c s
  | .lzwKwkwk => codeKwkwk s
  | .lzwBadCode c => codeBad c s
  | _ => .stuck .codeClass

/-- The loop of R217: code after code until the image ends. -/
def lzwRun : Nat → State → Res
  | 0, s => .ok s
  | fuel + 1, s =>
    if s.ctl = some .lzwCode then
      match fetchAt .lzwCode s with
      | .ended s1 => .ok s1
      | .token i s1 => (lzwToken i s1).bind (lzwRun fuel)
    else .ok s

/-- Turns enough for any code stream in SRC: a code has at least one bit. -/
def lzwFuel (s : State) : Nat := s.bits.cnt + 8 * s.src.length + 1

/-- The set-up of R212. -/
def lzwSetup (s : State) : State :=
  { s with
    ctl := some .lzwCode, stkN := 0
    lzw := { s.lzw with
      clear := 1 <<< s.lzw.mcs.toNat, endCode := 1 <<< s.lzw.mcs.toNat + 1
      codeSize := s.lzw.mcs.toNat + 1, nextCode := 1 <<< s.lzw.mcs.toNat + 2, prev := none }
    bits := { buf := 0, cnt := 0, blkRem := 0, termSeen := false, eosSeen := false } }

/-- R211: the minimum code sizes that are decoded. -/
def mcsAdmitted (mcs : Byte) : Bool := decide (2 ≤ mcs.toNat ∧ mcs.toNat ≤ 11)

/-- `LZW.IMAGE` (R210 to R217). R210 lists `pix_n = 0` among its operands and says nothing of a call that finds another
value there: the image goes on from the `pix_n` found (DESIGN CHOICE, entry 43). -/
def lzwImage (s : State) : Res :=
  if mcsAdmitted s.lzw.mcs then lzwRun (lzwFuel (lzwSetup s)) (lzwSetup s)
  else .raised (.lzwParam s.lzw.mcs) s

/-- LZW.IMAGE started, its codes to be taken one by one; refused, with nothing changed, once GIFD has stopped (R313). -/
def lzwStart (s : State) : State :=
  if gifStopped s then s
  else if mcsAdmitted s.lzw.mcs then lzwSetup s
  else gifRaise (.lzwParam s.lzw.mcs) s

/-- LZW.IMAGE as an operation of its own; refused, with nothing changed, once GIFD has stopped (R313). -/
def execLzwImage (s : State) : Out := if gifStopped s then .next s else (lzwImage s).settle

end Sys2Proof.Machine
end

