-- ==== Sys2Proof/Machine/Gif.lean ====
section
/-! DEFINITION. The GIF container parser (42_gif_container.md). -/

namespace Sys2Proof.Machine

/-- GIF.HEADER (R173, R174): the version is not kept. The screen descriptor is next (R171). -/
def headerDone (s : State) : State := { s with ctl := some .gifLsd }

/-- GIF.HEADER, variant GIF87a. -/
def execGifHeader87a (s : State) : Out := .next (headerDone s)

/-- GIF.HEADER, variant GIF89a. -/
def execGifHeader89a (s : State) : Out := .next (headerDone s)

/-- GIF.LSD (R176); the aspect byte is discarded. -/
def execGifLsd (w h : U16) (flags bg _aspect : Byte) (s : State) : Out :=
  let s1 := { s with gif := { s.gif with scrW := w, scrH := h, scrFlags := flags, bgIndex := bg } }
  if w.toNat ≠ s.gif.expW ∨ h.toNat ≠ s.gif.expH then .next (formatError .sizeMismatch s1)
  else .next { s1 with ctl := some .gifGct }

/-- GIF.GCT (R178), the last part of GIF.START: with it the stream is ready (R171). -/
def execGifGct (table : List Rgb) (s : State) : Out :=
  .next { s with
    palG := writePalette table 0 s.palG, ctl := none
    gif := { s.gif with gctLen := table.length, state := .ready } }

/-- The fields of a control extension of the standard length (R106, R181). -/
def gceFields (body : List Byte) : Option GceRegs :=
  match body with
  | [packed, d0, d1, idx] =>
    some { seen := true, delayCs := le16 d0 d1, transpOn := transparentFlag packed, transpIdx := idx }
  | _ => none

/-- GIF.GCE (R181, R182): a first sub-block of length 0 ends the extension; one of another length than 4 is
discarded. -/
def execGifGce (body : List Byte) (s : State) : Out :=
  match body with
  | [] => .next s
  | _ :: _ => .next (drainSubBlocks { s with gce := (gceFields body).getD s.gce })

/-- GIF.EXT (R184). -/
def execGifExt (_label : Byte) (s : State) : Out := .next (drainSubBlocks s)

/-- GIF.TRAILER (R192). -/
def execGifTrailer (s : State) : Out := .next (streamEnd s)

/-- GIF.UNKNOWN (R193). -/
def execGifUnknown (_intro : Byte) (s : State) : Out := .next (streamEnd s)

/-- The local colour table (R187) and the palette selection (R188); `none` at `EOS`. -/
def localTable (s : State) : Option State × State :=
  let n := tableSize s.img.flags
  match streamRead (3 * n) s with
  | (none, s1) => (none, s1)
  | (some bytes, s1) =>
    let table := (readTriples n bytes).getD []
    (some { s1 with
      palL := writePalette table 0 s1.palL
      img := { s1.img with lctLen := n, palSel := selectPalette n s1.gif.gctLen } }, s1)

/-- Loading the operands of LZW.IMAGE (R189). -/
def imageData (mcs : Byte) (s : State) : State :=
  { s with
    lzw := { s.lzw with mcs := mcs }
    img := { s.img with npix := s.img.w.toNat * s.img.h.toNat, pixN := 0 } }

/-- The end of an image (R190, R191, R172): FRAME_DONE with the delay, then the control extension is forgotten. -/
def imageDone (s : State) : State :=
  emit (.frameDone (delayMs s.gce))
    { s with
      ctl := none, gif := { s.gif with state := .ready }
      gce := { s.gce with seen := false, transpOn := false } }

/-- The part of GIF.IMAGE that follows the descriptor's checks (R187 to R191). -/
def imageBody (s : State) : Out :=
  match localTable s with
  | (none, s1) => .next (streamEnd s1)
  | (some s2, _) =>
    match streamByte s2 with
    | (none, s3) => .next (streamEnd s3)
    | (some mcs, s3) => ((lzwImage (imageData mcs s3)).bind (fun s4 => .ok (imageDone s4))).settle

/-- The registers of the descriptor (R185). -/
def setDescriptor (left top w h : U16) (flags : Byte) (s : State) : State :=
  { s with img := { s.img with left := left, top := top, w := w, h := h, flags := flags } }

/-- GIF.IMAGE (R185 to R191), the checks in the order of R310. -/
def execGifImage (left top w h : U16) (flags : Byte) (s : State) : Out :=
  let s1 := setDescriptor left top w h flags s
  if interlaceFlag flags then .next (formatError .interlaced s1)
  else if s.gif.scrW.toNat < left.toNat + w.toNat ∨ s.gif.scrH.toNat < top.toNat + h.toNat then
    .next (gifRaise .gifImageRect s1)
  else imageBody s1

/-- The tokens of a GIF stream. -/
def gifToken (i : Instr) (s : State) : Out :=
  match i with
  | .gifHeader87a => execGifHeader87a s
  | .gifHeader89a => execGifHeader89a s
  | .gifLsd w h flags bg aspect => execGifLsd w h flags bg aspect s
  | .gifGct table => execGifGct table s
  | .gifGce body => execGifGce body s
  | .gifExt label => execGifExt label s
  | .gifImage left top w h flags => execGifImage left top w h flags s
  | .gifTrailer => execGifTrailer s
  | .gifUnknown intro => execGifUnknown intro s
  | _ => .refused .streamToken

/-- The positions of a GIF stream (R100). -/
def gifPos : Option Pos → Option Pos
  | some .gifHeader => some .gifHeader
  | some .gifLsd => some .gifLsd
  | some .gifGct => some .gifGct
  | some .gifBlock => some .gifBlock
  | some .drle => none
  | some .lzwCode => none
  | none => none

/-- Token after token of a GIF stream until an outcome of R172: the header parts (R171) or the block loop (R179). -/
def gifRun : Nat → State → Out
  | 0, s => .next s
  | fuel + 1, s =>
    match gifPos s.ctl with
    | none => .next s
    | some p =>
      match fetchAt p s with
      | .ended s1 => .next s1
      | .token i s1 => andThen (gifToken i s1) (gifRun fuel)

/-- Turns enough: every block takes a byte, the header parts are three, one for the end. -/
def gifFuel (s : State) : Nat := s.src.length + 4

/-- The start of GIF.START (R171): the cursor and every register of R24 to R28 at its reset value, the operands of
R170, whatever they are (entry 44). -/
def gifSetup (expW expH : Nat) (s : State) : State :=
  { s with
    sp := 0, ctl := some .gifHeader, dstLen := 2 * s.cfg.surfW * s.cfg.surfH
    gif := { GifRegs.reset with expW := expW, expH := expH }
    gce := GceRegs.reset, img := ImgRegs.reset, lzw := LzwRegs.reset, bits := BitRegs.reset }

/-- GIF.START started; refused, with nothing changed, in FAULTED (R171). -/
def gifStartStart (expW expH : Nat) (s : State) : State :=
  if s.gif.state = .faulted then s else gifSetup expW expH s

/-- GIF.START (R171, R172). R170 and R343 (5) have `exp_w = SURF_W` and `exp_h = SURF_H`, and no rule says what happens
otherwise: the model accepts any values (DESIGN CHOICE, entry 44). A stream then passes on the screen it declares, DST is
addressed with stride `scr_w`, and its length stays `2 * SURF_W * SURF_H`; where the screen is larger than that, an image that
passes R186 can still end in the stop `dstOutOfRange`. -/
def execGifStart (expW expH : Nat) (s : State) : Out :=
  if s.gif.state = .faulted then .next s
  else gifRun (gifFuel (gifSetup expW expH s)) (gifSetup expW expH s)

/-- GIF.NEXT started; refused, with nothing changed, unless READY (R172). -/
def gifNextStart (s : State) : State :=
  if s.gif.state = .ready then { s with ctl := some .gifBlock } else s

/-- GIF.NEXT (R172, R179). -/
def execGifNext (s : State) : Out :=
  if s.gif.state = .ready then gifRun (gifFuel s) { s with ctl := some .gifBlock } else .next s

end Sys2Proof.Machine
end

