-- ==== Sys2Proof/Machine/Sched.lean ====
section
/-! DEFINITION. The playback scheduler (44_scheduler.md). An event that is not enabled does not occur: nothing changes
(entry 4). -/

namespace Sys2Proof.Machine

/-- Entering LOADING (R253). -/
def enterLoading (s : State) : State :=
  { s with
    sched := { s.sched with state := .loading, frameReady := false }
    timer := { s.timer with armed := false } }

/-- The interval SCH.LOAD starts a pass with (R255). -/
def startInterval (s : State) (frames : Nat) : Nat :=
  match s.sched.interval with
  | none => max 1 (s.cfg.targetLoopMs / frames)
  | some v => v

/-- SCH.LOAD part 3 (R255, R256). -/
def loadPacing (s : State) : State :=
  let v := startInterval s s.sched.frameCount
  { s with
    sched := { s.sched with
      interval := some v, frameIdx := 0, passStart := s.nowMs, state := .timedPlayback }
    timer := { armed := true, period := v } }

/-- SCH.LOAD part 2 (R254), then part 3. -/
def loadGeometry (s : State) : Out :=
  if s.cfg.frameW = 0 ∨ s.cfg.frameH = 0 then .refused .bootRequirement
  else
    let sx := s.cfg.surfW / s.cfg.frameW
    let sy := s.cfg.surfH / s.cfg.frameH
    let s1 := { s with sched := { s.sched with scaleX := sx, scaleY := sy } }
    if sx = 0 ∨ sy = 0 then .next (schedRaise .scaleZero s1)
    else if s.cfg.surfH < s.cfg.offY + s.cfg.frameH * sy then .next (schedRaise .extraNegative s1)
    else
      .next (loadPacing { s1 with
        sched := { s1.sched with extraRows := s.cfg.surfH - s.cfg.offY - s.cfg.frameH * sy } })

/-- SCH.LOAD (R252, R254, R255), the checks in the order of R310. -/
def execSchLoad (s : State) : Out :=
  if schedIn .loading s then
    let n := (dirFrames s s.sched.folderIdx).length
    let s1 := { s with sched := { s.sched with frameCount := n } }
    if n = 0 then .next (schedRaise (.emptyFolder s.sched.folderIdx) s1) else loadGeometry s1
  else .next s

/-- SCH.TICK (R257, R258): the whole effect is the flag. -/
def execSchTick (s : State) : Out :=
  if tickEnabled s then .next { s with sched := { s.sched with frameReady := true } } else .next s

/-- The new interval (R265). -/
def corrected (target observed : Int) (frames interval : Nat) : Nat :=
  (max 1 ((interval : Int) + fdiv (target - observed) frames)).toNat

/-- The pass end (R264, R265). -/
def passEnd (s : State) : Out :=
  match s.sched.interval with
  | none => .fault .noInterval
  | some v =>
    let observed : Int := (s.nowMs : Int) - s.sched.passStart
    let v' := corrected s.cfg.targetLoopMs observed s.sched.frameCount v
    .next (enterLoading { s with sched := { s.sched with interval := some v' } })

/-- Presentation throttle and frame count (R262, R263); the main loop then owes a poll (R270). -/
def countFrame (s : State) : State :=
  let n := s.sched.decodedCtr + 1
  let s1 := { s with sched := { s.sched with
    decodedCtr := n, frameIdx := s.sched.frameIdx + 1, frameBusy := false, pollDue := true } }
  if presents s.cfg.refreshDiv n then emit .present s1 else s1

/-- The frame branch after its decode (R262 to R264). -/
def finishFrame (s : State) : Out :=
  let s1 := countFrame s
  if s1.sched.frameIdx = s1.sched.frameCount then passEnd s1 else .next s1

/-- The frame branch up to its decode (R260, R261): the flag is cleared first, then `DRLE.DECODE` is called. -/
def beginFrame (s : State) : Out :=
  if s.cfg.refreshDiv = 0 then .refused .bootRequirement
  else
    match (dirFrames s s.sched.folderIdx)[s.sched.frameIdx]? with
    | none => .refused .dirAnswer
    | some file =>
      let s1 := { s with sched := { s.sched with frameReady := false } }
      let len := 2 * s.cfg.surfW * s.cfg.surfH
      match drleCheck s.cfg.frameW s.cfg.frameH s.cfg.offX s.cfg.offY s.cfg.surfW
          s.sched.scaleX s.sched.scaleY s.sched.extraRows len with
      | some f => .next (schedRaise f s1)
      | none =>
        .next (drleSetup file s.cfg.frameW s.cfg.frameH s.cfg.offX s.cfg.offY s.cfg.surfW
          s.sched.scaleX s.sched.scaleY s.sched.extraRows len
          { s1 with sched := { s1.sched with frameBusy := true } })

/-- The rest of a frame branch in progress: the decode to its end, then R262 to R264. -/
def runFrame (s : State) : Out :=
  if s.sched.frameBusy then andThen (drleRun (drleFuel s) s) finishFrame else .next s

/-- SCH.STEP (R259 to R265): wait branch, or the whole frame branch as one action (R69). A branch started token by
token goes on from where it is. With the flag set it also waits while GIFD is the active decoder (R317, entry 28). -/
def execSchStep (s : State) : Out :=
  if schedIn .timedPlayback s then
    if s.sched.frameBusy then runFrame s
    else if frameDue s then andThen (beginFrame s) runFrame
    else .next s
  else .next s

/-- SCH.STEP started: as far as the decode's first token. -/
def stepStart (s : State) : Out :=
  if schedIn .timedPlayback s && !s.sched.frameBusy && frameDue s then beginFrame s else .next s

/-- An accepted edge (R273, R275, R276). -/
def acceptSwitch (now folder : Nat) (s : State) : State :=
  emit (.folderSwitch folder)
    { s with
      sched := { s.sched with folderIdx := folder, state := .folderSwitch }
      btn := { s.btn with lastSwitch := some now } }

/-- The levels every poll records (R271, R275); the poll the main loop owed is done (R270). -/
def recordLevels (pa pb : Bool) (s : State) : State :=
  { s with btn := { s.btn with lastA := pa, lastB := pb }, sched := { s.sched with pollDue := false } }

/-- A poll that happens (R271 to R276), the pressed levels given. -/
def pollAct (now : Nat) (pa pb : Bool) (s : State) : Out :=
  let s1 := recordLevels pa pb s
  if inWindow s.btn now then .next s1
  else if edge pa s.btn.lastA then
    if s.cfg.folderCount = 0 then .refused .bootRequirement
    else .next (acceptSwitch now ((s.sched.folderIdx + 1) % s.cfg.folderCount) s1)
  else if edge pb s.btn.lastB then
    if s.cfg.folderCount = 0 then .refused .bootRequirement
    else
      .next (acceptSwitch now ((s.sched.folderIdx + s.cfg.folderCount - 1) % s.cfg.folderCount) s1)
  else .next s1

/-- SCH.POLL (R270 to R276); its operands are what the ports read (R270, entry 12). -/
def execSchPoll (now : Nat) (a b : Bool) (s : State) : Out :=
  if pollEnabled s then
    if readsPorts now a b s then pollAct now (pressed a) (pressed b) s else .refused .pollOperands
  else .next s

/-- SCH.SWITCH (R277). -/
def execSchSwitch (s : State) : Out :=
  if schedIn .folderSwitch s then
    .next (enterLoading { s with sched := { s.sched with interval := none } })
  else .next s

end Sys2Proof.Machine
end

