-- ==== Sys2Proof/Machine/Dispatch.lean ====
section
/-! DEFINITION. One arm per instruction, each one call of its meaning. -/

namespace Sys2Proof.Machine

def exec (i : Instr) (s : State) : Host.Outcome State Fault Refusal :=
  match i with
  | .pxcPack r g b => Sys2Proof.Machine.execPxcPack r g b s
  | .pxcStore a c => Sys2Proof.Machine.execPxcStore a c s
  | .drleEnd => Sys2Proof.Machine.execDrleEnd s
  | .drleRec skip write => Sys2Proof.Machine.execDrleRec skip write s
  | .drleBlit pos hi lo => Sys2Proof.Machine.execDrleBlit pos hi lo s
  | .drleDecode file w h x y stride scaleX scaleY extra dstLen => Sys2Proof.Machine.execDrleDecode file w h x y stride scaleX scaleY extra dstLen s
  | .drleEncode prev cur => Sys2Proof.Machine.execDrleEncode prev cur s
  | .drleEncodeFirst cur => Sys2Proof.Machine.execDrleEncodeFirst cur s
  | .gifHeader87a => Sys2Proof.Machine.execGifHeader87a s
  | .gifHeader89a => Sys2Proof.Machine.execGifHeader89a s
  | .gifLsd w h flags bg aspect => Sys2Proof.Machine.execGifLsd w h flags bg aspect s
  | .gifGct table => Sys2Proof.Machine.execGifGct table s
  | .gifGce body => Sys2Proof.Machine.execGifGce body s
  | .gifExt label => Sys2Proof.Machine.execGifExt label s
  | .gifImage left top w h flags => Sys2Proof.Machine.execGifImage left top w h flags s
  | .gifTrailer => Sys2Proof.Machine.execGifTrailer s
  | .gifUnknown intro => Sys2Proof.Machine.execGifUnknown intro s
  | .gifStart expW expH => Sys2Proof.Machine.execGifStart expW expH s
  | .gifNext => Sys2Proof.Machine.execGifNext s
  | .lzwImage => Sys2Proof.Machine.execLzwImage s
  | .lzwClear => Sys2Proof.Machine.execLzwClear s
  | .lzwEnd => Sys2Proof.Machine.execLzwEnd s
  | .lzwFirst c => Sys2Proof.Machine.execLzwFirst c s
  | .lzwLit c => Sys2Proof.Machine.execLzwLit c s
  | .lzwDict c => Sys2Proof.Machine.execLzwDict c s
  | .lzwKwkwk => Sys2Proof.Machine.execLzwKwkwk s
  | .lzwBadCode c => Sys2Proof.Machine.execLzwBadCode c s
  | .schLoad => Sys2Proof.Machine.execSchLoad s
  | .schTick => Sys2Proof.Machine.execSchTick s
  | .schStep => Sys2Proof.Machine.execSchStep s
  | .schPoll now a b => Sys2Proof.Machine.execSchPoll now a b s
  | .schSwitch => Sys2Proof.Machine.execSchSwitch s

end Sys2Proof.Machine
end

