-- ==== Sys2Proof/Machine/Inputs.lean ====
section
/-! DEFINITION. Who moves next: the environment and the timer through the inbox, or the main context by itself
(R8, R250, R314). -/

namespace Sys2Proof.Machine

/-- The instructions the environment, the caller or the timer can ask for; the others are tokens of a stream. -/
def isCommand : Instr → Bool
  | .pxcPack _ _ _ | .pxcStore _ _ | .drleBlit _ _ _ | .drleDecode _ _ _ _ _ _ _ _ _ _ => true
  | .drleEncode _ _ | .drleEncodeFirst _ | .gifStart _ _ | .gifNext | .lzwImage => true
  | .schLoad | .schTick | .schStep | .schPoll _ _ _ | .schSwitch => true
  | .drleEnd | .drleRec _ _ | .gifHeader87a | .gifHeader89a | .gifLsd _ _ _ _ _ | .gifGct _ => false
  | .gifGce _ | .gifExt _ | .gifImage _ _ _ _ _ | .gifTrailer | .gifUnknown _ => false
  | .lzwClear | .lzwEnd | .lzwFirst _ | .lzwLit _ | .lzwDict _ | .lzwKwkwk | .lzwBadCode _ => false

/-- An operation is in progress token by token: the main context is a single thread (R69, R279, R313). -/
def busy (s : State) : Bool := s.ctl.isSome || s.sched.frameBusy

/-- The poll the main loop still owes since its last frame, done with what the ports read: it "performs at least one between
two consecutive frames" (R270, entry 41). -/
def owedPoll (s : State) : Out :=
  if s.sched.pollDue && pollEnabled s then exec (.schPoll s.nowMs s.pins.a s.pins.b) s else .next s

/-- An operation performed by the main context. A turn of SCHED's loop is SCH.STEP, after the poll it owes. -/
def perform (i : Instr) (s : State) : Out :=
  match i with
  | .schStep => andThen (owedPoll s) (exec .schStep)
  | _ => exec i s

/-- Starting an operation whose tokens are then taken one by one; an operation without tokens is performed. -/
def startOp (i : Instr) (s : State) : Out :=
  match i with
  | .drleDecode file w h x y stride scaleX scaleY extra dstLen =>
    .next (drleStart file w h x y stride scaleX scaleY extra dstLen s)
  | .gifStart expW expH => .next (gifStartStart expW expH s)
  | .gifNext => .next (gifNextStart s)
  | .lzwImage => .next (lzwStart s)
  | .schStep => andThen (owedPoll s) stepStart
  | _ => exec i s

/-- The operation SCHED's state enables (R250); none when it is faulted (R312), and none in GIF_FILE mode, where the
main context waits for commands (D5, entry 27) unless a frame branch is still in progress. -/
def mainInstr (s : State) : Option Instr :=
  if s.sched.fault.isSome then none
  else if s.sched.frameBusy then some .schStep
  else
    match s.cfg.mode with
    | .gifFile => none
    | .drleFolder =>
      match s.sched.state with
      | .loading => some .schLoad
      | .timedPlayback => some .schStep
      | .folderSwitch => some .schSwitch

/-- The main context between operations: SCHED's next one, or nothing to do. -/
def mainOp (s : State) : Out :=
  match mainInstr s with
  | some i => perform i s
  | none => .next s

/-- The main context goes on: the next token of the stream in progress, or SCHED's next operation. -/
def advance (s : State) : Out :=
  match s.ctl with
  | none => mainOp s
  | some p =>
    match fetchAt p s with
    | .token i s1 => exec i s1
    | .ended s1 => .next s1

/-- The inbox goes on with a GIF.START, which abandons a stream in progress (R171). -/
def abandonsNext : List Input → Bool
  | .op (.gifStart _ _) :: _ => true
  | .start (.gifStart _ _) :: _ => true
  | _ => false

/-- A call, command or event offered. Only the tick may come while an operation is in progress (R279); any other
operation is then not enabled, and nothing changes. -/
def offered (i : Instr) (s : State) : Out :=
  if isCommand i then
    if busy s && i != .schTick then .next s else perform i s
  else .refused .streamToken

/-- What the reset of `Input.cut` lands in: the operation offered, or what the main context does next. -/
def inFlight (op : Option Instr) (s : State) : Out :=
  match op with
  | some i => offered i s
  | none => advance s

/-- The pixels an operation can store, in program order (R73): `op` and `ctl` say which operation it is, as in `inFlight`,
`t` is the state it would end in. An operation that stores nothing may be given any. -/
def pixelOrder (op : Option Instr) (ctl : Option Pos) (t : State) : List Nat :=
  match op, ctl with
  | some (.pxcStore a _), _ => [a]
  | some .gifNext, _ | some .lzwImage, _ => imagePixels t.gif t.img
  | some _, _ => framePixels t.drle
  | none, some .gifBlock | none, some .lzwCode => imagePixels t.gif t.img
  | none, _ => framePixels t.drle

/-- What an entry of the inbox does. The rules set the cursor to 0 when a decoder starts (R143, R171) and say nothing of
where it stands when another SRC is connected: the model sets it to 0 there too, so that it is a cursor of the new SRC
(DESIGN CHOICE, entry 39). -/
def take (x : Input) (s : State) : Out :=
  match x with
  | .op i => offered i s
  | .start i =>
    if isCommand i then
      if busy s && i != .schTick then .next s else startOp i s
    else .refused .streamToken
  | .turn => advance s
  | .clock ms => if s.nowMs ≤ ms then .next { s with nowMs := ms } else .refused .clockDecreases
  | .buttons a b => .next { s with pins := { a := a, b := b } }
  | .source bytes =>
    if busy s || (s.gif.state == .ready && !abandonsNext s.inbox) then .refused .srcWhileRunning
    else .next { s with src := bytes, sp := 0 }
  | .reset => .next (resetEvent s)
  | .cut op count =>
    andThen (inFlight op s) fun t =>
      .next (resetDuring t.dst ((storeOrder (pixelOrder op s.ctl t)).take count) s)

/-- Place a table word at the cursor of the stream its width selects (entry 18). -/
def placeWord (s : State) (nbits w : Nat) : State :=
  { s with inbox := [], src := tableBytesOf nbits w, sp := 0, ctl := tablePos nbits w }

end Sys2Proof.Machine
end

