-- ==== Sys2Proof/Safety.lean ====
section
/-! DEFINITION. What claims about this block speak of: the observables of 00_scope.md R14, whether a unit has
faulted (R304, R312), and the invariants of the registers that the rules promise. -/

namespace Sys2Proof.Machine

/-- The next state of an outcome, if it has one. -/
def nextState? (o : Out) : Option State :=
  match o with
  | .next s => some s
  | .fault _ => none
  | .refused _ => none

/-- No unit has raised a model fault (R304), GIFD, SCHED or a decode called directly: the runs a claim "for every run" is
about. -/
def unfaulted (s : State) : Prop :=
  s.gif.fault = none ∧ s.gif.state ≠ .faulted ∧ s.sched.fault = none ∧ s.callFault = none

/-- The entries of the inbox that are the reset event (R340). -/
def isReset : Input → Bool
  | .reset | .cut _ _ => true
  | .op _ | .start _ | .turn | .clock _ | .buttons _ _ | .source _ => false

/-- The next entry of the inbox is not the reset event. -/
def noReset (s : State) : Prop := ∀ x, s.inbox.head? = some x → isReset x = false

/-- Every memory is in its canonical form: addresses strictly rising, so equal memories are equal data. -/
structure MemoriesWf (s : State) : Prop where
  dst : Mem.wf s.dst
  dict : Mem.wf s.dict
  stk : Mem.wf s.stk
  palG : Mem.wf s.palG
  palL : Mem.wf s.palL

/-- The stream cursor is an index into SRC or at its end (R10, R36). -/
def CursorIn (s : State) : Prop := s.sp ≤ s.src.length

/-- What the rules promise of SCHED's registers: a numeric interval is at least 1 (R32, C7); during a pass there is an
interval, at least one frame (R252, R255), and scale factors of at least 1 (R254), and the frame index is below the count
(R263, R264); outside a pass the timer is disarmed and the flag clear when LOADING (R253); a frame branch is in progress
only during a pass (R260). -/
structure SchedOk (s : State) : Prop where
  interval_pos : ∀ v, s.sched.interval = some v → 1 ≤ v
  pass : s.sched.state = .timedPlayback →
    s.sched.interval.isSome ∧ 1 ≤ s.sched.scaleX ∧ 1 ≤ s.sched.scaleY ∧
      s.sched.frameIdx < s.sched.frameCount
  loading : s.sched.state = .loading → s.timer.armed = false ∧ s.sched.frameReady = false
  busy : s.sched.frameBusy = true → s.sched.state = .timedPlayback ∧ s.sched.fault = none
  stopped : s.sched.fault.isSome → s.timer.armed = false

/-! ## Words for what a stream says -/

/-- The bytes of a chain of data sub-blocks, each with its length byte, without the terminator (R105). -/
def chainBytes (blocks : List (List Byte)) : List Byte :=
  blocks.flatMap fun d => BitVec.ofNat 8 d.length :: d

/-- `DrainSubBlocks` (R194) on the bytes from the cursor on: how many of them it reads. -/
inductive Drains : List Byte → Nat → Prop
  | eos : Drains [] 0
  | terminator (rest : List Byte) : Drains (0 :: rest) 1
  | short (k : Byte) (d : List Byte) (h : d.length < k.toNat) : Drains (k :: d) (1 + d.length)
  | block (k : Byte) (d rest : List Byte) (m : Nat) (hk : k ≠ 0) (hd : d.length = k.toNat) (h : Drains rest m) :
      Drains (k :: (d ++ rest)) (1 + d.length + m)

/-- The data bytes of a sub-block chain (R105, R215), `n` still to come in the current sub-block, length bytes removed, and
whether SRC ends before the terminator: `DataBytes n src data cut`. -/
inductive DataBytes : Nat → List Byte → List Byte → Bool → Prop
  | terminator (rest : List Byte) : DataBytes 0 (0 :: rest) [] false
  | noLength : DataBytes 0 [] [] true
  | block (k : Byte) (src data : List Byte) (cut : Bool) (hk : k ≠ 0) (h : DataBytes k.toNat src data cut) :
      DataBytes 0 (k :: src) data cut
  | byte (n : Nat) (b : Byte) (src data : List Byte) (cut : Bool) (h : DataBytes n src data cut) :
      DataBytes (n + 1) (b :: src) (b :: data) cut
  | short (n : Nat) : DataBytes (n + 1) [] [] true

/-- The bits an image's code reader still has to deliver, in stream order (R110): those it holds, then those of the data
bytes that follow; `cut` when SRC ends before the chain's terminator. -/
def Pending (s : State) (cut : Bool) (bits : List Bool) : Prop :=
  s.bits.termSeen = false ∧ s.bits.eosSeen = false ∧ s.bits.buf < 2 ^ s.bits.cnt ∧
  ∃ data : List Byte, DataBytes s.bits.blkRem.toNat (s.src.drop s.sp) data cut ∧
    bits = bitsOf s.bits.cnt s.bits.buf ++ data.flatMap fun b => bitsOf 8 b.toNat

/-! ## Words for pixels -/

/-- The parameter domain and the geometry of R141 and R142, on the operands in the registers. -/
structure FrameFits (d : DrleRegs) (dstLen : Nat) : Prop where
  w : 1 ≤ d.w
  h : 1 ≤ d.h
  stride : 1 ≤ d.stride
  scaleX : 1 ≤ d.scaleX
  scaleY : 1 ≤ d.scaleY
  columns : d.x + d.w * d.scaleX ≤ d.stride
  rows : d.y + d.h * d.scaleY + d.extra ≤ dstLen / (2 * d.stride)

/-- The records `rs`, as pairs of counts, that the greedy scan of R155 makes of pixels `i .. n-1`, `same j` saying that
pixel `j` is identical in both frames: each skip and each write is as long as it can be, up to 255. -/
def Greedy (same : Nat → Prop) (n : Nat) : Nat → List (Nat × Nat) → Prop
  | i, [] => i = n
  | i, (k, w) :: rs =>
    i < n ∧ i + k + w ≤ n ∧ k ≤ 255 ∧ w ≤ 255 ∧
    (∀ j, i ≤ j → j < i + k → same j) ∧ (∀ j, i + k ≤ j → j < i + k + w → ¬ same j) ∧
    (k < 255 → i + k < n → ¬ same (i + k)) ∧ (w < 255 → i + k + w < n → same (i + k + w)) ∧
    Greedy same n (i + k + w) rs

/-- The bytes of records that start at pixel `i` of `cur`: each header, then the raw bytes of the pixels written (R92). -/
def recordBytes (cur : List Byte) : Nat → List (Nat × Nat) → List Byte
  | _, [] => []
  | i, (k, w) :: rs =>
    BitVec.ofNat 8 k :: BitVec.ofNat 8 w :: ((cur.drop (2 * (i + k))).take (2 * w) ++ recordBytes cur (i + k + w) rs)

/-- Two pixels are identical iff both bytes are equal (R155). -/
def samePixel (prev cur : List Byte) (j : Nat) : Prop :=
  prev[2 * j]? = cur[2 * j]? ∧ prev[2 * j + 1]? = cur[2 * j + 1]?

/-- DST with one pixel stored: two bytes, high byte first (R11, R63). -/
def pixelMem (a : Nat) (hi lo : Byte) (m : Mem Byte) : Mem Byte := memWrite (memWrite m a hi) (a + 1) lo

/-- DST with the same pixel stored at each address in turn. -/
def pixelsMem (as : List Nat) (hi lo : Byte) (m : Mem Byte) : Mem Byte :=
  as.foldl (fun m a => pixelMem a hi lo m) m

/-- One source pixel of a delta-RLE payload: its index and its two bytes. -/
structure DrlePixel where
  pos : Nat
  hi : Byte
  lo : Byte
  deriving DecidableEq, Repr

/-- The first `n` pixels of a payload that starts at byte `sp` of `src`, the first with index `pos` (R147). -/
def payloadPixels (src : List Byte) (sp pos n : Nat) : List DrlePixel :=
  (List.range n).map fun k => ⟨pos + k, src.getD (sp + 2 * k) 0, src.getD (sp + 2 * k + 1) 0⟩

/-- DST with the blocks of some source pixels stored in turn (R149). -/
def paint (d : DrleRegs) (ps : List DrlePixel) (m : Mem Byte) : Mem Byte :=
  ps.foldl (fun m p => pixelsMem (blitAddrs d p.pos) p.hi p.lo m) m

/-- A code stands for the pixel indices `xs`, first index first (R223, R228): a literal for itself, an entry for its
prefix's indices followed by its suffix. -/
inductive Expands (clear : Nat) (dict : Mem DictEntry) : Nat → List Nat → Prop
  | lit {c : Nat} (h : c < clear) : Expands clear dict c [c]
  | entry {c : Nat} {e : DictEntry} {xs : List Nat} (h : clear ≤ c) (hd : memRead dict c = some e)
      (hx : Expands clear dict e.pfx xs) : Expands clear dict c (xs ++ [e.sfx])

/-- The colour of a pixel index in the selected palette (R232), if it has one. -/
def paletteColor (s : State) (p : Nat) : Option Rgb :=
  if p < (selectedPalette s).2 then memRead (selectedPalette s).1 p else none

/-- DST after one pixel index is drawn at image pixel `k` (R231, R233): a transparent index draws nothing. -/
def drawn (s : State) (p k : Nat) (m : Mem Byte) : Mem Byte :=
  if isTransparent s.gce p then m
  else
    match paletteColor s p with
    | some c => pixelMem (imgAddr s.gif s.img k) (hi8 (pack c.r c.g c.b)) (lo8 (pack c.r c.g c.b)) m
    | none => m

/-- DST after pixel indices are drawn from image pixel `k` on, none at or beyond the budget (R230, R235). -/
def drawnAll (s : State) : List Nat → Nat → Mem Byte → Mem Byte
  | [], _, m => m
  | p :: ps, k, m => if k < s.img.npix then drawnAll s ps (k + 1) (drawn s p k m) else m

/-- A pixel index can be drawn: it is transparent, or it has a palette entry (R231, R232). -/
def Drawable (s : State) (p : Nat) : Prop := isTransparent s.gce p = true ∨ (paletteColor s p).isSome

/-- The colour tables hold what their lengths say (R178, R187), and every pixel of the image lies in DST (R186). -/
structure ImageReady (s : State) : Prop where
  palette : ∀ p < (selectedPalette s).2, (memRead (selectedPalette s).1 p).isSome
  room : ∀ k < s.img.npix, imgAddr s.gif s.img k + 1 < s.dstLen

/-- The dictionary and the code registers while an image is decoded (R211, R213, R237): what a code token may rely on. -/
structure LzwOk (s : State) : Prop where
  mcs : 2 ≤ s.lzw.mcs.toNat ∧ s.lzw.mcs.toNat ≤ 11
  clear : s.lzw.clear = 2 ^ s.lzw.mcs.toNat
  endCode : s.lzw.endCode = s.lzw.clear + 1
  next : s.lzw.clear + 2 ≤ s.lzw.nextCode ∧ s.lzw.nextCode ≤ Config.dictSize
  size : s.lzw.mcs.toNat + 1 ≤ s.lzw.codeSize ∧ s.lzw.codeSize ≤ Config.maxCodeBits
  room : s.lzw.nextCode < 2 ^ s.lzw.codeSize ∨ s.lzw.codeSize = Config.maxCodeBits
  dict : ∀ c, s.lzw.clear + 2 ≤ c → c < s.lzw.nextCode → ∃ e, memRead s.dict c = some e ∧ e.sfx < s.lzw.clear ∧
    e.pfx < c ∧ (e.pfx < s.lzw.clear ∨ s.lzw.clear + 2 ≤ e.pfx)
  prev : ∀ p, s.lzw.prev = some p → p < s.lzw.nextCode ∧ (p < s.lzw.clear ∨ s.lzw.clear + 2 ≤ p)

/-- `AddEntry(p, f)` (R226, R227), `s` before and `t` after. -/
structure EntryAdded (s : State) (p f : Nat) (t : State) : Prop where
  entry : ∀ k, memRead t.dict k =
    if k = s.lzw.nextCode ∧ s.lzw.nextCode < Config.dictSize then some ⟨p, f⟩ else memRead s.dict k
  nextCode : t.lzw.nextCode = if s.lzw.nextCode < Config.dictSize then s.lzw.nextCode + 1 else s.lzw.nextCode
  codeSize : t.lzw.codeSize =
    if s.lzw.nextCode < Config.dictSize ∧ s.lzw.nextCode + 1 = 2 ^ s.lzw.codeSize ∧
      s.lzw.codeSize < Config.maxCodeBits then s.lzw.codeSize + 1
    else s.lzw.codeSize

/-- What a code with expansion `xs`, first index `f` and value `c` leaves when the previous code was `p` (R223, R224,
R226, R230, R235, R236). -/
structure AfterCode (s : State) (p f c : Nat) (xs : List Nat) (t : State) : Prop where
  /-- Nothing else changes. -/
  frame : t = { s with
    dst := t.dst, dict := t.dict, stk := t.stk, stkN := 0, img := { s.img with pixN := t.img.pixN }
    lzw := { s.lzw with nextCode := t.lzw.nextCode, codeSize := t.lzw.codeSize, prev := some c } }
  /-- The expansion is drawn in order, up to the budget. -/
  dst : t.dst = drawnAll s xs s.img.pixN s.dst
  pixN : t.img.pixN = min s.img.npix (s.img.pixN + xs.length)
  added : EntryAdded s p f t

/-- The indices of an expansion that the pixel budget admits (R235). -/
def visible (s : State) (xs : List Nat) : List Nat := xs.take (s.img.npix - s.img.pixN)

/-- What such a code leaves when its index `x`, after the indices `pre`, has no palette entry (R232, R312): the entry was
added before the first pixel, the pixels of `pre` stay, `x` is off the stack, `prev` is as it was. -/
structure AfterPaletteFault (s : State) (p f : Nat) (xs pre : List Nat) (x : Nat) (t : State) : Prop where
  frame : t = { s with
    ctl := none, gif := { s.gif with state := .faulted, fault := some (.palette x) }
    dst := drawnAll s pre s.img.pixN s.dst, img := { s.img with pixN := s.img.pixN + pre.length }
    dict := t.dict, stk := t.stk, stkN := xs.length - pre.length - 1
    lzw := { s.lzw with nextCode := t.lzw.nextCode, codeSize := t.lzw.codeSize } }
  added : EntryAdded s p f t

/-- How the code token `i`, of value `c` and expansion `xs`, ends: done where every index the budget admits can be drawn;
else at the first that cannot, with PaletteFault at or beyond the palette's length (R232), with a stop at an entry below it
that nothing has written (R39, entry 8). -/
def CodeOutcome (i : Instr) (s : State) (p f c : Nat) (xs : List Nat) : Prop :=
  ((∀ x ∈ visible s xs, Drawable s x) → ∃ t, exec i s = .next t ∧ AfterCode s p f c xs t) ∧
  ∀ (pre : List Nat) (x : Nat) (post : List Nat), visible s xs = pre ++ x :: post → (∀ y ∈ pre, Drawable s y) →
    isTransparent s.gce x = false →
    ((selectedPalette s).2 ≤ x → ∃ t, exec i s = .next t ∧ AfterPaletteFault s p f xs pre x t) ∧
    (x < (selectedPalette s).2 → memRead (selectedPalette s).1 x = none → exec i s = .fault (.unwrittenPalette x))

/-- The outcomes of R172, `s` before and `t` after: the one event sent, and the state GIFD is left in. -/
inductive GifOutcome (s t : State) : Prop
  | frame (ms : Nat) (he : t.out = s.out ++ [.frameDone ms]) (hs : t.gif.state = .ready)
  | ended (he : t.out = s.out ++ [.streamEnd]) (hs : t.gif.state = .done)
  | error (e : FormatError) (he : t.out = s.out ++ [.error e]) (hs : t.gif.state = .error)
  | fault (f : ModelFault) (he : t.out = s.out) (hs : t.gif.state = .faulted) (hf : t.gif.fault = some f)

/-- Every entry below the global table's length holds a colour (R178). -/
def GctOk (s : State) : Prop := ∀ p < s.gif.gctLen, (memRead s.palG p).isSome

/-- The logical screen lies in DST: so it is where GIF.START was given the surface's dimensions (R170, R343 (5), entry 44). -/
def ScreenFits (s : State) : Prop := 2 * (s.gif.scrW.toNat * s.gif.scrH.toNat) ≤ s.dstLen

/-- What R262 to R265 leave after a frame's decode, `s` before and `t` after, the interval of the pass being `v`: the count,
the presentation throttle, the next frame, the poll the main loop then owes (R270), and at the end of the pass the corrected
interval and LOADING. -/
structure FrameCounted (s : State) (v : Nat) (t : State) : Prop where
  frame : t = { s with
    sched := t.sched, timer := t.timer
    out := if (s.sched.decodedCtr + 1) % s.cfg.refreshDiv = 0 then s.out ++ [.present] else s.out }
  next : s.sched.frameIdx + 1 ≠ s.sched.frameCount →
    t.timer = s.timer ∧
    t.sched = { s.sched with
      decodedCtr := s.sched.decodedCtr + 1, frameIdx := s.sched.frameIdx + 1, frameBusy := false, pollDue := true }
  passEnd : s.sched.frameIdx + 1 = s.sched.frameCount →
    t.timer = { s.timer with armed := false } ∧
    t.sched = { s.sched with
      decodedCtr := s.sched.decodedCtr + 1, frameIdx := s.sched.frameIdx + 1, frameBusy := false, pollDue := true
      frameReady := false, state := .loading
      interval := some (max 1 ((v : Int) +
        (((s.cfg.targetLoopMs : Int) - ((s.nowMs : Int) - s.sched.passStart)) / (s.sched.frameCount : Int)))).toNat }

/-- Once GIFD has ended or faulted no part of a GIF stream, nor a code, is being read (R313), and while a GIF stream is open
no delta-RLE decode is in progress: "codec and GIF decoder are never both active" (R3, R317). -/
structure OneDecoder (s : State) : Prop where
  stopped : gifStopped s = true → s.ctl = none ∨ s.ctl = some .drle
  oneActive : s.gif.state = .ready → s.ctl ≠ some .drle

end Sys2Proof.Machine
end

