-- ==== Sys2Proof/Certificates/Slice0/Obligations.lean ====
section
/-! DEFINITION. The statements for the provers, in the order of OBLIGATIONS.json. Each docstring names the rules of spec/
that the statement formalises; where a clause rests on a choice of the model it names the log entry. -/

open Sys2Proof Sys2Proof.Machine

/-! ## PXC -/

/-- R130, the result held in the model's register `ret` (entry 16): the formula, the sum reading, the bit layout, totality
and surjectivity, the corner cases and the example; nothing else changes. -/
def Obligations.PackLayout : Prop :=
  (∀ (r g b : Byte) (s : State), ∃ c : U16,
    exec (.pxcPack r g b) s = .next { s with ret := .color c } ∧
    c = (((r &&& 0xF8).zeroExtend 16 <<< 8) ||| ((g &&& 0xFC).zeroExtend 16 <<< 3) ||| (b >>> 3).zeroExtend 16) ∧
    c = ((r &&& 0xF8).zeroExtend 16 <<< 8) + ((g &&& 0xFC).zeroExtend 16 <<< 3) + (b >>> 3).zeroExtend 16 ∧
    c.extractLsb' 11 5 = r.extractLsb' 3 5 ∧ c.extractLsb' 5 6 = g.extractLsb' 2 6 ∧
    c.extractLsb' 0 5 = b.extractLsb' 3 5) ∧
  (∀ (c : U16) (s : State), ∃ r g b : Byte, exec (.pxcPack r g b) s = .next { s with ret := .color c }) ∧
  (∀ s : State, exec (.pxcPack 7 3 7) s = .next { s with ret := .color 0 } ∧
    exec (.pxcPack 0xF8 0xFC 0xF8) s = .next { s with ret := .color 0xFFFF } ∧
    exec (.pxcPack 0xFF 0xFF 0xFF) s = .next { s with ret := .color 0xFFFF } ∧
    exec (.pxcPack 0x12 0x34 0x56) s = .next { s with ret := .color 0x11AA })

/-- R133: no term overflows, and "Two inputs give the same output iff they agree on `r[7:3]`, `g[7:2]` and `b[7:3]`", so
the conversion is not invertible. The spec derives R133 from R130. -/
def Obligations.PackKeepsTopBits : Prop :=
  (∀ r g b : Byte, (r &&& 0xF8).toNat <<< 8 ≤ 0xF800 ∧ (g &&& 0xFC).toNat <<< 3 ≤ 0x07E0 ∧ (b >>> 3).toNat ≤ 0x1F) ∧
  (∀ (r g b r' g' b' : Byte) (s t : State),
    exec (.pxcPack r g b) s = .next t →
    (exec (.pxcPack r' g' b') s = .next t ↔
      r.extractLsb' 3 5 = r'.extractLsb' 3 5 ∧ g.extractLsb' 2 6 = g'.extractLsb' 2 6 ∧
        b.extractLsb' 3 5 = b'.extractLsb' 3 5)) ∧
  ¬ Function.Injective fun x : Byte × Byte × Byte => pack x.1 x.2.1 x.2.2

/-- R131: two bytes, high byte first, and no other byte of DST; the bytes in terms of the channels, which follow from R130.
The caller has checked the bounds: the address and the next one are in DST. -/
def Obligations.StoreTwoBytes : Prop :=
  (∀ (a : Nat) (c : U16) (s : State), a + 1 < s.dstLen →
    ∃ t, exec (.pxcStore a c) s = .next t ∧ t = { s with dst := t.dst } ∧
      dstByte t a = some (c.extractLsb' 8 8) ∧ dstByte t (a + 1) = some (c.extractLsb' 0 8) ∧
      ∀ b, b ≠ a → b ≠ a + 1 → dstByte t b = dstByte s b) ∧
  ∀ r g b : Byte,
    (pack r g b).extractLsb' 8 8 = (r &&& 0xF8) ||| (g >>> 5) ∧
    (pack r g b).extractLsb' 0 8 = ((g &&& 0x1C) <<< 3) ||| (b >>> 3)

/-- Stops at accesses the rules rule out (20_memory.md R71, 41_delta_rle.md R149; entries 9 and 31 choose the stop): a
store at or beyond the end of DST, a block of a pixel outside the budget, a block that leaves DST. -/
def Obligations.StopsOutsideDst : Prop :=
  (∀ (a : Nat) (c : U16) (s : State), s.dstLen ≤ a + 1 → exec (.pxcStore a c) s = .fault (.dstOutOfRange a)) ∧
  (∀ (pos : Nat) (hi lo : Byte) (s : State), s.drle.w * s.drle.h ≤ pos →
    exec (.drleBlit pos hi lo) s = .fault (.blitPosition pos)) ∧
  (∀ (pos : Nat) (hi lo : Byte) (s : State), pos < s.drle.w * s.drle.h →
    (∃ a ∈ blitAddrs s.drle pos, s.dstLen ≤ a + 1) →
    ∃ a ∈ blitAddrs s.drle pos, s.dstLen ≤ a + 1 ∧ exec (.drleBlit pos hi lo) s = .fault (.dstOutOfRange a))

/-! ## DRLE -/

/-- R149 and R150: every position of the scaled block gets the two bytes, the last source row `E` rows more; no other byte
of DST changes. R151: at scale 1, offset 0, with the stride of the frame, the block is the one pixel at `2*pos`. That
`E` is a count of rows is the spec's decision D12. -/
def Obligations.BlitWritesBlock : Prop :=
  (∀ (pos : Nat) (hi lo : Byte) (s : State), FrameFits s.drle s.dstLen → pos < s.drle.w * s.drle.h →
    let d := s.drle
    let rows := d.scaleY + (if pos / d.w = d.h - 1 then d.extra else 0)
    let addr := fun ry rx =>
      2 * ((d.y + pos / d.w * d.scaleY + ry) * d.stride + (d.x + pos % d.w * d.scaleX + rx))
    ∃ t, exec (.drleBlit pos hi lo) s = .next t ∧ t = { s with dst := t.dst } ∧
      (∀ ry < rows, ∀ rx < d.scaleX, dstByte t (addr ry rx) = some hi ∧ dstByte t (addr ry rx + 1) = some lo) ∧
      ∀ b, (∀ ry < rows, ∀ rx < d.scaleX, b ≠ addr ry rx ∧ b ≠ addr ry rx + 1) → dstByte t b = dstByte s b) ∧
  (∀ (pos : Nat) (hi lo : Byte) (s : State), FrameFits s.drle s.dstLen → pos < s.drle.w * s.drle.h →
    s.drle.x = 0 → s.drle.y = 0 → s.drle.scaleX = 1 → s.drle.scaleY = 1 → s.drle.extra = 0 →
    s.drle.stride = s.drle.w →
    exec (.drleBlit pos hi lo) s =
      .next { s with dst := memWrite (memWrite s.dst (2 * pos) hi) (2 * pos + 1) lo })

/-- R141 and R142, the fault being the call's outcome (R312): a parameter of 0; a frame that does not fit; and when both
checks pass, every address of R149 inside its own row and inside DST. The checks are the spec's decisions D13 and D10; that the
outcome is held in `ret`, and kept in `callFault`, is entries 16 and 42. -/
def Obligations.DecodeChecks : Prop :=
  ∀ (file : List Byte) (w h x y stride sx sy e len : Nat) (s : State),
    (w = 0 ∨ h = 0 ∨ stride = 0 ∨ sx = 0 ∨ sy = 0 →
      exec (.drleDecode file w h x y stride sx sy e len) s = .next { s with
        ret := .fault .drleParam, callFault := some .drleParam }) ∧
    (1 ≤ w ∧ 1 ≤ h ∧ 1 ≤ stride ∧ 1 ≤ sx ∧ 1 ≤ sy →
      (stride < x + w * sx ∨ len / (2 * stride) < y + h * sy + e →
        exec (.drleDecode file w h x y stride sx sy e len) s = .next { s with
          ret := .fault .drleGeometry, callFault := some .drleGeometry }) ∧
      (x + w * sx ≤ stride ∧ y + h * sy + e ≤ len / (2 * stride) →
        ∀ pos < w * h, ∀ a ∈ blitAddrs (drleSetup file w h x y stride sx sy e len s).drle pos,
          ∃ dx dy, a = 2 * (dy * stride + dx) ∧ x + pos % w * sx ≤ dx ∧ dx < stride ∧
            y + pos / w * sy ≤ dy ∧ dy < len / (2 * stride) ∧ a + 1 < len))

/-- R140, R148, R153: a decode whose checks pass ends, whatever the stream holds; it writes only inside the rectangle of
the scaled frame and changes nothing but SRC's cursor, DST and DRLE's registers (the call's outcome is entry 16's
register, which a frame branch in progress leaves alone). What a stream cut short leaves is decision D11. While GIFD is the
active decoder no decode begins, R317 as entry 28 enforces it. -/
def Obligations.DecodeEndsInRectangle : Prop :=
  ∀ (file : List Byte) (w h x y stride sx sy e len : Nat) (s : State),
    1 ≤ w → 1 ≤ h → 1 ≤ stride → 1 ≤ sx → 1 ≤ sy → x + w * sx ≤ stride → y + h * sy + e ≤ len / (2 * stride) →
    (s.gif.state = .ready → exec (.drleDecode file w h x y stride sx sy e len) s = .next s) ∧
    (s.gif.state ≠ .ready → ∃ t, exec (.drleDecode file w h x y stride sx sy e len) s = .next t ∧
      t = { s with
        src := file, sp := t.sp, dst := t.dst, dstLen := len, ctl := none
        ret := if s.sched.frameBusy then s.ret else .done
        drle := { t.drle with
          w := w, h := h, x := x, y := y, stride := stride, scaleX := sx, scaleY := sy, extra := e } } ∧
      t.sp ≤ file.length ∧
      ∀ b, (∀ dx dy, x ≤ dx → dx < x + w * sx → y ≤ dy → dy < y + h * sy + e →
          b ≠ 2 * (dy * stride + dx) ∧ b ≠ 2 * (dy * stride + dx) + 1) →
        dstByte t b = dstByte s b)

/-- R70: "Replaying the same delta-RLE stream twice into the same DST gives the same DST as replaying it once", which the spec
derives. Premise: GIFD is not the active decoder (entry 28). -/
def Obligations.ReplayIdempotent : Prop :=
  ∀ (file : List Byte) (w h x y stride sx sy e len : Nat) (s : State), s.gif.state ≠ .ready →
    1 ≤ w → 1 ≤ h → 1 ≤ stride → 1 ≤ sx → 1 ≤ sy → x + w * sx ≤ stride → y + h * sy + e ≤ len / (2 * stride) →
    ∃ t u, exec (.drleDecode file w h x y stride sx sy e len) s = .next t ∧
      exec (.drleDecode file w h x y stride sx sy e len) t = .next u ∧ ∀ b, dstByte u b = dstByte t b

/-- R158: encoding `cur` against `prev` and decoding the result over a DST that holds `prev` leaves DST holding `cur`; the
bytes of DST beyond the frame stay. Premise: GIFD is not the active decoder (entry 28). -/
def Obligations.EncodeDecodeRoundTrip : Prop :=
  ∀ (prev cur : List Byte) (w h : Nat) (s : State), s.gif.state ≠ .ready → 1 ≤ w → 1 ≤ h →
    prev.length = 2 * (w * h) → cur.length = 2 * (w * h) →
    (∀ a < 2 * (w * h), dstByte s a = prev[a]?) →
    ∃ out t, exec (.drleEncode prev cur) s = .next { s with ret := .stream out } ∧
      exec (.drleDecode out w h 0 0 w 1 1 0 (2 * (w * h))) s = .next t ∧
      (∀ a < 2 * (w * h), dstByte t a = cur[a]?) ∧ ∀ a, 2 * (w * h) ≤ a → dstByte t a = dstByte s a

/-- R155: the stream is the greedy raster scan's records, each as long as it can be up to the cap of 255, each with the
raw bytes of the pixels it writes; it covers all pixels and never emits `DRLE.END`. The buffers are of equal length. -/
def Obligations.EncodeIsGreedyScan : Prop :=
  ∀ (prev cur : List Byte) (s : State), prev.length = cur.length → cur.length % 2 = 0 →
    ∃ rs : List (Nat × Nat), Greedy (samePixel prev cur) (cur.length / 2) 0 rs ∧ (∀ r ∈ rs, r ≠ (0, 0)) ∧
      exec (.drleEncode prev cur) s = .next { s with ret := .stream (recordBytes cur 0 rs) }

/-- R156: full records `(0, 255, ..)` and a final `(0, N mod 255, ..)` when `N mod 255` is not 0. The
operation's form is the spec's decision D14. -/
def Obligations.EncodeFirstIsFullFrame : Prop :=
  ∀ (cur : List Byte) (s : State), cur.length % 2 = 0 →
    exec (.drleEncodeFirst cur) s = .next { s with ret := .stream (
      ((List.range (cur.length / 2 / 255)).flatMap fun k =>
        [0, 255] ++ (cur.drop (2 * (255 * k))).take (2 * 255)) ++
      if cur.length / 2 % 255 = 0 then []
      else [0, BitVec.ofNat 8 (cur.length / 2 % 255)] ++ cur.drop (2 * (255 * (cur.length / 2 / 255)))) }

/-- R145: the end marker stops the decode, and bytes after it are never read: as a token, and as the first record of a
stream whose checks pass. That the call's outcome is then `done` in `ret`, which a frame branch leaves alone, is entry 16;
that no decode begins while GIFD is the active decoder is entry 28. -/
def Obligations.EndMarkerStops : Prop :=
  (∀ s : State, exec .drleEnd s = .next { s with
    ctl := none, ret := if s.sched.frameBusy then s.ret else .done
    drle := { s.drle with recSkip := 0, recWrite := 0 } }) ∧
  ∀ (rest : List Byte) (w h x y stride sx sy e len : Nat) (s : State), s.gif.state ≠ .ready →
    1 ≤ w → 1 ≤ h → 1 ≤ stride → 1 ≤ sx → 1 ≤ sy → x + w * sx ≤ stride → y + h * sy + e ≤ len / (2 * stride) →
    ∃ t, exec (.drleDecode (0 :: 0 :: rest) w h x y stride sx sy e len) s = .next t ∧ t.sp = 2 ∧ t.dst = s.dst

/-- R146, R147, R148: the skip, then as many whole pixels of the payload as SRC and the pixel budget allow, then the next
record or the stop. `paint` stores the block of R149 of each of those pixels in turn. Where the tests stand is decision D11;
that a stop leaves `done` in `ret`, or in a frame branch leaves `ret` alone, is entry 16. -/
def Obligations.RecordReplay : Prop :=
  ∀ (skip write : Byte) (s : State), ¬ (skip = 0 ∧ write = 0) → FrameFits s.drle s.dstLen →
    let N := s.drle.w * s.drle.h
    let p := s.drle.pos + skip.toNat
    let stopped := if s.sched.frameBusy then s.ret else Ret.done
    (N ≤ p → exec (.drleRec skip write) s = .next { s with
      ctl := none, ret := stopped, drle := { s.drle with recSkip := skip, recWrite := write, pos := p } }) ∧
    (p < N →
      let n := min write.toNat (min (N - p) ((s.src.length - s.sp) / 2))
      ∃ t, exec (.drleRec skip write) s = .next t ∧
        t = { s with
          dst := paint s.drle (payloadPixels s.src s.sp p n) s.dst, sp := t.sp, ctl := t.ctl, ret := t.ret
          drle := { s.drle with
            recSkip := skip, recWrite := write, pos := p + n, recLeft := write.toNat - n
            pxHi := if n = 0 then s.drle.pxHi else s.src.getD (s.sp + 2 * (n - 1)) 0
            pxLo := if n = 0 then s.drle.pxLo else s.src.getD (s.sp + 2 * (n - 1) + 1) 0 } } ∧
        (p + n = N → t.sp = s.sp + 2 * n ∧ t.ctl = none ∧ t.ret = stopped) ∧
        (p + n < N → n < write.toNat → t.sp = s.src.length ∧ t.ctl = none ∧ t.ret = stopped) ∧
        (p + n < N → n = write.toNat → t.sp = s.sp + 2 * n ∧ t.ctl = s.ctl ∧ t.ret = s.ret))

/-! ## GIF container -/

/-- R173 and R174: at the start of a stream either magic passes, the version is not kept; six other bytes, or fewer than
six, are BAD_MAGIC. The last two points are the spec's decisions D31 and D16. -/
def Obligations.HeaderMagic : Prop :=
  (∀ s : State, exec .gifHeader87a s = .next { s with ctl := some .gifLsd } ∧
    exec .gifHeader89a s = .next { s with ctl := some .gifLsd }) ∧
  ∀ s : State, s.inbox = [] → s.ctl = some .gifHeader →
    (s.sp + 6 ≤ s.src.length →
      ((s.src.drop s.sp).take 6 = [0x47, 0x49, 0x46, 0x38, 0x37, 0x61] ∨
        (s.src.drop s.sp).take 6 = [0x47, 0x49, 0x46, 0x38, 0x39, 0x61] →
        step s = .next { s with sp := s.sp + 6, ctl := some .gifLsd }) ∧
      ((s.src.drop s.sp).take 6 ≠ [0x47, 0x49, 0x46, 0x38, 0x37, 0x61] →
        (s.src.drop s.sp).take 6 ≠ [0x47, 0x49, 0x46, 0x38, 0x39, 0x61] →
        step s = .next { s with
          sp := s.sp + 6, ctl := none, gif := { s.gif with state := .error }
          out := s.out ++ [.error .badMagic] })) ∧
    (s.src.length < s.sp + 6 →
      step s = .next { s with
        sp := s.src.length, ctl := none, gif := { s.gif with state := .error }
        out := s.out ++ [.error .badMagic] })

/-- R176: the descriptor's registers, and SIZE_MISMATCH unless both dimensions are the expected ones; the seven bytes it
is read from, and the end of SRC inside them. The layout is general knowledge G1; the moment of the test and the soft end
are decisions D18 and D17. -/
def Obligations.ScreenDescriptor : Prop :=
  (∀ (w h : U16) (flags bg aspect : Byte) (s : State),
    (w.toNat = s.gif.expW ∧ h.toNat = s.gif.expH →
      exec (.gifLsd w h flags bg aspect) s = .next { s with
        ctl := some .gifGct, gif := { s.gif with scrW := w, scrH := h, scrFlags := flags, bgIndex := bg } }) ∧
    (w.toNat ≠ s.gif.expW ∨ h.toNat ≠ s.gif.expH →
      exec (.gifLsd w h flags bg aspect) s = .next { s with
        ctl := none, out := s.out ++ [.error .sizeMismatch]
        gif := { s.gif with scrW := w, scrH := h, scrFlags := flags, bgIndex := bg, state := .error } })) ∧
  ∀ s : State, s.inbox = [] → s.ctl = some .gifLsd →
    (∀ (w0 w1 h0 h1 flags bg aspect : Byte) (rest : List Byte),
      s.src.drop s.sp = [w0, w1, h0, h1, flags, bg, aspect] ++ rest →
      ∃ w h : U16, w.toNat = w0.toNat + 256 * w1.toNat ∧ h.toNat = h0.toNat + 256 * h1.toNat ∧
        step s = exec (.gifLsd w h flags bg aspect) { s with sp := s.sp + 7 }) ∧
    (s.src.length < s.sp + 7 →
      step s = .next { s with
        sp := s.src.length, ctl := none, gif := { s.gif with state := .done }, out := s.out ++ [.streamEnd] })

/-- R178, and with it the end of GIF.START (R171): the announced table is read into PALG, entry by entry; without one
`gct_len` is 0 and nothing is read; the end of SRC inside the table ends the stream (decision D17). That READY is entered
here, an absent table being an empty one, is entry 20. -/
def Obligations.GlobalColourTable : Prop :=
  (∀ (table : List Rgb) (s : State), ∃ t, exec (.gifGct table) s = .next t ∧
    t = { s with ctl := none, palG := t.palG, gif := { s.gif with gctLen := table.length, state := .ready } } ∧
    ∀ k, memRead t.palG k = if h : k < table.length then some table[k] else memRead s.palG k) ∧
  ∀ s : State, s.inbox = [] → s.ctl = some .gifGct →
    (s.gif.scrFlags.getLsbD 7 = true →
      let n := 1 <<< ((s.gif.scrFlags &&& 7).toNat + 1)
      (s.sp + 3 * n ≤ s.src.length →
        ∃ t, step s = .next t ∧
          t = { s with
            sp := s.sp + 3 * n, ctl := none, palG := t.palG, gif := { s.gif with gctLen := n, state := .ready } } ∧
          (∀ k < n, memRead t.palG k = some
            ⟨s.src.getD (s.sp + 3 * k) 0, s.src.getD (s.sp + 3 * k + 1) 0, s.src.getD (s.sp + 3 * k + 2) 0⟩) ∧
          ∀ k, n ≤ k → memRead t.palG k = memRead s.palG k) ∧
      (s.src.length < s.sp + 3 * n →
        step s = .next { s with
          sp := s.src.length, ctl := none, gif := { s.gif with state := .done }, out := s.out ++ [.streamEnd] })) ∧
    (s.gif.scrFlags.getLsbD 7 = false →
      step s = .next { s with ctl := none, gif := { s.gif with gctLen := 0, state := .ready } })

/-- R181 and R182: four bytes set the four registers, an empty first sub-block changes nothing, any other length is
discarded; the rest of the chain is drained (R194). The end of SRC inside the extension ends the stream. The layout is
general knowledge G4; other lengths and the soft end are decisions D19 and D17. -/
def Obligations.ControlExtension : Prop :=
  (∀ (body : List Byte) (s : State) (n : Nat), s.sp ≤ s.src.length → Drains (s.src.drop s.sp) n →
    (body = [] → exec (.gifGce body) s = .next s) ∧
    (∀ packed d0 d1 idx : Byte, body = [packed, d0, d1, idx] →
      exec (.gifGce body) s = .next { s with
        sp := s.sp + n
        gce := { seen := true, delayCs := le16 d0 d1, transpOn := packed.getLsbD 0, transpIdx := idx } }) ∧
    (body ≠ [] → body.length ≠ 4 → exec (.gifGce body) s = .next { s with sp := s.sp + n })) ∧
  ∀ (s : State) (tail : List Byte), s.inbox = [] → s.ctl = some .gifBlock → s.sp ≤ s.src.length →
    s.src.drop s.sp = 0x21 :: 0xF9 :: tail →
    (∀ (k : Byte) (d rest : List Byte), tail = k :: (d ++ rest) → d.length = k.toNat →
      step s = exec (.gifGce d) { s with sp := s.sp + 3 + d.length }) ∧
    (tail = [] ∨ (∃ (k : Byte) (d : List Byte), tail = k :: d ∧ d.length < k.toNat) →
      step s = .next { s with
        sp := s.src.length, ctl := none, gif := { s.gif with state := .done }, out := s.out ++ [.streamEnd] })

/-- R184 and R194: every other extension is drained; no register but the cursor changes. The structure of the sub-blocks is
general knowledge G3. -/
def Obligations.ExtensionSkipped : Prop :=
  (∀ (label : Byte) (s : State) (n : Nat), s.sp ≤ s.src.length → Drains (s.src.drop s.sp) n →
    exec (.gifExt label) s = .next { s with sp := s.sp + n }) ∧
  ∀ bytes : List Byte, ∃ n, Drains bytes n ∧ ∀ m, Drains bytes m → m = n

/-- R185 and R186, in the order of R310: the descriptor's registers, INTERLACED, then the bounds; when both tests pass,
every address of R233 inside the image's own rows and inside the screen; the end of SRC inside the nine bytes. The
bounds test and the soft end are the spec's decisions D22 and D17; the layout is general knowledge. -/
def Obligations.ImageDescriptorChecks : Prop :=
  (∀ (left top w h : U16) (flags : Byte) (s : State),
    (flags.getLsbD 6 = true →
      exec (.gifImage left top w h flags) s = .next { s with
        img := { s.img with left := left, top := top, w := w, h := h, flags := flags }
        ctl := none, gif := { s.gif with state := .error }, out := s.out ++ [.error .interlaced] }) ∧
    (flags.getLsbD 6 = false →
      s.gif.scrW.toNat < left.toNat + w.toNat ∨ s.gif.scrH.toNat < top.toNat + h.toNat →
      exec (.gifImage left top w h flags) s = .next { s with
        img := { s.img with left := left, top := top, w := w, h := h, flags := flags }
        ctl := none, gif := { s.gif with state := .faulted, fault := some .gifImageRect } }) ∧
    (left.toNat + w.toNat ≤ s.gif.scrW.toNat → top.toNat + h.toNat ≤ s.gif.scrH.toNat →
      ∀ k < w.toNat * h.toNat, ∃ dx dy,
        imgAddr s.gif (setDescriptor left top w h flags s).img k = 2 * (dy * s.gif.scrW.toNat + dx) ∧
        left.toNat ≤ dx ∧ dx < left.toNat + w.toNat ∧ top.toNat ≤ dy ∧ dy < top.toNat + h.toNat ∧
        imgAddr s.gif (setDescriptor left top w h flags s).img k + 1 <
          2 * (s.gif.scrW.toNat * s.gif.scrH.toNat))) ∧
  ∀ s : State, s.inbox = [] → s.ctl = some .gifBlock →
    (∀ l0 l1 t0 t1 w0 w1 h0 h1 flags : Byte, ∀ rest,
      s.src.drop s.sp = [0x2C, l0, l1, t0, t1, w0, w1, h0, h1, flags] ++ rest →
      step s = exec (.gifImage (le16 l0 l1) (le16 t0 t1) (le16 w0 w1) (le16 h0 h1) flags) { s with sp := s.sp + 10 }) ∧
    (∀ d : List Byte, s.src.drop s.sp = 0x2C :: d → d.length < 9 →
      step s = .next { s with
        sp := s.src.length, ctl := none, gif := { s.gif with state := .done }, out := s.out ++ [.streamEnd] })

/-- R187 to R191, whatever the image's data are: with a stream open (READY), the descriptor accepted, the local table and the
minimum code size read, GIF.IMAGE answers what LZW.IMAGE leaves on the state with its operands loaded, then FRAME_DONE with
the delay of R190, and the control extension is forgotten; a fault of LZW.IMAGE is the image's, with no event. Then, in any
state of GIFD, an image whose data end at once (43_lzw.md R212, R220), every register spelled out: the bit reader too (the
terminator read as a length by NextDataByte where there is a pixel to draw, R215, by the drain where there is none, R234); DST
is not touched. The spec's decisions D22 and D29 stand behind the bounds and the set-up. -/
def Obligations.ImageWithEmptyData : Prop :=
  ∀ (left top w h : U16) (flags mcs : Byte) (table : List Rgb) (s : State),
    flags.getLsbD 6 = false → left.toNat + w.toNat ≤ s.gif.scrW.toNat → top.toNat + h.toNat ≤ s.gif.scrH.toNat →
    table.length = (if flags.getLsbD 7 then 2 ^ ((flags &&& 7).toNat + 1) else 0) → s.sp ≤ s.src.length →
    let delay := if s.gce.seen then 10 * s.gce.delayCs.toNat else 100
    let img : ImgRegs := { left := left, top := top, w := w, h := h, flags := flags, lctLen := table.length
                           palSel := if 0 < table.length then .localTable else if 0 < s.gif.gctLen then .globalTable
                                     else .noTable
                           npix := w.toNat * h.toNat, pixN := 0 }
    (∀ data : List Byte, s.gif.state = .ready → s.src.drop s.sp = tableBytes table ++ mcs :: data →
      ∃ loaded : State,
        loaded = { s with
          sp := s.sp + 3 * table.length + 1, palL := loaded.palL, img := img, lzw := { s.lzw with mcs := mcs } } ∧
        (∀ k, memRead loaded.palL k = if h : k < table.length then some table[k] else memRead s.palL k) ∧
        (∀ t, exec .lzwImage loaded = .next t →
          (t.gif.state = .faulted → exec (.gifImage left top w h flags) s = .next t) ∧
          (t.gif.state ≠ .faulted → exec (.gifImage left top w h flags) s = .next { t with
            ctl := none, gif := { t.gif with state := .ready }, gce := { s.gce with seen := false, transpOn := false }
            out := s.out ++ [.frameDone delay] })) ∧
        ∀ r, exec .lzwImage loaded = .fault r → exec (.gifImage left top w h flags) s = .fault r) ∧
    (∀ rest : List Byte, 2 ≤ mcs.toNat → mcs.toNat ≤ 11 → s.src.drop s.sp = tableBytes table ++ mcs :: 0 :: rest →
      ∃ t, exec (.gifImage left top w h flags) s = .next t ∧
        t = { s with
          sp := s.sp + 3 * table.length + 2, ctl := none, palL := t.palL, stkN := 0, img := img
          bits := { buf := 0, cnt := 0, blkRem := 0, termSeen := decide (0 < w.toNat * h.toNat), eosSeen := false }
          gif := { s.gif with state := .ready }
          gce := { s.gce with seen := false, transpOn := false }
          lzw := { mcs := mcs, clear := 1 <<< mcs.toNat, endCode := 1 <<< mcs.toNat + 1, codeSize := mcs.toNat + 1
                   nextCode := 1 <<< mcs.toNat + 2, prev := none }
          out := s.out ++ [.frameDone delay] } ∧
        ∀ k, memRead t.palL k = if h : k < table.length then some table[k] else memRead s.palL k)

/-- R172: an image always ends in exactly one outcome, whatever its data; it changes DST inside its own rectangle only, and
neither PALG nor the screen. Premises: the cursor is in SRC, the global table is whole, the screen lies in DST (invariants and
boot conditions of their own). Which outcome, for an accepted descriptor: where SRC ends inside the local table, or at the
minimum code size, STREAM_END and no FRAME_DONE (R175, R187, R189); where the minimum code size is read and not in 2..11,
LzwParamFault (R211, after those checks: R310), the stream at its first data byte; in both, DST as it was. The soft ends are
decision D17, the code sizes D24. -/
def Obligations.ImageAlwaysEnds : Prop :=
  (∀ (left top w h : U16) (flags : Byte) (s : State), CursorIn s → GctOk s → ScreenFits s →
    ∃ t, exec (.gifImage left top w h flags) s = .next t ∧ GifOutcome s t ∧ t.ctl = none ∧
      t = { s with
        dst := t.dst, out := t.out, ctl := none, sp := t.sp, gce := t.gce, img := t.img, lzw := t.lzw, bits := t.bits
        dict := t.dict, stk := t.stk, stkN := t.stkN, palL := t.palL
        gif := { s.gif with state := t.gif.state, fault := t.gif.fault } } ∧
      ∀ b, (∀ k < w.toNat * h.toNat,
          b ≠ 2 * ((top.toNat + k / w.toNat) * s.gif.scrW.toNat + (left.toNat + k % w.toNat)) ∧
          b ≠ 2 * ((top.toNat + k / w.toNat) * s.gif.scrW.toNat + (left.toNat + k % w.toNat)) + 1) →
        dstByte t b = dstByte s b) ∧
  ∀ (left top w h : U16) (flags : Byte) (s : State), flags.getLsbD 6 = false →
    left.toNat + w.toNat ≤ s.gif.scrW.toNat → top.toNat + h.toNat ≤ s.gif.scrH.toNat → s.sp ≤ s.src.length →
    let n := if flags.getLsbD 7 then 2 ^ ((flags &&& 7).toNat + 1) else 0
    let ended := fun u : State => ({ u with
      sp := s.src.length, ctl := none, gif := { s.gif with state := .done }, out := s.out ++ [.streamEnd] } : State)
    let descriptor : ImgRegs := { s.img with left := left, top := top, w := w, h := h, flags := flags }
    let chosen : ImgRegs := { descriptor with
      lctLen := n
      palSel := if 0 < n then .localTable else if 0 < s.gif.gctLen then .globalTable else .noTable }
    (s.src.length < s.sp + 3 * n →
      exec (.gifImage left top w h flags) s = .next (ended { s with img := descriptor })) ∧
    ∀ table : List Rgb, table.length = n →
      (s.src.drop s.sp = tableBytes table → ∃ t, exec (.gifImage left top w h flags) s = .next t ∧
        t = ended { s with img := chosen, palL := t.palL }) ∧
      ∀ (mcs : Byte) (data : List Byte), s.src.drop s.sp = tableBytes table ++ mcs :: data →
        mcs.toNat < 2 ∨ 11 < mcs.toNat → ∃ t, exec (.gifImage left top w h flags) s = .next t ∧
        t = { s with
          sp := s.sp + 3 * n + 1, ctl := none, palL := t.palL, lzw := { s.lzw with mcs := mcs }
          img := { chosen with npix := w.toNat * h.toNat, pixN := 0 }
          gif := { s.gif with state := .faulted, fault := some (.lzwParam mcs) } }

/-- R172: GIF.NEXT runs the block loop to exactly one of the outcomes when GIFD is READY, whatever SRC holds; in any other
state it is refused, nothing changing (decision D33). -/
def Obligations.NextEndsInOneOutcome : Prop :=
  ∀ s : State,
    (s.gif.state ≠ .ready → exec .gifNext s = .next s) ∧
    (s.gif.state = .ready → CursorIn s → GctOk s → ScreenFits s →
      ∃ t, exec .gifNext s = .next t ∧ GifOutcome s t ∧ t.ctl = none ∧ CursorIn t ∧
        t = { s with
          dst := t.dst, out := t.out, ctl := none, sp := t.sp, gce := t.gce, img := t.img, lzw := t.lzw, bits := t.bits
          dict := t.dict, stk := t.stk, stkN := t.stkN, palL := t.palL
          gif := { s.gif with state := t.gif.state, fault := t.gif.fault } } ∧
        ∀ b, 2 * (s.gif.scrW.toNat * s.gif.scrH.toNat) ≤ b → dstByte t b = dstByte s b)

/-- R192 and R193: a trailer and an unrecognised introducer end the stream, and nothing after the byte is read. -/
def Obligations.TrailerEndsStream : Prop :=
  (∀ s : State,
    exec .gifTrailer s = .next { s with
      ctl := none, gif := { s.gif with state := .done }, out := s.out ++ [.streamEnd] } ∧
    ∀ b : Byte, exec (.gifUnknown b) s = .next { s with
      ctl := none, gif := { s.gif with state := .done }, out := s.out ++ [.streamEnd] }) ∧
  ∀ (s : State) (b : Byte), s.gif.state = .ready → s.src[s.sp]? = some b → b ≠ 0x21 → b ≠ 0x2C →
    exec .gifNext s = .next { s with
      sp := s.sp + 1, ctl := none, gif := { s.gif with state := .done }, out := s.out ++ [.streamEnd] }

/-- R171: refused in FAULTED; otherwise the registers of R24 to R28 are reset and the three parts run in order: READY and
no event, or one of the outcomes of R172; DST is not touched. On a stream whose parts are good, the state it leaves. The command is
the spec's decision D4; that it takes dimensions other than the surface's is the model's choice (entry 44). -/
def Obligations.StartReadsHeader : Prop :=
  ∀ (expW expH : Nat) (s : State),
    (s.gif.state = .faulted → exec (.gifStart expW expH) s = .next s) ∧
    (s.gif.state ≠ .faulted →
      (∃ t, exec (.gifStart expW expH) s = .next t ∧ t.dst = s.dst ∧ t.ctl = none ∧
        (t.gif.state = .ready ∧ t.out = s.out ∨
          t.gif.state = .done ∧ t.out = s.out ++ [.streamEnd] ∨
          t.gif.state = .error ∧ (t.out = s.out ++ [.error .badMagic] ∨ t.out = s.out ++ [.error .sizeMismatch]))) ∧
      ∀ (magic : List Byte) (w h : U16) (flags bg aspect : Byte) (table : List Rgb) (rest : List Byte),
        magic = magic87a ∨ magic = magic89a → w.toNat = expW → h.toNat = expH →
        table.length = (if flags.getLsbD 7 then 2 ^ ((flags &&& 7).toNat + 1) else 0) →
        s.src = magic ++ [lo8 w, hi8 w, lo8 h, hi8 h, flags, bg, aspect] ++ tableBytes table ++ rest →
        ∃ t, exec (.gifStart expW expH) s = .next t ∧
          t = { s with
            sp := 13 + 3 * table.length, ctl := none, dstLen := 2 * s.cfg.surfW * s.cfg.surfH, palG := t.palG
            gif := { state := .ready, expW := expW, expH := expH, scrW := w, scrH := h, scrFlags := flags
                     bgIndex := bg, gctLen := table.length, fault := none }
            gce := GceRegs.reset, img := ImgRegs.reset, lzw := LzwRegs.reset, bits := BitRegs.reset } ∧
          ∀ k, memRead t.palG k = if h : k < table.length then some table[k] else memRead s.palG k)

/-! ## LZW -/

/-- R221, R231, R232, R233: the first code after a reset emits its one index and adds no entry: skipped if transparent, a
PaletteFault without a palette entry, else the packed colour at the pixel's address. No entry (G8, D26) and the fault
(D23) are the spec's decisions. -/
def Obligations.FirstCodeEmitsPixel : Prop :=
  ∀ (c : Nat) (s : State), s.lzw.prev = none → c < s.lzw.clear → s.lzw.endCode = s.lzw.clear + 1 →
    let transparent := s.gce.transpOn = true ∧ c = s.gce.transpIdx.toNat
    let a := 2 * ((s.img.top.toNat + s.img.pixN / s.img.w.toNat) * s.gif.scrW.toNat +
      (s.img.left.toNat + s.img.pixN % s.img.w.toNat))
    (transparent →
      exec (.lzwFirst c) s = .next { s with
        img := { s.img with pixN := s.img.pixN + 1 }, lzw := { s.lzw with prev := some c } }) ∧
    (¬ transparent → (selectedPalette s).2 ≤ c →
      exec (.lzwFirst c) s = .next { s with
        ctl := none, gif := { s.gif with state := .faulted, fault := some (.palette c) } }) ∧
    (¬ transparent → c < (selectedPalette s).2 → ∀ rgb : Rgb, memRead (selectedPalette s).1 c = some rgb →
      a + 1 < s.dstLen →
      ∃ t, exec (.lzwFirst c) s = .next t ∧
        t = { s with
          dst := t.dst, img := { s.img with pixN := s.img.pixN + 1 }, lzw := { s.lzw with prev := some c } } ∧
        dstByte t a = some ((pack rgb.r rgb.g rgb.b).extractLsb' 8 8) ∧
        dstByte t (a + 1) = some ((pack rgb.r rgb.g rgb.b).extractLsb' 0 8) ∧
        ∀ b, b ≠ a → b ≠ a + 1 → dstByte t b = dstByte s b)

/-- R223 with R226 to R230 and R235: a literal stands for itself, a dictionary code for its chain; the entry
`(prev, first index)` is added, the expansion drawn in order up to the budget, `prev` set. R232 inside an expansion: at the
first index the budget admits that has no palette entry, PaletteFault, the pixels before it and the new entry staying; an index
the budget drops is not looked up. The moment of the width test is the spec's decision D27, the fault D23; the stop at a palette
entry never written is entry 8. Premise: the image lies in DST. -/
def Obligations.DefinedCodeExpands : Prop :=
  ∀ (c p f : Nat) (xs : List Nat) (s : State), s.lzw.prev = some p → Expands s.lzw.clear s.dict c xs →
    xs.head? = some f → xs.length ≤ 4096 → s.img.pixN ≤ s.img.npix →
    (∀ k < s.img.npix, imgAddr s.gif s.img k + 1 < s.dstLen) → s.lzw.endCode = s.lzw.clear + 1 →
    (c < s.lzw.clear → xs = [c] ∧ CodeOutcome (.lzwLit c) s p f c xs) ∧
    (s.lzw.endCode < c → c < s.lzw.nextCode → CodeOutcome (.lzwDict c) s p f c xs)

/-- R224: the code about to be defined stands for the previous expansion and its first index again, and becomes exactly
that entry (general knowledge G7, decision D26), whether its pixels are all drawn or one of them has no palette entry (R232,
decision D23; entry 8 for an entry never written). -/
def Obligations.UndefinedCodeExpands : Prop :=
  ∀ (p f : Nat) (xs : List Nat) (s : State), s.lzw.prev = some p → Expands s.lzw.clear s.dict p xs →
    xs.head? = some f → xs.length < 4096 → s.img.pixN ≤ s.img.npix →
    (∀ k < s.img.npix, imgAddr s.gif s.img k + 1 < s.dstLen) → s.lzw.endCode = s.lzw.clear + 1 →
    s.lzw.clear + 2 ≤ s.lzw.nextCode → s.lzw.nextCode < 4096 →
    CodeOutcome .lzwKwkwk s p f s.lzw.nextCode (xs ++ [f]) ∧
      ∀ t, LzwOk s → exec .lzwKwkwk s = .next t → Expands t.lzw.clear t.dict s.lzw.nextCode (xs ++ [f])

/-- R218: the width, the next code and `prev` are reset, nothing else; a second clear code changes nothing; no other code
lets the width shrink. -/
def Obligations.ClearCodeResets : Prop :=
  ∀ s : State, ∃ t, exec .lzwClear s = .next t ∧
    t = { s with lzw := { s.lzw with
      codeSize := s.lzw.mcs.toNat + 1, nextCode := s.lzw.clear + 2, prev := none } } ∧
    exec .lzwClear t = .next t ∧
    ∀ (i : Instr) (c : Nat) (u : State), i ∈ [.lzwEnd, .lzwFirst c, .lzwLit c, .lzwDict c, .lzwKwkwk, .lzwBadCode c] →
      exec i s = .next u → s.lzw.codeSize ≤ u.lzw.codeSize

/-- R219 and R234: an end code draws nothing; the rest of the current sub-block and the chain are read and discarded,
unless the chain's end was already consumed. The spec's decision D28 stands behind the drain. -/
def Obligations.EndCodeDrains : Prop :=
  ∀ s : State, s.sp ≤ s.src.length →
    (s.bits.termSeen = true ∨ s.bits.eosSeen = true → exec .lzwEnd s = .next { s with ctl := none }) ∧
    (s.bits.termSeen = false → s.bits.eosSeen = false →
      (s.src.length < s.sp + s.bits.blkRem.toNat →
        exec .lzwEnd s = .next { s with sp := s.src.length, ctl := none }) ∧
      ∀ n, s.sp + s.bits.blkRem.toNat ≤ s.src.length → Drains (s.src.drop (s.sp + s.bits.blkRem.toNat)) n →
        exec .lzwEnd s = .next { s with sp := s.sp + s.bits.blkRem.toNat + n, ctl := none })

/-- R222 and R225: a code with no expansion raises BadCodeFault (the spec's decision D25); everything else stays. -/
def Obligations.BadCodeFaults : Prop :=
  ∀ (c : Nat) (s : State), s.lzw.endCode = s.lzw.clear + 1 →
    (s.lzw.prev = none ∧ s.lzw.endCode < c ∨
      (∃ p, s.lzw.prev = some p) ∧ s.lzw.endCode < c ∧
        (s.lzw.nextCode < c ∨ c = s.lzw.nextCode ∧ s.lzw.nextCode = 4096)) →
    exec (.lzwBadCode c) s = .next { s with
      ctl := none, gif := { s.gif with state := .faulted, fault := some (.badCode c) } }

/-- R111: the classes of a code value, tested in the order of the table. -/
def Obligations.CodeClasses : Prop :=
  ∀ (x : CodeCtx) (c : Nat), x.endCode = x.clear + 1 → x.endCode < x.nextCode →
    (decodeCode x c = .lzwClear ↔ c = x.clear) ∧
    (decodeCode x c = .lzwEnd ↔ c = x.endCode) ∧
    (decodeCode x c = .lzwFirst c ↔ x.prev = none ∧ c < x.clear) ∧
    (decodeCode x c = .lzwLit c ↔ x.prev ≠ none ∧ c < x.clear) ∧
    (decodeCode x c = .lzwDict c ↔ x.prev ≠ none ∧ x.endCode < c ∧ c < x.nextCode) ∧
    (decodeCode x c = .lzwKwkwk ↔ x.prev ≠ none ∧ c = x.nextCode ∧ x.nextCode < 4096) ∧
    (decodeCode x c = .lzwBadCode c ↔
      x.prev = none ∧ x.endCode < c ∨
      x.prev ≠ none ∧ (x.nextCode < c ∨ c = x.nextCode ∧ 4096 ≤ x.nextCode))

/-- Stops of code tokens at what R111 and R213 rule out (entries 8 and 21 choose the stop): a token whose class does not
hold, a chain through an entry nothing has written, a palette entry nothing has written. -/
def Obligations.CodeTokenStops : Prop :=
  ∀ (c : Nat) (s : State),
    (decodeCode (codeCtx s) c ≠ .lzwFirst c → exec (.lzwFirst c) s = .fault .codeClass) ∧
    (decodeCode (codeCtx s) c ≠ .lzwLit c → exec (.lzwLit c) s = .fault .codeClass) ∧
    (decodeCode (codeCtx s) c ≠ .lzwDict c → exec (.lzwDict c) s = .fault .codeClass) ∧
    (decodeCode (codeCtx s) c ≠ .lzwBadCode c → exec (.lzwBadCode c) s = .fault .codeClass) ∧
    (decodeCode (codeCtx s) s.lzw.nextCode ≠ .lzwKwkwk → exec .lzwKwkwk s = .fault .codeClass) ∧
    (decodeCode (codeCtx s) c = .lzwDict c → memRead s.dict c = none →
      exec (.lzwDict c) s = .fault (.unwrittenDict c)) ∧
    (decodeCode (codeCtx s) c = .lzwFirst c → isTransparent s.gce c = false → c < (selectedPalette s).2 →
      memRead (selectedPalette s).1 c = none → exec (.lzwFirst c) s = .fault (.unwrittenPalette c))

/-- R211 and R212: a minimum code size outside 2..11 faults before anything is read; otherwise the set-up, seen on an image
of no pixels (R214), which goes straight to the drain step. The range, the state at the start and the empty image are the
spec's decisions D24, D29 and D22. Once GIFD has ended or faulted the operation changes nothing (R313, decision D33). -/
def Obligations.LzwSetUp : Prop :=
  ∀ s : State,
    (s.gif.state = .done ∨ s.gif.state = .error ∨ s.gif.state = .faulted → exec .lzwImage s = .next s) ∧
    (s.gif.state = .idle ∨ s.gif.state = .ready →
    (s.lzw.mcs.toNat < 2 ∨ 11 < s.lzw.mcs.toNat →
      exec .lzwImage s = .next { s with
        ctl := none, gif := { s.gif with state := .faulted, fault := some (.lzwParam s.lzw.mcs) } }) ∧
    (2 ≤ s.lzw.mcs.toNat → s.lzw.mcs.toNat ≤ 11 → s.img.npix = 0 → s.sp ≤ s.src.length →
      ∀ n, Drains (s.src.drop s.sp) n →
        exec .lzwImage s = .next { s with
          sp := s.sp + n, ctl := none, stkN := 0
          lzw := { mcs := s.lzw.mcs, clear := 1 <<< s.lzw.mcs.toNat, endCode := 1 <<< s.lzw.mcs.toNat + 1
                   codeSize := s.lzw.mcs.toNat + 1, nextCode := 1 <<< s.lzw.mcs.toNat + 2, prev := none }
          bits := { buf := 0, cnt := 0, blkRem := 0, termSeen := false, eosSeen := false } }))

/-- R210, R213: on a drawable image LZW.IMAGE always ends, done or with one of its three faults raised, whatever the data;
no prefix chain fails (the spec derives R213), and DST changes inside the image's pixels only. Premises: GIFD has not stopped
(LzwSetUp says what happens then), the palette is whole and the image in DST. -/
def Obligations.LzwImageAlwaysEnds : Prop :=
  ∀ s : State, s.gif.state = .idle ∨ s.gif.state = .ready → ImageReady s → CursorIn s →
    ∃ t, exec .lzwImage s = .next t ∧ t.ctl = none ∧ CursorIn t ∧
      t = { s with
        dst := t.dst, ctl := none, sp := t.sp, img := { s.img with pixN := t.img.pixN }
        lzw := { t.lzw with mcs := s.lzw.mcs }, bits := t.bits, dict := t.dict, stk := t.stk, stkN := t.stkN
        gif := t.gif } ∧
      (t.gif = s.gif ∨ ∃ f, t.gif = { s.gif with state := .faulted, fault := some f } ∧
        (f = .lzwParam s.lzw.mcs ∨ (∃ c, f = .badCode c) ∨ ∃ p, f = .palette p)) ∧
      ∀ b, (∀ k < s.img.npix, b ≠ imgAddr s.gif s.img k ∧ b ≠ imgAddr s.gif s.img k + 1) →
        dstByte t b = dstByte s b

/-- R213, R237 (a), (b): starting an image establishes the dictionary's validity, and every code read in a valid
dictionary keeps it or raises a fault; between clear codes the width and the next code never shrink. The spec derives
these properties. -/
def Obligations.DictionaryStaysValid : Prop :=
  (∀ (s : State) (rest : List Input), s.inbox = .start .lzwImage :: rest → s.ctl = none →
    s.sched.frameBusy = false → s.gif.state = .idle ∨ s.gif.state = .ready → 2 ≤ s.lzw.mcs.toNat → s.lzw.mcs.toNat ≤ 11 →
    ∃ t, step s = .next t ∧ t.ctl = some .lzwCode ∧ LzwOk t) ∧
  ∀ (s : State) (c : Nat), LzwOk s → ImageReady s → CursorIn s → s.img.pixN < s.img.npix →
    let i := decodeCode (codeCtx s) c
    ∃ t, exec i s = .next t ∧
      ((∃ f, t.gif = { s.gif with state := .faulted, fault := some f }) ∨
        t.gif = s.gif ∧ LzwOk t ∧
          (i ≠ .lzwClear → s.lzw.codeSize ≤ t.lzw.codeSize ∧ s.lzw.nextCode ≤ t.lzw.nextCode))

/-- R110 and R216: a code is the next `code_size` bits of the data bytes' bit string, least significant first, across
byte and sub-block boundaries; with too few bits left no code is read, and `term_seen` or, where SRC ends inside the chain
(R197, R215), `eos_seen` is set. Every reader that has seen neither has such a bit string; one that has seen either reads from
the bits it still holds alone. The bit order is general knowledge G6, what becomes of the rest decision D28. -/
def Obligations.CodesAreBitFields : Prop :=
  (∀ (s : State) (cut : Bool) (bits : List Bool), Pending s cut bits →
    (s.lzw.codeSize ≤ bits.length →
      ∃ t, readCode s = (some (ofBits (bits.take s.lzw.codeSize)), t) ∧
        t = { s with sp := t.sp, bits := t.bits } ∧ Pending t cut (bits.drop s.lzw.codeSize)) ∧
    (bits.length < s.lzw.codeSize →
      ∃ t, readCode s = (none, t) ∧ t = { s with sp := t.sp, bits := t.bits } ∧
        t.bits.eosSeen = cut ∧ t.bits.termSeen = !cut ∧ (cut = true → t.sp = s.src.length))) ∧
  (∀ s : State, s.bits.termSeen = false → s.bits.eosSeen = false → s.bits.buf < 2 ^ s.bits.cnt →
    ∃ (cut : Bool) (bits : List Bool), Pending s cut bits) ∧
  ∀ s : State, s.bits.termSeen = true ∨ s.bits.eosSeen = true →
    (s.lzw.codeSize ≤ s.bits.cnt →
      readCode s = (some (s.bits.buf % 2 ^ s.lzw.codeSize), { s with
        bits := { s.bits with buf := s.bits.buf / 2 ^ s.lzw.codeSize, cnt := s.bits.cnt - s.lzw.codeSize } })) ∧
    (s.bits.cnt < s.lzw.codeSize → readCode s = (none, s))

/-! ## SCHED -/

/-- R254, R255, R256: the scale factors, the extra rows, the interval (kept if there is one), frame 0, the timer armed at
that interval, the pass started. Premises: LOADING, not faulted, frames in the folder, a frame that fits. The
formula for the extra rows is the spec's decision D37, the arming D43, the start of the pass D45. -/
def Obligations.LoadStartsPass : Prop :=
  ∀ s : State, s.sched.state = .loading → s.sched.fault = none →
    let n := (s.dir.getD s.sched.folderIdx []).length
    let sx := s.cfg.surfW / s.cfg.frameW
    let sy := s.cfg.surfH / s.cfg.frameH
    let v := match s.sched.interval with
      | none => max 1 (s.cfg.targetLoopMs / n)
      | some v => v
    1 ≤ n → 1 ≤ s.cfg.frameW → s.cfg.frameW ≤ s.cfg.surfW → 1 ≤ s.cfg.frameH → s.cfg.frameH ≤ s.cfg.surfH →
    s.cfg.offY + s.cfg.frameH * sy ≤ s.cfg.surfH →
    exec .schLoad s = .next { s with
      sched := { s.sched with
        state := .timedPlayback, interval := some v, frameIdx := 0, frameCount := n, passStart := s.nowMs
        scaleX := sx, scaleY := sy, extraRows := s.cfg.surfH - s.cfg.offY - s.cfg.frameH * sy }
      timer := { armed := true, period := v } }

/-- R252 and the faults of R254, in the order of R310: an empty folder, a scale of zero, negative extra rows; each is
recorded, `sched_state` keeps its value and the timer is disarmed (R312). The faults are the spec's decisions D42, D37,
D47 and D51. -/
def Obligations.LoadFaults : Prop :=
  ∀ s : State, s.sched.state = .loading → s.sched.fault = none →
    let n := (s.dir.getD s.sched.folderIdx []).length
    let sx := s.cfg.surfW / s.cfg.frameW
    let sy := s.cfg.surfH / s.cfg.frameH
    (n = 0 → exec .schLoad s = .next { s with
      sched := { s.sched with frameCount := 0, fault := some (.emptyFolder s.sched.folderIdx) }
      timer := { s.timer with armed := false } }) ∧
    (1 ≤ n → 1 ≤ s.cfg.frameW → 1 ≤ s.cfg.frameH →
      (s.cfg.surfW < s.cfg.frameW ∨ s.cfg.surfH < s.cfg.frameH →
        exec .schLoad s = .next { s with
          sched := { s.sched with frameCount := n, scaleX := sx, scaleY := sy, fault := some .scaleZero }
          timer := { s.timer with armed := false } }) ∧
      (s.cfg.frameW ≤ s.cfg.surfW → s.cfg.frameH ≤ s.cfg.surfH → s.cfg.surfH < s.cfg.offY + s.cfg.frameH * sy →
        exec .schLoad s = .next { s with
          sched := { s.sched with frameCount := n, scaleX := sx, scaleY := sy, fault := some .extraNegative }
          timer := { s.timer with armed := false } }))

/-- R257, R259, R277: the tick sets the flag and nothing else; without the flag the main context's step changes nothing;
a folder switch discards the interval and enters LOADING with the timer disarmed and the flag clear. -/
def Obligations.TickWaitSwitch : Prop :=
  (∀ s : State,
    s.timer.armed = true → exec .schTick s = .next { s with sched := { s.sched with frameReady := true } }) ∧
  (∀ s : State, s.sched.state = .timedPlayback → s.sched.frameReady = false → s.sched.frameBusy = false →
    exec .schStep s = .next s) ∧
  ∀ s : State, s.sched.state = .folderSwitch → s.sched.fault = none →
    exec .schSwitch s = .next { s with
      sched := { s.sched with interval := none, state := .loading, frameReady := false }
      timer := { s.timer with armed := false } }

/-- An event that is not enabled does not occur: the tick while the timer is disarmed (R257, R258), a scheduler operation
in a state that does not enable it (R250), a frame branch while GIFD is the active decoder (R317). That an offered event then
leaves everything as it is is entry 4; that an open GIF stream holds the frame branch back is entry 28. -/
def Obligations.NotEnabledChangesNothing : Prop :=
  ∀ s : State,
    (s.timer.armed = false → exec .schTick s = .next s) ∧
    (s.sched.state ≠ .loading → exec .schLoad s = .next s) ∧
    (s.sched.state ≠ .timedPlayback → exec .schStep s = .next s) ∧
    (s.gif.state = .ready → s.sched.frameBusy = false → exec .schStep s = .next s) ∧
    (s.sched.state ≠ .folderSwitch → exec .schSwitch s = .next s)

/-- R308, R258: a tick commutes with every instruction but the scheduler's that test or clear the flag or arm or disarm
the timer, a whole decode among them: the order of the two makes no difference. The
spec derives R308. -/
def Obligations.TickCommutes : Prop :=
  ∀ (i : Instr) (s t : State), i ≠ .schTick → i ≠ .schStep → i ≠ .schLoad → i ≠ .schSwitch →
    s.timer.armed = true → exec i s = .next t →
    ∃ s' t', exec .schTick s = .next s' ∧ exec i s' = .next t' ∧ exec .schTick t = .next t' ∧
      t' = { t with sched := { t.sched with frameReady := true } }

/-- R260 to R265: with the flag set, one step is the whole frame branch: the flag cleared, the decode of R261 (the DST it
leaves is that call's), then what `FrameCounted` says: the count and the presentation throttle, the next frame, and at the end
of the pass the corrected interval and LOADING. A branch taken token by token ends the same way once its decode has ended. The
throttle's phase and the rounding are the spec's decisions D38 and D34; that the pass end reads the state's clock is entry 13,
that no frame begins while GIFD is the active decoder entry 28, the poll then owed entry 41. -/
def Obligations.FrameBranch : Prop :=
  (∀ (s : State) (file : List Byte) (v : Nat), s.sched.state = .timedPlayback → s.sched.fault = none →
    s.sched.frameReady = true → s.sched.frameBusy = false → s.sched.interval = some v → 1 ≤ s.cfg.refreshDiv →
    s.gif.state ≠ .ready → (s.dir.getD s.sched.folderIdx [])[s.sched.frameIdx]? = some file →
    let len := 2 * s.cfg.surfW * s.cfg.surfH
    drleCheck s.cfg.frameW s.cfg.frameH s.cfg.offX s.cfg.offY s.cfg.surfW s.sched.scaleX s.sched.scaleY
      s.sched.extraRows len = none →
    ∃ t u, exec .schStep s = .next t ∧
      exec (.drleDecode file s.cfg.frameW s.cfg.frameH s.cfg.offX s.cfg.offY s.cfg.surfW s.sched.scaleX
        s.sched.scaleY s.sched.extraRows len) s = .next u ∧
      FrameCounted { s with
        src := u.src, sp := u.sp, dst := u.dst, dstLen := u.dstLen, drle := u.drle, ctl := none
        sched := { s.sched with frameReady := false } } v t) ∧
  ∀ (s : State) (v : Nat), s.sched.state = .timedPlayback → s.sched.fault = none → s.sched.frameBusy = true →
    s.ctl = none → s.sched.interval = some v → ∃ t, exec .schStep s = .next t ∧ FrameCounted s v t

/-- R261: a fault of the frame's decode faults SCHED: recorded, the timer disarmed, `sched_state` and DST as they were
(decision D51). Premise: GIFD is not the active decoder (entry 28). -/
def Obligations.FrameDecodeFault : Prop :=
  ∀ (s : State) (file : List Byte) (f : ModelFault), s.sched.state = .timedPlayback → s.sched.fault = none →
    s.sched.frameReady = true → s.sched.frameBusy = false → 1 ≤ s.cfg.refreshDiv → s.gif.state ≠ .ready →
    (s.dir.getD s.sched.folderIdx [])[s.sched.frameIdx]? = some file →
    drleCheck s.cfg.frameW s.cfg.frameH s.cfg.offX s.cfg.offY s.cfg.surfW s.sched.scaleX s.sched.scaleY
      s.sched.extraRows (2 * s.cfg.surfW * s.cfg.surfH) = some f →
    exec .schStep s = .next { s with
      sched := { s.sched with frameReady := false, fault := some f }, timer := { s.timer with armed := false } }

/-- R265, the corner cases: on target the interval stays; a correction that would make it 0 or less gives 1; a difference
smaller than the frame count corrects by 0 if positive, by -1 if negative; the worked example. The rounding is the spec's decision
D34. -/
def Obligations.IntervalCorrection : Prop :=
  (∀ (target observed : Int) (frames v : Nat), 1 ≤ frames → 1 ≤ v →
    (observed = target → corrected target observed frames v = v) ∧
    ((v : Int) + (target - observed) / (frames : Int) ≤ 0 → corrected target observed frames v = 1) ∧
    (0 < target - observed → target - observed < frames → corrected target observed frames v = v) ∧
    (target - observed < 0 → -(frames : Int) < target - observed →
      corrected target observed frames v = max 1 (v - 1)) ∧
    1 ≤ corrected target observed frames v) ∧
  corrected 1000 1013 4 250 = 246

/-- R278 (b): if a pass takes `frames * interval + c` milliseconds with a constant overhead `c`, one correction gives
`fdiv(target - c, frames)`; unless the floor of 1 acts, the next pass is short of the target by less than one millisecond
a frame, and the interval then stays put. The spec derives this. -/
def Obligations.IntervalConverges : Prop :=
  ∀ (target c : Int) (frames v : Nat), 1 ≤ frames → 1 ≤ v →
    let v' := corrected target ((frames : Int) * v + c) frames v
    (v' : Int) = max 1 ((target - c) / (frames : Int)) ∧
    (1 ≤ (target - c) / (frames : Int) →
      0 ≤ target - ((frames : Int) * v' + c) ∧ target - ((frames : Int) * v' + c) < frames) ∧
    corrected target ((frames : Int) * v' + c) frames v' = v'

/-- R270 to R276. A poll that is not enabled does nothing: R270 says when it is enabled, that one offered otherwise leaves
everything as it is is the model's choice (entry 4). Inside the debounce window only the levels are recorded; outside
it A's edge goes forward, else B's goes backward, with the stamp, the event and FOLDER_SWITCH; else the levels alone. The
operands are what the ports read (R270; RefusedOutsideDomain says what becomes of others). The spec's decisions D40 and D41
stand behind the stamp, the levels and the wrap; that a poll settles what the main loop owes is entry 41. -/
def Obligations.PollButtons : Prop :=
  (∀ (now : Nat) (a b : Bool) (s : State), s.sched.state ≠ .timedPlayback ∨ s.sched.frameBusy = true →
    exec (.schPoll now a b) s = .next s) ∧
  ∀ s : State, s.sched.state = .timedPlayback → s.sched.frameBusy = false → s.sched.fault = none → 1 ≤ s.cfg.folderCount →
    let poll := exec (.schPoll s.nowMs s.pins.a s.pins.b) s
    let levels : BtnRegs := { s.btn with lastA := !s.pins.a, lastB := !s.pins.b }
    let recorded : State := { s with btn := levels, sched := { s.sched with pollDue := false } }
    let window := ∃ t, s.btn.lastSwitch = some t ∧ s.nowMs < t + 200
    let edgeA := s.pins.a = false ∧ s.btn.lastA = false
    let edgeB := s.pins.b = false ∧ s.btn.lastB = false
    let switched := fun folder : Nat => ({ recorded with
      out := s.out ++ [.folderSwitch folder]
      sched := { recorded.sched with folderIdx := folder, state := .folderSwitch }
      btn := { levels with lastSwitch := some s.nowMs } } : State)
    (window → poll = .next recorded) ∧
    (¬ window → edgeA → poll = .next (switched ((s.sched.folderIdx + 1) % s.cfg.folderCount))) ∧
    (¬ window → ¬ edgeA → edgeB →
      poll = .next (switched ((s.sched.folderIdx + s.cfg.folderCount - 1) % s.cfg.folderCount))) ∧
    (¬ window → ¬ edgeA → ¬ edgeB → poll = .next recorded)

/-- R312: after a model fault in SCHED it performs no further operation: no event changes anything (the timer is
disarmed, as the fault left it); and every step but a reset keeps the fault and SCHED's registers (decision D51;
entry 36). -/
def Obligations.FaultedSchedStops : Prop :=
  (∀ (s : State) (now : Nat) (a b : Bool), s.sched.fault.isSome = true → s.timer.armed = false →
    exec .schLoad s = .next s ∧ exec .schTick s = .next s ∧ exec .schStep s = .next s ∧
    exec (.schPoll now a b) s = .next s ∧ exec .schSwitch s = .next s) ∧
  ∀ s t : State, s.sched.fault.isSome = true → s.timer.armed = false → noReset s →
    step s = .next t → t.sched = s.sched ∧ t.timer = s.timer ∧ t.btn = s.btn

/-! ## The machine -/

/-- A step runs the decoded token: with nothing in the inbox and a stream being read, the bytes at the cursor, or the code
of the bit reader, decode to a token and the step is that token's meaning after the cursor has moved past it; where there
is no code, the image ends (R217, R220, R235). Where SRC ends before a token: at a block's introducer (R175, R179) or at the
label after it (R180) the GIF stream ends; at a record's header (R144) the decode stops, its outcome held as entry 16 says. -/
def Obligations.StepRunsToken : Prop :=
  (∀ (s : State) (p : Pos) (i : Instr) (n : Nat), s.inbox = [] → s.ctl = some p →
    decodeAt p s.gif.scrFlags (s.src.drop s.sp) = .ok (i, n) → step s = exec i { s with sp := s.sp + n }) ∧
  (∀ (s s1 : State) (c : Nat), s.inbox = [] → s.ctl = some .lzwCode → s.img.pixN < s.img.npix →
    readCode s = (some c, s1) → step s = exec (decodeCode (codeCtx s1) c) s1) ∧
  (∀ (s s1 : State), s.inbox = [] → s.ctl = some .lzwCode → s.img.pixN < s.img.npix →
    readCode s = (none, s1) → step s = exec .lzwEnd s1) ∧
  (∀ s : State, s.inbox = [] → s.ctl = some .lzwCode → s.img.npix ≤ s.img.pixN → step s = exec .lzwEnd s) ∧
  (∀ s : State, s.inbox = [] → s.ctl = some .gifBlock → s.src.drop s.sp = [] ∨ s.src.drop s.sp = [0x21] →
    step s = .next { s with
      sp := s.src.length, ctl := none, gif := { s.gif with state := .done }, out := s.out ++ [.streamEnd] }) ∧
  ∀ s : State, s.inbox = [] → s.ctl = some .drle → s.src.length < s.sp + 2 →
    step s = .next { s with
      sp := s.src.length, ctl := none, ret := if s.sched.frameBusy then s.ret else .done }

/-- Who moves next (entries 1 and 2; R250, R279): the oldest entry of the inbox, else the main context with the operation
SCHED's state enables, in GIF_FILE mode none (entry 27). A command offered or started while an operation is in progress does
nothing, but for the tick, which is the model's choice (entry 4), as is the refusal of a stream's token offered as a command
(entry 37). A turn of SCHED's loop begins with the poll still owed since the last frame, where a poll is enabled (R270, entry 41). An
operation started and run token by token ends in the same state as the one performed as one action. -/
def Obligations.WhoMovesNext : Prop :=
  (∀ (s : State) (i : Instr) (rest : List Input), s.inbox = .op i :: rest → isCommand i = true →
    (s.ctl = none → s.sched.frameBusy = false → i ≠ .schStep ∨ s.sched.pollDue = false ∨ s.sched.state ≠ .timedPlayback ∨ s.sched.fault.isSome = true →
      step s = exec i { s with inbox := rest }) ∧
    (s.ctl = none → s.sched.frameBusy = false → s.sched.state = .timedPlayback → s.sched.fault = none →
      i = .schStep → s.sched.pollDue = true →
      step s = andThen (exec (.schPoll s.nowMs s.pins.a s.pins.b) { s with inbox := rest }) (exec .schStep)) ∧
    (s.ctl.isSome = true ∨ s.sched.frameBusy = true → i ≠ .schTick → step s = .next { s with inbox := rest })) ∧
  (∀ (s : State) (i : Instr) (rest : List Input), s.inbox = .start i :: rest → isCommand i = true →
    (s.ctl = none → s.sched.frameBusy = false → step s = startOp i { s with inbox := rest }) ∧
    (s.ctl.isSome = true ∨ s.sched.frameBusy = true → i ≠ .schTick → step s = .next { s with inbox := rest })) ∧
  (∀ (s : State) (i : Instr) (t : State), s.inbox = [] → s.ctl = none → s.sched.frameBusy = false →
    isCommand i = true → step { s with inbox := [.op i] } = .next t →
    ∃ n, Host.Core.run core n { s with inbox := [.start i] } = .next t) ∧
  (∀ (s : State) (rest : List Input), s.inbox = .op .schTick :: rest →
    step s = exec .schTick { s with inbox := rest }) ∧
  (∀ (s : State) (i : Instr) (rest : List Input),
    s.inbox = .op i :: rest ∨ s.inbox = .start i :: rest → isCommand i = false → step s = .refused .streamToken) ∧
  ∀ s : State, s.inbox = [] → s.ctl = none → s.sched.fault = none →
    (s.sched.frameBusy = true → step s = exec .schStep s) ∧
    (s.sched.frameBusy = false → s.cfg.mode = .gifFile → step s = .next s) ∧
    (s.sched.frameBusy = false → s.cfg.mode = .drleFolder →
      (s.sched.state = .loading → step s = exec .schLoad s) ∧
      (s.sched.state = .timedPlayback → s.sched.pollDue = false → step s = exec .schStep s) ∧
      (s.sched.state = .timedPlayback → s.sched.pollDue = true →
        step s = andThen (exec (.schPoll s.nowMs s.pins.a s.pins.b) s) (exec .schStep)) ∧
      (s.sched.state = .folderSwitch → step s = exec .schSwitch s))

/-- Decoding what was encoded gives it back, with every operand at every value its encoding admits; a global table is read
where the screen's flags announce its length. -/
def Obligations.DecodeOfEncode : Prop :=
  ∀ (i : Instr) (p : Pos) (bytes rest : List Byte) (flags : Byte), i.wf = true → encode i = some (p, bytes) →
    (∀ table, i = .gifGct table → tableSize flags = table.length) →
    decodeAt p flags (bytes ++ rest) = .ok (i, bytes.length)

/-- What is decoded is well formed and encodes to exactly the bytes it was read from; a code's class encodes back to the
code (R111). -/
def Obligations.EncodeOfDecode : Prop :=
  (∀ (p : Pos) (flags : Byte) (bytes : List Byte) (i : Instr) (n : Nat), decodeAt p flags bytes = .ok (i, n) →
    i.wf = true ∧ n ≤ bytes.length ∧ encode i = some (p, bytes.take n)) ∧
  ∀ (x : CodeCtx) (c : Nat), encodeCode x (decodeCode x c) = some c

/-- Words written out from 30_encoding.md (R92, R93, R101, R103, R104, R107): what the decoder reads from them. -/
def Obligations.SampleWords : Prop :=
  decodeTableWord 16 0x0000 = some .drleEnd ∧ decodeTableWord 16 0x0201 = some (.drleRec 1 2) ∧
  decodeTableWord 48 0x613738464947 = some .gifHeader87a ∧ decodeTableWord 48 0x613938464947 = some .gifHeader89a ∧
  decodeTableWord 56 0x00008100020003 = some (.gifLsd 3 2 0x81 0 0) ∧
  decodeTableWord 8 0x3B = some .gifTrailer ∧ decodeTableWord 8 0x00 = some (.gifUnknown 0) ∧
  decodeTableWord 8 0x2C = some (.gifImage 0 0 0 0 0) ∧ decodeTableWord 8 0x21 = some (.gifExt 0) ∧
  decodeTableWord 16 0xF921 = some (.gifGce [])

/-- Every step keeps every memory in its canonical form, from any state that has it. The spec gives the memories (R60); that
each is a list with rising addresses, an entry nothing has written being absent, is the model's choice (entry 8). -/
def Obligations.MemoriesStayCanonical : Prop :=
  ∀ s t : State, MemoriesWf s → step s = .next t → MemoriesWf t

/-- Every step keeps the cursor inside SRC or at its end (R10, R36) and the global table whole (R178, R39). -/
def Obligations.CursorAndTableStay : Prop :=
  (∀ s t : State, CursorIn s → step s = .next t → CursorIn t) ∧
  ∀ s t : State, GctOk s → step s = .next t → GctOk t

/-- Every step keeps what the rules promise of SCHED's registers (R32, R253 to R255, R260, R263 to R265, R312). -/
def Obligations.SchedulerStaysOk : Prop := ∀ s t : State, SchedOk s → step s = .next t → SchedOk t

/-- R341 (values of 10_state.md R22 to R34) after reset, and the invariants there; the reset event gives every register of
the units those values, DST keeping what was written. R340: it comes at any time; in the middle of an operation "the decode
simply does not continue, and DST holds whatever was written", which R73 makes the first stores in program order: pixel by
pixel as the rules draw them, high byte before low byte. Each byte of the first `count` is as the operation would leave it,
every other as it was, and nothing is sent (how the point is named is entry 40, what else a reset keeps entry 25). -/
def Obligations.ResetLeaves : Prop :=
  (∀ s : State, s = State.reset ∨ (∃ u x rest, u.inbox = x :: rest ∧ isReset x = true ∧ step u = .next s) →
    s.sp = 0 ∧ s.drle.pos = 0 ∧ s.drle.recSkip = 0 ∧ s.drle.recWrite = 0 ∧ s.drle.recLeft = 0 ∧
    s.gif.state = .idle ∧ s.gif.scrW = 0 ∧ s.gif.scrH = 0 ∧ s.gif.scrFlags = 0 ∧ s.gif.bgIndex = 0 ∧
    s.gif.gctLen = 0 ∧ s.gif.fault = none ∧
    s.gce = { seen := false, delayCs := 0, transpOn := false, transpIdx := 0 } ∧
    s.img = { left := 0, top := 0, w := 0, h := 0, flags := 0, lctLen := 0, palSel := .noTable, npix := 0, pixN := 0 } ∧
    s.lzw = { mcs := 0, clear := 0, endCode := 0, codeSize := 0, nextCode := 0, prev := none } ∧
    s.bits = { buf := 0, cnt := 0, blkRem := 0, termSeen := false, eosSeen := false } ∧ s.stkN = 0 ∧
    s.sched = { state := .loading, interval := none, frameReady := false, frameIdx := 0, frameCount := 0
                passStart := 0, decodedCtr := 0, scaleX := 1, scaleY := 1, extraRows := 0, folderIdx := 0
                frameBusy := false, fault := none, pollDue := false } ∧ s.callFault = none ∧ s.ctl = none ∧
    s.timer.armed = false ∧ s.btn = { lastA := false, lastB := false, lastSwitch := none }) ∧
  (∀ (u : State) (rest : List Input), u.inbox = .reset :: rest →
    ∃ t, step u = .next t ∧ t.dst = u.dst ∧ t.inbox = rest) ∧
  (∀ (u v : State) (op : Option Instr) (count : Nat) (rest : List Input), u.inbox = .cut op count :: rest →
    inFlight op { u with inbox := rest } = .next v →
    let leaves := fun pixels : List Nat => ∃ t, step u = .next t ∧ t.inbox = rest ∧ t.out = u.out ∧
      ∀ a, dstByte t a =
        if a ∈ (pixels.flatMap fun p => [p, p + 1]).take count ∧ (dstByte v a).isSome then dstByte v a else dstByte u a
    let image := op = some .gifNext ∨ op = some .lzwImage ∨ op = none ∧ (u.ctl = some .gifBlock ∨ u.ctl = some .lzwCode)
    (∀ a c, op = some (.pxcStore a c) → leaves [a]) ∧
    (image → leaves ((List.range v.img.npix).map (imgAddr v.gif v.img))) ∧
    (¬ image → (∀ a c, op ≠ some (.pxcStore a c)) →
      leaves ((List.range (v.drle.w * v.drle.h)).flatMap (blitAddrs v.drle)))) ∧
  MemoriesWf State.reset ∧ CursorIn State.reset ∧ SchedOk State.reset ∧ GctOk State.reset ∧ OneDecoder State.reset

/-- R35 (no rule writes a configuration register), R315 (b) (the clock is non-decreasing): no step changes the
configuration or DIR, none sets the clock back, and only the environment's clock entry moves it, only its buttons entry the
levels of BTN_A and BTN_B (R6, R270). SRC changes only when the environment connects another, or a delta-RLE decode starts on
its file, called directly or for a frame (R60, R61, R76). Then what the environment's entries do: the clock, the buttons, a
turn of the main context, and another SRC, accepted where no decoder runs on the present one, or just before the GIF.START that
abandons its stream (entry 15; where the cursor then stands is entry 39). The inbox is the model's (entry 2). -/
def Obligations.PortsStay : Prop :=
  (∀ s t : State, step s = .next t →
    t.cfg = s.cfg ∧ t.dir = s.dir ∧ s.nowMs ≤ t.nowMs ∧
    ((∀ ms, s.inbox.head? ≠ some (.clock ms)) → t.nowMs = s.nowMs) ∧
    ((∀ a b, s.inbox.head? ≠ some (.buttons a b)) → t.pins = s.pins) ∧ t.inbox = s.inbox.tail ∧
    (t.src = s.src ∨ s.inbox.head? = some (.source t.src) ∨
      (∃ w h x y stride sx sy e len, s.inbox.head? = some (.op (.drleDecode t.src w h x y stride sx sy e len)) ∨
        s.inbox.head? = some (.start (.drleDecode t.src w h x y stride sx sy e len))) ∨
      (s.inbox = [] ∨ s.inbox.head? = some .turn ∨ s.inbox.head? = some (.op .schStep) ∨
          s.inbox.head? = some (.start .schStep)) ∧
        s.sched.state = .timedPlayback ∧ s.sched.frameReady = true ∧
        (s.dir.getD s.sched.folderIdx [])[s.sched.frameIdx]? = some t.src)) ∧
  (∀ (s : State) (ms : Nat) (rest : List Input), s.inbox = .clock ms :: rest → s.nowMs ≤ ms →
    step s = .next { s with inbox := rest, nowMs := ms }) ∧
  (∀ (s : State) (a b : Bool) (rest : List Input), s.inbox = .buttons a b :: rest →
    step s = .next { s with inbox := rest, pins := { a := a, b := b } }) ∧
  (∀ (s : State) (rest : List Input), s.inbox = .turn :: rest → step s = advance { s with inbox := rest }) ∧
  (∀ s : State, s.inbox = [] → step s = advance s) ∧
  ∀ (s : State) (bytes : List Byte) (rest : List Input), s.inbox = .source bytes :: rest →
    s.ctl = none → s.sched.frameBusy = false →
    s.gif.state ≠ .ready ∨ (∃ w h, rest.head? = some (.op (.gifStart w h)) ∨ rest.head? = some (.start (.gifStart w h))) →
    step s = .next { s with inbox := rest, src := bytes, sp := 0 }

/-- R65: "No rule reads a DST byte." An instruction's outcome does not depend on what DST held: started with any other
content it ends in the same way, every register the same, and each byte of DST is either left in place in both or written
with the same value in both. -/
def Obligations.DstIsWriteOnly : Prop :=
  ∀ (i : Instr) (s : State) (m : Mem Byte),
    match exec i s, exec i { s with dst := m } with
    | .next t, .next t' =>
      t' = { t with dst := t'.dst } ∧
      ∀ b, (dstByte t b = dstByte s b ∧ dstByte t' b = memRead m b) ∨ dstByte t' b = dstByte t b
    | .fault r, .fault r' => r = r'
    | .refused r, .refused r' => r = r'
    | _, _ => False

/-- R171, R313: "After a model fault only reset does" leave FAULTED; after STREAM_END or ERROR only GIF.START or reset leave
that state. R3, R317: "codec and GIF decoder are never both active". Once GIFD has ended or faulted no part of a stream is being
read, and no delta-RLE decode is in progress while a GIF stream is open: every step keeps both (decision D33; entry 28 for the
second). R304: a fault of a direct call stays recorded until reset (entry 42). -/
def Obligations.FaultedUntilReset : Prop :=
  (∀ s t : State, OneDecoder s → step s = .next t →
    OneDecoder t ∧
    (noReset s → s.gif.state = .faulted → t.gif.state = .faulted) ∧
    (noReset s → s.gif.state = .done ∨ s.gif.state = .error →
      (∀ expW expH, s.inbox.head? ≠ some (.op (.gifStart expW expH)) ∧ s.inbox.head? ≠ some (.start (.gifStart expW expH))) →
      t.gif.state = s.gif.state)) ∧
  ∀ s t : State, step s = .next t → noReset s → s.callFault.isSome = true → t.callFault.isSome = true

/-- What the model does not accept (entries 10, 11, 12, 15, 26: the `refuse` rows U17 and U18 of 93_implementation_defined.md
and N23 of 91_not_in_source.md, a poll whose operands are not what the ports read, and another SRC under a decoder, R76): it
stops by name. PortsStay says when a clock entry and another SRC are accepted. -/
def Obligations.RefusedOutsideDomain : Prop :=
  (∀ (prev cur : List Byte) (s : State), prev.length ≠ cur.length ∨ cur.length % 2 ≠ 0 →
    exec (.drleEncode prev cur) s = .refused .unequalBuffers) ∧
  (∀ (cur : List Byte) (s : State), cur.length % 2 ≠ 0 →
    exec (.drleEncodeFirst cur) s = .refused .unequalBuffers) ∧
  (∀ s : State, s.sched.state = .loading → s.sched.fault = none →
    1 ≤ (s.dir.getD s.sched.folderIdx []).length → s.cfg.frameW = 0 ∨ s.cfg.frameH = 0 →
    exec .schLoad s = .refused .bootRequirement) ∧
  (∀ s : State, s.sched.state = .timedPlayback → s.sched.fault = none → s.sched.frameBusy = false →
    s.sched.frameReady = true → s.gif.state ≠ .ready →
    (s.cfg.refreshDiv = 0 → exec .schStep s = .refused .bootRequirement) ∧
    (1 ≤ s.cfg.refreshDiv → (s.dir.getD s.sched.folderIdx [])[s.sched.frameIdx]? = none →
      exec .schStep s = .refused .dirAnswer)) ∧
  (∀ s : State, s.sched.state = .timedPlayback → s.sched.fault = none → s.sched.frameBusy = false →
    s.cfg.folderCount = 0 → (∀ t, s.btn.lastSwitch = some t → t + 200 ≤ s.nowMs) →
    s.pins.a = false ∧ s.btn.lastA = false ∨ s.pins.b = false ∧ s.btn.lastB = false →
    exec (.schPoll s.nowMs s.pins.a s.pins.b) s = .refused .bootRequirement) ∧
  (∀ (s : State) (now : Nat) (a b : Bool), s.sched.state = .timedPlayback → s.sched.fault = none →
    s.sched.frameBusy = false → now ≠ s.nowMs ∨ a ≠ s.pins.a ∨ b ≠ s.pins.b →
    exec (.schPoll now a b) s = .refused .pollOperands) ∧
  (∀ (s : State) (ms : Nat) (rest : List Input), s.inbox = .clock ms :: rest → ms < s.nowMs →
    step s = .refused .clockDecreases) ∧
  ∀ (s : State) (bytes : List Byte) (rest : List Input), s.inbox = .source bytes :: rest →
    s.ctl.isSome = true ∨ s.sched.frameBusy = true ∨ s.gif.state = .ready ∧ (∀ w h,
      rest.head? ≠ some (.op (.gifStart w h)) ∧ rest.head? ≠ some (.start (.gifStart w h))) →
    step s = .refused .srcWhileRunning
end

