-- ==== Sys2Proof/Laws/Decode.lean ====
section
/-! SUPPORT. Decoding: bytes and fields, colour tables, the length of a token. -/

namespace Sys2Proof

@[simp] theorem lo8_le16 (a b : Byte) : lo8 (le16 a b) = a := by
  ext i hi
  simp only [lo8, le16, BitVec.getElem_extractLsb', BitVec.getLsbD_append]
  simp [hi]

@[simp] theorem hi8_le16 (a b : Byte) : hi8 (le16 a b) = b := by
  ext i hi
  simp only [hi8, le16, BitVec.getElem_extractLsb', BitVec.getLsbD_append]
  simp [hi]

@[simp] theorem le16_lo8_hi8 (v : U16) : le16 (lo8 v) (hi8 v) = v := by
  apply BitVec.eq_of_getLsbD_eq
  intro i hi
  simp only [lo8, hi8, le16, BitVec.getLsbD_append, BitVec.getLsbD_extractLsb']
  by_cases h : i < 8
  · simp [h]
  · simp [h, show i - 8 < 8 by omega, show 8 + (i - 8) = i by omega]

theorem le16_toNat (a b : Byte) : (le16 a b).toNat = a.toNat + 256 * b.toNat := by
  simp only [le16, BitVec.toNat_append, Nat.shiftLeft_eq]
  have := a.isLt
  rw [Nat.mul_comm, ← Nat.two_pow_add_eq_or_of_lt (i := 8) this]; omega

@[simp] theorem tableBytes_length (t : List Rgb) : (tableBytes t).length = 3 * t.length := by
  induction t with
  | nil => rfl
  | cons c t ih => simp [tableBytes, ih]; omega

/-- A table's bytes read back (R102). -/
theorem readTriples_tableBytes (t : List Rgb) (rest : List Byte) :
    readTriples t.length (tableBytes t ++ rest) = some t := by
  induction t with
  | nil => rfl
  | cons c t ih => simp [tableBytes, readTriples, ih]

/-- A table that was read is the head of the bytes it was read from. -/
theorem readTriples_eq {n : Nat} {l : List Byte} {t : List Rgb} (h : readTriples n l = some t) :
    t.length = n ∧ l = tableBytes t ++ l.drop (3 * n) := by
  induction n generalizing l t with
  | zero => cases h; exact ⟨rfl, rfl⟩
  | succ n ih =>
    match l with
    | r :: g :: b :: rest =>
      simp only [readTriples, Option.map_eq_some_iff] at h
      obtain ⟨t', ht, rfl⟩ := h
      obtain ⟨h1, h2⟩ := ih ht
      refine ⟨by simp [h1], ?_⟩
      rw [show 3 * (n + 1) = 3 * n + 3 by ring]
      simp only [tableBytes, List.drop_succ_cons, List.cons_append]
      rw [← h2]
    | [] => cases h
    | [_] => cases h
    | [_, _] => cases h

theorem decodeRecord_length {l : List Byte} {i : Instr} {n : Nat} (h : decodeRecord l = .ok (i, n)) :
    n = 2 ∧ 2 ≤ l.length := by
  match l with
  | [] => cases h
  | [_] => cases h
  | k :: w :: _ => cases h; exact ⟨rfl, by simp⟩

theorem decodeHeader_length {l : List Byte} {i : Instr} {n : Nat} (h : decodeHeader l = .ok (i, n)) :
    n = 6 ∧ 6 ≤ l.length := by
  unfold decodeHeader at h
  split at h
  · cases h
  · split at h
    · cases h; exact ⟨rfl, by omega⟩
    · split at h
      · cases h; exact ⟨rfl, by omega⟩
      · cases h

theorem decodeLsd_length {l : List Byte} {i : Instr} {n : Nat} (h : decodeLsd l = .ok (i, n)) :
    n = 7 ∧ 7 ≤ l.length := by
  unfold decodeLsd at h
  split at h
  · cases h; exact ⟨rfl, by simp⟩
  · cases h

theorem decodeGct_length {f : Byte} {l : List Byte} {i : Instr} {n : Nat} (h : decodeGct f l = .ok (i, n)) :
    n = 3 * tableSize f ∧ 3 * tableSize f ≤ l.length := by
  unfold decodeGct at h
  split at h
  · next t ht =>
    cases h
    refine ⟨rfl, ?_⟩
    obtain ⟨h1, h2⟩ := readTriples_eq ht
    rw [h2]; simp [h1]
  · cases h

theorem decodeBlock_length {l : List Byte} {i : Instr} {n : Nat} (h : decodeBlock l = .ok (i, n)) :
    1 ≤ n ∧ n ≤ l.length := by
  unfold decodeBlock at h
  split at h
  · split at h
    · unfold decodeExtension at h
      split at h
      · split at h
        · unfold decodeGce at h
          split at h
          · split at h
            · cases h; simp; omega
            · cases h
          · cases h
        · cases h; simp
      · cases h
    · split at h
      · unfold decodeImage at h
        split at h
        · cases h; simp
        · cases h
      · split at h <;> (cases h; simp)
  · cases h

/-- A token lies inside the bytes it was read from. -/
theorem decodeAt_length {p : Pos} {f : Byte} {l : List Byte} {i : Instr} {n : Nat}
    (h : decodeAt p f l = .ok (i, n)) : n ≤ l.length := by
  cases p with
  | drle => obtain ⟨rfl, h'⟩ := decodeRecord_length h; exact h'
  | gifHeader => obtain ⟨rfl, h'⟩ := decodeHeader_length h; exact h'
  | gifLsd => obtain ⟨rfl, h'⟩ := decodeLsd_length h; exact h'
  | gifGct => obtain ⟨rfl, h'⟩ := decodeGct_length h; exact h'
  | gifBlock => exact (decodeBlock_length h).2
  | lzwCode => cases h

/-- What a block's introducer can announce (R103). -/
theorem decodeBlock_token {l : List Byte} {i : Instr} {n : Nat} (h : decodeBlock l = .ok (i, n)) :
    (∃ body, i = .gifGce body) ∨ (∃ label, i = .gifExt label) ∨ (∃ a b c d f, i = .gifImage a b c d f) ∨
      i = .gifTrailer ∨ ∃ b, i = .gifUnknown b := by
  unfold decodeBlock at h
  split at h
  · split at h
    · unfold decodeExtension at h
      split at h
      · split at h
        · unfold decodeGce at h
          split at h
          · split at h
            · cases h; exact .inl ⟨_, rfl⟩
            · cases h
          · cases h
        · cases h; exact .inr (.inl ⟨_, rfl⟩)
      · cases h
    · split at h
      · unfold decodeImage at h
        split at h
        · cases h; exact .inr (.inr (.inl ⟨_, _, _, _, _, rfl⟩))
        · cases h
      · split at h
        · cases h; exact .inr (.inr (.inr (.inl rfl)))
        · cases h; exact .inr (.inr (.inr (.inr ⟨_, rfl⟩)))
  · cases h

/-- A block position fails to decode only at the end of SRC. -/
theorem decodeBlock_error {l : List Byte} {e : DecodeError} (h : decodeBlock l = .error e) : e = .truncated := by
  unfold decodeBlock at h
  split at h
  · split at h
    · unfold decodeExtension at h
      split at h
      · split at h
        · unfold decodeGce at h
          split at h
          · split at h
            · cases h
            · cases h; rfl
          · cases h; rfl
        · cases h
      · cases h; rfl
    · split at h
      · unfold decodeImage at h
        split at h
        · cases h
        · cases h; rfl
      · split at h <;> cases h
  · cases h; rfl

end Sys2Proof
end

