-- ==== Sys2Proof/Laws/State.lean ====
section
/-! SUPPORT. Each named update of the state, field by field: what it writes and, for every other field, that it leaves it.
All true by unfolding the update once, so that no later proof unfolds it. -/

namespace Sys2Proof.Machine

/-! ### emit: EVT and PRESENT (R6) -/

@[simp] theorem emit_cfg (e : Event) (s : State) : (emit e s).cfg = s.cfg := rfl
@[simp] theorem emit_dir (e : Event) (s : State) : (emit e s).dir = s.dir := rfl
@[simp] theorem emit_nowMs (e : Event) (s : State) : (emit e s).nowMs = s.nowMs := rfl
@[simp] theorem emit_pins (e : Event) (s : State) : (emit e s).pins = s.pins := rfl
@[simp] theorem emit_callFault (e : Event) (s : State) : (emit e s).callFault = s.callFault := rfl
@[simp] theorem emit_src (e : Event) (s : State) : (emit e s).src = s.src := rfl
@[simp] theorem emit_dst (e : Event) (s : State) : (emit e s).dst = s.dst := rfl
@[simp] theorem emit_dstLen (e : Event) (s : State) : (emit e s).dstLen = s.dstLen := rfl
@[simp] theorem emit_out (e : Event) (s : State) : (emit e s).out = s.out ++ [e] := rfl
@[simp] theorem emit_ret (e : Event) (s : State) : (emit e s).ret = s.ret := rfl
@[simp] theorem emit_inbox (e : Event) (s : State) : (emit e s).inbox = s.inbox := rfl
@[simp] theorem emit_ctl (e : Event) (s : State) : (emit e s).ctl = s.ctl := rfl
@[simp] theorem emit_sp (e : Event) (s : State) : (emit e s).sp = s.sp := rfl
@[simp] theorem emit_drle (e : Event) (s : State) : (emit e s).drle = s.drle := rfl
@[simp] theorem emit_gif (e : Event) (s : State) : (emit e s).gif = s.gif := rfl
@[simp] theorem emit_gce (e : Event) (s : State) : (emit e s).gce = s.gce := rfl
@[simp] theorem emit_img (e : Event) (s : State) : (emit e s).img = s.img := rfl
@[simp] theorem emit_lzw (e : Event) (s : State) : (emit e s).lzw = s.lzw := rfl
@[simp] theorem emit_bits (e : Event) (s : State) : (emit e s).bits = s.bits := rfl
@[simp] theorem emit_dict (e : Event) (s : State) : (emit e s).dict = s.dict := rfl
@[simp] theorem emit_stk (e : Event) (s : State) : (emit e s).stk = s.stk := rfl
@[simp] theorem emit_stkN (e : Event) (s : State) : (emit e s).stkN = s.stkN := rfl
@[simp] theorem emit_palG (e : Event) (s : State) : (emit e s).palG = s.palG := rfl
@[simp] theorem emit_palL (e : Event) (s : State) : (emit e s).palL = s.palL := rfl
@[simp] theorem emit_sched (e : Event) (s : State) : (emit e s).sched = s.sched := rfl
@[simp] theorem emit_timer (e : Event) (s : State) : (emit e s).timer = s.timer := rfl
@[simp] theorem emit_btn (e : Event) (s : State) : (emit e s).btn = s.btn := rfl

/-! ### formatError: a format error (R301) -/

@[simp] theorem formatError_cfg (e : FormatError) (s : State) : (formatError e s).cfg = s.cfg := rfl
@[simp] theorem formatError_dir (e : FormatError) (s : State) : (formatError e s).dir = s.dir := rfl
@[simp] theorem formatError_nowMs (e : FormatError) (s : State) : (formatError e s).nowMs = s.nowMs := rfl
@[simp] theorem formatError_pins (e : FormatError) (s : State) : (formatError e s).pins = s.pins := rfl
@[simp] theorem formatError_callFault (e : FormatError) (s : State) : (formatError e s).callFault = s.callFault := rfl
@[simp] theorem formatError_src (e : FormatError) (s : State) : (formatError e s).src = s.src := rfl
@[simp] theorem formatError_dst (e : FormatError) (s : State) : (formatError e s).dst = s.dst := rfl
@[simp] theorem formatError_dstLen (e : FormatError) (s : State) : (formatError e s).dstLen = s.dstLen := rfl
@[simp] theorem formatError_out (e : FormatError) (s : State) :
    (formatError e s).out =
      s.out ++ [.error e] := rfl
@[simp] theorem formatError_ret (e : FormatError) (s : State) : (formatError e s).ret = s.ret := rfl
@[simp] theorem formatError_inbox (e : FormatError) (s : State) : (formatError e s).inbox = s.inbox := rfl
@[simp] theorem formatError_ctl (e : FormatError) (s : State) : (formatError e s).ctl = none := rfl
@[simp] theorem formatError_sp (e : FormatError) (s : State) : (formatError e s).sp = s.sp := rfl
@[simp] theorem formatError_drle (e : FormatError) (s : State) : (formatError e s).drle = s.drle := rfl
@[simp] theorem formatError_gif (e : FormatError) (s : State) :
    (formatError e s).gif =
      { s.gif with state := .error } := rfl
@[simp] theorem formatError_gce (e : FormatError) (s : State) : (formatError e s).gce = s.gce := rfl
@[simp] theorem formatError_img (e : FormatError) (s : State) : (formatError e s).img = s.img := rfl
@[simp] theorem formatError_lzw (e : FormatError) (s : State) : (formatError e s).lzw = s.lzw := rfl
@[simp] theorem formatError_bits (e : FormatError) (s : State) : (formatError e s).bits = s.bits := rfl
@[simp] theorem formatError_dict (e : FormatError) (s : State) : (formatError e s).dict = s.dict := rfl
@[simp] theorem formatError_stk (e : FormatError) (s : State) : (formatError e s).stk = s.stk := rfl
@[simp] theorem formatError_stkN (e : FormatError) (s : State) : (formatError e s).stkN = s.stkN := rfl
@[simp] theorem formatError_palG (e : FormatError) (s : State) : (formatError e s).palG = s.palG := rfl
@[simp] theorem formatError_palL (e : FormatError) (s : State) : (formatError e s).palL = s.palL := rfl
@[simp] theorem formatError_sched (e : FormatError) (s : State) : (formatError e s).sched = s.sched := rfl
@[simp] theorem formatError_timer (e : FormatError) (s : State) : (formatError e s).timer = s.timer := rfl
@[simp] theorem formatError_btn (e : FormatError) (s : State) : (formatError e s).btn = s.btn := rfl

/-! ### streamEnd: STREAM_END (R172) -/

@[simp] theorem streamEnd_cfg (s : State) : (streamEnd s).cfg = s.cfg := rfl
@[simp] theorem streamEnd_dir (s : State) : (streamEnd s).dir = s.dir := rfl
@[simp] theorem streamEnd_nowMs (s : State) : (streamEnd s).nowMs = s.nowMs := rfl
@[simp] theorem streamEnd_pins (s : State) : (streamEnd s).pins = s.pins := rfl
@[simp] theorem streamEnd_callFault (s : State) : (streamEnd s).callFault = s.callFault := rfl
@[simp] theorem streamEnd_src (s : State) : (streamEnd s).src = s.src := rfl
@[simp] theorem streamEnd_dst (s : State) : (streamEnd s).dst = s.dst := rfl
@[simp] theorem streamEnd_dstLen (s : State) : (streamEnd s).dstLen = s.dstLen := rfl
@[simp] theorem streamEnd_out (s : State) : (streamEnd s).out = s.out ++ [.streamEnd] := rfl
@[simp] theorem streamEnd_ret (s : State) : (streamEnd s).ret = s.ret := rfl
@[simp] theorem streamEnd_inbox (s : State) : (streamEnd s).inbox = s.inbox := rfl
@[simp] theorem streamEnd_ctl (s : State) : (streamEnd s).ctl = none := rfl
@[simp] theorem streamEnd_sp (s : State) : (streamEnd s).sp = s.sp := rfl
@[simp] theorem streamEnd_drle (s : State) : (streamEnd s).drle = s.drle := rfl
@[simp] theorem streamEnd_gif (s : State) : (streamEnd s).gif = { s.gif with state := .done } := rfl
@[simp] theorem streamEnd_gce (s : State) : (streamEnd s).gce = s.gce := rfl
@[simp] theorem streamEnd_img (s : State) : (streamEnd s).img = s.img := rfl
@[simp] theorem streamEnd_lzw (s : State) : (streamEnd s).lzw = s.lzw := rfl
@[simp] theorem streamEnd_bits (s : State) : (streamEnd s).bits = s.bits := rfl
@[simp] theorem streamEnd_dict (s : State) : (streamEnd s).dict = s.dict := rfl
@[simp] theorem streamEnd_stk (s : State) : (streamEnd s).stk = s.stk := rfl
@[simp] theorem streamEnd_stkN (s : State) : (streamEnd s).stkN = s.stkN := rfl
@[simp] theorem streamEnd_palG (s : State) : (streamEnd s).palG = s.palG := rfl
@[simp] theorem streamEnd_palL (s : State) : (streamEnd s).palL = s.palL := rfl
@[simp] theorem streamEnd_sched (s : State) : (streamEnd s).sched = s.sched := rfl
@[simp] theorem streamEnd_timer (s : State) : (streamEnd s).timer = s.timer := rfl
@[simp] theorem streamEnd_btn (s : State) : (streamEnd s).btn = s.btn := rfl

/-! ### gifRaise: a model fault in GIFD (R312) -/

@[simp] theorem gifRaise_cfg (f : ModelFault) (s : State) : (gifRaise f s).cfg = s.cfg := rfl
@[simp] theorem gifRaise_dir (f : ModelFault) (s : State) : (gifRaise f s).dir = s.dir := rfl
@[simp] theorem gifRaise_nowMs (f : ModelFault) (s : State) : (gifRaise f s).nowMs = s.nowMs := rfl
@[simp] theorem gifRaise_pins (f : ModelFault) (s : State) : (gifRaise f s).pins = s.pins := rfl
@[simp] theorem gifRaise_callFault (f : ModelFault) (s : State) : (gifRaise f s).callFault = s.callFault := rfl
@[simp] theorem gifRaise_src (f : ModelFault) (s : State) : (gifRaise f s).src = s.src := rfl
@[simp] theorem gifRaise_dst (f : ModelFault) (s : State) : (gifRaise f s).dst = s.dst := rfl
@[simp] theorem gifRaise_dstLen (f : ModelFault) (s : State) : (gifRaise f s).dstLen = s.dstLen := rfl
@[simp] theorem gifRaise_out (f : ModelFault) (s : State) : (gifRaise f s).out = s.out := rfl
@[simp] theorem gifRaise_ret (f : ModelFault) (s : State) : (gifRaise f s).ret = s.ret := rfl
@[simp] theorem gifRaise_inbox (f : ModelFault) (s : State) : (gifRaise f s).inbox = s.inbox := rfl
@[simp] theorem gifRaise_ctl (f : ModelFault) (s : State) : (gifRaise f s).ctl = none := rfl
@[simp] theorem gifRaise_sp (f : ModelFault) (s : State) : (gifRaise f s).sp = s.sp := rfl
@[simp] theorem gifRaise_drle (f : ModelFault) (s : State) : (gifRaise f s).drle = s.drle := rfl
@[simp] theorem gifRaise_gif (f : ModelFault) (s : State) :
    (gifRaise f s).gif =
      { s.gif with state := .faulted, fault := some f } := rfl
@[simp] theorem gifRaise_gce (f : ModelFault) (s : State) : (gifRaise f s).gce = s.gce := rfl
@[simp] theorem gifRaise_img (f : ModelFault) (s : State) : (gifRaise f s).img = s.img := rfl
@[simp] theorem gifRaise_lzw (f : ModelFault) (s : State) : (gifRaise f s).lzw = s.lzw := rfl
@[simp] theorem gifRaise_bits (f : ModelFault) (s : State) : (gifRaise f s).bits = s.bits := rfl
@[simp] theorem gifRaise_dict (f : ModelFault) (s : State) : (gifRaise f s).dict = s.dict := rfl
@[simp] theorem gifRaise_stk (f : ModelFault) (s : State) : (gifRaise f s).stk = s.stk := rfl
@[simp] theorem gifRaise_stkN (f : ModelFault) (s : State) : (gifRaise f s).stkN = s.stkN := rfl
@[simp] theorem gifRaise_palG (f : ModelFault) (s : State) : (gifRaise f s).palG = s.palG := rfl
@[simp] theorem gifRaise_palL (f : ModelFault) (s : State) : (gifRaise f s).palL = s.palL := rfl
@[simp] theorem gifRaise_sched (f : ModelFault) (s : State) : (gifRaise f s).sched = s.sched := rfl
@[simp] theorem gifRaise_timer (f : ModelFault) (s : State) : (gifRaise f s).timer = s.timer := rfl
@[simp] theorem gifRaise_btn (f : ModelFault) (s : State) : (gifRaise f s).btn = s.btn := rfl

/-! ### schedRaise: a model fault in SCHED (R312) -/

@[simp] theorem schedRaise_cfg (f : ModelFault) (s : State) : (schedRaise f s).cfg = s.cfg := rfl
@[simp] theorem schedRaise_dir (f : ModelFault) (s : State) : (schedRaise f s).dir = s.dir := rfl
@[simp] theorem schedRaise_nowMs (f : ModelFault) (s : State) : (schedRaise f s).nowMs = s.nowMs := rfl
@[simp] theorem schedRaise_pins (f : ModelFault) (s : State) : (schedRaise f s).pins = s.pins := rfl
@[simp] theorem schedRaise_callFault (f : ModelFault) (s : State) : (schedRaise f s).callFault = s.callFault := rfl
@[simp] theorem schedRaise_src (f : ModelFault) (s : State) : (schedRaise f s).src = s.src := rfl
@[simp] theorem schedRaise_dst (f : ModelFault) (s : State) : (schedRaise f s).dst = s.dst := rfl
@[simp] theorem schedRaise_dstLen (f : ModelFault) (s : State) : (schedRaise f s).dstLen = s.dstLen := rfl
@[simp] theorem schedRaise_out (f : ModelFault) (s : State) : (schedRaise f s).out = s.out := rfl
@[simp] theorem schedRaise_ret (f : ModelFault) (s : State) : (schedRaise f s).ret = s.ret := rfl
@[simp] theorem schedRaise_inbox (f : ModelFault) (s : State) : (schedRaise f s).inbox = s.inbox := rfl
@[simp] theorem schedRaise_ctl (f : ModelFault) (s : State) : (schedRaise f s).ctl = s.ctl := rfl
@[simp] theorem schedRaise_sp (f : ModelFault) (s : State) : (schedRaise f s).sp = s.sp := rfl
@[simp] theorem schedRaise_drle (f : ModelFault) (s : State) : (schedRaise f s).drle = s.drle := rfl
@[simp] theorem schedRaise_gif (f : ModelFault) (s : State) : (schedRaise f s).gif = s.gif := rfl
@[simp] theorem schedRaise_gce (f : ModelFault) (s : State) : (schedRaise f s).gce = s.gce := rfl
@[simp] theorem schedRaise_img (f : ModelFault) (s : State) : (schedRaise f s).img = s.img := rfl
@[simp] theorem schedRaise_lzw (f : ModelFault) (s : State) : (schedRaise f s).lzw = s.lzw := rfl
@[simp] theorem schedRaise_bits (f : ModelFault) (s : State) : (schedRaise f s).bits = s.bits := rfl
@[simp] theorem schedRaise_dict (f : ModelFault) (s : State) : (schedRaise f s).dict = s.dict := rfl
@[simp] theorem schedRaise_stk (f : ModelFault) (s : State) : (schedRaise f s).stk = s.stk := rfl
@[simp] theorem schedRaise_stkN (f : ModelFault) (s : State) : (schedRaise f s).stkN = s.stkN := rfl
@[simp] theorem schedRaise_palG (f : ModelFault) (s : State) : (schedRaise f s).palG = s.palG := rfl
@[simp] theorem schedRaise_palL (f : ModelFault) (s : State) : (schedRaise f s).palL = s.palL := rfl
@[simp] theorem schedRaise_sched (f : ModelFault) (s : State) :
    (schedRaise f s).sched =
      { s.sched with fault := some f } := rfl
@[simp] theorem schedRaise_timer (f : ModelFault) (s : State) :
    (schedRaise f s).timer =
      { s.timer with armed := false } := rfl
@[simp] theorem schedRaise_btn (f : ModelFault) (s : State) : (schedRaise f s).btn = s.btn := rfl

/-! ### callRaise: a model fault in a direct call (R312) -/

@[simp] theorem callRaise_cfg (f : ModelFault) (s : State) : (callRaise f s).cfg = s.cfg := rfl
@[simp] theorem callRaise_dir (f : ModelFault) (s : State) : (callRaise f s).dir = s.dir := rfl
@[simp] theorem callRaise_nowMs (f : ModelFault) (s : State) : (callRaise f s).nowMs = s.nowMs := rfl
@[simp] theorem callRaise_pins (f : ModelFault) (s : State) : (callRaise f s).pins = s.pins := rfl
@[simp] theorem callRaise_callFault (f : ModelFault) (s : State) : (callRaise f s).callFault = some f := rfl
@[simp] theorem callRaise_src (f : ModelFault) (s : State) : (callRaise f s).src = s.src := rfl
@[simp] theorem callRaise_dst (f : ModelFault) (s : State) : (callRaise f s).dst = s.dst := rfl
@[simp] theorem callRaise_dstLen (f : ModelFault) (s : State) : (callRaise f s).dstLen = s.dstLen := rfl
@[simp] theorem callRaise_out (f : ModelFault) (s : State) : (callRaise f s).out = s.out := rfl
@[simp] theorem callRaise_ret (f : ModelFault) (s : State) : (callRaise f s).ret = .fault f := rfl
@[simp] theorem callRaise_inbox (f : ModelFault) (s : State) : (callRaise f s).inbox = s.inbox := rfl
@[simp] theorem callRaise_ctl (f : ModelFault) (s : State) : (callRaise f s).ctl = s.ctl := rfl
@[simp] theorem callRaise_sp (f : ModelFault) (s : State) : (callRaise f s).sp = s.sp := rfl
@[simp] theorem callRaise_drle (f : ModelFault) (s : State) : (callRaise f s).drle = s.drle := rfl
@[simp] theorem callRaise_gif (f : ModelFault) (s : State) : (callRaise f s).gif = s.gif := rfl
@[simp] theorem callRaise_gce (f : ModelFault) (s : State) : (callRaise f s).gce = s.gce := rfl
@[simp] theorem callRaise_img (f : ModelFault) (s : State) : (callRaise f s).img = s.img := rfl
@[simp] theorem callRaise_lzw (f : ModelFault) (s : State) : (callRaise f s).lzw = s.lzw := rfl
@[simp] theorem callRaise_bits (f : ModelFault) (s : State) : (callRaise f s).bits = s.bits := rfl
@[simp] theorem callRaise_dict (f : ModelFault) (s : State) : (callRaise f s).dict = s.dict := rfl
@[simp] theorem callRaise_stk (f : ModelFault) (s : State) : (callRaise f s).stk = s.stk := rfl
@[simp] theorem callRaise_stkN (f : ModelFault) (s : State) : (callRaise f s).stkN = s.stkN := rfl
@[simp] theorem callRaise_palG (f : ModelFault) (s : State) : (callRaise f s).palG = s.palG := rfl
@[simp] theorem callRaise_palL (f : ModelFault) (s : State) : (callRaise f s).palL = s.palL := rfl
@[simp] theorem callRaise_sched (f : ModelFault) (s : State) : (callRaise f s).sched = s.sched := rfl
@[simp] theorem callRaise_timer (f : ModelFault) (s : State) : (callRaise f s).timer = s.timer := rfl
@[simp] theorem callRaise_btn (f : ModelFault) (s : State) : (callRaise f s).btn = s.btn := rfl

/-! ### drainSubBlocks: DrainSubBlocks (R194) -/

@[simp] theorem drainSubBlocks_cfg (s : State) : (drainSubBlocks s).cfg = s.cfg := rfl
@[simp] theorem drainSubBlocks_dir (s : State) : (drainSubBlocks s).dir = s.dir := rfl
@[simp] theorem drainSubBlocks_nowMs (s : State) : (drainSubBlocks s).nowMs = s.nowMs := rfl
@[simp] theorem drainSubBlocks_pins (s : State) : (drainSubBlocks s).pins = s.pins := rfl
@[simp] theorem drainSubBlocks_callFault (s : State) : (drainSubBlocks s).callFault = s.callFault := rfl
@[simp] theorem drainSubBlocks_src (s : State) : (drainSubBlocks s).src = s.src := rfl
@[simp] theorem drainSubBlocks_dst (s : State) : (drainSubBlocks s).dst = s.dst := rfl
@[simp] theorem drainSubBlocks_dstLen (s : State) : (drainSubBlocks s).dstLen = s.dstLen := rfl
@[simp] theorem drainSubBlocks_out (s : State) : (drainSubBlocks s).out = s.out := rfl
@[simp] theorem drainSubBlocks_ret (s : State) : (drainSubBlocks s).ret = s.ret := rfl
@[simp] theorem drainSubBlocks_inbox (s : State) : (drainSubBlocks s).inbox = s.inbox := rfl
@[simp] theorem drainSubBlocks_ctl (s : State) : (drainSubBlocks s).ctl = s.ctl := rfl
@[simp] theorem drainSubBlocks_sp (s : State) :
    (drainSubBlocks s).sp =
      drainFrom s.src (s.src.length + 1) s.sp := rfl
@[simp] theorem drainSubBlocks_drle (s : State) : (drainSubBlocks s).drle = s.drle := rfl
@[simp] theorem drainSubBlocks_gif (s : State) : (drainSubBlocks s).gif = s.gif := rfl
@[simp] theorem drainSubBlocks_gce (s : State) : (drainSubBlocks s).gce = s.gce := rfl
@[simp] theorem drainSubBlocks_img (s : State) : (drainSubBlocks s).img = s.img := rfl
@[simp] theorem drainSubBlocks_lzw (s : State) : (drainSubBlocks s).lzw = s.lzw := rfl
@[simp] theorem drainSubBlocks_bits (s : State) : (drainSubBlocks s).bits = s.bits := rfl
@[simp] theorem drainSubBlocks_dict (s : State) : (drainSubBlocks s).dict = s.dict := rfl
@[simp] theorem drainSubBlocks_stk (s : State) : (drainSubBlocks s).stk = s.stk := rfl
@[simp] theorem drainSubBlocks_stkN (s : State) : (drainSubBlocks s).stkN = s.stkN := rfl
@[simp] theorem drainSubBlocks_palG (s : State) : (drainSubBlocks s).palG = s.palG := rfl
@[simp] theorem drainSubBlocks_palL (s : State) : (drainSubBlocks s).palL = s.palL := rfl
@[simp] theorem drainSubBlocks_sched (s : State) : (drainSubBlocks s).sched = s.sched := rfl
@[simp] theorem drainSubBlocks_timer (s : State) : (drainSubBlocks s).timer = s.timer := rfl
@[simp] theorem drainSubBlocks_btn (s : State) : (drainSubBlocks s).btn = s.btn := rfl

/-! ### drleStop: the stop of a decode (R140) -/

@[simp] theorem drleStop_cfg (s : State) : (drleStop s).cfg = s.cfg := rfl
@[simp] theorem drleStop_dir (s : State) : (drleStop s).dir = s.dir := rfl
@[simp] theorem drleStop_nowMs (s : State) : (drleStop s).nowMs = s.nowMs := rfl
@[simp] theorem drleStop_pins (s : State) : (drleStop s).pins = s.pins := rfl
@[simp] theorem drleStop_callFault (s : State) : (drleStop s).callFault = s.callFault := rfl
@[simp] theorem drleStop_src (s : State) : (drleStop s).src = s.src := rfl
@[simp] theorem drleStop_dst (s : State) : (drleStop s).dst = s.dst := rfl
@[simp] theorem drleStop_dstLen (s : State) : (drleStop s).dstLen = s.dstLen := rfl
@[simp] theorem drleStop_out (s : State) : (drleStop s).out = s.out := rfl
@[simp] theorem drleStop_ret (s : State) :
    (drleStop s).ret =
      (if s.sched.frameBusy then s.ret else .done) := rfl
@[simp] theorem drleStop_inbox (s : State) : (drleStop s).inbox = s.inbox := rfl
@[simp] theorem drleStop_ctl (s : State) : (drleStop s).ctl = none := rfl
@[simp] theorem drleStop_sp (s : State) : (drleStop s).sp = s.sp := rfl
@[simp] theorem drleStop_drle (s : State) : (drleStop s).drle = s.drle := rfl
@[simp] theorem drleStop_gif (s : State) : (drleStop s).gif = s.gif := rfl
@[simp] theorem drleStop_gce (s : State) : (drleStop s).gce = s.gce := rfl
@[simp] theorem drleStop_img (s : State) : (drleStop s).img = s.img := rfl
@[simp] theorem drleStop_lzw (s : State) : (drleStop s).lzw = s.lzw := rfl
@[simp] theorem drleStop_bits (s : State) : (drleStop s).bits = s.bits := rfl
@[simp] theorem drleStop_dict (s : State) : (drleStop s).dict = s.dict := rfl
@[simp] theorem drleStop_stk (s : State) : (drleStop s).stk = s.stk := rfl
@[simp] theorem drleStop_stkN (s : State) : (drleStop s).stkN = s.stkN := rfl
@[simp] theorem drleStop_palG (s : State) : (drleStop s).palG = s.palG := rfl
@[simp] theorem drleStop_palL (s : State) : (drleStop s).palL = s.palL := rfl
@[simp] theorem drleStop_sched (s : State) : (drleStop s).sched = s.sched := rfl
@[simp] theorem drleStop_timer (s : State) : (drleStop s).timer = s.timer := rfl
@[simp] theorem drleStop_btn (s : State) : (drleStop s).btn = s.btn := rfl

/-! ### headerDone: GIF.HEADER (R173) -/

@[simp] theorem headerDone_cfg (s : State) : (headerDone s).cfg = s.cfg := rfl
@[simp] theorem headerDone_dir (s : State) : (headerDone s).dir = s.dir := rfl
@[simp] theorem headerDone_nowMs (s : State) : (headerDone s).nowMs = s.nowMs := rfl
@[simp] theorem headerDone_pins (s : State) : (headerDone s).pins = s.pins := rfl
@[simp] theorem headerDone_callFault (s : State) : (headerDone s).callFault = s.callFault := rfl
@[simp] theorem headerDone_src (s : State) : (headerDone s).src = s.src := rfl
@[simp] theorem headerDone_dst (s : State) : (headerDone s).dst = s.dst := rfl
@[simp] theorem headerDone_dstLen (s : State) : (headerDone s).dstLen = s.dstLen := rfl
@[simp] theorem headerDone_out (s : State) : (headerDone s).out = s.out := rfl
@[simp] theorem headerDone_ret (s : State) : (headerDone s).ret = s.ret := rfl
@[simp] theorem headerDone_inbox (s : State) : (headerDone s).inbox = s.inbox := rfl
@[simp] theorem headerDone_ctl (s : State) : (headerDone s).ctl = some .gifLsd := rfl
@[simp] theorem headerDone_sp (s : State) : (headerDone s).sp = s.sp := rfl
@[simp] theorem headerDone_drle (s : State) : (headerDone s).drle = s.drle := rfl
@[simp] theorem headerDone_gif (s : State) : (headerDone s).gif = s.gif := rfl
@[simp] theorem headerDone_gce (s : State) : (headerDone s).gce = s.gce := rfl
@[simp] theorem headerDone_img (s : State) : (headerDone s).img = s.img := rfl
@[simp] theorem headerDone_lzw (s : State) : (headerDone s).lzw = s.lzw := rfl
@[simp] theorem headerDone_bits (s : State) : (headerDone s).bits = s.bits := rfl
@[simp] theorem headerDone_dict (s : State) : (headerDone s).dict = s.dict := rfl
@[simp] theorem headerDone_stk (s : State) : (headerDone s).stk = s.stk := rfl
@[simp] theorem headerDone_stkN (s : State) : (headerDone s).stkN = s.stkN := rfl
@[simp] theorem headerDone_palG (s : State) : (headerDone s).palG = s.palG := rfl
@[simp] theorem headerDone_palL (s : State) : (headerDone s).palL = s.palL := rfl
@[simp] theorem headerDone_sched (s : State) : (headerDone s).sched = s.sched := rfl
@[simp] theorem headerDone_timer (s : State) : (headerDone s).timer = s.timer := rfl
@[simp] theorem headerDone_btn (s : State) : (headerDone s).btn = s.btn := rfl

/-! ### nextPixel: the pixel cursor (R231) -/

@[simp] theorem nextPixel_cfg (s : State) : (nextPixel s).cfg = s.cfg := rfl
@[simp] theorem nextPixel_dir (s : State) : (nextPixel s).dir = s.dir := rfl
@[simp] theorem nextPixel_nowMs (s : State) : (nextPixel s).nowMs = s.nowMs := rfl
@[simp] theorem nextPixel_pins (s : State) : (nextPixel s).pins = s.pins := rfl
@[simp] theorem nextPixel_callFault (s : State) : (nextPixel s).callFault = s.callFault := rfl
@[simp] theorem nextPixel_src (s : State) : (nextPixel s).src = s.src := rfl
@[simp] theorem nextPixel_dst (s : State) : (nextPixel s).dst = s.dst := rfl
@[simp] theorem nextPixel_dstLen (s : State) : (nextPixel s).dstLen = s.dstLen := rfl
@[simp] theorem nextPixel_out (s : State) : (nextPixel s).out = s.out := rfl
@[simp] theorem nextPixel_ret (s : State) : (nextPixel s).ret = s.ret := rfl
@[simp] theorem nextPixel_inbox (s : State) : (nextPixel s).inbox = s.inbox := rfl
@[simp] theorem nextPixel_ctl (s : State) : (nextPixel s).ctl = s.ctl := rfl
@[simp] theorem nextPixel_sp (s : State) : (nextPixel s).sp = s.sp := rfl
@[simp] theorem nextPixel_drle (s : State) : (nextPixel s).drle = s.drle := rfl
@[simp] theorem nextPixel_gif (s : State) : (nextPixel s).gif = s.gif := rfl
@[simp] theorem nextPixel_gce (s : State) : (nextPixel s).gce = s.gce := rfl
@[simp] theorem nextPixel_img (s : State) : (nextPixel s).img = { s.img with pixN := s.img.pixN + 1 } := rfl
@[simp] theorem nextPixel_lzw (s : State) : (nextPixel s).lzw = s.lzw := rfl
@[simp] theorem nextPixel_bits (s : State) : (nextPixel s).bits = s.bits := rfl
@[simp] theorem nextPixel_dict (s : State) : (nextPixel s).dict = s.dict := rfl
@[simp] theorem nextPixel_stk (s : State) : (nextPixel s).stk = s.stk := rfl
@[simp] theorem nextPixel_stkN (s : State) : (nextPixel s).stkN = s.stkN := rfl
@[simp] theorem nextPixel_palG (s : State) : (nextPixel s).palG = s.palG := rfl
@[simp] theorem nextPixel_palL (s : State) : (nextPixel s).palL = s.palL := rfl
@[simp] theorem nextPixel_sched (s : State) : (nextPixel s).sched = s.sched := rfl
@[simp] theorem nextPixel_timer (s : State) : (nextPixel s).timer = s.timer := rfl
@[simp] theorem nextPixel_btn (s : State) : (nextPixel s).btn = s.btn := rfl

/-! ### setPrev: `prev <- c` (R236) -/

@[simp] theorem setPrev_cfg (c : Nat) (s : State) : (setPrev c s).cfg = s.cfg := rfl
@[simp] theorem setPrev_dir (c : Nat) (s : State) : (setPrev c s).dir = s.dir := rfl
@[simp] theorem setPrev_nowMs (c : Nat) (s : State) : (setPrev c s).nowMs = s.nowMs := rfl
@[simp] theorem setPrev_pins (c : Nat) (s : State) : (setPrev c s).pins = s.pins := rfl
@[simp] theorem setPrev_callFault (c : Nat) (s : State) : (setPrev c s).callFault = s.callFault := rfl
@[simp] theorem setPrev_src (c : Nat) (s : State) : (setPrev c s).src = s.src := rfl
@[simp] theorem setPrev_dst (c : Nat) (s : State) : (setPrev c s).dst = s.dst := rfl
@[simp] theorem setPrev_dstLen (c : Nat) (s : State) : (setPrev c s).dstLen = s.dstLen := rfl
@[simp] theorem setPrev_out (c : Nat) (s : State) : (setPrev c s).out = s.out := rfl
@[simp] theorem setPrev_ret (c : Nat) (s : State) : (setPrev c s).ret = s.ret := rfl
@[simp] theorem setPrev_inbox (c : Nat) (s : State) : (setPrev c s).inbox = s.inbox := rfl
@[simp] theorem setPrev_ctl (c : Nat) (s : State) : (setPrev c s).ctl = s.ctl := rfl
@[simp] theorem setPrev_sp (c : Nat) (s : State) : (setPrev c s).sp = s.sp := rfl
@[simp] theorem setPrev_drle (c : Nat) (s : State) : (setPrev c s).drle = s.drle := rfl
@[simp] theorem setPrev_gif (c : Nat) (s : State) : (setPrev c s).gif = s.gif := rfl
@[simp] theorem setPrev_gce (c : Nat) (s : State) : (setPrev c s).gce = s.gce := rfl
@[simp] theorem setPrev_img (c : Nat) (s : State) : (setPrev c s).img = s.img := rfl
@[simp] theorem setPrev_lzw (c : Nat) (s : State) : (setPrev c s).lzw = { s.lzw with prev := some c } := rfl
@[simp] theorem setPrev_bits (c : Nat) (s : State) : (setPrev c s).bits = s.bits := rfl
@[simp] theorem setPrev_dict (c : Nat) (s : State) : (setPrev c s).dict = s.dict := rfl
@[simp] theorem setPrev_stk (c : Nat) (s : State) : (setPrev c s).stk = s.stk := rfl
@[simp] theorem setPrev_stkN (c : Nat) (s : State) : (setPrev c s).stkN = s.stkN := rfl
@[simp] theorem setPrev_palG (c : Nat) (s : State) : (setPrev c s).palG = s.palG := rfl
@[simp] theorem setPrev_palL (c : Nat) (s : State) : (setPrev c s).palL = s.palL := rfl
@[simp] theorem setPrev_sched (c : Nat) (s : State) : (setPrev c s).sched = s.sched := rfl
@[simp] theorem setPrev_timer (c : Nat) (s : State) : (setPrev c s).timer = s.timer := rfl
@[simp] theorem setPrev_btn (c : Nat) (s : State) : (setPrev c s).btn = s.btn := rfl

/-! ### setDescriptor: the image descriptor (R185) -/

@[simp] theorem setDescriptor_cfg (l t w h : U16) (f : Byte) (s : State) :
    (setDescriptor l t w h f s).cfg =
      s.cfg := rfl
@[simp] theorem setDescriptor_dir (l t w h : U16) (f : Byte) (s : State) :
    (setDescriptor l t w h f s).dir =
      s.dir := rfl
@[simp] theorem setDescriptor_nowMs (l t w h : U16) (f : Byte) (s : State) :
    (setDescriptor l t w h f s).nowMs =
      s.nowMs := rfl
@[simp] theorem setDescriptor_pins (l t w h : U16) (f : Byte) (s : State) :
    (setDescriptor l t w h f s).pins =
      s.pins := rfl
@[simp] theorem setDescriptor_callFault (l t w h : U16) (f : Byte) (s : State) :
    (setDescriptor l t w h f s).callFault =
      s.callFault := rfl
@[simp] theorem setDescriptor_src (l t w h : U16) (f : Byte) (s : State) :
    (setDescriptor l t w h f s).src =
      s.src := rfl
@[simp] theorem setDescriptor_dst (l t w h : U16) (f : Byte) (s : State) :
    (setDescriptor l t w h f s).dst =
      s.dst := rfl
@[simp] theorem setDescriptor_dstLen (l t w h : U16) (f : Byte) (s : State) :
    (setDescriptor l t w h f s).dstLen =
      s.dstLen := rfl
@[simp] theorem setDescriptor_out (l t w h : U16) (f : Byte) (s : State) :
    (setDescriptor l t w h f s).out =
      s.out := rfl
@[simp] theorem setDescriptor_ret (l t w h : U16) (f : Byte) (s : State) :
    (setDescriptor l t w h f s).ret =
      s.ret := rfl
@[simp] theorem setDescriptor_inbox (l t w h : U16) (f : Byte) (s : State) :
    (setDescriptor l t w h f s).inbox =
      s.inbox := rfl
@[simp] theorem setDescriptor_ctl (l t w h : U16) (f : Byte) (s : State) :
    (setDescriptor l t w h f s).ctl =
      s.ctl := rfl
@[simp] theorem setDescriptor_sp (l t w h : U16) (f : Byte) (s : State) :
    (setDescriptor l t w h f s).sp =
      s.sp := rfl
@[simp] theorem setDescriptor_drle (l t w h : U16) (f : Byte) (s : State) :
    (setDescriptor l t w h f s).drle =
      s.drle := rfl
@[simp] theorem setDescriptor_gif (l t w h : U16) (f : Byte) (s : State) :
    (setDescriptor l t w h f s).gif =
      s.gif := rfl
@[simp] theorem setDescriptor_gce (l t w h : U16) (f : Byte) (s : State) :
    (setDescriptor l t w h f s).gce =
      s.gce := rfl
@[simp] theorem setDescriptor_img (l t w h : U16) (f : Byte) (s : State) :
    (setDescriptor l t w h f s).img =
      { s.img with left := l, top := t, w := w, h := h, flags := f } := rfl
@[simp] theorem setDescriptor_lzw (l t w h : U16) (f : Byte) (s : State) :
    (setDescriptor l t w h f s).lzw =
      s.lzw := rfl
@[simp] theorem setDescriptor_bits (l t w h : U16) (f : Byte) (s : State) :
    (setDescriptor l t w h f s).bits =
      s.bits := rfl
@[simp] theorem setDescriptor_dict (l t w h : U16) (f : Byte) (s : State) :
    (setDescriptor l t w h f s).dict =
      s.dict := rfl
@[simp] theorem setDescriptor_stk (l t w h : U16) (f : Byte) (s : State) :
    (setDescriptor l t w h f s).stk =
      s.stk := rfl
@[simp] theorem setDescriptor_stkN (l t w h : U16) (f : Byte) (s : State) :
    (setDescriptor l t w h f s).stkN =
      s.stkN := rfl
@[simp] theorem setDescriptor_palG (l t w h : U16) (f : Byte) (s : State) :
    (setDescriptor l t w h f s).palG =
      s.palG := rfl
@[simp] theorem setDescriptor_palL (l t w h : U16) (f : Byte) (s : State) :
    (setDescriptor l t w h f s).palL =
      s.palL := rfl
@[simp] theorem setDescriptor_sched (l t w h : U16) (f : Byte) (s : State) :
    (setDescriptor l t w h f s).sched =
      s.sched := rfl
@[simp] theorem setDescriptor_timer (l t w h : U16) (f : Byte) (s : State) :
    (setDescriptor l t w h f s).timer =
      s.timer := rfl
@[simp] theorem setDescriptor_btn (l t w h : U16) (f : Byte) (s : State) :
    (setDescriptor l t w h f s).btn =
      s.btn := rfl

/-! ### imageData: the operands of LZW.IMAGE (R189) -/

@[simp] theorem imageData_cfg (m : Byte) (s : State) : (imageData m s).cfg = s.cfg := rfl
@[simp] theorem imageData_dir (m : Byte) (s : State) : (imageData m s).dir = s.dir := rfl
@[simp] theorem imageData_nowMs (m : Byte) (s : State) : (imageData m s).nowMs = s.nowMs := rfl
@[simp] theorem imageData_pins (m : Byte) (s : State) : (imageData m s).pins = s.pins := rfl
@[simp] theorem imageData_callFault (m : Byte) (s : State) : (imageData m s).callFault = s.callFault := rfl
@[simp] theorem imageData_src (m : Byte) (s : State) : (imageData m s).src = s.src := rfl
@[simp] theorem imageData_dst (m : Byte) (s : State) : (imageData m s).dst = s.dst := rfl
@[simp] theorem imageData_dstLen (m : Byte) (s : State) : (imageData m s).dstLen = s.dstLen := rfl
@[simp] theorem imageData_out (m : Byte) (s : State) : (imageData m s).out = s.out := rfl
@[simp] theorem imageData_ret (m : Byte) (s : State) : (imageData m s).ret = s.ret := rfl
@[simp] theorem imageData_inbox (m : Byte) (s : State) : (imageData m s).inbox = s.inbox := rfl
@[simp] theorem imageData_ctl (m : Byte) (s : State) : (imageData m s).ctl = s.ctl := rfl
@[simp] theorem imageData_sp (m : Byte) (s : State) : (imageData m s).sp = s.sp := rfl
@[simp] theorem imageData_drle (m : Byte) (s : State) : (imageData m s).drle = s.drle := rfl
@[simp] theorem imageData_gif (m : Byte) (s : State) : (imageData m s).gif = s.gif := rfl
@[simp] theorem imageData_gce (m : Byte) (s : State) : (imageData m s).gce = s.gce := rfl
@[simp] theorem imageData_img (m : Byte) (s : State) :
    (imageData m s).img =
      { s.img with npix := s.img.w.toNat * s.img.h.toNat, pixN := 0 } := rfl
@[simp] theorem imageData_lzw (m : Byte) (s : State) : (imageData m s).lzw = { s.lzw with mcs := m } := rfl
@[simp] theorem imageData_bits (m : Byte) (s : State) : (imageData m s).bits = s.bits := rfl
@[simp] theorem imageData_dict (m : Byte) (s : State) : (imageData m s).dict = s.dict := rfl
@[simp] theorem imageData_stk (m : Byte) (s : State) : (imageData m s).stk = s.stk := rfl
@[simp] theorem imageData_stkN (m : Byte) (s : State) : (imageData m s).stkN = s.stkN := rfl
@[simp] theorem imageData_palG (m : Byte) (s : State) : (imageData m s).palG = s.palG := rfl
@[simp] theorem imageData_palL (m : Byte) (s : State) : (imageData m s).palL = s.palL := rfl
@[simp] theorem imageData_sched (m : Byte) (s : State) : (imageData m s).sched = s.sched := rfl
@[simp] theorem imageData_timer (m : Byte) (s : State) : (imageData m s).timer = s.timer := rfl
@[simp] theorem imageData_btn (m : Byte) (s : State) : (imageData m s).btn = s.btn := rfl

/-! ### imageDone: the end of an image (R190, R191) -/

@[simp] theorem imageDone_cfg (s : State) : (imageDone s).cfg = s.cfg := rfl
@[simp] theorem imageDone_dir (s : State) : (imageDone s).dir = s.dir := rfl
@[simp] theorem imageDone_nowMs (s : State) : (imageDone s).nowMs = s.nowMs := rfl
@[simp] theorem imageDone_pins (s : State) : (imageDone s).pins = s.pins := rfl
@[simp] theorem imageDone_callFault (s : State) : (imageDone s).callFault = s.callFault := rfl
@[simp] theorem imageDone_src (s : State) : (imageDone s).src = s.src := rfl
@[simp] theorem imageDone_dst (s : State) : (imageDone s).dst = s.dst := rfl
@[simp] theorem imageDone_dstLen (s : State) : (imageDone s).dstLen = s.dstLen := rfl
@[simp] theorem imageDone_out (s : State) : (imageDone s).out = s.out ++ [.frameDone (delayMs s.gce)] := rfl
@[simp] theorem imageDone_ret (s : State) : (imageDone s).ret = s.ret := rfl
@[simp] theorem imageDone_inbox (s : State) : (imageDone s).inbox = s.inbox := rfl
@[simp] theorem imageDone_ctl (s : State) : (imageDone s).ctl = none := rfl
@[simp] theorem imageDone_sp (s : State) : (imageDone s).sp = s.sp := rfl
@[simp] theorem imageDone_drle (s : State) : (imageDone s).drle = s.drle := rfl
@[simp] theorem imageDone_gif (s : State) : (imageDone s).gif = { s.gif with state := .ready } := rfl
@[simp] theorem imageDone_gce (s : State) :
    (imageDone s).gce =
      { s.gce with seen := false, transpOn := false } := rfl
@[simp] theorem imageDone_img (s : State) : (imageDone s).img = s.img := rfl
@[simp] theorem imageDone_lzw (s : State) : (imageDone s).lzw = s.lzw := rfl
@[simp] theorem imageDone_bits (s : State) : (imageDone s).bits = s.bits := rfl
@[simp] theorem imageDone_dict (s : State) : (imageDone s).dict = s.dict := rfl
@[simp] theorem imageDone_stk (s : State) : (imageDone s).stk = s.stk := rfl
@[simp] theorem imageDone_stkN (s : State) : (imageDone s).stkN = s.stkN := rfl
@[simp] theorem imageDone_palG (s : State) : (imageDone s).palG = s.palG := rfl
@[simp] theorem imageDone_palL (s : State) : (imageDone s).palL = s.palL := rfl
@[simp] theorem imageDone_sched (s : State) : (imageDone s).sched = s.sched := rfl
@[simp] theorem imageDone_timer (s : State) : (imageDone s).timer = s.timer := rfl
@[simp] theorem imageDone_btn (s : State) : (imageDone s).btn = s.btn := rfl

/-! ### lzwSetup: the set-up of R212 -/

@[simp] theorem lzwSetup_cfg (s : State) : (lzwSetup s).cfg = s.cfg := rfl
@[simp] theorem lzwSetup_dir (s : State) : (lzwSetup s).dir = s.dir := rfl
@[simp] theorem lzwSetup_nowMs (s : State) : (lzwSetup s).nowMs = s.nowMs := rfl
@[simp] theorem lzwSetup_pins (s : State) : (lzwSetup s).pins = s.pins := rfl
@[simp] theorem lzwSetup_callFault (s : State) : (lzwSetup s).callFault = s.callFault := rfl
@[simp] theorem lzwSetup_src (s : State) : (lzwSetup s).src = s.src := rfl
@[simp] theorem lzwSetup_dst (s : State) : (lzwSetup s).dst = s.dst := rfl
@[simp] theorem lzwSetup_dstLen (s : State) : (lzwSetup s).dstLen = s.dstLen := rfl
@[simp] theorem lzwSetup_out (s : State) : (lzwSetup s).out = s.out := rfl
@[simp] theorem lzwSetup_ret (s : State) : (lzwSetup s).ret = s.ret := rfl
@[simp] theorem lzwSetup_inbox (s : State) : (lzwSetup s).inbox = s.inbox := rfl
@[simp] theorem lzwSetup_ctl (s : State) : (lzwSetup s).ctl = some .lzwCode := rfl
@[simp] theorem lzwSetup_sp (s : State) : (lzwSetup s).sp = s.sp := rfl
@[simp] theorem lzwSetup_drle (s : State) : (lzwSetup s).drle = s.drle := rfl
@[simp] theorem lzwSetup_gif (s : State) : (lzwSetup s).gif = s.gif := rfl
@[simp] theorem lzwSetup_gce (s : State) : (lzwSetup s).gce = s.gce := rfl
@[simp] theorem lzwSetup_img (s : State) : (lzwSetup s).img = s.img := rfl
@[simp] theorem lzwSetup_lzw (s : State) :
    (lzwSetup s).lzw =
      { s.lzw with
        clear := 1 <<< s.lzw.mcs.toNat, endCode := 1 <<< s.lzw.mcs.toNat + 1,
        codeSize := s.lzw.mcs.toNat + 1, nextCode := 1 <<< s.lzw.mcs.toNat + 2, prev := none } := rfl
@[simp] theorem lzwSetup_bits (s : State) : (lzwSetup s).bits = BitRegs.reset := rfl
@[simp] theorem lzwSetup_dict (s : State) : (lzwSetup s).dict = s.dict := rfl
@[simp] theorem lzwSetup_stk (s : State) : (lzwSetup s).stk = s.stk := rfl
@[simp] theorem lzwSetup_stkN (s : State) : (lzwSetup s).stkN = 0 := rfl
@[simp] theorem lzwSetup_palG (s : State) : (lzwSetup s).palG = s.palG := rfl
@[simp] theorem lzwSetup_palL (s : State) : (lzwSetup s).palL = s.palL := rfl
@[simp] theorem lzwSetup_sched (s : State) : (lzwSetup s).sched = s.sched := rfl
@[simp] theorem lzwSetup_timer (s : State) : (lzwSetup s).timer = s.timer := rfl
@[simp] theorem lzwSetup_btn (s : State) : (lzwSetup s).btn = s.btn := rfl

/-! ### gifSetup: the start of GIF.START (R171) -/

@[simp] theorem gifSetup_cfg (w h : Nat) (s : State) : (gifSetup w h s).cfg = s.cfg := rfl
@[simp] theorem gifSetup_dir (w h : Nat) (s : State) : (gifSetup w h s).dir = s.dir := rfl
@[simp] theorem gifSetup_nowMs (w h : Nat) (s : State) : (gifSetup w h s).nowMs = s.nowMs := rfl
@[simp] theorem gifSetup_pins (w h : Nat) (s : State) : (gifSetup w h s).pins = s.pins := rfl
@[simp] theorem gifSetup_callFault (w h : Nat) (s : State) : (gifSetup w h s).callFault = s.callFault := rfl
@[simp] theorem gifSetup_src (w h : Nat) (s : State) : (gifSetup w h s).src = s.src := rfl
@[simp] theorem gifSetup_dst (w h : Nat) (s : State) : (gifSetup w h s).dst = s.dst := rfl
@[simp] theorem gifSetup_dstLen (w h : Nat) (s : State) :
    (gifSetup w h s).dstLen =
      2 * s.cfg.surfW * s.cfg.surfH := rfl
@[simp] theorem gifSetup_out (w h : Nat) (s : State) : (gifSetup w h s).out = s.out := rfl
@[simp] theorem gifSetup_ret (w h : Nat) (s : State) : (gifSetup w h s).ret = s.ret := rfl
@[simp] theorem gifSetup_inbox (w h : Nat) (s : State) : (gifSetup w h s).inbox = s.inbox := rfl
@[simp] theorem gifSetup_ctl (w h : Nat) (s : State) : (gifSetup w h s).ctl = some .gifHeader := rfl
@[simp] theorem gifSetup_sp (w h : Nat) (s : State) : (gifSetup w h s).sp = 0 := rfl
@[simp] theorem gifSetup_drle (w h : Nat) (s : State) : (gifSetup w h s).drle = s.drle := rfl
@[simp] theorem gifSetup_gif (w h : Nat) (s : State) :
    (gifSetup w h s).gif =
      { GifRegs.reset with expW := w, expH := h } := rfl
@[simp] theorem gifSetup_gce (w h : Nat) (s : State) : (gifSetup w h s).gce = GceRegs.reset := rfl
@[simp] theorem gifSetup_img (w h : Nat) (s : State) : (gifSetup w h s).img = ImgRegs.reset := rfl
@[simp] theorem gifSetup_lzw (w h : Nat) (s : State) : (gifSetup w h s).lzw = LzwRegs.reset := rfl
@[simp] theorem gifSetup_bits (w h : Nat) (s : State) : (gifSetup w h s).bits = BitRegs.reset := rfl
@[simp] theorem gifSetup_dict (w h : Nat) (s : State) : (gifSetup w h s).dict = s.dict := rfl
@[simp] theorem gifSetup_stk (w h : Nat) (s : State) : (gifSetup w h s).stk = s.stk := rfl
@[simp] theorem gifSetup_stkN (w h : Nat) (s : State) : (gifSetup w h s).stkN = s.stkN := rfl
@[simp] theorem gifSetup_palG (w h : Nat) (s : State) : (gifSetup w h s).palG = s.palG := rfl
@[simp] theorem gifSetup_palL (w h : Nat) (s : State) : (gifSetup w h s).palL = s.palL := rfl
@[simp] theorem gifSetup_sched (w h : Nat) (s : State) : (gifSetup w h s).sched = s.sched := rfl
@[simp] theorem gifSetup_timer (w h : Nat) (s : State) : (gifSetup w h s).timer = s.timer := rfl
@[simp] theorem gifSetup_btn (w h : Nat) (s : State) : (gifSetup w h s).btn = s.btn := rfl

/-! ### drleSetup: the start of a decode (R143) -/

@[simp] theorem drleSetup_cfg (f : List Byte) (w h x y st sx sy e n : Nat) (s : State) :
    (drleSetup f w h x y st sx sy e n s).cfg =
      s.cfg := rfl
@[simp] theorem drleSetup_dir (f : List Byte) (w h x y st sx sy e n : Nat) (s : State) :
    (drleSetup f w h x y st sx sy e n s).dir =
      s.dir := rfl
@[simp] theorem drleSetup_nowMs (f : List Byte) (w h x y st sx sy e n : Nat) (s : State) :
    (drleSetup f w h x y st sx sy e n s).nowMs =
      s.nowMs := rfl
@[simp] theorem drleSetup_pins (f : List Byte) (w h x y st sx sy e n : Nat) (s : State) :
    (drleSetup f w h x y st sx sy e n s).pins =
      s.pins := rfl
@[simp] theorem drleSetup_callFault (f : List Byte) (w h x y st sx sy e n : Nat) (s : State) :
    (drleSetup f w h x y st sx sy e n s).callFault =
      s.callFault := rfl
@[simp] theorem drleSetup_src (f : List Byte) (w h x y st sx sy e n : Nat) (s : State) :
    (drleSetup f w h x y st sx sy e n s).src =
      f := rfl
@[simp] theorem drleSetup_dst (f : List Byte) (w h x y st sx sy e n : Nat) (s : State) :
    (drleSetup f w h x y st sx sy e n s).dst =
      s.dst := rfl
@[simp] theorem drleSetup_dstLen (f : List Byte) (w h x y st sx sy e n : Nat) (s : State) :
    (drleSetup f w h x y st sx sy e n s).dstLen =
      n := rfl
@[simp] theorem drleSetup_out (f : List Byte) (w h x y st sx sy e n : Nat) (s : State) :
    (drleSetup f w h x y st sx sy e n s).out =
      s.out := rfl
@[simp] theorem drleSetup_ret (f : List Byte) (w h x y st sx sy e n : Nat) (s : State) :
    (drleSetup f w h x y st sx sy e n s).ret =
      s.ret := rfl
@[simp] theorem drleSetup_inbox (f : List Byte) (w h x y st sx sy e n : Nat) (s : State) :
    (drleSetup f w h x y st sx sy e n s).inbox =
      s.inbox := rfl
@[simp] theorem drleSetup_ctl (f : List Byte) (w h x y st sx sy e n : Nat) (s : State) :
    (drleSetup f w h x y st sx sy e n s).ctl =
      some .drle := rfl
@[simp] theorem drleSetup_sp (f : List Byte) (w h x y st sx sy e n : Nat) (s : State) :
    (drleSetup f w h x y st sx sy e n s).sp =
      0 := rfl
@[simp] theorem drleSetup_drle (f : List Byte) (w h x y st sx sy e n : Nat) (s : State) :
    (drleSetup f w h x y st sx sy e n s).drle =
      { s.drle with
        pos := 0, w := w, h := h, x := x, y := y, stride := st, scaleX := sx, scaleY := sy,
        extra := e } := rfl
@[simp] theorem drleSetup_gif (f : List Byte) (w h x y st sx sy e n : Nat) (s : State) :
    (drleSetup f w h x y st sx sy e n s).gif =
      s.gif := rfl
@[simp] theorem drleSetup_gce (f : List Byte) (w h x y st sx sy e n : Nat) (s : State) :
    (drleSetup f w h x y st sx sy e n s).gce =
      s.gce := rfl
@[simp] theorem drleSetup_img (f : List Byte) (w h x y st sx sy e n : Nat) (s : State) :
    (drleSetup f w h x y st sx sy e n s).img =
      s.img := rfl
@[simp] theorem drleSetup_lzw (f : List Byte) (w h x y st sx sy e n : Nat) (s : State) :
    (drleSetup f w h x y st sx sy e n s).lzw =
      s.lzw := rfl
@[simp] theorem drleSetup_bits (f : List Byte) (w h x y st sx sy e n : Nat) (s : State) :
    (drleSetup f w h x y st sx sy e n s).bits =
      s.bits := rfl
@[simp] theorem drleSetup_dict (f : List Byte) (w h x y st sx sy e n : Nat) (s : State) :
    (drleSetup f w h x y st sx sy e n s).dict =
      s.dict := rfl
@[simp] theorem drleSetup_stk (f : List Byte) (w h x y st sx sy e n : Nat) (s : State) :
    (drleSetup f w h x y st sx sy e n s).stk =
      s.stk := rfl
@[simp] theorem drleSetup_stkN (f : List Byte) (w h x y st sx sy e n : Nat) (s : State) :
    (drleSetup f w h x y st sx sy e n s).stkN =
      s.stkN := rfl
@[simp] theorem drleSetup_palG (f : List Byte) (w h x y st sx sy e n : Nat) (s : State) :
    (drleSetup f w h x y st sx sy e n s).palG =
      s.palG := rfl
@[simp] theorem drleSetup_palL (f : List Byte) (w h x y st sx sy e n : Nat) (s : State) :
    (drleSetup f w h x y st sx sy e n s).palL =
      s.palL := rfl
@[simp] theorem drleSetup_sched (f : List Byte) (w h x y st sx sy e n : Nat) (s : State) :
    (drleSetup f w h x y st sx sy e n s).sched =
      s.sched := rfl
@[simp] theorem drleSetup_timer (f : List Byte) (w h x y st sx sy e n : Nat) (s : State) :
    (drleSetup f w h x y st sx sy e n s).timer =
      s.timer := rfl
@[simp] theorem drleSetup_btn (f : List Byte) (w h x y st sx sy e n : Nat) (s : State) :
    (drleSetup f w h x y st sx sy e n s).btn =
      s.btn := rfl

/-! ### enterLoading: entering LOADING (R253) -/

@[simp] theorem enterLoading_cfg (s : State) : (enterLoading s).cfg = s.cfg := rfl
@[simp] theorem enterLoading_dir (s : State) : (enterLoading s).dir = s.dir := rfl
@[simp] theorem enterLoading_nowMs (s : State) : (enterLoading s).nowMs = s.nowMs := rfl
@[simp] theorem enterLoading_pins (s : State) : (enterLoading s).pins = s.pins := rfl
@[simp] theorem enterLoading_callFault (s : State) : (enterLoading s).callFault = s.callFault := rfl
@[simp] theorem enterLoading_src (s : State) : (enterLoading s).src = s.src := rfl
@[simp] theorem enterLoading_dst (s : State) : (enterLoading s).dst = s.dst := rfl
@[simp] theorem enterLoading_dstLen (s : State) : (enterLoading s).dstLen = s.dstLen := rfl
@[simp] theorem enterLoading_out (s : State) : (enterLoading s).out = s.out := rfl
@[simp] theorem enterLoading_ret (s : State) : (enterLoading s).ret = s.ret := rfl
@[simp] theorem enterLoading_inbox (s : State) : (enterLoading s).inbox = s.inbox := rfl
@[simp] theorem enterLoading_ctl (s : State) : (enterLoading s).ctl = s.ctl := rfl
@[simp] theorem enterLoading_sp (s : State) : (enterLoading s).sp = s.sp := rfl
@[simp] theorem enterLoading_drle (s : State) : (enterLoading s).drle = s.drle := rfl
@[simp] theorem enterLoading_gif (s : State) : (enterLoading s).gif = s.gif := rfl
@[simp] theorem enterLoading_gce (s : State) : (enterLoading s).gce = s.gce := rfl
@[simp] theorem enterLoading_img (s : State) : (enterLoading s).img = s.img := rfl
@[simp] theorem enterLoading_lzw (s : State) : (enterLoading s).lzw = s.lzw := rfl
@[simp] theorem enterLoading_bits (s : State) : (enterLoading s).bits = s.bits := rfl
@[simp] theorem enterLoading_dict (s : State) : (enterLoading s).dict = s.dict := rfl
@[simp] theorem enterLoading_stk (s : State) : (enterLoading s).stk = s.stk := rfl
@[simp] theorem enterLoading_stkN (s : State) : (enterLoading s).stkN = s.stkN := rfl
@[simp] theorem enterLoading_palG (s : State) : (enterLoading s).palG = s.palG := rfl
@[simp] theorem enterLoading_palL (s : State) : (enterLoading s).palL = s.palL := rfl
@[simp] theorem enterLoading_sched (s : State) :
    (enterLoading s).sched =
      { s.sched with state := .loading, frameReady := false } := rfl
@[simp] theorem enterLoading_timer (s : State) :
    (enterLoading s).timer =
      { s.timer with armed := false } := rfl
@[simp] theorem enterLoading_btn (s : State) : (enterLoading s).btn = s.btn := rfl

/-! ### recordLevels: the recorded levels (R275) -/

@[simp] theorem recordLevels_cfg (a b : Bool) (s : State) : (recordLevels a b s).cfg = s.cfg := rfl
@[simp] theorem recordLevels_dir (a b : Bool) (s : State) : (recordLevels a b s).dir = s.dir := rfl
@[simp] theorem recordLevels_nowMs (a b : Bool) (s : State) : (recordLevels a b s).nowMs = s.nowMs := rfl
@[simp] theorem recordLevels_pins (a b : Bool) (s : State) : (recordLevels a b s).pins = s.pins := rfl
@[simp] theorem recordLevels_callFault (a b : Bool) (s : State) : (recordLevels a b s).callFault = s.callFault := rfl
@[simp] theorem recordLevels_src (a b : Bool) (s : State) : (recordLevels a b s).src = s.src := rfl
@[simp] theorem recordLevels_dst (a b : Bool) (s : State) : (recordLevels a b s).dst = s.dst := rfl
@[simp] theorem recordLevels_dstLen (a b : Bool) (s : State) : (recordLevels a b s).dstLen = s.dstLen := rfl
@[simp] theorem recordLevels_out (a b : Bool) (s : State) : (recordLevels a b s).out = s.out := rfl
@[simp] theorem recordLevels_ret (a b : Bool) (s : State) : (recordLevels a b s).ret = s.ret := rfl
@[simp] theorem recordLevels_inbox (a b : Bool) (s : State) : (recordLevels a b s).inbox = s.inbox := rfl
@[simp] theorem recordLevels_ctl (a b : Bool) (s : State) : (recordLevels a b s).ctl = s.ctl := rfl
@[simp] theorem recordLevels_sp (a b : Bool) (s : State) : (recordLevels a b s).sp = s.sp := rfl
@[simp] theorem recordLevels_drle (a b : Bool) (s : State) : (recordLevels a b s).drle = s.drle := rfl
@[simp] theorem recordLevels_gif (a b : Bool) (s : State) : (recordLevels a b s).gif = s.gif := rfl
@[simp] theorem recordLevels_gce (a b : Bool) (s : State) : (recordLevels a b s).gce = s.gce := rfl
@[simp] theorem recordLevels_img (a b : Bool) (s : State) : (recordLevels a b s).img = s.img := rfl
@[simp] theorem recordLevels_lzw (a b : Bool) (s : State) : (recordLevels a b s).lzw = s.lzw := rfl
@[simp] theorem recordLevels_bits (a b : Bool) (s : State) : (recordLevels a b s).bits = s.bits := rfl
@[simp] theorem recordLevels_dict (a b : Bool) (s : State) : (recordLevels a b s).dict = s.dict := rfl
@[simp] theorem recordLevels_stk (a b : Bool) (s : State) : (recordLevels a b s).stk = s.stk := rfl
@[simp] theorem recordLevels_stkN (a b : Bool) (s : State) : (recordLevels a b s).stkN = s.stkN := rfl
@[simp] theorem recordLevels_palG (a b : Bool) (s : State) : (recordLevels a b s).palG = s.palG := rfl
@[simp] theorem recordLevels_palL (a b : Bool) (s : State) : (recordLevels a b s).palL = s.palL := rfl
@[simp] theorem recordLevels_sched (a b : Bool) (s : State) :
    (recordLevels a b s).sched = { s.sched with pollDue := false } := rfl
@[simp] theorem recordLevels_timer (a b : Bool) (s : State) : (recordLevels a b s).timer = s.timer := rfl
@[simp] theorem recordLevels_btn (a b : Bool) (s : State) :
    (recordLevels a b s).btn =
      { s.btn with lastA := a, lastB := b } := rfl

/-! ### acceptSwitch: an accepted edge (R276) -/

@[simp] theorem acceptSwitch_cfg (n k : Nat) (s : State) : (acceptSwitch n k s).cfg = s.cfg := rfl
@[simp] theorem acceptSwitch_dir (n k : Nat) (s : State) : (acceptSwitch n k s).dir = s.dir := rfl
@[simp] theorem acceptSwitch_nowMs (n k : Nat) (s : State) : (acceptSwitch n k s).nowMs = s.nowMs := rfl
@[simp] theorem acceptSwitch_pins (n k : Nat) (s : State) : (acceptSwitch n k s).pins = s.pins := rfl
@[simp] theorem acceptSwitch_callFault (n k : Nat) (s : State) : (acceptSwitch n k s).callFault = s.callFault := rfl
@[simp] theorem acceptSwitch_src (n k : Nat) (s : State) : (acceptSwitch n k s).src = s.src := rfl
@[simp] theorem acceptSwitch_dst (n k : Nat) (s : State) : (acceptSwitch n k s).dst = s.dst := rfl
@[simp] theorem acceptSwitch_dstLen (n k : Nat) (s : State) : (acceptSwitch n k s).dstLen = s.dstLen := rfl
@[simp] theorem acceptSwitch_out (n k : Nat) (s : State) :
    (acceptSwitch n k s).out =
      s.out ++ [.folderSwitch k] := rfl
@[simp] theorem acceptSwitch_ret (n k : Nat) (s : State) : (acceptSwitch n k s).ret = s.ret := rfl
@[simp] theorem acceptSwitch_inbox (n k : Nat) (s : State) : (acceptSwitch n k s).inbox = s.inbox := rfl
@[simp] theorem acceptSwitch_ctl (n k : Nat) (s : State) : (acceptSwitch n k s).ctl = s.ctl := rfl
@[simp] theorem acceptSwitch_sp (n k : Nat) (s : State) : (acceptSwitch n k s).sp = s.sp := rfl
@[simp] theorem acceptSwitch_drle (n k : Nat) (s : State) : (acceptSwitch n k s).drle = s.drle := rfl
@[simp] theorem acceptSwitch_gif (n k : Nat) (s : State) : (acceptSwitch n k s).gif = s.gif := rfl
@[simp] theorem acceptSwitch_gce (n k : Nat) (s : State) : (acceptSwitch n k s).gce = s.gce := rfl
@[simp] theorem acceptSwitch_img (n k : Nat) (s : State) : (acceptSwitch n k s).img = s.img := rfl
@[simp] theorem acceptSwitch_lzw (n k : Nat) (s : State) : (acceptSwitch n k s).lzw = s.lzw := rfl
@[simp] theorem acceptSwitch_bits (n k : Nat) (s : State) : (acceptSwitch n k s).bits = s.bits := rfl
@[simp] theorem acceptSwitch_dict (n k : Nat) (s : State) : (acceptSwitch n k s).dict = s.dict := rfl
@[simp] theorem acceptSwitch_stk (n k : Nat) (s : State) : (acceptSwitch n k s).stk = s.stk := rfl
@[simp] theorem acceptSwitch_stkN (n k : Nat) (s : State) : (acceptSwitch n k s).stkN = s.stkN := rfl
@[simp] theorem acceptSwitch_palG (n k : Nat) (s : State) : (acceptSwitch n k s).palG = s.palG := rfl
@[simp] theorem acceptSwitch_palL (n k : Nat) (s : State) : (acceptSwitch n k s).palL = s.palL := rfl
@[simp] theorem acceptSwitch_sched (n k : Nat) (s : State) :
    (acceptSwitch n k s).sched =
      { s.sched with folderIdx := k, state := .folderSwitch } := rfl
@[simp] theorem acceptSwitch_timer (n k : Nat) (s : State) : (acceptSwitch n k s).timer = s.timer := rfl
@[simp] theorem acceptSwitch_btn (n k : Nat) (s : State) :
    (acceptSwitch n k s).btn =
      { s.btn with lastSwitch := some n } := rfl

/-! ### shiftIn: a data byte enters the accumulator (R216) -/

@[simp] theorem shiftIn_cfg (b : Byte) (s : State) : (shiftIn b s).cfg = s.cfg := rfl
@[simp] theorem shiftIn_dir (b : Byte) (s : State) : (shiftIn b s).dir = s.dir := rfl
@[simp] theorem shiftIn_nowMs (b : Byte) (s : State) : (shiftIn b s).nowMs = s.nowMs := rfl
@[simp] theorem shiftIn_pins (b : Byte) (s : State) : (shiftIn b s).pins = s.pins := rfl
@[simp] theorem shiftIn_callFault (b : Byte) (s : State) : (shiftIn b s).callFault = s.callFault := rfl
@[simp] theorem shiftIn_src (b : Byte) (s : State) : (shiftIn b s).src = s.src := rfl
@[simp] theorem shiftIn_dst (b : Byte) (s : State) : (shiftIn b s).dst = s.dst := rfl
@[simp] theorem shiftIn_dstLen (b : Byte) (s : State) : (shiftIn b s).dstLen = s.dstLen := rfl
@[simp] theorem shiftIn_out (b : Byte) (s : State) : (shiftIn b s).out = s.out := rfl
@[simp] theorem shiftIn_ret (b : Byte) (s : State) : (shiftIn b s).ret = s.ret := rfl
@[simp] theorem shiftIn_inbox (b : Byte) (s : State) : (shiftIn b s).inbox = s.inbox := rfl
@[simp] theorem shiftIn_ctl (b : Byte) (s : State) : (shiftIn b s).ctl = s.ctl := rfl
@[simp] theorem shiftIn_sp (b : Byte) (s : State) : (shiftIn b s).sp = s.sp := rfl
@[simp] theorem shiftIn_drle (b : Byte) (s : State) : (shiftIn b s).drle = s.drle := rfl
@[simp] theorem shiftIn_gif (b : Byte) (s : State) : (shiftIn b s).gif = s.gif := rfl
@[simp] theorem shiftIn_gce (b : Byte) (s : State) : (shiftIn b s).gce = s.gce := rfl
@[simp] theorem shiftIn_img (b : Byte) (s : State) : (shiftIn b s).img = s.img := rfl
@[simp] theorem shiftIn_lzw (b : Byte) (s : State) : (shiftIn b s).lzw = s.lzw := rfl
@[simp] theorem shiftIn_bits (b : Byte) (s : State) :
    (shiftIn b s).bits =
      { s.bits with buf := s.bits.buf ||| (b.toNat <<< s.bits.cnt), cnt := s.bits.cnt + 8 } := rfl
@[simp] theorem shiftIn_dict (b : Byte) (s : State) : (shiftIn b s).dict = s.dict := rfl
@[simp] theorem shiftIn_stk (b : Byte) (s : State) : (shiftIn b s).stk = s.stk := rfl
@[simp] theorem shiftIn_stkN (b : Byte) (s : State) : (shiftIn b s).stkN = s.stkN := rfl
@[simp] theorem shiftIn_palG (b : Byte) (s : State) : (shiftIn b s).palG = s.palG := rfl
@[simp] theorem shiftIn_palL (b : Byte) (s : State) : (shiftIn b s).palL = s.palL := rfl
@[simp] theorem shiftIn_sched (b : Byte) (s : State) : (shiftIn b s).sched = s.sched := rfl
@[simp] theorem shiftIn_timer (b : Byte) (s : State) : (shiftIn b s).timer = s.timer := rfl
@[simp] theorem shiftIn_btn (b : Byte) (s : State) : (shiftIn b s).btn = s.btn := rfl

/-! ### shiftOut: a code leaves the accumulator (R216) -/

@[simp] theorem shiftOut_cfg (w : Nat) (s : State) : (shiftOut w s).cfg = s.cfg := rfl
@[simp] theorem shiftOut_dir (w : Nat) (s : State) : (shiftOut w s).dir = s.dir := rfl
@[simp] theorem shiftOut_nowMs (w : Nat) (s : State) : (shiftOut w s).nowMs = s.nowMs := rfl
@[simp] theorem shiftOut_pins (w : Nat) (s : State) : (shiftOut w s).pins = s.pins := rfl
@[simp] theorem shiftOut_callFault (w : Nat) (s : State) : (shiftOut w s).callFault = s.callFault := rfl
@[simp] theorem shiftOut_src (w : Nat) (s : State) : (shiftOut w s).src = s.src := rfl
@[simp] theorem shiftOut_dst (w : Nat) (s : State) : (shiftOut w s).dst = s.dst := rfl
@[simp] theorem shiftOut_dstLen (w : Nat) (s : State) : (shiftOut w s).dstLen = s.dstLen := rfl
@[simp] theorem shiftOut_out (w : Nat) (s : State) : (shiftOut w s).out = s.out := rfl
@[simp] theorem shiftOut_ret (w : Nat) (s : State) : (shiftOut w s).ret = s.ret := rfl
@[simp] theorem shiftOut_inbox (w : Nat) (s : State) : (shiftOut w s).inbox = s.inbox := rfl
@[simp] theorem shiftOut_ctl (w : Nat) (s : State) : (shiftOut w s).ctl = s.ctl := rfl
@[simp] theorem shiftOut_sp (w : Nat) (s : State) : (shiftOut w s).sp = s.sp := rfl
@[simp] theorem shiftOut_drle (w : Nat) (s : State) : (shiftOut w s).drle = s.drle := rfl
@[simp] theorem shiftOut_gif (w : Nat) (s : State) : (shiftOut w s).gif = s.gif := rfl
@[simp] theorem shiftOut_gce (w : Nat) (s : State) : (shiftOut w s).gce = s.gce := rfl
@[simp] theorem shiftOut_img (w : Nat) (s : State) : (shiftOut w s).img = s.img := rfl
@[simp] theorem shiftOut_lzw (w : Nat) (s : State) : (shiftOut w s).lzw = s.lzw := rfl
@[simp] theorem shiftOut_bits (w : Nat) (s : State) :
    (shiftOut w s).bits =
      { s.bits with buf := s.bits.buf >>> w, cnt := s.bits.cnt - w } := rfl
@[simp] theorem shiftOut_dict (w : Nat) (s : State) : (shiftOut w s).dict = s.dict := rfl
@[simp] theorem shiftOut_stk (w : Nat) (s : State) : (shiftOut w s).stk = s.stk := rfl
@[simp] theorem shiftOut_stkN (w : Nat) (s : State) : (shiftOut w s).stkN = s.stkN := rfl
@[simp] theorem shiftOut_palG (w : Nat) (s : State) : (shiftOut w s).palG = s.palG := rfl
@[simp] theorem shiftOut_palL (w : Nat) (s : State) : (shiftOut w s).palL = s.palL := rfl
@[simp] theorem shiftOut_sched (w : Nat) (s : State) : (shiftOut w s).sched = s.sched := rfl
@[simp] theorem shiftOut_timer (w : Nat) (s : State) : (shiftOut w s).timer = s.timer := rfl
@[simp] theorem shiftOut_btn (w : Nat) (s : State) : (shiftOut w s).btn = s.btn := rfl

/-! ### resetEvent: the reset event (R340, R341) -/

@[simp] theorem resetEvent_cfg (s : State) : (resetEvent s).cfg = s.cfg := rfl
@[simp] theorem resetEvent_dir (s : State) : (resetEvent s).dir = s.dir := rfl
@[simp] theorem resetEvent_nowMs (s : State) : (resetEvent s).nowMs = s.nowMs := rfl
@[simp] theorem resetEvent_pins (s : State) : (resetEvent s).pins = s.pins := rfl
@[simp] theorem resetEvent_src (s : State) : (resetEvent s).src = s.src := rfl
@[simp] theorem resetEvent_dst (s : State) : (resetEvent s).dst = s.dst := rfl
@[simp] theorem resetEvent_dstLen (s : State) : (resetEvent s).dstLen = 2 * s.cfg.surfW * s.cfg.surfH := rfl
@[simp] theorem resetEvent_out (s : State) : (resetEvent s).out = s.out := rfl
@[simp] theorem resetEvent_ret (s : State) : (resetEvent s).ret = .none := rfl
@[simp] theorem resetEvent_callFault (s : State) : (resetEvent s).callFault = none := rfl
@[simp] theorem resetEvent_inbox (s : State) : (resetEvent s).inbox = s.inbox := rfl
@[simp] theorem resetEvent_ctl (s : State) : (resetEvent s).ctl = none := rfl
@[simp] theorem resetEvent_sp (s : State) : (resetEvent s).sp = 0 := rfl
@[simp] theorem resetEvent_drle (s : State) : (resetEvent s).drle = DrleRegs.reset := rfl
@[simp] theorem resetEvent_gif (s : State) : (resetEvent s).gif = GifRegs.reset := rfl
@[simp] theorem resetEvent_gce (s : State) : (resetEvent s).gce = GceRegs.reset := rfl
@[simp] theorem resetEvent_img (s : State) : (resetEvent s).img = ImgRegs.reset := rfl
@[simp] theorem resetEvent_lzw (s : State) : (resetEvent s).lzw = LzwRegs.reset := rfl
@[simp] theorem resetEvent_bits (s : State) : (resetEvent s).bits = BitRegs.reset := rfl
@[simp] theorem resetEvent_dict (s : State) : (resetEvent s).dict = [] := rfl
@[simp] theorem resetEvent_stk (s : State) : (resetEvent s).stk = [] := rfl
@[simp] theorem resetEvent_stkN (s : State) : (resetEvent s).stkN = 0 := rfl
@[simp] theorem resetEvent_palG (s : State) : (resetEvent s).palG = [] := rfl
@[simp] theorem resetEvent_palL (s : State) : (resetEvent s).palL = [] := rfl
@[simp] theorem resetEvent_sched (s : State) : (resetEvent s).sched = SchedRegs.reset := rfl
@[simp] theorem resetEvent_timer (s : State) : (resetEvent s).timer = TimerRegs.reset := rfl
@[simp] theorem resetEvent_btn (s : State) : (resetEvent s).btn = BtnRegs.reset := rfl

/-- A reset in the middle of an operation is the reset event on the DST written so far (R340). -/
theorem resetDuring_eq (full : Mem Byte) (reached : List Nat) (s : State) :
    resetDuring full reached s = { resetEvent s with dst := memMerge full reached s.dst } := rfl

end Sys2Proof.Machine
end

