-- ==== Sys2Proof/Laws/Mem.lean ====
section
/-! SUPPORT. Sparse memories: a read after a write, the canonical form, palettes, and the pixels of a block in DST. -/

namespace Sys2Proof.Machine

variable {α : Type}

@[simp] theorem memRead_nil (a : Nat) : memRead ([] : Mem α) a = none := rfl

@[simp] theorem memRead_memWrite_same (m : Mem α) (a : Nat) (v : α) :
    memRead (memWrite m a v) a = some v := by
  induction m with
  | nil => simp [memWrite, memRead]
  | cons e rest ih =>
    obtain ⟨k, w⟩ := e
    simp only [memWrite]
    split
    · simp [memRead]
    · split
      · simp [memRead]
      · rename_i h1 h2
        simp [memRead, ih, Ne.symm h2]

theorem memRead_memWrite_ne (m : Mem α) {a b : Nat} (v : α) (h : b ≠ a) :
    memRead (memWrite m a v) b = memRead m b := by
  induction m with
  | nil => simp [memWrite, memRead, Ne.symm h]
  | cons e rest ih =>
    obtain ⟨k, w⟩ := e
    simp only [memWrite]
    split
    · simp [memRead, Ne.symm h]
    · split
      · rename_i h1 h2; subst h2; simp [memRead, Ne.symm h]
      · simp [memRead, ih]

theorem memRead_memWrite (m : Mem α) (a b : Nat) (v : α) :
    memRead (memWrite m a v) b = if b = a then some v else memRead m b := by
  split
  · next h => subst h; simp
  · next h => exact memRead_memWrite_ne m v h

/-- A written memory holds the old addresses and the new one, no others. -/
theorem mem_memWrite {m : Mem α} {a : Nat} {v : α} {e : Nat × α} (h : e ∈ memWrite m a v) :
    e = (a, v) ∨ e ∈ m := by
  induction m with
  | nil => simpa [memWrite] using h
  | cons p rest ih =>
    obtain ⟨k, w⟩ := p
    simp only [memWrite] at h
    split at h
    · simpa using h
    · split at h
      · simp only [List.mem_cons] at h ⊢; tauto
      · simp only [List.mem_cons] at h ⊢
        rcases h with h | h
        · tauto
        · rcases ih h with h | h <;> tauto

theorem memWrite_wf {m : Mem α} (a : Nat) (v : α) (h : Mem.wf m) : Mem.wf (memWrite m a v) := by
  induction m with
  | nil => simp [memWrite]
  | cons p rest ih =>
    obtain ⟨k, w⟩ := p
    simp only [Mem.wf, List.pairwise_cons] at h
    simp only [memWrite]
    split
    · next hlt =>
      simp only [Mem.wf, List.pairwise_cons, List.mem_cons]
      refine ⟨?_, h.1, h.2⟩
      rintro e (rfl | he)
      · exact hlt
      · exact hlt.trans (h.1 e he)
    · split
      · next h1 h2 =>
        subst h2
        exact List.pairwise_cons.2 ⟨h.1, h.2⟩
      · next h1 h2 =>
        refine List.pairwise_cons.2 ⟨?_, ih h.2⟩
        intro e he
        rcases mem_memWrite he with rfl | he
        · show k < a; omega
        · exact h.1 e he

/-- In a canonical memory an address below every listed one is unwritten. -/
theorem memRead_eq_none_of_lt {m : Mem α} {a : Nat} (h : ∀ e ∈ m, a < e.1) : memRead m a = none := by
  induction m with
  | nil => rfl
  | cons p rest ih =>
    obtain ⟨k, w⟩ := p
    have hk : a < k := h (k, w) (by simp)
    simp only [memRead]
    rw [if_neg (by omega)]
    exact ih fun e he => h e (by simp [he])

/-- Canonical memories that read alike are the same data. -/
theorem Mem.wf.ext {m m' : Mem α} (h : Mem.wf m) (h' : Mem.wf m')
    (hr : ∀ a, memRead m a = memRead m' a) : m = m' := by
  induction m generalizing m' with
  | nil =>
    cases m' with
    | nil => rfl
    | cons p rest => exact absurd (hr p.1) (by simp [memRead])
  | cons p rest ih =>
    obtain ⟨k, v⟩ := p
    cases m' with
    | nil => exact absurd (hr k) (by simp [memRead])
    | cons q rest' =>
      obtain ⟨k', v'⟩ := q
      have hp := List.pairwise_cons.1 h
      have hq := List.pairwise_cons.1 h'
      have hkk : k = k' := by
        rcases lt_trichotomy k k' with hlt | heq | hgt
        · have := hr k
          rw [memRead_eq_none_of_lt (m := (k', v') :: rest') (a := k) ?_] at this
          · simp [memRead] at this
          · intro e he
            rcases List.mem_cons.1 he with rfl | he
            · exact hlt
            · exact hlt.trans (hq.1 e he)
        · exact heq
        · have := hr k'
          rw [memRead_eq_none_of_lt (m := (k, v) :: rest) (a := k') ?_] at this
          · simp [memRead] at this
          · intro e he
            rcases List.mem_cons.1 he with rfl | he
            · exact hgt
            · exact hgt.trans (hp.1 e he)
      subst hkk
      have hv : v = v' := by have := hr k; simpa [memRead] using this
      subst hv
      congr 1
      refine ih hp.2 hq.2 fun a => ?_
      by_cases hak : k = a
      · subst hak
        rw [memRead_eq_none_of_lt hp.1, memRead_eq_none_of_lt hq.1]
      · simpa [memRead, hak] using hr a

/-! ## Palettes -/

theorem writePalette_wf (t : List Rgb) (i : Nat) {m : Mem Rgb} (h : Mem.wf m) :
    Mem.wf (writePalette t i m) := by
  induction t generalizing i m with
  | nil => exact h
  | cons c rest ih => exact ih (i + 1) (memWrite_wf i c h)

theorem memRead_writePalette_lt (t : List Rgb) {i k : Nat} (m : Mem Rgb) (h : k < i) :
    memRead (writePalette t i m) k = memRead m k := by
  induction t generalizing i m with
  | nil => rfl
  | cons c rest ih =>
    rw [writePalette, ih _ (by omega), memRead_memWrite_ne _ _ (by omega)]

theorem memRead_writePalette_add (t : List Rgb) (i j : Nat) (m : Mem Rgb) :
    memRead (writePalette t i m) (i + j) = if h : j < t.length then some t[j] else memRead m (i + j) := by
  induction t generalizing i j m with
  | nil => simp [writePalette]
  | cons c rest ih =>
    cases j with
    | zero => simp [writePalette, memRead_writePalette_lt rest _ (Nat.lt_succ_self i)]
    | succ j =>
      have h1 : i + (j + 1) = (i + 1) + j := by omega
      rw [writePalette, h1, ih]
      by_cases hj : j < rest.length
      · simp [hj]
      · simp [hj, memRead_memWrite_ne _ _ (show i + 1 + j ≠ i by omega)]

/-- What a palette reads as after a table is written from entry 0 (R178, R187). -/
theorem memRead_writePalette (t : List Rgb) (j : Nat) (m : Mem Rgb) :
    memRead (writePalette t 0 m) j = if h : j < t.length then some t[j] else memRead m j := by
  simpa using memRead_writePalette_add t 0 j m

/-! ## DST -/

theorem pixelMem_wf (a : Nat) (hi lo : Byte) {m : Mem Byte} (h : Mem.wf m) : Mem.wf (pixelMem a hi lo m) :=
  memWrite_wf _ _ (memWrite_wf _ _ h)

theorem pixelsMem_wf (as : List Nat) (hi lo : Byte) {m : Mem Byte} (h : Mem.wf m) :
    Mem.wf (pixelsMem as hi lo m) := by
  induction as generalizing m with
  | nil => exact h
  | cons a rest ih => exact ih (pixelMem_wf a hi lo h)

theorem memRead_pixelMem (a b : Nat) (hi lo : Byte) (m : Mem Byte) :
    memRead (pixelMem a hi lo m) b =
      if b = a + 1 then some lo else if b = a then some hi else memRead m b := by
  simp [pixelMem, memRead_memWrite]

/-- Every byte of DST after the pixels are stored, for even addresses (every pixel address is, R64). -/
theorem memRead_pixelsMem (as : List Nat) (hev : ∀ a ∈ as, a % 2 = 0) (hi lo : Byte) (m : Mem Byte) (b : Nat) :
    memRead (pixelsMem as hi lo m) b =
      if b ∈ as then some hi else if ∃ a ∈ as, b = a + 1 then some lo else memRead m b := by
  induction as generalizing m with
  | nil => simp [pixelsMem]
  | cons a rest ih =>
    have ha : a % 2 = 0 := hev a (by simp)
    have hr : ∀ c ∈ rest, c % 2 = 0 := fun c hc => hev c (by simp [hc])
    show memRead (pixelsMem rest hi lo (pixelMem a hi lo m)) b = _
    rw [ih hr, memRead_pixelMem]
    by_cases h1 : b ∈ rest
    · simp [h1]
    · by_cases h2 : ∃ c ∈ rest, b = c + 1
      · obtain ⟨c, hc, rfl⟩ := h2
        have hne : c + 1 ≠ a := by have := hr c hc; omega
        have hmem : c + 1 ∉ rest := h1
        rw [if_neg hmem, if_pos ⟨c, hc, rfl⟩, if_neg (by simp [hne, hmem]),
          if_pos ⟨c, by simp [hc], rfl⟩]
      · rw [if_neg h1, if_neg h2]
        by_cases h3 : b = a
        · subst h3; simp
        · by_cases h4 : b = a + 1
          · subst h4
            have : a + 1 ∉ rest := h1
            simp [this]
          · have h5 : ¬ ∃ c ∈ a :: rest, b = c + 1 := by
              rintro ⟨c, hc, rfl⟩
              rcases List.mem_cons.1 hc with rfl | hc
              · exact h4 rfl
              · exact h2 ⟨c, hc, rfl⟩
            have h6 : b ∉ a :: rest := by simp [h3, h1]
            rw [if_neg h6, if_neg h5, if_neg h4, if_neg h3]

theorem storePixel_eq (a : Nat) (hi lo : Byte) (s : State) :
    storePixel a hi lo s =
      if a + 1 < s.dstLen then .ok { s with dst := pixelMem a hi lo s.dst } else .error (.dstOutOfRange a) := rfl

/-- Stores inside DST are done, and change DST alone (R68). -/
theorem storeAll_eq (as : List Nat) (hi lo : Byte) (s : State) (h : ∀ a ∈ as, a + 1 < s.dstLen) :
    storeAll as hi lo s = .ok { s with dst := pixelsMem as hi lo s.dst } := by
  induction as generalizing s with
  | nil => rfl
  | cons a rest ih =>
    have ha : a + 1 < s.dstLen := h a (by simp)
    simp only [storeAll, storePixel_eq, ha, if_true]
    exact ih _ fun c hc => h c (by simp [hc])

/-- Whatever was stored, a result of the stores differs from the start in DST alone. -/
theorem storeAll_ok {as : List Nat} {hi lo : Byte} {s t : State} (h : storeAll as hi lo s = .ok t) :
    t = { s with dst := pixelsMem as hi lo s.dst } := by
  induction as generalizing s with
  | nil => cases h; rfl
  | cons a rest ih =>
    simp only [storeAll, storePixel_eq] at h
    split at h
    · next s' heq =>
      split at heq
      · cases heq; exact ih h
      · cases heq
    · cases h

/-- Merging keeps the canonical form. -/
theorem memMerge_wf (full : Mem α) (reached : List Nat) {m : Mem α} (h : Mem.wf m) :
    Mem.wf (memMerge full reached m) := by
  induction reached generalizing m with
  | nil => exact h
  | cons a rest ih =>
    rw [memMerge]
    split
    · exact ih h
    · exact ih (memWrite_wf _ _ h)

/-- What a merged memory holds: at the addresses named, what `full` holds where it holds something; elsewhere what was
there. -/
theorem memRead_memMerge (full : Mem α) (reached : List Nat) (m : Mem α) (b : Nat) :
    memRead (memMerge full reached m) b =
      if b ∈ reached ∧ (memRead full b).isSome then memRead full b else memRead m b := by
  induction reached generalizing m with
  | nil => simp [memMerge]
  | cons a rest ih =>
    rw [memMerge]
    cases hf : memRead full a with
    | none =>
      rw [ih]
      by_cases hb : b = a
      · subst hb; simp [hf]
      · simp [hb]
    | some v =>
      rw [ih, memRead_memWrite]
      by_cases hb : b = a
      · subst hb; simp [hf]
      · simp [hb]

end Sys2Proof.Machine
end

