-- ==== Sys2Proof/Laws/Ops.lean ====
section
/-! SUPPORT. What the shared operations over SRC, the exits and the bit reader can do: which fields they may change, where
the cursor ends, and that a step's outcome goes on in one way. -/

namespace Sys2Proof.Machine

/-! ## Outcomes -/

@[simp] theorem andThen_next (s : State) (k : State → Out) : andThen (.next s) k = k s := rfl
@[simp] theorem andThen_fault (r : Fault) (k : State → Out) : andThen (.fault r) k = .fault r := rfl
@[simp] theorem andThen_refused (r : Refusal) (k : State → Out) : andThen (.refused r) k = .refused r := rfl
@[simp] theorem settle_ok (s : State) : (Res.ok s).settle = .next s := rfl
@[simp] theorem settle_raised (f : ModelFault) (s : State) : (Res.raised f s).settle = .next (gifRaise f s) := rfl
@[simp] theorem settle_stuck (r : Fault) : (Res.stuck r).settle = .fault r := rfl
@[simp] theorem bind_ok (s : State) (k : State → Res) : (Res.ok s).bind k = k s := rfl
@[simp] theorem bind_raised (f : ModelFault) (s : State) (k : State → Res) :
    (Res.raised f s).bind k = .raised f s := rfl
@[simp] theorem bind_stuck (r : Fault) (k : State → Res) : (Res.stuck r).bind k = .stuck r := rfl
@[simp] theorem ofExcept_ok (s : State) : ofExcept (.ok s) = .next s := rfl
@[simp] theorem ofExcept_error (r : Fault) : ofExcept (.error r) = .fault r := rfl

/-- A sequence answers a next state only through a next state of its first part. -/
theorem andThen_eq_next {o : Out} {k : State → Out} {t : State} (h : andThen o k = .next t) :
    ∃ s, o = .next s ∧ k s = .next t := by
  cases o with
  | next s => exact ⟨s, rfl, h⟩
  | fault r => cases h
  | refused r => cases h

/-! ## SRC -/

/-- StreamRead changes the cursor alone and leaves it in SRC (R10). -/
theorem streamRead_frame (n : Nat) (s : State) : (streamRead n s).2 = { s with sp := (streamRead n s).2.sp } := by
  unfold streamRead; split
  · rfl
  · split <;> rfl

theorem streamRead_cursor (n : Nat) {s : State} (h : s.sp ≤ s.src.length) :
    (streamRead n s).2.sp ≤ s.src.length ∧ s.sp ≤ (streamRead n s).2.sp := by
  unfold streamRead; split
  · exact ⟨h, le_refl _⟩
  · split
    · next h' => exact ⟨h', by simp⟩
    · exact ⟨le_refl _, h⟩

theorem streamByte_frame (s : State) : (streamByte s).2 = { s with sp := (streamByte s).2.sp } := by
  unfold streamByte; split <;> rfl

theorem streamByte_cursor {s : State} (h : s.sp ≤ s.src.length) :
    (streamByte s).2.sp ≤ s.src.length ∧ s.sp ≤ (streamByte s).2.sp := by
  unfold streamByte; split
  · next b hb =>
    have := (List.getElem?_eq_some_iff.1 hb).1
    exact ⟨by show s.sp + 1 ≤ _; omega, Nat.le_succ _⟩
  · exact ⟨le_refl _, h⟩

/-- A byte that is read moves the cursor by one. -/
theorem streamByte_some {s t : State} {b : Byte} (h : streamByte s = (some b, t)) :
    s.src[s.sp]? = some b ∧ s.sp < s.src.length ∧ t = { s with sp := s.sp + 1 } := by
  unfold streamByte at h
  split at h
  · next b' hb =>
    cases h
    exact ⟨hb, (List.getElem?_eq_some_iff.1 hb).1, rfl⟩
  · cases h

theorem streamPair_frame (s : State) : (streamPair s).2 = { s with sp := (streamPair s).2.sp } := by
  unfold streamPair; split <;> rfl

theorem streamPair_cursor {s : State} (h : s.sp ≤ s.src.length) :
    (streamPair s).2.sp ≤ s.src.length ∧ s.sp ≤ (streamPair s).2.sp := by
  unfold streamPair; split
  · next a b ha hb =>
    have := (List.getElem?_eq_some_iff.1 hb).1
    exact ⟨by show s.sp + 2 ≤ _; omega, by show s.sp ≤ s.sp + 2; omega⟩
  · exact ⟨le_refl _, h⟩

theorem streamPair_some {s t : State} {a b : Byte} (h : streamPair s = (some (a, b), t)) :
    s.src[s.sp]? = some a ∧ s.src[s.sp + 1]? = some b ∧ t = { s with sp := s.sp + 2 } := by
  unfold streamPair at h
  split at h
  · next a' b' ha hb => cases h; exact ⟨ha, hb, rfl⟩
  · cases h

theorem streamPair_none {s t : State} (h : streamPair s = (none, t)) :
    s.src.length < s.sp + 2 ∧ t = { s with sp := s.src.length } := by
  unfold streamPair at h
  split at h
  · cases h
  · next hn =>
    cases h
    refine ⟨?_, rfl⟩
    by_contra hge
    have h1 : s.sp < s.src.length := by omega
    have h2 : s.sp + 1 < s.src.length := by omega
    exact hn _ _ (List.getElem?_eq_getElem h1) (List.getElem?_eq_getElem h2)

/-! ## Draining -/

theorem drainFrom_cursor (src : List Byte) (fuel : Nat) {sp : Nat} (h : sp ≤ src.length) :
    drainFrom src fuel sp ≤ src.length ∧ sp ≤ drainFrom src fuel sp := by
  induction fuel generalizing sp with
  | zero => exact ⟨h, le_refl _⟩
  | succ fuel ih =>
    simp only [drainFrom]
    split
    · exact ⟨le_refl _, h⟩
    · next n hn =>
      have hlt := (List.getElem?_eq_some_iff.1 hn).1
      split
      · omega
      · split
        · next hle => have := ih hle; omega
        · omega

/-- Draining a well-formed chain ends right after its terminator (R194). -/
theorem drainFrom_chain (blocks : List (List Byte)) (hb : ∀ d ∈ blocks, 1 ≤ d.length ∧ d.length ≤ 255)
    (pre rest : List Byte) (fuel : Nat) (hf : blocks.length < fuel) :
    drainFrom (pre ++ (chainBytes blocks ++ 0 :: rest)) fuel pre.length =
      pre.length + (chainBytes blocks).length + 1 := by
  induction blocks generalizing pre fuel with
  | nil =>
    obtain ⟨fuel, rfl⟩ : ∃ k, fuel = k + 1 := ⟨fuel - 1, by simp at hf; omega⟩
    simp [drainFrom, chainBytes]
  | cons d ds ih =>
    obtain ⟨fuel, rfl⟩ : ∃ k, fuel = k + 1 := ⟨fuel - 1, by simp at hf; omega⟩
    have hd := hb d (by simp)
    have hn : (BitVec.ofNat 8 d.length).toNat = d.length := by
      simp [Nat.mod_eq_of_lt (show d.length < 256 by omega)]
    have hne : (BitVec.ofNat 8 d.length) ≠ 0 := by
      intro h0; rw [h0] at hn; simp at hn; omega
    have hsrc : pre ++ (chainBytes (d :: ds) ++ 0 :: rest) =
        (pre ++ BitVec.ofNat 8 d.length :: d) ++ (chainBytes ds ++ 0 :: rest) := by
      simp [chainBytes]
    have hget : (pre ++ (chainBytes (d :: ds) ++ 0 :: rest))[pre.length]? = some (BitVec.ofNat 8 d.length) := by
      rw [List.getElem?_append_right (le_refl _)]; simp [chainBytes]
    have hlen : pre.length + 1 + d.length ≤ (pre ++ (chainBytes (d :: ds) ++ 0 :: rest)).length := by
      simp [chainBytes]; omega
    simp only [drainFrom, hget, hne, if_false, hn, hlen, if_true]
    have hl : pre.length + 1 + d.length = (pre ++ BitVec.ofNat 8 d.length :: d).length := by
      simp; omega
    rw [hsrc, hl, ih (fun e he => hb e (by simp [he])) _ _ (by simp at hf; omega)]
    simp [chainBytes]; omega

/-! ## The bit reader -/

/-- NextDataByte changes the cursor and the bit reader's registers alone (R215). -/
theorem nextDataByte_frame (s : State) :
    (nextDataByte s).2 = { s with sp := (nextDataByte s).2.sp, bits := (nextDataByte s).2.bits } := by
  have hf := streamByte_frame
  unfold nextDataByte
  split
  · rfl
  · split
    · split
      · next s1 h1 => have := hf s; rw [h1] at this; dsimp only at this ⊢; rw [this]
      · next n s1 h1 =>
        have h1' := hf s; rw [h1] at h1'; dsimp only at h1'
        split
        · dsimp only; rw [h1']
        · split
          · next s2 h2 =>
            have h2' := hf s1; rw [h2] at h2'; dsimp only at h2' ⊢
            rw [h2', h1']
          · next b s2 h2 =>
            have h2' := hf s1; rw [h2] at h2'; dsimp only at h2' ⊢
            rw [h2', h1']
    · split
      · next s1 h1 => have := hf s; rw [h1] at this; dsimp only at this ⊢; rw [this]
      · next b s1 h1 => have := hf s; rw [h1] at this; dsimp only at this ⊢; rw [this]

/-- NextDataByte keeps the cursor in SRC and the accumulator as it is; a byte it returns was read. -/
theorem nextDataByte_cursor {s : State} (h : s.sp ≤ s.src.length) :
    (nextDataByte s).2.sp ≤ s.src.length ∧ s.sp ≤ (nextDataByte s).2.sp ∧
      (nextDataByte s).2.bits.cnt = s.bits.cnt ∧ (nextDataByte s).2.bits.buf = s.bits.buf ∧
      ((nextDataByte s).1.isSome → s.sp < (nextDataByte s).2.sp) := by
  have hsp : ∀ u : State, u.sp ≤ u.src.length → (streamByte u).2.sp ≤ u.src.length ∧ u.sp ≤ (streamByte u).2.sp :=
    fun u hu => streamByte_cursor hu
  have hf := streamByte_frame
  unfold nextDataByte
  split
  · simp [h]
  · split
    · split
      · next s1 h1 =>
        have a := hf s; have b := hsp s h; rw [h1] at a b; dsimp only at a b ⊢
        rw [a]; simpa using b
      · next n s1 h1 =>
        obtain ⟨-, hlt, rfl⟩ := streamByte_some h1
        split
        · simp; omega
        · split
          · next s2 h2 =>
            have a := hf { s with sp := s.sp + 1 }
            have b := hsp { s with sp := s.sp + 1 } hlt
            rw [h2] at a b; dsimp only at a b ⊢
            rw [a]; simp; omega
          · next b s2 h2 =>
            obtain ⟨-, hlt2, rfl⟩ := streamByte_some h2
            simp only at hlt2
            exact ⟨hlt2, by show s.sp ≤ s.sp + 1 + 1; omega, rfl, rfl, fun _ => by show s.sp < s.sp + 1 + 1; omega⟩
    · split
      · next s1 h1 =>
        have a := hf s; have b := hsp s h; rw [h1] at a b; dsimp only at a b ⊢
        rw [a]; simpa using b
      · next b s1 h1 =>
        obtain ⟨-, hlt, rfl⟩ := streamByte_some h1
        simp; omega

theorem fillBits_frame (fuel : Nat) (s : State) :
    (fillBits fuel s).2 = { s with sp := (fillBits fuel s).2.sp, bits := (fillBits fuel s).2.bits } := by
  induction fuel generalizing s with
  | zero => rfl
  | succ fuel ih =>
    simp only [fillBits]
    split
    · have hn := nextDataByte_frame s
      split
      · next s1 h1 => rw [h1] at hn; exact hn
      · next b s1 h1 =>
        rw [h1] at hn; dsimp only at hn
        rw [ih]
        conv_rhs => rw [hn]
        simp only [shiftIn]
        rw [hn]
    · rfl

/-- The bits a decoder can still read: kept ones, and eight a byte of SRC. -/
def bitsLeft (s : State) : Nat := s.bits.cnt + 8 * (s.src.length - s.sp)

theorem fillBits_cursor (fuel : Nat) {s : State} (h : s.sp ≤ s.src.length) :
    (fillBits fuel s).2.sp ≤ s.src.length ∧ s.sp ≤ (fillBits fuel s).2.sp ∧
      bitsLeft (fillBits fuel s).2 ≤ bitsLeft s ∧
      ((fillBits fuel s).1 = true → s.lzw.codeSize ≤ (fillBits fuel s).2.bits.cnt) := by
  induction fuel generalizing s with
  | zero => simp [fillBits, h]
  | succ fuel ih =>
    simp only [fillBits]
    split
    · next hlt =>
      have hn := nextDataByte_frame s
      have hc := nextDataByte_cursor h
      split
      · next s1 h1 =>
        rw [h1] at hn hc; dsimp only at hn hc
        refine ⟨hc.1, hc.2.1, ?_, by simp⟩
        have : s1.src = s.src := by rw [hn]
        show s1.bits.cnt + 8 * (s1.src.length - s1.sp) ≤ s.bits.cnt + 8 * (s.src.length - s.sp)
        rw [this, hc.2.2.1]; omega
      · next b s1 h1 =>
        rw [h1] at hn hc; dsimp only at hn hc
        have hsrc : s1.src = s.src := by rw [hn]
        have hcs : s1.lzw = s.lzw := by rw [hn]
        have hlt2 := hc.2.2.2.2 rfl
        obtain ⟨h1, h2, h3, h4⟩ := ih (s := shiftIn b s1) (by simpa [hsrc] using hc.1)
        simp only [shiftIn_src, shiftIn_sp, shiftIn_lzw, hsrc, hcs] at h1 h2 h4
        refine ⟨h1, by omega, h3.trans ?_, h4⟩
        show s1.bits.cnt + 8 + 8 * (s1.src.length - s1.sp) ≤ s.bits.cnt + 8 * (s.src.length - s.sp)
        rw [hsrc, hc.2.2.1]; omega
    · next hge => simp [h]; omega

/-- ReadCode changes the cursor and the bit reader alone (R216). -/
theorem readCode_frame (s : State) :
    (readCode s).2 = { s with sp := (readCode s).2.sp, bits := (readCode s).2.bits } := by
  have hf := fillBits_frame s.lzw.codeSize s
  unfold readCode
  split
  · next s1 h1 => rw [h1] at hf; exact hf
  · next s1 h1 => rw [h1] at hf; dsimp only at hf ⊢; rw [hf]; rfl

/-- ReadCode keeps the cursor in SRC, and a code takes its width from the bits that are left. -/
theorem readCode_cursor {s : State} (h : s.sp ≤ s.src.length) :
    (readCode s).2.sp ≤ s.src.length ∧ s.sp ≤ (readCode s).2.sp ∧ bitsLeft (readCode s).2 ≤ bitsLeft s ∧
      ((readCode s).1.isSome → bitsLeft (readCode s).2 + s.lzw.codeSize ≤ bitsLeft s) := by
  have hf := fillBits_frame s.lzw.codeSize s
  have hc := fillBits_cursor s.lzw.codeSize h
  unfold readCode
  split
  · next s1 h1 => rw [h1] at hc; exact ⟨hc.1, hc.2.1, hc.2.2.1, by simp⟩
  · next s1 h1 =>
    rw [h1] at hf hc; dsimp only at hf hc ⊢
    have hcs : s1.lzw = s.lzw := by rw [hf]
    have hle := hc.2.2.2 rfl
    have hb := hc.2.2.1
    refine ⟨hc.1, hc.2.1, ?_, fun _ => ?_⟩ <;>
    · simp only [bitsLeft, shiftOut_bits, shiftOut_src, shiftOut_sp, hcs] at hb hle ⊢; omega

/-- A code that is read is below `1 << code_size` (R216). -/
theorem readCode_lt {s t : State} {c : Nat} (h : readCode s = (some c, t)) : c < 2 ^ s.lzw.codeSize := by
  have hf := fillBits_frame s.lzw.codeSize s
  unfold readCode at h
  split at h
  · cases h
  · next s1 h1 =>
    rw [h1] at hf; dsimp only at hf
    have hcs : s1.lzw = s.lzw := by rw [hf]
    simp only [Prod.mk.injEq, Option.some.injEq] at h
    rw [← h.1, hcs]
    have hpos : 0 < 2 ^ s.lzw.codeSize := Nat.two_pow_pos _
    refine lt_of_le_of_lt Nat.and_le_right ?_
    simp [Nat.shiftLeft_eq]

/-- Draining an image changes the cursor alone (R234). -/
theorem drainImage_frame (s : State) : drainImage s = { s with sp := (drainImage s).sp } := by
  have hf := streamRead_frame s.bits.blkRem.toNat s
  unfold drainImage
  split
  · rfl
  · split
    · next s1 h1 => rw [h1] at hf; exact hf
    · next d s1 h1 =>
      rw [h1] at hf; dsimp only at hf
      simp only [drainSubBlocks]
      rw [hf]

theorem drainImage_cursor {s : State} (h : s.sp ≤ s.src.length) :
    (drainImage s).sp ≤ s.src.length ∧ s.sp ≤ (drainImage s).sp := by
  have hf := streamRead_frame s.bits.blkRem.toNat s
  have hc := streamRead_cursor s.bits.blkRem.toNat h
  unfold drainImage
  split
  · exact ⟨h, le_refl _⟩
  · split
    · next s1 h1 => rw [h1] at hc; exact hc
    · next d s1 h1 =>
      rw [h1] at hc hf; dsimp only at hc hf
      have hs : s1.src = s.src := by rw [hf]
      have := drainFrom_cursor s1.src (s1.src.length + 1) (sp := s1.sp) (by rw [hs]; exact hc.1)
      simp only [drainSubBlocks_sp]
      rw [hs] at this ⊢
      omega

theorem endImage_frame (s : State) : endImage s = { s with sp := (endImage s).sp, ctl := none } := by
  unfold endImage
  rw [drainImage_frame s]

theorem endImage_cursor {s : State} (h : s.sp ≤ s.src.length) :
    (endImage s).sp ≤ s.src.length ∧ s.sp ≤ (endImage s).sp := drainImage_cursor h

/-- Draining from a cursor reads what `Drains` says (R194), given a turn for every byte left and one more. -/
theorem drainFrom_eq {l : List Byte} {n : Nat} (h : Drains l n) (src : List Byte) (sp fuel : Nat)
    (hl : src.drop sp = l) (hsp : sp ≤ src.length) (hf : src.length - sp < fuel) : drainFrom src fuel sp = sp + n := by
  induction h generalizing sp fuel with
  | eos =>
    obtain ⟨fuel, rfl⟩ : ∃ f, fuel = f + 1 := ⟨fuel - 1, by omega⟩
    have : src.length ≤ sp := List.drop_eq_nil_iff.1 hl
    simp only [drainFrom, List.getElem?_eq_none this]; omega
  | terminator rest =>
    obtain ⟨fuel, rfl⟩ : ∃ f, fuel = f + 1 := ⟨fuel - 1, by omega⟩
    have : src[sp]? = some 0 := by have := congrArg (·[0]?) hl; simpa using this
    simp [drainFrom, this]
  | short k d hd =>
    obtain ⟨fuel, rfl⟩ : ∃ f, fuel = f + 1 := ⟨fuel - 1, by omega⟩
    have h0 : src[sp]? = some k := by have := congrArg (·[0]?) hl; simpa using this
    have hlen := congrArg List.length hl
    simp at hlen
    have : k ≠ 0 := by rintro rfl; simp at hd
    simp only [drainFrom, h0, if_neg this]
    rw [if_neg (by omega)]; omega
  | block k d rest m hk hd h ih =>
    obtain ⟨fuel, rfl⟩ : ∃ f, fuel = f + 1 := ⟨fuel - 1, by omega⟩
    have h0 : src[sp]? = some k := by have := congrArg (·[0]?) hl; simpa using this
    have hlen := congrArg List.length hl
    simp at hlen
    simp only [drainFrom, h0, if_neg hk]
    rw [if_pos (by omega), ih (sp + 1 + k.toNat) fuel ?_ (by omega) (by omega)]
    · omega
    · have : src.drop (sp + 1 + k.toNat) = (src.drop sp).drop (1 + k.toNat) := by rw [List.drop_drop]; congr 1; omega
      rw [this, hl, ← hd, show 1 + d.length = d.length + 1 by omega]; simp

/-- What `DrainSubBlocks` does (R194). -/
theorem drainSubBlocks_eq {s : State} {n : Nat} (h : Drains (s.src.drop s.sp) n) (hsp : s.sp ≤ s.src.length) :
    drainSubBlocks s = { s with sp := s.sp + n } := by
  unfold drainSubBlocks
  rw [drainFrom_eq h s.src s.sp _ rfl hsp (by omega)]

end Sys2Proof.Machine
end

