-- ==== Sys2Proof/Laws/Drle.lean ====
section
/-! SUPPORT. The delta-RLE decoder: where a block's pixels lie, what a payload, a record and a whole stream do. A decode
whose checks have passed always ends, and changes DST by the pixels its stream names, which depend on nothing else. -/

namespace Sys2Proof.Machine

/-! ## Blocks -/

theorem mem_blitAddrs {d : DrleRegs} {pos a : Nat} :
    a ∈ blitAddrs d pos ↔
      ∃ ry < blitRows d (pos / d.w), ∃ rx < d.scaleX,
        a = 2 * ((d.y + pos / d.w * d.scaleY + ry) * d.stride + (d.x + pos % d.w * d.scaleX + rx)) := by
  simp only [blitAddrs, List.mem_flatMap, List.mem_range, List.mem_map]
  constructor
  · rintro ⟨ry, hy, rx, hx, rfl⟩; exact ⟨ry, hy, rx, hx, rfl⟩
  · rintro ⟨ry, hy, rx, hx, rfl⟩; exact ⟨ry, hy, rx, hx, rfl⟩

theorem blitAddrs_even {d : DrleRegs} {pos a : Nat} (h : a ∈ blitAddrs d pos) : a % 2 = 0 := by
  obtain ⟨ry, -, rx, -, rfl⟩ := mem_blitAddrs.1 h; omega

/-- The rows of a block end at the last row of the frame, or at the extra rows below it (R149, R150). -/
theorem blitRows_le {d : DrleRegs} {y ry : Nat} (hy : y < d.h) (hr : ry < blitRows d y) :
    y * d.scaleY + ry < d.h * d.scaleY + d.extra := by
  unfold blitRows at hr
  have : (y + 1) * d.scaleY ≤ d.h * d.scaleY := Nat.mul_le_mul_right _ hy
  rw [Nat.succ_mul] at this
  split at hr
  · omega
  · omega

theorem blitCols_le {w sx x rx : Nat} (hx : x < w) (hr : rx < sx) : x * sx + rx < w * sx := by
  have : (x + 1) * sx ≤ w * sx := Nat.mul_le_mul_right _ hx
  rw [Nat.succ_mul] at this; omega

/-- The checks of R141 and R142, on operands in the registers. -/
def DrleRegs.fits (d : DrleRegs) (dstLen : Nat) : Prop :=
  drleCheck d.w d.h d.x d.y d.stride d.scaleX d.scaleY d.extra dstLen = none

theorem drleCheck_none {w h x y stride sx sy e len : Nat} (hc : drleCheck w h x y stride sx sy e len = none) :
    1 ≤ w ∧ 1 ≤ h ∧ 1 ≤ stride ∧ 1 ≤ sx ∧ 1 ≤ sy ∧ x + w * sx ≤ stride ∧ y + h * sy + e ≤ len / (2 * stride) := by
  unfold drleCheck at hc
  split at hc
  · cases hc
  · split at hc
    · cases hc
    · omega

/-- A pixel inside its row and above the last row of DST has both its bytes in DST (R71). -/
theorem pixel_in_dst {S len dx dy : Nat} (hx : dx < S) (hy : dy < len / (2 * S)) :
    2 * (dy * S + dx) + 1 < len := by
  have h1 : (dy + 1) * (2 * S) ≤ len := (Nat.mul_le_mul_right _ hy).trans (Nat.div_mul_le_self _ _)
  have h2 : (dy + 1) * (2 * S) = 2 * (dy * S) + 2 * S := by ring
  omega

/-- The checks of R141 and R142 pass exactly on the frames that fit. -/
theorem DrleRegs.fits_iff (d : DrleRegs) (len : Nat) : d.fits len ↔ FrameFits d len := by
  constructor
  · intro h
    obtain ⟨a,b,c,d,e,f,g⟩ := drleCheck_none h
    exact ⟨a,b,c,d,e,f,g⟩
  · rintro ⟨a,b,c,d,e,f,g⟩
    unfold DrleRegs.fits drleCheck
    rw [if_neg (by omega), if_neg (by omega)]

/-- "When the check passes, every address rule R149 computes is inside DST and inside its own destination row" (R142). -/
theorem blit_in_rect {d : DrleRegs} {len pos ry rx : Nat} (hf : d.fits len) (hp : pos < d.budget)
    (hy : ry < blitRows d (pos / d.w)) (hx : rx < d.scaleX) :
    d.x + pos % d.w * d.scaleX + rx < d.x + d.w * d.scaleX ∧
      d.y + pos / d.w * d.scaleY + ry < d.y + d.h * d.scaleY + d.extra ∧
      2 * ((d.y + pos / d.w * d.scaleY + ry) * d.stride + (d.x + pos % d.w * d.scaleX + rx)) + 1 < len := by
  obtain ⟨hw, -, -, -, -, hX, hY⟩ := drleCheck_none hf
  have h1 := blitCols_le (Nat.mod_lt pos hw) hx
  have h2 := blitRows_le (y := pos / d.w) (by
    rw [DrleRegs.budget, Nat.mul_comm] at hp; exact Nat.div_lt_of_lt_mul (by rwa [Nat.mul_comm] at hp)) hy
  refine ⟨by omega, by omega, pixel_in_dst ?_ ?_⟩ <;> omega

theorem blit_in_dst {d : DrleRegs} {len pos a : Nat} (hf : d.fits len) (hp : pos < d.budget)
    (ha : a ∈ blitAddrs d pos) : a + 1 < len := by
  obtain ⟨ry, hy, rx, hx, rfl⟩ := mem_blitAddrs.1 ha
  exact (blit_in_rect hf hp hy hx).2.2

/-- A block inside DST is stored, and DST alone changes. -/
theorem blit_eq {pos : Nat} {hi lo : Byte} {s : State} (hf : s.drle.fits s.dstLen) (hp : pos < s.drle.budget) :
    blit pos hi lo s = .ok { s with dst := pixelsMem (blitAddrs s.drle pos) hi lo s.dst } := by
  unfold blit
  rw [if_pos hp, storeAll_eq _ _ _ _ fun a ha => blit_in_dst hf hp ha]

/-! ## Painting -/

@[simp] theorem paint_nil (d : DrleRegs) (m : Mem Byte) : paint d [] m = m := rfl
@[simp] theorem paint_cons (d : DrleRegs) (p : DrlePixel) (ps : List DrlePixel) (m : Mem Byte) :
    paint d (p :: ps) m = paint d ps (pixelsMem (blitAddrs d p.pos) p.hi p.lo m) := rfl
theorem paint_append (d : DrleRegs) (ps qs : List DrlePixel) (m : Mem Byte) :
    paint d (ps ++ qs) m = paint d qs (paint d ps m) := by
  simp [paint, List.foldl_append]

theorem paint_wf (d : DrleRegs) (ps : List DrlePixel) {m : Mem Byte} (h : Mem.wf m) : Mem.wf (paint d ps m) := by
  induction ps generalizing m with
  | nil => exact h
  | cons p ps ih => exact ih (pixelsMem_wf _ _ _ h)

/-- The byte a list of source pixels leaves at `b`, if any of their blocks covers it: the last one that does. -/
def painted (d : DrleRegs) : List DrlePixel → Nat → Option Byte
  | [], _ => none
  | p :: ps, b =>
    match painted d ps b with
    | some v => some v
    | none =>
      if b ∈ blitAddrs d p.pos then some p.hi
      else if ∃ a ∈ blitAddrs d p.pos, b = a + 1 then some p.lo
      else none

/-- Every byte of DST after painting (R70): a value that depends on the pixels alone, or the old content. -/
theorem memRead_paint (d : DrleRegs) (ps : List DrlePixel) (m : Mem Byte) (b : Nat) :
    memRead (paint d ps m) b = (painted d ps b).or (memRead m b) := by
  induction ps generalizing m with
  | nil => rfl
  | cons p ps ih =>
    rw [paint_cons, ih, painted]
    cases painted d ps b with
    | some v => rfl
    | none =>
      rw [memRead_pixelsMem _ (fun a ha => blitAddrs_even ha)]
      simp only [Option.none_or]
      split
      · rfl
      · split <;> rfl

/-- A byte no block covers keeps its content (R153). -/
theorem painted_eq_none {d : DrleRegs} {ps : List DrlePixel} {b : Nat}
    (h : ∀ p ∈ ps, ∀ a ∈ blitAddrs d p.pos, b ≠ a ∧ b ≠ a + 1) : painted d ps b = none := by
  induction ps with
  | nil => rfl
  | cons p ps ih =>
    have hp := h p (by simp)
    rw [painted, ih fun q hq => h q (by simp [hq])]
    have h1 : b ∉ blitAddrs d p.pos := fun hm => (hp b hm).1 rfl
    have h2 : ¬ ∃ a ∈ blitAddrs d p.pos, b = a + 1 := fun ⟨a, ha, hb⟩ => (hp a ha).2 hb
    simp [h1, h2]

/-! ## Payload -/

theorem payloadPixels_succ (src : List Byte) (sp pos n : Nat) :
    payloadPixels src sp pos (n + 1) =
      ⟨pos, src.getD sp 0, src.getD (sp + 1) 0⟩ :: payloadPixels src (sp + 2) (pos + 1) n := by
  simp only [payloadPixels, List.range_succ_eq_map, List.map_cons, List.map_map]
  congr 1
  refine List.map_congr_left fun k _ => ?_
  simp only [Function.comp, Nat.succ_eq_add_one]
  rw [show pos + (k + 1) = pos + 1 + k by omega, show sp + 2 * (k + 1) = sp + 2 + 2 * k by omega]

/-- How many whole pixels of a payload of `left` pixels are stored: those in the pixel budget and in SRC. -/
def payloadCount (left : Nat) (s : State) : Nat :=
  min left (min (s.drle.budget - s.drle.pos) ((s.src.length - s.sp) / 2))

/-- The state after some pixels of a payload. -/
def payloadTaken (left n : Nat) (s : State) : State :=
  { s with
    dst := paint s.drle (payloadPixels s.src s.sp s.drle.pos n) s.dst, sp := s.sp + 2 * n
    drle := { s.drle with
      pos := s.drle.pos + n, recLeft := left - n
      pxHi := if n = 0 then s.drle.pxHi else s.src.getD (s.sp + 2 * (n - 1)) 0
      pxLo := if n = 0 then s.drle.pxLo else s.src.getD (s.sp + 2 * (n - 1) + 1) 0 } }

/-- The state after a payload (R147, R148): all of it taken, or stopped at the budget, or at the end of SRC. -/
def payloadDone (left : Nat) (s : State) : State :=
  let n := payloadCount left s
  if s.drle.budget ≤ s.drle.pos + n then drleStop (payloadTaken left n s)
  else if n < left then drleStop { payloadTaken left n s with sp := s.src.length }
  else payloadTaken left n s

/-- One more pixel at the head of a payload. -/
theorem payloadTaken_succ (left n : Nat) (s : State) :
    payloadTaken (left + 1) (n + 1) s =
      payloadTaken left n { s with
        sp := s.sp + 2
        dst := pixelsMem (blitAddrs s.drle s.drle.pos) (s.src.getD s.sp 0) (s.src.getD (s.sp + 1) 0) s.dst
        drle := { s.drle with
          pos := s.drle.pos + 1, recLeft := left
          pxHi := s.src.getD s.sp 0, pxLo := s.src.getD (s.sp + 1) 0 } } := by
  simp only [payloadTaken, payloadPixels_succ, paint_cons]
  rw [show s.sp + 2 * (n + 1) = s.sp + 2 + 2 * n by ring,
    show s.drle.pos + (n + 1) = s.drle.pos + 1 + n by ring,
    show left + 1 - (n + 1) = left - n by omega]
  rcases Nat.eq_zero_or_pos n with rfl | h0
  · simp; rfl
  · rw [show s.sp + 2 * (n + 1 - 1) = s.sp + 2 + 2 * (n - 1) by omega]
    simp only [Nat.succ_ne_zero, if_false, Nat.ne_of_gt h0]
    rfl

theorem drlePayload_eq (left : Nat) {s : State} (hf : s.drle.fits s.dstLen) (hp : s.drle.pos < s.drle.budget) :
    drlePayload left s = .next (payloadDone left s) := by
  induction left generalizing s with
  | zero =>
    have hn : payloadCount 0 s = 0 := by simp [payloadCount]
    have hb : ¬ s.drle.budget ≤ s.drle.pos := by omega
    simp [drlePayload, payloadDone, hn, hb, payloadTaken, payloadPixels]
  | succ left ih =>
    simp only [drlePayload]
    split
    · next s1 h1 =>
      obtain ⟨hlen, rfl⟩ := streamPair_none h1
      have hn : payloadCount (left + 1) s = 0 := by simp only [payloadCount]; omega
      have hb : ¬ s.drle.budget ≤ s.drle.pos := by omega
      simp [payloadDone, hn, hb, payloadTaken, payloadPixels]
    · next hi lo s1 h1 =>
      obtain ⟨ha, hb, rfl⟩ := streamPair_some h1
      have hlt : s.sp + 1 < s.src.length := (List.getElem?_eq_some_iff.1 hb).1
      have hA : s.src.getD s.sp 0 = hi := by simp [List.getD, ha]
      have hB : s.src.getD (s.sp + 1) 0 = lo := by simp [List.getD, hb]
      rw [blit_eq (by exact hf) (by exact hp)]
      dsimp only
      have hn : payloadCount (left + 1) s =
          payloadCount left { s with
            sp := s.sp + 2, dst := pixelsMem (blitAddrs s.drle s.drle.pos) hi lo s.dst
            drle := { s.drle with pos := s.drle.pos + 1, recLeft := left, pxHi := hi, pxLo := lo } } + 1 := by
        simp only [payloadCount, DrleRegs.budget] at hp ⊢; omega
      generalize hu : ({ s with
            sp := s.sp + 2, dst := pixelsMem (blitAddrs s.drle s.drle.pos) hi lo s.dst
            drle := { s.drle with pos := s.drle.pos + 1, recLeft := left, pxHi := hi, pxLo := lo } } : State)
          = u at hn
      have hud : u.drle.budget = s.drle.budget := by rw [← hu]; rfl
      have hup : u.drle.pos = s.drle.pos + 1 := by rw [← hu]
      have htk : payloadTaken (left + 1) (payloadCount (left + 1) s) s = payloadTaken left (payloadCount left u) u := by
        rw [hn, payloadTaken_succ, hA, hB, hu]
      split
      · next hle =>
        have hle' : s.drle.budget ≤ s.drle.pos + 1 := by simpa [DrleRegs.budget] using hle
        have h0 : payloadCount left u = 0 := by simp only [payloadCount, hud, hup]; omega
        have hle2 : s.drle.budget ≤ s.drle.pos + payloadCount (left + 1) s := by rw [hn]; omega
        rw [payloadDone]
        dsimp only
        rw [if_pos hle2, htk, h0, ← hu]
        simp [payloadTaken, payloadPixels]
        rfl
      · next hle =>
        have hle' : ¬ s.drle.budget ≤ s.drle.pos + 1 := by simpa [DrleRegs.budget] using hle
        have hih := ih (s := u) (by rw [← hu]; exact hf) (by rw [hud, hup]; omega)
        refine Eq.trans (show _ = drlePayload left u by rw [← hu]; rfl) ?_
        rw [hih]
        have e5 : s.drle.pos + (payloadCount left u + 1) = s.drle.pos + 1 + payloadCount left u := by ring
        have e7 : u.src = s.src := by rw [← hu]
        rw [hn] at htk
        simp only [payloadDone, htk, hud, hup, hn, e5, e7, Nat.add_lt_add_iff_right]

/-! ## Records -/

/-- The state after a record whose header was `skip, write` (R144 to R148). -/
def recordDone (skip write : Byte) (s : State) : State :=
  let s1 := { s with drle := { s.drle with recSkip := skip, recWrite := write } }
  if skip = 0 ∧ write = 0 then drleStop s1
  else
    let s2 := { s1 with drle := { s1.drle with pos := s1.drle.pos + skip.toNat } }
    if s2.drle.budget ≤ s2.drle.pos then drleStop s2
    else payloadDone write.toNat { s2 with drle := { s2.drle with recLeft := write.toNat } }

theorem drleRecord_eq (skip write : Byte) {s : State} (hf : s.drle.fits s.dstLen) :
    drleRecord skip write s = .next (recordDone skip write s) := by
  unfold drleRecord recordDone
  dsimp only
  split
  · rfl
  · split
    · rfl
    · next h => exact drlePayload_eq _ (by exact hf) (by simpa [DrleRegs.budget] using h)

/-- What a running decode may change (R140): the cursor, DST, its working registers, and how it ended. -/
def DrleFrame (s t : State) : Prop :=
  t = { s with
    dst := t.dst, ret := t.ret, ctl := t.ctl, sp := t.sp
    drle := { t.drle with
      w := s.drle.w, h := s.drle.h, x := s.drle.x, y := s.drle.y, stride := s.drle.stride
      scaleX := s.drle.scaleX, scaleY := s.drle.scaleY, extra := s.drle.extra } }

theorem DrleFrame.refl (s : State) : DrleFrame s s := rfl

theorem DrleFrame.trans {s t u : State} (h1 : DrleFrame s t) (h2 : DrleFrame t u) : DrleFrame s u := by
  unfold DrleFrame at *
  rw [h2, h1]

/-- What a frame keeps, as equations to rewrite with. -/
structure DrleFrame.Kept (s t : State) : Prop where
  src : t.src = s.src
  dstLen : t.dstLen = s.dstLen
  busy : t.sched.frameBusy = s.sched.frameBusy
  budget : t.drle.budget = s.drle.budget
  fits : t.drle.fits = s.drle.fits
  paint : paint t.drle = paint s.drle

theorem DrleFrame.operands {s t : State} (h : DrleFrame s t) : DrleFrame.Kept s t := by
  constructor <;> rw [h] <;> rfl

theorem drleStop_frame (s : State) : DrleFrame s (drleStop s) := rfl

theorem payloadDone_frame (left : Nat) (s : State) : DrleFrame s (payloadDone left s) := by
  unfold payloadDone; dsimp only; split
  · rfl
  · split <;> rfl

theorem recordDone_frame (skip write : Byte) (s : State) : DrleFrame s (recordDone skip write s) := by
  unfold recordDone; dsimp only; split
  · rfl
  · split
    · rfl
    · exact DrleFrame.trans (t := _) (by exact rfl) (payloadDone_frame _ _)

theorem payloadDone_sp (left : Nat) {s : State} (h : s.sp ≤ s.src.length) :
    (payloadDone left s).sp ≤ s.src.length ∧ s.sp ≤ (payloadDone left s).sp := by
  have hn : payloadCount left s ≤ (s.src.length - s.sp) / 2 := by unfold payloadCount; omega
  unfold payloadDone; dsimp only; split
  · show s.sp + 2 * _ ≤ _ ∧ _ ≤ s.sp + 2 * _; omega
  · split
    · exact ⟨le_refl _, h⟩
    · show s.sp + 2 * _ ≤ _ ∧ _ ≤ s.sp + 2 * _; omega

theorem recordDone_sp (skip write : Byte) {s : State} (h : s.sp ≤ s.src.length) :
    (recordDone skip write s).sp ≤ s.src.length ∧ s.sp ≤ (recordDone skip write s).sp := by
  unfold recordDone; dsimp only; split
  · exact ⟨h, le_refl _⟩
  · split
    · exact ⟨h, le_refl _⟩
    · exact payloadDone_sp _ h

/-- How many pixels of a record's payload are stored, the payload starting at `sp` with pixel `pos`. -/
def recordCount (src : List Byte) (N : Nat) (write : Byte) (sp pos : Nat) : Nat :=
  min write.toNat (min (N - pos) ((src.length - sp) / 2))

/-- The source pixels a record stores, its payload starting at `sp`. -/
def recordPixels (src : List Byte) (N : Nat) (skip write : Byte) (sp pos : Nat) : List DrlePixel :=
  if skip = 0 ∧ write = 0 then []
  else if N ≤ pos + skip.toNat then []
  else payloadPixels src sp (pos + skip.toNat) (recordCount src N write sp (pos + skip.toNat))

/-- After the record the decoder fetches another one (R147). -/
def recordGoesOn (src : List Byte) (N : Nat) (skip write : Byte) (sp pos : Nat) : Bool :=
  decide (¬ (skip = 0 ∧ write = 0) ∧
    pos + skip.toNat + recordCount src N write sp (pos + skip.toNat) < N ∧
    recordCount src N write sp (pos + skip.toNat) = write.toNat)

theorem recordDone_dst (skip write : Byte) (s : State) :
    (recordDone skip write s).dst =
      paint s.drle (recordPixels s.src s.drle.budget skip write s.sp s.drle.pos) s.dst := by
  unfold recordDone recordPixels; dsimp only; split
  · rfl
  · split
    · next h => rw [if_pos (by simpa [DrleRegs.budget] using h)]; rfl
    · next h =>
      rw [if_neg (by simpa [DrleRegs.budget] using h)]
      unfold payloadDone; dsimp only; split
      · rfl
      · split <;> rfl

/-- A record after which the decode goes on (R147), or stops (R13). -/
theorem recordDone_ends (skip write : Byte) (s : State) :
    if recordGoesOn s.src s.drle.budget skip write s.sp s.drle.pos then
      (recordDone skip write s).ctl = s.ctl ∧ (recordDone skip write s).ret = s.ret ∧
        (recordDone skip write s).sp = s.sp + 2 * write.toNat ∧
        (recordDone skip write s).drle.pos = s.drle.pos + skip.toNat + write.toNat
    else
      (recordDone skip write s).ctl = none ∧
        (recordDone skip write s).ret = if s.sched.frameBusy then s.ret else .done := by
  have hle : recordCount s.src s.drle.budget write s.sp (s.drle.pos + skip.toNat) ≤ write.toNat := by
    unfold recordCount; omega
  have hoff : ∀ t : State, recordGoesOn s.src s.drle.budget skip write s.sp s.drle.pos = false →
      t.ctl = none → (t.ret = if s.sched.frameBusy then s.ret else .done) →
      if recordGoesOn s.src s.drle.budget skip write s.sp s.drle.pos then
        t.ctl = s.ctl ∧ t.ret = s.ret ∧ t.sp = s.sp + 2 * write.toNat ∧
          t.drle.pos = s.drle.pos + skip.toNat + write.toNat
      else t.ctl = none ∧ t.ret = if s.sched.frameBusy then s.ret else .done := by
    intro t hg h1 h2
    rw [hg]; exact ⟨h1, h2⟩
  unfold recordDone; dsimp only
  by_cases h0 : skip = 0 ∧ write = 0
  · rw [if_pos h0]
    exact hoff _ (by simp only [recordGoesOn, decide_eq_false_iff_not]; exact fun h => h.1 h0) rfl rfl
  · rw [if_neg h0]
    by_cases h1 : s.drle.budget ≤ s.drle.pos + skip.toNat
    · rw [if_pos (c := DrleRegs.budget _ ≤ _) (by exact h1)]
      exact hoff _ (by simp only [recordGoesOn, decide_eq_false_iff_not]; intro h; omega) rfl rfl
    · rw [if_neg (c := DrleRegs.budget _ ≤ _) (by exact h1)]
      unfold payloadDone; dsimp only
      have hcnt : payloadCount write.toNat { s with drle := { s.drle with
          recSkip := skip, recWrite := write, pos := s.drle.pos + skip.toNat, recLeft := write.toNat } } =
          recordCount s.src s.drle.budget write s.sp (s.drle.pos + skip.toNat) := rfl
      rw [hcnt]
      by_cases h2 : s.drle.budget ≤ s.drle.pos + skip.toNat +
          recordCount s.src s.drle.budget write s.sp (s.drle.pos + skip.toNat)
      · rw [if_pos (c := DrleRegs.budget _ ≤ _) (by exact h2)]
        exact hoff _ (by simp only [recordGoesOn, decide_eq_false_iff_not]; intro h; omega) rfl rfl
      · rw [if_neg (c := DrleRegs.budget _ ≤ _) (by exact h2)]
        by_cases h3 : recordCount s.src s.drle.budget write s.sp (s.drle.pos + skip.toNat) < write.toNat
        · rw [if_pos (c := _ < write.toNat) h3]
          exact hoff _ (by simp only [recordGoesOn, decide_eq_false_iff_not]; intro h; omega) rfl rfl
        · have h4 : recordCount s.src s.drle.budget write s.sp (s.drle.pos + skip.toNat) = write.toNat := by omega
          have hg : recordGoesOn s.src s.drle.budget skip write s.sp s.drle.pos = true := by
            simp only [recordGoesOn, decide_eq_true_iff]
            exact ⟨h0, by omega, h4⟩
          rw [if_neg (c := _ < write.toNat) h3, if_pos hg]
          simp only [h4]
          exact ⟨rfl, rfl, rfl, rfl⟩

/-! ## Streams -/

/-- The source pixels a delta-RLE stream stores, in order, from byte `sp` on, `pos` being the pixel cursor and `N` the
budget: a function of the stream alone (R65, R70). -/
def streamPixels (src : List Byte) (N : Nat) : Nat → Nat → Nat → List DrlePixel
  | 0, _, _ => []
  | fuel + 1, sp, pos =>
    match src[sp]?, src[sp + 1]? with
    | some k, some w =>
      recordPixels src N k w (sp + 2) pos ++
        (if recordGoesOn src N k w (sp + 2) pos then
          streamPixels src N fuel (sp + 2 + 2 * w.toNat) (pos + k.toNat + w.toNat)
        else [])
    | _, _ => []

theorem decodeRecord_cases (l : List Byte) :
    (∃ k w, l[0]? = some k ∧ l[1]? = some w ∧
      decodeRecord l = .ok (if k = 0 ∧ w = 0 then .drleEnd else .drleRec k w, 2)) ∨
    ((l[0]? = none ∨ l[1]? = none) ∧ decodeRecord l = .error .truncated) := by
  match l with
  | [] => exact .inr ⟨.inl rfl, rfl⟩
  | [_] => exact .inr ⟨.inr rfl, rfl⟩
  | k :: w :: _ => exact .inl ⟨k, w, rfl, rfl, rfl⟩

/-- The next record of a stream: its header, or the end of SRC (R144). -/
theorem fetchAt_drle (s : State) :
    (∃ k w, s.src[s.sp]? = some k ∧ s.src[s.sp + 1]? = some w ∧
      fetchAt .drle s =
        .token (if k = 0 ∧ w = 0 then .drleEnd else .drleRec k w) { s with sp := s.sp + 2 }) ∨
    ((s.src[s.sp]? = none ∨ s.src[s.sp + 1]? = none) ∧
      fetchAt .drle s = .ended (drleStop { s with sp := s.src.length })) := by
  rcases decodeRecord_cases (s.src.drop s.sp) with ⟨k, w, h0, h1, hd⟩ | ⟨hn, hd⟩
  · refine .inl ⟨k, w, by simpa using h0, by simpa using h1, ?_⟩
    simp only [fetchAt, fetchBytes, decodeAt, hd]
  · refine .inr ⟨by simpa using hn, ?_⟩
    simp only [fetchAt, fetchBytes, decodeAt, hd, endOfStream]

theorem drleToken_record (k w : Byte) (s : State) :
    drleToken (if k = 0 ∧ w = 0 then .drleEnd else .drleRec k w) s = drleRecord k w s := by
  split
  · next h => obtain ⟨rfl, rfl⟩ := h; rfl
  · rfl

/-- A decode in progress ends, whatever the stream is (R148, R302): where, and with which pixels stored. -/
theorem drleRun_eq (fuel : Nat) {s : State} (hf : s.drle.fits s.dstLen) (hc : s.ctl = some .drle)
    (hsp : s.sp ≤ s.src.length) (hfuel : s.src.length - s.sp < 2 * fuel) :
    ∃ t, drleRun fuel s = .next t ∧ DrleFrame s t ∧ t.ctl = none ∧ t.sp ≤ s.src.length ∧
      t.dst = paint s.drle (streamPixels s.src s.drle.budget fuel s.sp s.drle.pos) s.dst ∧
      t.ret = if s.sched.frameBusy then s.ret else .done := by
  induction fuel generalizing s with
  | zero => omega
  | succ fuel ih =>
    simp only [drleRun, hc, if_true]
    rcases fetchAt_drle s with ⟨k, w, h0, h1, hft⟩ | ⟨hn, hft⟩
    · rw [hft]; dsimp only
      rw [drleToken_record, drleRecord_eq k w (by exact hf), andThen_next]
      have hlt : s.sp + 1 < s.src.length := (List.getElem?_eq_some_iff.1 h1).1
      simp only [streamPixels, h0, h1]
      have hfr := recordDone_frame k w { s with sp := s.sp + 2 }
      have hsp2 := recordDone_sp k w (s := { s with sp := s.sp + 2 }) (by exact hlt)
      have hds := recordDone_dst k w { s with sp := s.sp + 2 }
      have hen := recordDone_ends k w { s with sp := s.sp + 2 }
      have hfr' : DrleFrame s (recordDone k w { s with sp := s.sp + 2 }) :=
        DrleFrame.trans (by exact rfl) hfr
      simp only at hsp2 hds hen
      have hops := hfr'.operands
      generalize recordDone k w { s with sp := s.sp + 2 } = t at *
      split at hen
      · next hgo =>
        obtain ⟨e1, e2, e3, e4⟩ := hen
        obtain ⟨u, hu, g1, g2, g3, g4, g5⟩ := ih (s := t) (by rw [hops.fits, hops.dstLen]; exact hf) (by rw [e1, hc])
          (by rw [hops.src]; exact hsp2.1) (by rw [hops.src]; omega)
        refine ⟨u, hu, hfr'.trans g1, g2, by rw [← hops.src]; exact g3, ?_, ?_⟩
        · rw [g4, hops.paint, hds, hops.src, hops.budget, paint_append, if_pos hgo, e3, e4]
        · rw [g5, e2, hops.busy]
      · next hgo =>
        refine ⟨t, ?_, hfr', hen.1, hsp2.1, ?_, hen.2⟩
        · cases fuel <;> simp [drleRun, hen.1]
        · rw [hds, if_neg hgo, List.append_nil]
    · rw [hft]
      refine ⟨_, rfl, by exact rfl, rfl, by exact le_refl _, ?_, rfl⟩
      have : streamPixels s.src s.drle.budget (fuel + 1) s.sp s.drle.pos = [] := by
        rcases hn with h | h
        · simp [streamPixels, h]
        · simp [streamPixels, h]
      rw [this]; rfl

/-- Every pixel a stream stores is inside the budget (R146, R147). -/
theorem streamPixels_lt {src : List Byte} {N : Nat} (fuel : Nat) {sp pos : Nat} {p : DrlePixel}
    (h : p ∈ streamPixels src N fuel sp pos) : p.pos < N := by
  induction fuel generalizing sp pos with
  | zero => cases h
  | succ fuel ih =>
    simp only [streamPixels] at h
    split at h
    · next k w hk hw =>
      rcases List.mem_append.1 h with h | h
      · unfold recordPixels at h
        split at h
        · cases h
        · split at h
          · cases h
          · next h0 h1 =>
            simp only [payloadPixels, List.mem_map, List.mem_range, recordCount] at h
            obtain ⟨j, hj, rfl⟩ := h
            show pos + k.toNat + j < N
            omega
      · split at h
        · exact ih h
        · cases h
    · cases h

/-- No decode begins while GIFD is the active decoder (R317, entry 28). -/
theorem execDrleDecode_active {file : List Byte} {w h x y stride sx sy e len : Nat} {s : State}
    (hg : s.gif.state = .ready) (hc : drleCheck w h x y stride sx sy e len = none) :
    execDrleDecode file w h x y stride sx sy e len s = .next s := by
  unfold execDrleDecode
  rw [hc]
  exact if_pos (by simp [gifActive, hg])

/-- The whole decode, its checks passed (R140): it ends, and stores the pixels its stream names. -/
theorem execDrleDecode_eq {file : List Byte} {w h x y stride sx sy e len : Nat} (s : State)
    (hg : s.gif.state ≠ .ready) (hc : drleCheck w h x y stride sx sy e len = none) :
    ∃ t, execDrleDecode file w h x y stride sx sy e len s = .next t ∧
      DrleFrame (drleSetup file w h x y stride sx sy e len s) t ∧ t.ctl = none ∧ t.sp ≤ file.length ∧
      t.dst = paint (drleSetup file w h x y stride sx sy e len s).drle
        (streamPixels file (w * h) (file.length + 1) 0 0) s.dst ∧
      t.ret = if s.sched.frameBusy then s.ret else .done := by
  unfold execDrleDecode
  rw [hc]
  dsimp only
  rw [if_neg (by simp [gifActive, hg])]
  exact drleRun_eq _ (s := drleSetup file w h x y stride sx sy e len s) hc rfl (Nat.zero_le _)
    (by show file.length - 0 < 2 * (file.length + 1); omega)

/-- No byte outside the rectangle of R153 is written. -/
theorem painted_outside {d : DrleRegs} {len : Nat} (hf : d.fits len) {ps : List DrlePixel}
    (hp : ∀ p ∈ ps, p.pos < d.budget) {b : Nat}
    (hb : ∀ dx dy, d.x ≤ dx → dx < d.x + d.w * d.scaleX → d.y ≤ dy → dy < d.y + d.h * d.scaleY + d.extra →
      b ≠ 2 * (dy * d.stride + dx) ∧ b ≠ 2 * (dy * d.stride + dx) + 1) :
    painted d ps b = none := by
  refine painted_eq_none fun p hm a ha => ?_
  obtain ⟨ry, hy, rx, hx, rfl⟩ := mem_blitAddrs.1 ha
  obtain ⟨h1, h2, -⟩ := blit_in_rect hf (hp p hm) hy hx
  exact hb _ _ (by omega) h1 (by omega) h2

/-! ## What a decode may do in any state -/

theorem storeAll_ok_wf {as : List Nat} {hi lo : Byte} {s t : State} (h : storeAll as hi lo s = .ok t) :
    Mem.wf s.dst → Mem.wf t.dst := by
  intro hw; rw [storeAll_ok h]; exact pixelsMem_wf _ _ _ hw

theorem blit_ok {pos : Nat} {hi lo : Byte} {s t : State} (h : blit pos hi lo s = .ok t) :
    t = { s with dst := pixelsMem (blitAddrs s.drle pos) hi lo s.dst } := by
  unfold blit at h
  split at h
  · exact storeAll_ok h
  · cases h

/-- What every part of a DRLE decode keeps, whatever state it starts in. -/
structure DrleKeeps (s t : State) : Prop where
  frame : DrleFrame s t
  ctl : t.ctl = s.ctl ∨ t.ctl = none
  wf : Mem.wf s.dst → Mem.wf t.dst
  cursor : CursorIn s → CursorIn t

theorem DrleKeeps.refl (s : State) : DrleKeeps s s := ⟨.refl s, .inl rfl, id, id⟩

theorem DrleKeeps.trans {s t u : State} (h1 : DrleKeeps s t) (h2 : DrleKeeps t u) : DrleKeeps s u :=
  ⟨h1.frame.trans h2.frame, by
    rcases h2.ctl with h | h
    · rw [h]; exact h1.ctl
    · exact .inr h, h2.wf ∘ h1.wf, h2.cursor ∘ h1.cursor⟩

theorem drleStop_keeps (s : State) : DrleKeeps s (drleStop s) := ⟨rfl, .inr rfl, id, id⟩

theorem drlePayload_keeps (left : Nat) {s t : State} (h : drlePayload left s = .next t) : DrleKeeps s t := by
  induction left generalizing s with
  | zero => cases h; exact ⟨rfl, .inl rfl, id, id⟩
  | succ left ih =>
    simp only [drlePayload] at h
    split at h
    · next s1 h1 =>
      obtain ⟨-, rfl⟩ := streamPair_none h1
      cases h
      exact ⟨rfl, .inr rfl, id, fun _ => le_refl _⟩
    · next hi lo s1 h1 =>
      have hcur := fun hc => (streamPair_cursor (s := s) hc).1
      rw [h1] at hcur
      obtain ⟨-, -, rfl⟩ := streamPair_some h1
      split at h
      · cases h
      · next s2 h2 =>
        have h2' := blit_ok h2
        subst h2'
        have hk : ∀ v : State, v = { s with
            sp := s.sp + 2, dst := pixelsMem (blitAddrs s.drle s.drle.pos) hi lo s.dst
            drle := { s.drle with pos := s.drle.pos + 1, recLeft := left, pxHi := hi, pxLo := lo } } →
            DrleKeeps s v := by
          rintro v rfl
          exact ⟨rfl, .inl rfl, pixelsMem_wf _ _ _, hcur⟩
        split at h
        · cases h; exact (hk _ rfl).trans (drleStop_keeps _)
        · exact (hk _ rfl).trans (ih h)

theorem drleRecord_keeps {skip write : Byte} {s t : State} (h : drleRecord skip write s = .next t) :
    DrleKeeps s t := by
  unfold drleRecord at h
  dsimp only at h
  split at h
  · cases h; exact ⟨rfl, .inr rfl, id, id⟩
  · split at h
    · cases h; exact ⟨rfl, .inr rfl, id, id⟩
    · have hk := drlePayload_keeps _ h
      refine DrleKeeps.trans ?_ hk
      exact ⟨rfl, .inl rfl, id, id⟩

theorem drleRun_keeps (fuel : Nat) {s t : State} (h : drleRun fuel s = .next t) : DrleKeeps s t := by
  induction fuel generalizing s with
  | zero => cases h; exact .refl _
  | succ fuel ih =>
    simp only [drleRun] at h
    split at h
    · rcases fetchAt_drle s with ⟨k, w, h0, h1, hft⟩ | ⟨hn, hft⟩
      · rw [hft] at h; dsimp only at h
        rw [drleToken_record] at h
        obtain ⟨u, hu, hr⟩ := andThen_eq_next h
        have hlt : s.sp + 1 < s.src.length := (List.getElem?_eq_some_iff.1 h1).1
        exact (DrleKeeps.trans (t := { s with sp := s.sp + 2 }) ⟨rfl, .inl rfl, id, fun _ => hlt⟩
          (drleRecord_keeps hu)).trans (ih hr)
      · rw [hft] at h; cases h
        exact ⟨rfl, .inr rfl, id, fun _ => le_refl _⟩
    · cases h; exact .refl _

end Sys2Proof.Machine
end

