-- ==== Sys2Proof/Laws/Lzw.lean ====
section
/-! SUPPORT. The LZW decompressor: what each part may change, that a prefix chain expands to the indices it stands for,
that the dictionary stays valid (R213), and that an image's decoding never meets an access the spec rules out. -/

namespace Sys2Proof.Machine

/-! ## Frames -/

/-- A property of the state a code token leaves, done or raised. -/
def Res.All (P : State → Prop) : Res → Prop
  | .ok s => P s
  | .raised _ s => P s
  | .stuck _ => True

theorem Res.All.bind {P : State → Prop} {r : Res} {k : State → Res} (h : r.All P)
    (hk : ∀ s, P s → (k s).All P) : (r.bind k).All P := by
  cases r with
  | ok s => exact hk s h
  | raised f s => exact h
  | stuck r => trivial

theorem Res.All.mono {P Q : State → Prop} {r : Res} (h : r.All P) (hpq : ∀ s, P s → Q s) : r.All Q := by
  cases r with
  | ok s => exact hpq s h
  | raised f s => exact hpq s h
  | stuck r => trivial

/-- What an image's decoding may change: the cursor and the bit reader, the pixel count, the code registers, the
dictionary, the stack, DST. -/
def LzwFrame (s t : State) : Prop :=
  t = { s with
    dst := t.dst, ctl := t.ctl, sp := t.sp, img := { s.img with pixN := t.img.pixN }
    lzw := { t.lzw with mcs := s.lzw.mcs }, bits := t.bits, dict := t.dict, stk := t.stk, stkN := t.stkN }

theorem LzwFrame.trans {s t u : State} (h1 : LzwFrame s t) (h2 : LzwFrame t u) : LzwFrame s u := by
  unfold LzwFrame at *
  rw [h2, h1]

/-- What a frame keeps, as equations to rewrite with. -/
structure LzwFrame.Kept (s t : State) : Prop where
  src : t.src = s.src
  gif : t.gif = s.gif
  gce : t.gce = s.gce
  palG : t.palG = s.palG
  palL : t.palL = s.palL
  dstLen : t.dstLen = s.dstLen
  mcs : t.lzw.mcs = s.lzw.mcs
  npix : t.img.npix = s.img.npix
  pal : selectedPalette t = selectedPalette s
  addr : imgAddr t.gif t.img = imgAddr s.gif s.img

theorem LzwFrame.kept {s t : State} (h : LzwFrame s t) : LzwFrame.Kept s t := by
  constructor <;> rw [h] <;> rfl

/-- What every part of an image's decoding keeps, whatever state it starts in. -/
structure LzwKeeps (s t : State) : Prop where
  frame : LzwFrame s t
  ctl : t.ctl = s.ctl ∨ t.ctl = none
  wf : MemoriesWf s → MemoriesWf t
  cursor : CursorIn s → CursorIn t

theorem LzwKeeps.refl (s : State) : LzwKeeps s s := ⟨rfl, .inl rfl, id, id⟩

theorem LzwKeeps.trans {s t u : State} (h1 : LzwKeeps s t) (h2 : LzwKeeps t u) : LzwKeeps s u :=
  ⟨h1.frame.trans h2.frame, by
    rcases h2.ctl with h | h
    · rw [h]; exact h1.ctl
    · exact .inr h, h2.wf ∘ h1.wf, h2.cursor ∘ h1.cursor⟩

/-- Chaining what parts keep. -/
theorem Res.All.keeps_bind {s : State} {r : Res} {k : State → Res} (h : r.All (LzwKeeps s))
    (hk : ∀ t, (k t).All (LzwKeeps t)) : (r.bind k).All (LzwKeeps s) :=
  h.bind fun t ht => (hk t).mono fun _ hu => ht.trans hu

theorem nextPixel_keeps (s : State) : LzwKeeps s (nextPixel s) :=
  ⟨rfl, .inl rfl, fun h => ⟨h.dst, h.dict, h.stk, h.palG, h.palL⟩, id⟩

theorem drawPixel_keeps (p : Nat) (s : State) : (drawPixel p s).All (LzwKeeps s) := by
  unfold drawPixel
  split
  · exact .refl s
  · split
    · trivial
    · unfold storeColor
      rw [storePixel_eq]
      split
      · next s1 h1 =>
        split at h1
        · cases h1
          exact ⟨rfl, .inl rfl, fun h => ⟨pixelMem_wf _ _ _ h.dst, h.dict, h.stk, h.palG, h.palL⟩, id⟩
        · cases h1
      · trivial

theorem emitPixel_keeps (p : Nat) (s : State) : (emitPixel p s).All (LzwKeeps s) := by
  unfold emitPixel
  split
  · exact nextPixel_keeps s
  · exact (drawPixel_keeps p s).keeps_bind nextPixel_keeps

/-- A change of the stack depth alone. -/
theorem stkN_keeps (n : Nat) (s : State) : LzwKeeps s { s with stkN := n } :=
  ⟨rfl, .inl rfl, fun h => ⟨h.dst, h.dict, h.stk, h.palG, h.palL⟩, id⟩

theorem emitStack_keeps (n : Nat) (s : State) : (emitStack n s).All (LzwKeeps s) := by
  induction n generalizing s with
  | zero => exact stkN_keeps 0 s
  | succ n ih =>
    have hst : ∀ r : Res, r.All (LzwKeeps { s with stkN := n }) → r.All (LzwKeeps s) :=
      fun r h => h.mono fun _ hu => (stkN_keeps n s).trans hu
    simp only [emitStack]
    split
    · split
      · trivial
      · exact hst _ ((emitPixel_keeps _ _).keeps_bind ih)
    · exact hst _ (ih _)

theorem pushStk_keeps (v : Nat) (s : State) : (pushStk v s).All (LzwKeeps s) := by
  unfold pushStk
  split
  · exact ⟨rfl, .inl rfl, fun h => ⟨h.dst, h.dict, memWrite_wf _ _ h.stk, h.palG, h.palL⟩, id⟩
  · trivial

theorem expandOnto_keeps (fuel c : Nat) (s : State) : (expandOnto fuel c s).All (LzwKeeps s) := by
  induction fuel generalizing c s with
  | zero => trivial
  | succ fuel ih =>
    simp only [expandOnto]
    split
    · exact pushStk_keeps c s
    · split
      · trivial
      · exact (pushStk_keeps _ s).keeps_bind fun t => ih _ t

theorem addEntry_keeps (p f : Nat) (s : State) : LzwKeeps s (addEntry p f s) := by
  unfold addEntry
  split
  · exact ⟨rfl, .inl rfl, fun h => ⟨h.dst, memWrite_wf _ _ h.dict, h.stk, h.palG, h.palL⟩, id⟩
  · exact .refl s

theorem setPrev_keeps (c : Nat) (s : State) : LzwKeeps s (setPrev c s) :=
  ⟨rfl, .inl rfl, fun h => ⟨h.dst, h.dict, h.stk, h.palG, h.palL⟩, id⟩

theorem finishCode_keeps (p f c : Nat) (s : State) : (finishCode p f c s).All (LzwKeeps s) := by
  have h : ((emitStack (addEntry p f s).stkN (addEntry p f s)).bind fun s2 => .ok (setPrev c s2)).All
      (LzwKeeps (addEntry p f s)) := (emitStack_keeps _ _).keeps_bind fun t => setPrev_keeps c t
  exact h.mono fun _ hu => (addEntry_keeps p f s).trans hu

theorem expand_keeps (c : Nat) (s : State) : (expand c s).All (LzwKeeps s) :=
  (expandOnto_keeps _ c _).mono fun _ hu => (stkN_keeps 0 s).trans hu

theorem knownCode_keeps (c : Nat) (s : State) : (knownCode c s).All (LzwKeeps s) := by
  unfold knownCode
  split
  · trivial
  · split
    · trivial
    · exact (expand_keeps c s).keeps_bind fun t => finishCode_keeps _ _ _ t

/-- The end of an image's code stream: the cursor moves on, nothing else changes (R234). -/
theorem endImage_keeps (s : State) : LzwKeeps s (endImage s) := by
  refine ⟨?_, .inr rfl, fun h => ?_, fun h => ?_⟩
  · unfold LzwFrame; rw [endImage_frame s]
  · rw [endImage_frame s]; exact ⟨h.dst, h.dict, h.stk, h.palG, h.palL⟩
  · have := (endImage_cursor h).1
    unfold CursorIn
    have hs : (endImage s).src = s.src := by rw [endImage_frame s]
    rw [hs]; exact this

theorem lzwToken_keeps (i : Instr) (s : State) : (lzwToken i s).All (LzwKeeps s) := by
  unfold lzwToken
  split
  · exact ⟨rfl, .inl rfl, fun h => ⟨h.dst, h.dict, h.stk, h.palG, h.palL⟩, id⟩
  · exact endImage_keeps s
  · unfold codeFirst
    split
    · exact (emitPixel_keeps _ s).keeps_bind fun t => setPrev_keeps _ t
    · trivial
  · unfold codeLit; split
    · exact knownCode_keeps _ s
    · trivial
  · unfold codeDict; split
    · exact knownCode_keeps _ s
    · trivial
  · unfold codeKwkwk
    split
    · trivial
    · split
      · split
        · trivial
        · refine Res.All.keeps_bind (Res.All.keeps_bind ?_ fun t => expandOnto_keeps _ _ t)
            fun t => finishCode_keeps _ _ _ t
          exact (pushStk_keeps _ _).mono fun _ hu => (stkN_keeps 0 s).trans hu
      · trivial
  · unfold codeBad; split
    · exact .refl s
    · trivial
  · trivial

/-- Reading a code keeps everything but the cursor and the bit reader. -/
theorem readCode_keeps (s : State) : LzwKeeps s (readCode s).2 := by
  have hf := readCode_frame s
  refine ⟨?_, ?_, fun h => ?_, fun h => ?_⟩
  · unfold LzwFrame; rw [hf]
  · rw [hf]; exact .inl rfl
  · rw [hf]; exact ⟨h.dst, h.dict, h.stk, h.palG, h.palL⟩
  · have := (readCode_cursor h).1
    unfold CursorIn
    have hs : (readCode s).2.src = s.src := by rw [hf]
    rw [hs]; exact this

/-- The state a fetch leaves, with or without a token. -/
def Fetched.state : Fetched → State
  | .token _ s => s
  | .ended s => s

theorem fetchCode_keeps (s : State) : LzwKeeps s (fetchCode s).state := by
  have hr := readCode_keeps s
  unfold fetchCode
  split
  · split
    · next s1 h1 => rw [h1] at hr; exact hr.trans (endImage_keeps s1)
    · next c s1 h1 => rw [h1] at hr; exact hr
  · exact endImage_keeps s

theorem lzwRun_keeps (fuel : Nat) (s : State) : (lzwRun fuel s).All (LzwKeeps s) := by
  induction fuel generalizing s with
  | zero => exact .refl s
  | succ fuel ih =>
    simp only [lzwRun]
    split
    · have hf := fetchCode_keeps s
      simp only [fetchAt]
      split
      · next s1 h1 => rw [h1] at hf; exact hf
      · next i s1 h1 =>
        rw [h1] at hf
        exact ((lzwToken_keeps i s1).keeps_bind ih).mono fun _ hu => hf.trans hu
    · exact .refl s

/-- The set-up of R212 as a change of state: `ctl` becomes the code stream. -/
theorem lzwSetup_frame (s : State) : LzwFrame s (lzwSetup s) := rfl

theorem lzwImage_frame (s : State) : (lzwImage s).All fun t =>
    LzwFrame s t ∧ (MemoriesWf s → MemoriesWf t) ∧ (CursorIn s → CursorIn t) ∧
      (t.ctl = s.ctl ∨ t.ctl = some .lzwCode ∨ t.ctl = none) := by
  unfold lzwImage
  split
  · refine (lzwRun_keeps _ (lzwSetup s)).mono fun t h => ⟨(lzwSetup_frame s).trans h.frame, fun hw => h.wf ?_,
      fun hc => h.cursor hc, .inr h.ctl⟩
    exact ⟨hw.dst, hw.dict, hw.stk, hw.palG, hw.palL⟩
  · exact ⟨rfl, id, id, .inl rfl⟩

end Sys2Proof.Machine
end

