-- ==== Sys2Proof/Laws/Image.lean ====
section
/-! SUPPORT. An image's codes: a prefix chain expands to the indices it stands for, an expansion is drawn in order, the
dictionary stays valid (R213, R237), and so the decoding of an image ends without meeting an access the spec rules out. -/

namespace Sys2Proof.Machine

/-- Every result of a code token is one the spec names: done, or a model fault. -/
def Res.Fine (P Q : State → Prop) : Res → Prop
  | .ok s => P s
  | .raised _ s => Q s
  | .stuck _ => False

theorem Res.Fine.bind {P P' Q : State → Prop} {r : Res} {k : State → Res} (h : r.Fine P Q)
    (hk : ∀ s, P s → (k s).Fine P' Q) : (r.bind k).Fine P' Q := by
  cases r with
  | ok s => exact hk s h
  | raised f s => exact h
  | stuck r => exact h.elim

theorem Res.Fine.mono {P P' Q Q' : State → Prop} {r : Res} (h : r.Fine P Q) (hp : ∀ s, P s → P' s)
    (hq : ∀ s, Q s → Q' s) : r.Fine P' Q' := by
  cases r with
  | ok s => exact hp s h
  | raised f s => exact hq s h
  | stuck r => exact h.elim

/-! ## Expansion -/

/-- Several pushes, bottom first. -/
def pushAll : Mem Nat → Nat → List Nat → Mem Nat
  | m, _, [] => m
  | m, i, v :: vs => pushAll (memWrite m i v) (i + 1) vs

theorem memRead_pushAll_lt (vs : List Nat) (m : Mem Nat) {i j : Nat} (h : j < i) :
    memRead (pushAll m i vs) j = memRead m j := by
  induction vs generalizing m i with
  | nil => rfl
  | cons v vs ih => rw [pushAll, ih _ (by omega), memRead_memWrite_ne _ _ (by omega)]

theorem memRead_pushAll (vs : List Nat) (m : Mem Nat) (i : Nat) {j : Nat} (h : j < vs.length) :
    memRead (pushAll m i vs) (i + j) = vs[j]? := by
  induction vs generalizing m i j with
  | nil => simp at h
  | cons v vs ih =>
    cases j with
    | zero => rw [pushAll, memRead_pushAll_lt _ _ (by omega)]; simp
    | succ j =>
      rw [pushAll, show i + (j + 1) = i + 1 + j by omega, ih _ _ (by simpa using h)]
      simp

theorem Expands.length_pos {clear : Nat} {dict : Mem DictEntry} {c : Nat} {xs : List Nat}
    (h : Expands clear dict c xs) : 1 ≤ xs.length := by
  cases h <;> simp

/-- The literal at the head of a chain is the first index of the expansion (R229). -/
theorem chainHead_eq {clear : Nat} {dict : Mem DictEntry} {c : Nat} {xs : List Nat} (h : Expands clear dict c xs)
    {s : State} (hc : s.lzw.clear = clear) (hd : s.dict = dict) {fuel : Nat} (hf : xs.length ≤ fuel) :
    ∃ f, xs.head? = some f ∧ f < clear ∧ chainHead fuel c s = .ok f := by
  induction h generalizing fuel with
  | lit h =>
    obtain ⟨fuel, rfl⟩ : ∃ k, fuel = k + 1 := ⟨fuel - 1, by simp at hf; omega⟩
    exact ⟨_, rfl, h, by simp [chainHead, hc, h]⟩
  | @entry c e xs h hm hx ih =>
    obtain ⟨fuel, rfl⟩ : ∃ k, fuel = k + 1 := ⟨fuel - 1, by simp at hf; omega⟩
    obtain ⟨f, h1, h2, h3⟩ := ih (fuel := fuel) (by simp at hf; omega)
    refine ⟨f, by simp [List.head?_append, h1], h2, ?_⟩
    simp only [chainHead, hc, hd, hm, if_neg (show ¬ c < clear by omega)]
    exact h3

/-- A chain's indices are pushed last index first (R228). -/
theorem expandOnto_eq {clear : Nat} {dict : Mem DictEntry} {c : Nat} {xs : List Nat} (h : Expands clear dict c xs)
    {s : State} (hc : s.lzw.clear = clear) (hd : s.dict = dict) {fuel : Nat} (hf : xs.length ≤ fuel)
    (hn : s.stkN + xs.length ≤ Config.dictSize) :
    expandOnto fuel c s =
      .ok { s with stk := pushAll s.stk s.stkN xs.reverse, stkN := s.stkN + xs.length } := by
  induction h generalizing fuel s with
  | lit h =>
    obtain ⟨fuel, rfl⟩ : ∃ k, fuel = k + 1 := ⟨fuel - 1, by simp at hf; omega⟩
    have : s.stkN < Config.dictSize := by simp at hn; omega
    simp [expandOnto, hc, h, pushStk, this, pushAll]
  | @entry c e xs h hm hx ih =>
    obtain ⟨fuel, rfl⟩ : ∃ k, fuel = k + 1 := ⟨fuel - 1, by simp at hf; omega⟩
    have : s.stkN < Config.dictSize := by simp at hn; omega
    have hm' : memRead s.dict c = some e := by rw [hd]; exact hm
    simp only [expandOnto, hc, hm', if_neg (show ¬ c < clear by omega), pushStk, this, if_true, bind_ok]
    rw [ih (by exact hc) (by exact hd) (by simp at hf; omega) (by simp at hn; show s.stkN + 1 + _ ≤ _; omega)]
    simp [pushAll]; omega

/-- In a valid dictionary every defined code stands for some indices, no more than its chain is long (R213). -/
theorem LzwOk.expands {s : State} (h : LzwOk s) {c : Nat} (hn : c < s.lzw.nextCode)
    (hc : c < s.lzw.clear ∨ s.lzw.clear + 2 ≤ c) :
    ∃ xs, Expands s.lzw.clear s.dict c xs ∧ xs.length + s.lzw.clear ≤ max (s.lzw.clear + 1) c := by
  induction c using Nat.strong_induction_on with
  | _ c ih =>
    rcases hc with hc | hc
    · exact ⟨[c], .lit hc, by simp; omega⟩
    · obtain ⟨e, hm, hs, hlt, hv⟩ := h.dict c hc hn
      obtain ⟨xs, hx, hl⟩ := ih e.pfx hlt (by omega) hv
      exact ⟨xs ++ [e.sfx], .entry (by omega) hm hx, by simp; omega⟩

/-! ## Drawing -/

/-- What a token leaves outside the image's pixels (R196): every byte of DST there. -/
def DstIn (s t : State) : Prop :=
  ∀ b, (∀ k < s.img.npix, b ≠ imgAddr s.gif s.img k ∧ b ≠ imgAddr s.gif s.img k + 1) →
    memRead t.dst b = memRead s.dst b

theorem drawn_outside {s : State} {p k b : Nat} {m : Mem Byte} (hb : b ≠ imgAddr s.gif s.img k)
    (hb' : b ≠ imgAddr s.gif s.img k + 1) : memRead (drawn s p k m) b = memRead m b := by
  unfold drawn
  split
  · rfl
  · split
    · rw [memRead_pixelMem, if_neg hb', if_neg hb]
    · rfl

/-- A pixel is drawn, or its palette entry is missing and the fault is raised before anything changes (R231, R232). -/
theorem emitPixel_cases {s : State} (p : Nat) (hr : ImageReady s) (hk : s.img.pixN < s.img.npix) :
    (Drawable s p ∧ emitPixel p s =
      .ok { s with dst := drawn s p s.img.pixN s.dst, img := { s.img with pixN := s.img.pixN + 1 } }) ∨
    (¬ Drawable s p ∧ emitPixel p s = .raised (.palette p) s) := by
  unfold emitPixel Drawable drawn paletteColor
  by_cases ht : isTransparent s.gce p = true
  · simp [ht, nextPixel]
  · simp only [ht, drawPixel]
    by_cases hl : p < (selectedPalette s).2
    · obtain ⟨c, hc⟩ := Option.isSome_iff_exists.1 (hr.palette p hl)
      left
      simp only [hl, if_true, hc, Option.isSome_some, if_neg (show ¬ (selectedPalette s).2 ≤ p by omega),
        storeColor, storePixel_eq, hr.room _ hk, bind_ok, nextPixel]
      simp [pixelMem]
    · right
      simp [hl, show (selectedPalette s).2 ≤ p by omega]

/-- A pixel that can be drawn is drawn (R231 to R233). -/
theorem emitPixel_drawable {s : State} {p : Nat} (hd : Drawable s p)
    (hroom : imgAddr s.gif s.img s.img.pixN + 1 < s.dstLen) :
    emitPixel p s =
      .ok { s with dst := drawn s p s.img.pixN s.dst, img := { s.img with pixN := s.img.pixN + 1 } } := by
  unfold emitPixel drawn
  by_cases ht : isTransparent s.gce p = true
  · simp [ht, nextPixel]
  · have hp := hd.resolve_left ht
    unfold paletteColor at hp ⊢
    by_cases hl : p < (selectedPalette s).2
    · rw [if_pos hl] at hp ⊢
      obtain ⟨c, hc⟩ := Option.isSome_iff_exists.1 hp
      simp only [ht, drawPixel, hc, if_neg (show ¬ (selectedPalette s).2 ≤ p by omega), storeColor,
        storePixel_eq, hroom, if_true, bind_ok, nextPixel]
      rfl
    · rw [if_neg hl] at hp; cases hp

/-- Where the pixel cursor ends after `n` more indices (R235). -/
def pixAfter (m : ImgRegs) (n : Nat) : Nat := max m.pixN (min m.npix (m.pixN + n))

theorem drawnAll_congr {s t : State} (h : drawn t = drawn s) (hn : t.img.npix = s.img.npix) :
    drawnAll t = drawnAll s := by
  funext ps
  induction ps with
  | nil => rfl
  | cons p ps ih => funext k m; simp only [drawnAll, hn, h, ih]

theorem drawnAll_full {s : State} (ps : List Nat) {k : Nat} (m : Mem Byte) (h : s.img.npix ≤ k) :
    drawnAll s ps k m = m := by
  cases ps with
  | nil => rfl
  | cons p ps => simp only [drawnAll, if_neg (show ¬ k < s.img.npix by omega)]

/-- Inside the budget the first index is visible, and the rest are those of the state after it is drawn (R235). -/
theorem visible_cons {s : State} (p : Nat) (ps : List Nat) (hk : s.img.pixN < s.img.npix) :
    visible s (p :: ps) = p :: ps.take (s.img.npix - (s.img.pixN + 1)) := by
  unfold visible
  rw [show s.img.npix - s.img.pixN = s.img.npix - (s.img.pixN + 1) + 1 by omega, List.take_succ_cons]

/-- The state after the top of the stack is drawn. -/
theorem drawnAll_step {s : State} (p n : Nat) (ps : List Nat) (k : Nat) (m : Mem Byte) :
    drawnAll { s with
      stkN := n, dst := drawn s p s.img.pixN s.dst, img := { s.img with pixN := s.img.pixN + 1 } } ps k m =
      drawnAll s ps k m :=
  congrFun (congrFun (congrFun (drawnAll_congr (s := s) (t := { s with
    stkN := n, dst := drawn s p s.img.pixN s.dst, img := { s.img with pixN := s.img.pixN + 1 } }) rfl rfl) ps) k) m

/-- An expansion whose visible indices can be drawn is drawn in order, up to the budget (R230, R235). -/
theorem emitStack_eq (xs : List Nat) {s : State} (hr : ∀ k < s.img.npix, imgAddr s.gif s.img k + 1 < s.dstLen)
    (hst : ∀ j < xs.length, memRead s.stk j = xs.reverse[j]?) (hd : ∀ p ∈ visible s xs, Drawable s p) :
    emitStack xs.length s =
      .ok { s with
        dst := drawnAll s xs s.img.pixN s.dst, stkN := 0, img := { s.img with pixN := pixAfter s.img xs.length } } := by
  induction xs generalizing s with
  | nil => simp [emitStack, drawnAll, pixAfter]
  | cons p ps ih =>
    have htop : memRead s.stk ps.length = some p := by
      rw [hst ps.length (by simp)]; simp
    have hrest : ∀ j < ps.length, memRead s.stk j = ps.reverse[j]? := by
      intro j hj
      rw [hst j (by simp; omega), List.reverse_cons, List.getElem?_append_left (by simpa using hj)]
    simp only [List.length_cons, emitStack]
    by_cases hk : s.img.pixN < s.img.npix
    · rw [visible_cons p ps hk] at hd
      rw [if_pos hk, htop]
      dsimp only
      rw [emitPixel_drawable (s := { s with stkN := ps.length }) (hd p (by simp)) (hr _ hk), bind_ok]
      refine Eq.trans (ih (s := { s with
          stkN := ps.length, dst := drawn s p s.img.pixN s.dst, img := { s.img with pixN := s.img.pixN + 1 } })
        hr hrest (fun q hq => hd q (List.mem_cons_of_mem _ hq))) ?_
      have e1 : pixAfter { s.img with pixN := s.img.pixN + 1 } ps.length = pixAfter s.img (ps.length + 1) := by
        simp only [pixAfter]; omega
      simp only [drawnAll, if_pos hk, e1, drawnAll_step]
    · rw [if_neg hk, ih (s := { s with stkN := ps.length }) hr hrest (fun q hq => by
        rw [visible, show s.img.npix - s.img.pixN = 0 by omega, List.take_zero] at hq; cases hq)]
      have e1 : pixAfter s.img ps.length = pixAfter s.img (ps.length + 1) := by
        simp only [pixAfter]; omega
      rw [drawnAll_full (s := s) (p :: ps) _ (by omega), drawnAll_full _ _ (by exact Nat.not_lt.1 hk)]
      simp [e1]

/-- What drawing an index that has no colour does (R232, R39). -/
theorem emitPixel_undrawable {s : State} {x : Nat} (ht : isTransparent s.gce x = false) :
    ((selectedPalette s).2 ≤ x → emitPixel x s = .raised (.palette x) s) ∧
    (x < (selectedPalette s).2 → memRead (selectedPalette s).1 x = none →
      emitPixel x s = .stuck (.unwrittenPalette x)) := by
  unfold emitPixel drawPixel
  simp only [ht]
  exact ⟨fun h => by simp [h, Res.bind], fun h hm => by simp [hm, Res.bind, show ¬ (selectedPalette s).2 ≤ x by omega]⟩

/-- An expansion is drawn up to the first visible index that has no colour (R232): the pixels before it stay. -/
theorem emitStack_undrawable (xs : List Nat) {s : State} {pre post : List Nat} {x : Nat}
    (hr : ∀ k < s.img.npix, imgAddr s.gif s.img k + 1 < s.dstLen)
    (hst : ∀ j < xs.length, memRead s.stk j = xs.reverse[j]?) (hv : visible s xs = pre ++ x :: post)
    (hd : ∀ p ∈ pre, Drawable s p) (ht : isTransparent s.gce x = false) :
    ((selectedPalette s).2 ≤ x → emitStack xs.length s = .raised (.palette x) { s with
      dst := drawnAll s pre s.img.pixN s.dst, stkN := xs.length - pre.length - 1
      img := { s.img with pixN := s.img.pixN + pre.length } }) ∧
    (x < (selectedPalette s).2 → memRead (selectedPalette s).1 x = none →
      emitStack xs.length s = .stuck (.unwrittenPalette x)) := by
  induction xs generalizing s pre with
  | nil => simp [visible] at hv
  | cons p ps ih =>
    have htop : memRead s.stk ps.length = some p := by
      rw [hst ps.length (by simp)]; simp
    have hrest : ∀ j < ps.length, memRead s.stk j = ps.reverse[j]? := by
      intro j hj
      rw [hst j (by simp; omega), List.reverse_cons, List.getElem?_append_left (by simpa using hj)]
    have hk : s.img.pixN < s.img.npix := by
      by_contra h
      rw [visible, show s.img.npix - s.img.pixN = 0 by omega] at hv
      simp at hv
    rw [visible_cons p ps hk] at hv
    simp only [List.length_cons, emitStack, if_pos hk, htop]
    cases pre with
    | nil =>
      obtain ⟨rfl, -⟩ := List.cons.inj hv
      obtain ⟨h1, h2⟩ := emitPixel_undrawable (s := { s with stkN := ps.length }) ht
      exact ⟨fun h => by rw [h1 h]; simp [Res.bind, drawnAll], fun h hm => by rw [h2 h hm]; rfl⟩
    | cons q pre =>
      obtain ⟨rfl, hv'⟩ := List.cons.inj hv
      rw [emitPixel_drawable (s := { s with stkN := ps.length }) (hd p (by simp)) (hr _ hk), bind_ok]
      have := ih (s := { s with
          stkN := ps.length, dst := drawn s p s.img.pixN s.dst, img := { s.img with pixN := s.img.pixN + 1 } })
        (pre := pre) hr hrest hv' (fun q hq => hd q (List.mem_cons_of_mem _ hq)) ht
      refine ⟨fun h => (this.1 h).trans ?_, this.2⟩
      have e1 : ps.length - pre.length - 1 = ps.length + 1 - (p :: pre).length - 1 := by simp
      have e2 : s.img.pixN + 1 + pre.length = s.img.pixN + (p :: pre).length := by simp; omega
      simp only [drawnAll, if_pos hk, drawnAll_step, e1, e2]

/-- `AddEntry` touches the dictionary, the next code and the width (R226, R227). -/
theorem addEntry_frame (p f : Nat) (s : State) : addEntry p f s = { s with
    dict := (addEntry p f s).dict
    lzw := { s.lzw with
      nextCode := (addEntry p f s).lzw.nextCode, codeSize := (addEntry p f s).lzw.codeSize } } := by
  unfold addEntry; split <;> rfl

/-- What `AddEntry` leaves (R226, R227). -/
theorem addEntry_added (p f : Nat) (s : State) : EntryAdded s p f (addEntry p f s) := by
  unfold addEntry
  by_cases h : s.lzw.nextCode < Config.dictSize
  · rw [if_pos h]
    refine ⟨fun k => ?_, by simp [h], by simp [h, Nat.one_shiftLeft]⟩
    show memRead (memWrite s.dict s.lzw.nextCode _) k = _
    rw [memRead_memWrite]
    simp [h]
  · rw [if_neg h]
    exact ⟨fun k => by simp [h], by simp [h], by simp [h]⟩

/-- What drawing may change. -/
def EmitRel (s t : State) : Prop :=
  t = { s with dst := t.dst, stkN := t.stkN, img := { s.img with pixN := t.img.pixN } } ∧ DstIn s t

theorem EmitRel.trans {s t u : State} (h1 : EmitRel s t) (h2 : EmitRel t u) : EmitRel s u := by
  obtain ⟨f1, d1⟩ := h1
  obtain ⟨f2, d2⟩ := h2
  refine ⟨by rw [f2, f1], fun b hb => ?_⟩
  rw [d2 b (by rw [f1]; exact hb), d1 b hb]

theorem EmitRel.ready {s t : State} (h : EmitRel s t) (hr : ImageReady s) : ImageReady t := by
  rw [h.1]; exact ⟨hr.palette, hr.room⟩

/-- Drawing from a readable stack never meets an access the spec rules out. -/
theorem emitStack_fine (n : Nat) {s : State} (hr : ImageReady s) (hst : ∀ j < n, (memRead s.stk j).isSome) :
    (emitStack n s).Fine (fun t => EmitRel s t ∧ t.stk = s.stk) (EmitRel s) := by
  induction n generalizing s with
  | zero => exact ⟨⟨rfl, fun _ _ => rfl⟩, rfl⟩
  | succ n ih =>
    have h0 : EmitRel s { s with stkN := n } := ⟨rfl, fun _ _ => rfl⟩
    simp only [emitStack]
    obtain ⟨p, hp⟩ := Option.isSome_iff_exists.1 (hst n (by omega))
    split
    · next hk =>
      rw [hp]; dsimp only
      rcases emitPixel_cases p (s := { s with stkN := n }) ⟨hr.palette, hr.room⟩ hk with ⟨-, he⟩ | ⟨-, he⟩
      · rw [he, bind_ok]
        generalize hu : ({ s with
            stkN := n, dst := drawn { s with stkN := n } p s.img.pixN s.dst
            img := { s.img with pixN := s.img.pixN + 1 } } : State) = u
        have h1 : EmitRel s u := by
          subst hu
          exact ⟨rfl, fun b hb => drawn_outside (s := { s with stkN := n }) (hb _ hk).1 (hb _ hk).2⟩
        have hsk : u.stk = s.stk := by subst hu; rfl
        exact (ih (h1.ready hr) (fun j hj => by rw [hsk]; exact hst j (by omega))).mono
          (fun t ht => ⟨h1.trans ht.1, ht.2.trans hsk⟩) (fun t ht => h1.trans ht)
      · rw [he]; exact h0
    · exact (ih (h0.ready hr) (fun j hj => hst j (by omega))).mono
        (fun t ht => ⟨h0.trans ht.1, ht.2⟩) (fun t ht => h0.trans ht)

/-! ## Dictionary growth -/

/-- Adding an entry keeps the dictionary valid (R213, R226, R227). -/
theorem addEntry_ok {s : State} (h : LzwOk s) {p f : Nat} (hp : p < s.lzw.nextCode)
    (hv : p < s.lzw.clear ∨ s.lzw.clear + 2 ≤ p) (hf : f < s.lzw.clear) :
    LzwOk (addEntry p f s) ∧ s.lzw.nextCode ≤ (addEntry p f s).lzw.nextCode ∧
      (s.lzw.nextCode < Config.dictSize → (addEntry p f s).lzw.nextCode = s.lzw.nextCode + 1) := by
  obtain ⟨hm, hcl, hend, hnx, hsz, hroom, hdict, hprev⟩ := h
  unfold addEntry
  split
  · next hlt =>
    refine ⟨⟨hm, hcl, hend, ⟨?_, ?_⟩, ?_, ?_, ?_, ?_⟩, ?_, fun _ => rfl⟩
    · show _ ≤ s.lzw.nextCode + 1; exact hnx.1.trans (Nat.le_succ _)
    · exact hlt
    · show _ ≤ (if _ then _ else _) ∧ (if _ then _ else _) ≤ _
      by_cases hg : s.lzw.nextCode + 1 = 1 <<< s.lzw.codeSize ∧ s.lzw.codeSize < Config.maxCodeBits
      · rw [if_pos hg]; exact ⟨hsz.1.trans (Nat.le_succ _), hg.2⟩
      · rw [if_neg hg]; exact hsz
    · show s.lzw.nextCode + 1 < 2 ^ (if _ then _ else _) ∨ (if _ then _ else _) = _
      simp only [Nat.one_shiftLeft]
      by_cases hg : s.lzw.nextCode + 1 = 2 ^ s.lzw.codeSize ∧ s.lzw.codeSize < Config.maxCodeBits
      · rw [if_pos hg, hg.1]
        exact .inl (Nat.pow_lt_pow_right (by omega) (Nat.lt_succ_self _))
      · rw [if_neg hg]
        rcases hroom with h | h
        · by_cases h12 : s.lzw.codeSize = Config.maxCodeBits
          · exact .inr h12
          · left
            have : s.lzw.nextCode + 1 ≠ 2 ^ s.lzw.codeSize := fun he => hg ⟨he, by omega⟩
            omega
        · exact .inr h
    · intro c h1 h2
      by_cases hc : c = s.lzw.nextCode
      · subst hc
        exact ⟨⟨p, f⟩, by simp, hf, hp, hv⟩
      · obtain ⟨e, he, h3⟩ := hdict c h1 (by have : c < s.lzw.nextCode + 1 := h2; omega)
        exact ⟨e, by simpa [memRead_memWrite_ne _ _ hc] using he, h3⟩
    · intro q hq
      obtain ⟨h1, h2⟩ := hprev q hq
      exact ⟨Nat.lt_succ_of_lt h1, h2⟩
    · exact Nat.le_succ _
  · next hge =>
    exact ⟨⟨hm, hcl, hend, hnx, hsz, hroom, hdict, hprev⟩, le_refl _, fun h => absurd h hge⟩

/-- What a code token may change. -/
def CodeRel (s t : State) : Prop :=
  t = { s with
    dst := t.dst, stk := t.stk, stkN := t.stkN, dict := t.dict, img := { s.img with pixN := t.img.pixN }
    lzw := { t.lzw with mcs := s.lzw.mcs, clear := s.lzw.clear, endCode := s.lzw.endCode } } ∧ DstIn s t

theorem CodeRel.trans {s t u : State} (h1 : CodeRel s t) (h2 : CodeRel t u) : CodeRel s u := by
  obtain ⟨f1, d1⟩ := h1
  obtain ⟨f2, d2⟩ := h2
  refine ⟨by rw [f2, f1], fun b hb => ?_⟩
  rw [d2 b (by rw [f1]; exact hb), d1 b hb]

theorem EmitRel.code {s t : State} (h : EmitRel s t) : CodeRel s t := by
  refine ⟨?_, h.2⟩
  rw [h.1]

theorem CodeRel.ready {s t : State} (h : CodeRel s t) (hr : ImageReady s) : ImageReady t := by
  rw [h.1]; exact ⟨hr.palette, hr.room⟩

theorem addEntry_code (p f : Nat) (s : State) : CodeRel s (addEntry p f s) := by
  unfold addEntry
  split
  · exact ⟨rfl, fun _ _ => rfl⟩
  · exact ⟨rfl, fun _ _ => rfl⟩

/-- The end of a turn of R217 keeps the dictionary valid and draws inside the image. -/
theorem finishCode_fine {s : State} (h : LzwOk s) (hr : ImageReady s) {p f c : Nat} (hp : p < s.lzw.nextCode)
    (hv : p < s.lzw.clear ∨ s.lzw.clear + 2 ≤ p) (hf : f < s.lzw.clear)
    (hc : c < s.lzw.nextCode ∨ c = s.lzw.nextCode ∧ s.lzw.nextCode < Config.dictSize)
    (hcv : c < s.lzw.clear ∨ s.lzw.clear + 2 ≤ c) (hst : ∀ j < s.stkN, (memRead s.stk j).isSome) :
    (finishCode p f c s).Fine (fun t => CodeRel s t ∧ LzwOk t) (CodeRel s) := by
  have ha := addEntry_code p f s
  obtain ⟨hok, hle, hnext⟩ := addEntry_ok h hp hv hf
  have hstk : (addEntry p f s).stk = s.stk ∧ (addEntry p f s).stkN = s.stkN ∧
      (addEntry p f s).lzw.clear = s.lzw.clear := by
    unfold addEntry; split <;> exact ⟨rfl, rfl, rfl⟩
  unfold finishCode
  dsimp only
  refine Res.Fine.bind (P := fun t => EmitRel (addEntry p f s) t) ?_ ?_
  · refine (emitStack_fine _ (ha.ready hr) fun j hj => ?_).mono (fun t ht => ht.1) (fun t ht => ha.trans ht.code)
    rw [hstk.1]; exact hst j (by rw [← hstk.2.1]; exact hj)
  · intro t ht
    refine ⟨(ha.trans ht.code).trans ⟨rfl, fun _ _ => rfl⟩, ?_⟩
    obtain ⟨g1, g2, g3, g4, g5, g6, g7, g8⟩ := hok
    rw [ht.1]
    refine ⟨g1, g2, g3, g4, g5, g6, g7, ?_⟩
    intro q hq
    cases hq
    show c < (addEntry p f s).lzw.nextCode ∧ (c < (addEntry p f s).lzw.clear ∨ (addEntry p f s).lzw.clear + 2 ≤ c)
    rw [hstk.2.2]
    exact ⟨by rcases hc with hc | ⟨rfl, hc⟩ <;> [omega; (rw [hnext hc]; omega)], hcv⟩

/-! ## Code tokens -/

/-- The classes of R111, in the order of its table. -/
theorem decodeCode_cases (x : CodeCtx) (c : Nat) :
    (c = x.clear ∧ decodeCode x c = .lzwClear) ∨
    (c ≠ x.clear ∧ c = x.endCode ∧ decodeCode x c = .lzwEnd) ∨
    (x.prev = none ∧ c < x.clear ∧ c ≠ x.endCode ∧ decodeCode x c = .lzwFirst c) ∨
    ((∃ p, x.prev = some p) ∧ c < x.clear ∧ c ≠ x.clear ∧ c ≠ x.endCode ∧ decodeCode x c = .lzwLit c) ∨
    ((∃ p, x.prev = some p) ∧ x.clear ≤ c ∧ c ≠ x.clear ∧ x.endCode < c ∧ c < x.nextCode ∧
      decodeCode x c = .lzwDict c) ∨
    ((∃ p, x.prev = some p) ∧ c = x.nextCode ∧ x.nextCode < Config.dictSize ∧ decodeCode x c = .lzwKwkwk) ∨
    decodeCode x c = .lzwBadCode c := by
  unfold decodeCode
  by_cases h1 : c = x.clear
  · exact .inl ⟨h1, by rw [if_pos h1]⟩
  by_cases h2 : c = x.endCode
  · exact .inr (.inl ⟨h1, h2, by rw [if_neg h1, if_pos h2]⟩)
  rw [if_neg h1, if_neg h2]
  cases hp : x.prev with
  | none =>
    by_cases h3 : c < x.clear
    · simp [h1, h2, h3]
    · simp [h1, h2, h3]
  | some p =>
    by_cases h3 : c < x.clear
    · simp [h1, h2, h3]
    · by_cases h4 : x.endCode < c ∧ c < x.nextCode
      · have : x.clear ≤ c := by omega
        simp [h1, h2, h3, h4, this]
      · by_cases h5 : c = x.nextCode ∧ x.nextCode < Config.dictSize
        · dsimp only
          rw [if_neg h3, if_neg h4, if_pos h5]
          exact .inr (.inr (.inr (.inr (.inr (.inl ⟨⟨p, rfl⟩, h5.1, h5.2, rfl⟩)))))
        · simp only [h3, h4, h5, if_false]; simp

theorem Res.Fine.and_all {P Q R : State → Prop} {r : Res} (h : r.Fine P Q) (ha : r.All R) :
    r.Fine (fun t => P t ∧ R t) (fun t => Q t ∧ R t) := by
  cases r with
  | ok s => exact ⟨h, ha⟩
  | raised f s => exact ⟨h, ha⟩
  | stuck r => exact h.elim

/-- What an image's decoding leaves of the tests that follow: the dictionary valid, the image drawable, DST outside the
image as before, and no more bits to read than before. -/
structure CodeOk (s t : State) : Prop where
  ok : LzwOk t
  ready : ImageReady t
  dst : DstIn s t
  left : bitsLeft t ≤ bitsLeft s

theorem CodeRel.codeOk {s t : State} (h : CodeRel s t) (hok : LzwOk t) (hr : ImageReady s) : CodeOk s t :=
  ⟨hok, h.ready hr, h.2, by rw [h.1]; exact le_refl _⟩

theorem DstIn.trans {s t u : State} (h1 : DstIn s t) (h2 : DstIn t u)
    (hi : imgAddr t.gif t.img = imgAddr s.gif s.img) (hn : t.img.npix = s.img.npix) : DstIn s u := by
  intro b hb
  rw [h2 b (by rw [hi, hn]; exact hb), h1 b hb]

theorem LzwOk.congr {s t : State} (h : LzwOk s) (hl : t.lzw = s.lzw) (hd : t.dict = s.dict) : LzwOk t := by
  obtain ⟨h1, h2, h3, h4, h5, h6, h7, h8⟩ := h
  constructor <;> (try rw [hl]) <;> (try rw [hd]) <;> assumption

/-- A clear code leaves a valid dictionary (R218). -/
theorem clear_ok {s : State} (h : LzwOk s) : LzwOk { s with lzw := { s.lzw with
    codeSize := s.lzw.mcs.toNat + 1, nextCode := s.lzw.clear + 2, prev := none } } := by
  obtain ⟨hm, hcl, hend, hnx, hsz, hroom, hdict, hprev⟩ := h
  refine ⟨hm, hcl, hend, ⟨le_refl _, hnx.1.trans hnx.2⟩, ⟨le_refl _, ?_⟩, ?_, ?_, fun p hp => by cases hp⟩
  · show s.lzw.mcs.toNat + 1 ≤ 12; omega
  · left
    show s.lzw.clear + 2 < 2 ^ (s.lzw.mcs.toNat + 1)
    rw [hcl, Nat.pow_succ]
    have : 2 ^ 2 ≤ 2 ^ s.lzw.mcs.toNat := Nat.pow_le_pow_right (by omega) hm.1
    omega
  · intro c h1 h2
    have h2' : c < s.lzw.clear + 2 := h2
    have h1' : s.lzw.clear + 2 ≤ c := h1
    omega

theorem setPrev_ok {s : State} (h : LzwOk s) {c : Nat} (hc : c < s.lzw.nextCode)
    (hv : c < s.lzw.clear ∨ s.lzw.clear + 2 ≤ c) : LzwOk (setPrev c s) := by
  obtain ⟨hm, hcl, hend, hnx, hsz, hroom, hdict, hprev⟩ := h
  exact ⟨hm, hcl, hend, hnx, hsz, hroom, hdict, fun p hp => by cases hp; exact ⟨hc, hv⟩⟩

/-- The entries a pushed expansion leaves on the stack. -/
theorem pushAll_isSome (vs : List Nat) (m : Mem Nat) (i j : Nat) (hm : ∀ k < i, (memRead m k).isSome)
    (hj : j < i + vs.length) : (memRead (pushAll m i vs) j).isSome := by
  rcases Nat.lt_or_ge j i with h | h
  · rw [memRead_pushAll_lt _ _ h]; exact hm j h
  · obtain ⟨k, rfl⟩ : ∃ k, j = i + k := ⟨j - i, by omega⟩
    rw [memRead_pushAll _ _ _ (show k < vs.length by omega)]
    simp [show k < vs.length by omega]

/-- A code already defined is decoded in a valid dictionary (R223). -/
theorem knownCode_fine {s : State} (h : LzwOk s) (hr : ImageReady s) {c p : Nat} (hp : s.lzw.prev = some p)
    (hc : c < s.lzw.nextCode) (hv : c < s.lzw.clear ∨ s.lzw.clear + 2 ≤ c) :
    (knownCode c s).Fine (fun t => CodeRel s t ∧ LzwOk t) (CodeRel s) := by
  obtain ⟨xs, hx, hl⟩ := h.expands hc hv
  have hlen : xs.length ≤ Config.dictSize := by
    have := h.next; simp only [Config.dictSize] at *; omega
  obtain ⟨f, -, hf, hhead⟩ := chainHead_eq hx rfl rfl (fuel := Config.dictSize + 1) (by omega)
  unfold knownCode
  simp only [hp, firstIndex, hhead, expand]
  rw [expandOnto_eq hx (s := { s with stkN := 0 }) rfl rfl (by omega) (by show 0 + _ ≤ _; omega), bind_ok]
  obtain ⟨hpn, hpv⟩ := h.prev p hp
  generalize hu : ({ s with
      stk := pushAll s.stk 0 xs.reverse, stkN := 0 + xs.length } : State) = u
  have hs : CodeRel s u := by subst hu; exact ⟨rfl, fun _ _ => rfl⟩
  have e1 : u.lzw = s.lzw := by subst hu; rfl
  have e2 : u.dict = s.dict := by subst hu; rfl
  refine (finishCode_fine (h.congr e1 e2) (hs.ready hr) (by rw [e1]; exact hpn) (by rw [e1]; exact hpv)
    (by rw [e1]; exact hf) (.inl (by rw [e1]; exact hc)) (by rw [e1]; exact hv) ?_).mono
    (fun t ht => ⟨hs.trans ht.1, ht.2⟩) (fun t ht => hs.trans ht)
  subst hu
  intro j hj
  exact pushAll_isSome _ _ _ _ (fun k hk => by omega) (by simpa using hj)

/-- The code about to be defined is decoded in a valid dictionary (R224). -/
theorem kwkwk_fine {s : State} (h : LzwOk s) (hr : ImageReady s) {p : Nat} (hp : s.lzw.prev = some p)
    (hd : decodeCode (codeCtx s) s.lzw.nextCode = .lzwKwkwk) (hlt : s.lzw.nextCode < Config.dictSize) :
    (codeKwkwk s).Fine (fun t => CodeRel s t ∧ LzwOk t) (CodeRel s) := by
  obtain ⟨hpn, hpv⟩ := h.prev p hp
  obtain ⟨xs, hx, hl⟩ := h.expands hpn hpv
  have hcl : 2 ^ 2 ≤ s.lzw.clear := by rw [h.clear]; exact Nat.pow_le_pow_right (by omega) h.mcs.1
  have hlen : xs.length + 1 ≤ Config.dictSize := by
    have := h.next; simp only [Config.dictSize] at *; omega
  obtain ⟨f, -, hf, hhead⟩ := chainHead_eq hx rfl rfl (fuel := Config.dictSize + 1) (by omega)
  unfold codeKwkwk
  have h0 : (0 : Nat) < Config.dictSize := by decide
  simp only [hp, hd, if_true, firstIndex, hhead, pushStk, h0, bind_ok]
  rw [expandOnto_eq hx (s := { s with stk := memWrite s.stk 0 f, stkN := 0 + 1 }) rfl rfl (by omega)
    (by show 0 + 1 + _ ≤ _; omega), bind_ok]
  generalize hu : ({ s with
      stk := pushAll (memWrite s.stk 0 f) (0 + 1) xs.reverse, stkN := 0 + 1 + xs.length } : State) = u
  have hs : CodeRel s u := by subst hu; exact ⟨rfl, fun _ _ => rfl⟩
  have e1 : u.lzw = s.lzw := by subst hu; rfl
  have e2 : u.dict = s.dict := by subst hu; rfl
  refine (finishCode_fine (h.congr e1 e2) (hs.ready hr) (by rw [e1]; exact hpn) (by rw [e1]; exact hpv)
    (by rw [e1]; exact hf) (.inr ⟨by rw [e1], by rw [e1]; exact hlt⟩) (by rw [e1]; exact .inr h.next.1) ?_).mono
    (fun t ht => ⟨hs.trans ht.1, ht.2⟩) (fun t ht => hs.trans ht)
  subst hu
  intro j hj
  refine pushAll_isSome _ _ _ _ (fun k hk => ?_) (by simpa using hj)
  obtain rfl : k = 0 := by omega
  simp

theorem endImage_codeOk {s : State} (h : LzwOk s) (hr : ImageReady s) (hc : CursorIn s) : CodeOk s (endImage s) := by
  have hcur := endImage_cursor hc
  have hf := endImage_frame s
  generalize endImage s = t at *
  rw [hf]
  exact ⟨h.congr rfl rfl, ⟨hr.palette, hr.room⟩, fun _ _ => rfl, by
    show s.bits.cnt + 8 * (s.src.length - t.sp) ≤ s.bits.cnt + 8 * (s.src.length - s.sp); omega⟩

/-- A code that was read, whatever its value, is decoded in a valid dictionary to one of the results the spec names. -/
theorem lzwToken_fine {s : State} (h : LzwOk s) (hr : ImageReady s) (hc : CursorIn s)
    (hk : s.img.pixN < s.img.npix) (c : Nat) :
    (lzwToken (decodeCode (codeCtx s) c) s).Fine (CodeOk s) (DstIn s) := by
  have hend := h.endCode
  have hcode : ∀ r : Res, r.Fine (fun t => CodeRel s t ∧ LzwOk t) (CodeRel s) → r.Fine (CodeOk s) (DstIn s) :=
    fun r hf => hf.mono (fun t ht => ht.1.codeOk ht.2 hr) (fun t ht => ht.2)
  rcases decodeCode_cases (codeCtx s) c with ⟨-, hd⟩ | ⟨-, -, hd⟩ | ⟨hp, hlt, -, hd⟩ | ⟨⟨p, hp⟩, hlt, -, -, hd⟩ |
    ⟨⟨p, hp⟩, hge, -, h1, h2, hd⟩ | ⟨⟨p, hp⟩, hc', hlt, hd⟩ | hd
  · rw [hd]; exact ⟨clear_ok h, ⟨hr.palette, hr.room⟩, fun _ _ => rfl, le_refl _⟩
  · rw [hd]; exact endImage_codeOk h hr hc
  · rw [hd]
    simp only [lzwToken, codeFirst, hd, if_true]
    have hlt' : c < s.lzw.clear := hlt
    rcases emitPixel_cases c hr hk with ⟨-, he⟩ | ⟨-, he⟩
    · rw [he, bind_ok]
      have hnx := h.next
      have hltn : c < s.lzw.nextCode := by omega
      refine ⟨(setPrev_ok h hltn (.inl hlt')).congr rfl rfl,
        ⟨hr.palette, hr.room⟩, fun b hb => drawn_outside (hb _ hk).1 (hb _ hk).2, le_refl _⟩
    · rw [he]; exact fun _ _ => rfl
  · rw [hd]
    simp only [lzwToken, codeLit, hd, if_true]
    have hlt' : c < s.lzw.clear := hlt
    exact hcode _ (knownCode_fine h hr hp (by have := h.next; omega) (.inl hlt'))
  · rw [hd]
    simp only [lzwToken, codeDict, hd, if_true]
    have h1' : s.lzw.endCode < c := h1
    exact hcode _ (knownCode_fine h hr hp h2 (.inr (by omega)))
  · rw [hd]
    subst hc'
    exact hcode _ (kwkwk_fine h hr hp hd hlt)
  · rw [hd]
    simp only [lzwToken, codeBad, hd, if_true]
    exact fun _ _ => rfl

/-! ## The loop -/

theorem LzwKeeps.dstIn_congr {s t u : State} (hk : LzwKeeps s t) (h1 : DstIn s t) (h2 : DstIn t u) : DstIn s u :=
  h1.trans h2 hk.frame.kept.addr hk.frame.kept.npix

/-- Decoding an image from a valid dictionary ends: done with the code stream left, or with a model fault raised. -/
theorem lzwRun_fine (fuel : Nat) {s : State} (h : LzwOk s) (hr : ImageReady s) (hc : CursorIn s)
    (hctl : s.ctl = some .lzwCode) (hf : bitsLeft s < fuel) :
    (lzwRun fuel s).Fine (fun t => t.ctl = none ∧ DstIn s t) (DstIn s) := by
  induction fuel generalizing s with
  | zero => omega
  | succ fuel ih =>
    simp only [lzwRun, hctl, if_true, fetchAt, fetchCode]
    by_cases hk : s.img.pixN < s.img.npix
    · rw [if_pos hk]
      have hrf := readCode_frame s
      have hrc := readCode_cursor hc
      have hrk := readCode_keeps s
      generalize readCode s = r at *
      obtain ⟨o, s1⟩ := r
      dsimp only at hrf hrc hrk
      have hok1 : LzwOk s1 := h.congr (by rw [hrf]) (by rw [hrf])
      have hr1 : ImageReady s1 := by rw [hrf]; exact ⟨hr.palette, hr.room⟩
      have hd1 : DstIn s s1 := by rw [hrf]; exact fun _ _ => rfl
      have hc1 : CursorIn s1 := hrk.cursor hc
      cases o with
      | none =>
        exact ⟨by rw [endImage_frame], hrk.dstIn_congr hd1 (endImage_codeOk hok1 hr1 hc1).dst⟩
      | some c =>
        have hk1 : s1.img.pixN < s1.img.npix := by rw [hrf]; exact hk
        have hbits := hrc.2.2.2 rfl
        have hsize := h.size.1
        have hmcs := h.mcs.1
        have htok := (lzwToken_fine hok1 hr1 hc1 hk1 c).and_all (lzwToken_keeps (decodeCode (codeCtx s1) c) s1)
        refine Res.Fine.bind (P := fun t => CodeOk s1 t ∧ LzwKeeps s1 t)
          (htok.mono (fun _ ht => ht) fun t ht => hrk.dstIn_congr hd1 ht.1) ?_
        intro t ⟨hco, hkt⟩
        have hst := hrk.trans hkt
        have hdt := hrk.dstIn_congr hd1 hco.dst
        rcases hkt.ctl with hct | hct
        · have hct' : t.ctl = some .lzwCode := by rw [hct]; rw [hrf]; exact hctl
          have := hco.left
          exact (ih hco.ok hco.ready (hst.cursor hc) hct' (by omega)).mono
            (fun u hu => ⟨hu.1, hst.dstIn_congr hdt hu.2⟩) (fun u hu => hst.dstIn_congr hdt hu)
        · cases fuel with
          | zero => exact ⟨hct, hdt⟩
          | succ fuel => simp only [lzwRun, hct]; exact ⟨hct, hdt⟩
    · rw [if_neg hk]
      exact ⟨by rw [endImage_frame], (endImage_codeOk h hr hc).dst⟩

theorem setup_ok {s : State} (h : mcsAdmitted s.lzw.mcs = true) : LzwOk (lzwSetup s) := by
  have hm : 2 ≤ s.lzw.mcs.toNat ∧ s.lzw.mcs.toNat ≤ 11 := by simpa [mcsAdmitted] using h
  have hp : 2 ^ 2 ≤ 2 ^ s.lzw.mcs.toNat := Nat.pow_le_pow_right (by omega) hm.1
  have hp' : 2 ^ s.lzw.mcs.toNat ≤ 2 ^ 11 := Nat.pow_le_pow_right (by omega) hm.2
  refine ⟨hm, Nat.one_shiftLeft _, rfl, ⟨le_refl _, ?_⟩, ⟨le_refl _, ?_⟩, .inl ?_, ?_, fun p hp => by cases hp⟩
  · show 1 <<< s.lzw.mcs.toNat + 2 ≤ 4096
    rw [Nat.one_shiftLeft]; omega
  · show _ ≤ 12; show s.lzw.mcs.toNat + 1 ≤ 12; omega
  · show 1 <<< s.lzw.mcs.toNat + 2 < 2 ^ (s.lzw.mcs.toNat + 1)
    rw [Nat.one_shiftLeft, Nat.pow_succ]; omega
  · intro c h1 h2
    have h1' : 1 <<< s.lzw.mcs.toNat + 2 ≤ c := h1
    have h2' : c < 1 <<< s.lzw.mcs.toNat + 2 := h2
    omega

/-- LZW.IMAGE on a drawable image ends with one of the results the spec names, and touches DST inside the image only. -/
theorem lzwImage_fine {s : State} (hr : ImageReady s) (hc : CursorIn s) :
    (lzwImage s).Fine (fun t => t.ctl = none ∧ DstIn s t) (DstIn s) := by
  unfold lzwImage
  split
  · next hm =>
    refine lzwRun_fine _ (setup_ok hm) (s := lzwSetup s) ⟨hr.palette, hr.room⟩ hc rfl ?_
    show 0 + 8 * (s.src.length - s.sp) < 0 + 8 * s.src.length + 1
    omega
  · exact fun _ _ => rfl

end Sys2Proof.Machine
end

