-- ==== Sys2Proof/Laws/Gif.lean ====
section
/-! SUPPORT. The GIF container: what each token may change, and that the block loop ends in exactly one of the outcomes of
42_gif_container.md R172 whatever bytes SRC holds. -/

namespace Sys2Proof.Machine

/-! ## Colour tables -/

theorem readTriples_some (n : Nat) {l : List Byte} (h : 3 * n ≤ l.length) :
    ∃ t, readTriples n l = some t ∧ t.length = n := by
  induction n generalizing l with
  | zero => exact ⟨[], rfl, rfl⟩
  | succ n ih =>
    match l with
    | r :: g :: b :: rest =>
      obtain ⟨t, ht, hl⟩ := ih (l := rest) (by simp at h; omega)
      exact ⟨⟨r, g, b⟩ :: t, by simp [readTriples, ht], by simp [hl]⟩
    | [] => simp at h
    | [_] => simp at h; omega
    | [_, _] => simp at h; omega

theorem readTriples_none (n : Nat) {l : List Byte} (h : l.length < 3 * n) : readTriples n l = none := by
  induction n generalizing l with
  | zero => omega
  | succ n ih =>
    match l with
    | r :: g :: b :: rest => simp [readTriples, ih (l := rest) (by simp at h; omega)]
    | [] => rfl
    | [_] => rfl
    | [_, _] => rfl

/-- Entry `i` is bytes `3i, 3i+1, 3i+2` (R102). -/
theorem readTriples_get {n : Nat} {l : List Byte} {t : List Rgb} (h : readTriples n l = some t) (i : Nat) (hi : i < n) :
    t[i]? = some ⟨l.getD (3 * i) 0, l.getD (3 * i + 1) 0, l.getD (3 * i + 2) 0⟩ := by
  induction n generalizing l t i with
  | zero => omega
  | succ n ih =>
    match l with
    | r :: g :: b :: rest =>
      simp only [readTriples, Option.map_eq_some_iff] at h
      obtain ⟨t', ht, rfl⟩ := h
      cases i with
      | zero => rfl
      | succ i =>
        rw [List.getElem?_cons_succ, ih ht i (by omega)]
        rw [show 3 * (i + 1) = 3 * i + 3 by ring]
        rfl
    | [] => cases h
    | [_] => cases h
    | [_, _] => cases h

/-- The local colour table (R187, R188): all of it, or the end of SRC. -/
theorem localTable_cases (s : State) :
    (∃ table : List Rgb, table.length = tableSize s.img.flags ∧
      readTriples (tableSize s.img.flags) ((s.src.drop s.sp).take (3 * tableSize s.img.flags)) = some table ∧
      (CursorIn s → s.sp + 3 * tableSize s.img.flags ≤ s.src.length) ∧
      (localTable s).1 = some { s with
        sp := s.sp + 3 * tableSize s.img.flags, palL := writePalette table 0 s.palL
        img := { s.img with
          lctLen := tableSize s.img.flags, palSel := selectPalette (tableSize s.img.flags) s.gif.gctLen } }) ∨
    (s.src.length < s.sp + 3 * tableSize s.img.flags ∧ localTable s = (none, { s with sp := s.src.length })) := by
  unfold localTable streamRead
  dsimp only
  by_cases h0 : 3 * tableSize s.img.flags = 0
  · left
    have h1 : tableSize s.img.flags = 0 := by omega
    refine ⟨[], h1.symm, by simp [h1, readTriples], fun h => by rw [h0]; exact h, ?_⟩
    simp [h1, readTriples]
  · rw [if_neg h0]
    by_cases hle : s.sp + 3 * tableSize s.img.flags ≤ s.src.length
    · rw [if_pos hle]
      obtain ⟨t, ht, hl⟩ := readTriples_some (tableSize s.img.flags)
        (l := (s.src.drop s.sp).take (3 * tableSize s.img.flags)) (by simp; omega)
      exact .inl ⟨t, hl, ht, fun _ => hle, by simp [ht]⟩
    · rw [if_neg hle]
      exact .inr ⟨by omega, rfl⟩

/-! ## Frames -/

/-- What a GIF command or token keeps, whatever state it starts in: the other units, their ports, SRC. -/
structure GifKeeps (s t : State) : Prop where
  frame : t = { s with
    dst := t.dst, dstLen := t.dstLen, out := t.out, ctl := t.ctl, sp := t.sp, gif := t.gif, gce := t.gce, img := t.img
    lzw := t.lzw, bits := t.bits, dict := t.dict, stk := t.stk, stkN := t.stkN, palG := t.palG, palL := t.palL }
  wf : MemoriesWf s → MemoriesWf t
  cursor : CursorIn s → CursorIn t

theorem GifKeeps.refl (s : State) : GifKeeps s s := ⟨rfl, id, id⟩

theorem GifKeeps.trans {s t u : State} (h1 : GifKeeps s t) (h2 : GifKeeps t u) : GifKeeps s u := by
  refine ⟨?_, h2.wf ∘ h1.wf, h2.cursor ∘ h1.cursor⟩
  rw [h2.frame, h1.frame]

theorem drainSubBlocks_keeps (s : State) : GifKeeps s (drainSubBlocks s) :=
  ⟨rfl, fun h => ⟨h.dst, h.dict, h.stk, h.palG, h.palL⟩, fun h => (drainFrom_cursor s.src _ h).1⟩

theorem exits_keep (s : State) :
    GifKeeps s (streamEnd s) ∧ (∀ e, GifKeeps s (formatError e s)) ∧ (∀ f, GifKeeps s (gifRaise f s)) ∧
      GifKeeps s (imageDone s) :=
  ⟨⟨rfl, fun h => ⟨h.dst, h.dict, h.stk, h.palG, h.palL⟩, id⟩,
    fun _ => ⟨rfl, fun h => ⟨h.dst, h.dict, h.stk, h.palG, h.palL⟩, id⟩,
    fun _ => ⟨rfl, fun h => ⟨h.dst, h.dict, h.stk, h.palG, h.palL⟩, id⟩,
    ⟨rfl, fun h => ⟨h.dst, h.dict, h.stk, h.palG, h.palL⟩, id⟩⟩

theorem localTable_keeps (s : State) : (∀ t, (localTable s).1 = some t → GifKeeps s t) ∧
    ((localTable s).1 = none → GifKeeps s (localTable s).2) := by
  rcases localTable_cases s with ⟨table, -, -, hc, h⟩ | ⟨-, h⟩
  · rw [h]
    refine ⟨fun t ht => ?_, fun hn => by cases hn⟩
    cases ht
    exact ⟨rfl, fun h => ⟨h.dst, h.dict, h.stk, h.palG, writePalette_wf _ _ h.palL⟩, hc⟩
  · rw [h]
    exact ⟨fun t ht => (by cases ht),
      fun _ => ⟨rfl, fun h => ⟨h.dst, h.dict, h.stk, h.palG, h.palL⟩, fun _ => le_refl _⟩⟩

theorem streamByte_keeps (s : State) : GifKeeps s (streamByte s).2 := by
  have hf := streamByte_frame s
  have hc := fun h => (streamByte_cursor (s := s) h).1
  generalize (streamByte s).2 = t at *
  rw [hf]
  exact ⟨rfl, fun h => ⟨h.dst, h.dict, h.stk, h.palG, h.palL⟩, hc⟩

/-- LZW.IMAGE as a part of the container's work. -/
theorem lzwImage_keeps (s : State) : (lzwImage s).All (GifKeeps s) :=
  (lzwImage_frame s).mono fun t ⟨hf, hw, hc, _⟩ => ⟨by rw [hf], hw, hc⟩

theorem settle_keeps {s t : State} {r : Res} (h : r.All (GifKeeps s)) (ht : r.settle = .next t) : GifKeeps s t := by
  cases r with
  | ok u => cases ht; exact h
  | raised f u => cases ht; exact h.trans ((exits_keep u).2.2.1 f)
  | stuck r => cases ht

theorem imageBody_keeps {s t : State} (h : imageBody s = .next t) : GifKeeps s t := by
  obtain ⟨hl1, hl2⟩ := localTable_keeps s
  unfold imageBody at h
  generalize hl : localTable s = l at *
  obtain ⟨o, s1⟩ := l
  cases o with
  | none => cases h; exact (hl2 rfl).trans (exits_keep s1).1
  | some s2 =>
    have h2 := hl1 s2 rfl
    dsimp only at h
    have hb := streamByte_keeps s2
    generalize streamByte s2 = b at *
    obtain ⟨ob, s3⟩ := b
    cases ob with
    | none => cases h; exact (h2.trans hb).trans (exits_keep s3).1
    | some mcs =>
      have h3 : GifKeeps s3 (imageData mcs s3) := ⟨rfl, fun h => ⟨h.dst, h.dict, h.stk, h.palG, h.palL⟩, id⟩
      refine ((h2.trans hb).trans h3).trans (settle_keeps ?_ h)
      exact (lzwImage_keeps _).bind fun u hu => hu.trans (exits_keep u).2.2.2

theorem ctlGif_keeps (c : Option Pos) (g : GifRegs) (s : State) : GifKeeps s { s with ctl := c, gif := g } :=
  ⟨rfl, fun h => ⟨h.dst, h.dict, h.stk, h.palG, h.palL⟩, id⟩

theorem execGifLsd_keeps {w h : U16} {f b a : Byte} {s t : State} (hx : execGifLsd w h f b a s = .next t) :
    GifKeeps s t := by
  unfold execGifLsd at hx
  dsimp only at hx
  split at hx
  · cases hx; exact (ctlGif_keeps s.ctl _ s).trans ((exits_keep _).2.1 _)
  · cases hx; exact ctlGif_keeps _ _ s

theorem execGifGce_keeps {body : List Byte} {s t : State} (h : execGifGce body s = .next t) : GifKeeps s t := by
  unfold execGifGce at h
  split at h
  · cases h; exact .refl _
  · cases h
    refine GifKeeps.trans ?_ (drainSubBlocks_keeps _)
    exact ⟨rfl, fun h => ⟨h.dst, h.dict, h.stk, h.palG, h.palL⟩, id⟩

theorem execGifImage_keeps {l tp w h : U16} {f : Byte} {s t : State} (hx : execGifImage l tp w h f s = .next t) :
    GifKeeps s t := by
  have hd : GifKeeps s (setDescriptor l tp w h f s) :=
    ⟨rfl, fun h => ⟨h.dst, h.dict, h.stk, h.palG, h.palL⟩, id⟩
  unfold execGifImage at hx
  dsimp only at hx
  split at hx
  · cases hx; exact hd.trans ((exits_keep _).2.1 _)
  · split at hx
    · cases hx; exact hd.trans ((exits_keep _).2.2.1 _)
    · exact hd.trans (imageBody_keeps hx)

theorem execGifGct_keeps (table : List Rgb) {s t : State} (h : execGifGct table s = .next t) : GifKeeps s t := by
  cases h
  exact ⟨rfl, fun h => ⟨h.dst, h.dict, h.stk, writePalette_wf _ _ h.palG, h.palL⟩, id⟩

theorem gifToken_keeps {i : Instr} {s t : State} (h : gifToken i s = .next t) : GifKeeps s t := by
  cases i with
  | gifHeader87a => cases h; exact ctlGif_keeps (some .gifLsd) s.gif s
  | gifHeader89a => cases h; exact ctlGif_keeps (some .gifLsd) s.gif s
  | gifLsd w h' f b a => exact execGifLsd_keeps (w := w) (h := h') (f := f) (b := b) (a := a) h
  | gifGct table => exact execGifGct_keeps table h
  | gifGce body => exact execGifGce_keeps (body := body) h
  | gifExt label => cases h; exact drainSubBlocks_keeps s
  | gifImage l tp w h' f => exact execGifImage_keeps (l := l) (tp := tp) (w := w) (h := h') (f := f) h
  | gifTrailer => cases h; exact (exits_keep s).1
  | gifUnknown b => cases h; exact (exits_keep s).1
  | _ => cases h

/-- The end of SRC, or a bad magic, where a GIF token was expected. -/
theorem endOfStream_keeps {p : Pos} (hp : gifPos (some p) = some p) (s : State) : GifKeeps s (endOfStream p s) := by
  cases p with
  | drle => cases hp
  | lzwCode => cases hp
  | gifHeader => exact (exits_keep s).2.1 _
  | gifLsd => exact (exits_keep s).1
  | gifGct => exact (exits_keep s).1
  | gifBlock => exact (exits_keep s).1

theorem gifPos_some {c : Option Pos} {p : Pos} (h : gifPos c = some p) : c = some p ∧ gifPos (some p) = some p := by
  cases c with
  | none => cases h
  | some q => cases q <;> first | (cases h; exact ⟨rfl, rfl⟩) | cases h

theorem fetchAt_bytes {p : Pos} (hp : gifPos (some p) = some p) (s : State) : fetchAt p s = fetchBytes p s := by
  cases p <;> first | rfl | cases hp

theorem cursor_keeps {s : State} (n : Nat) (h : CursorIn s → n ≤ s.src.length) : GifKeeps s { s with sp := n } :=
  ⟨rfl, fun h => ⟨h.dst, h.dict, h.stk, h.palG, h.palL⟩, h⟩

/-- Fetching a GIF token keeps what the token keeps. -/
theorem fetchBytes_keeps {p : Pos} (hp : gifPos (some p) = some p) (s : State) :
    GifKeeps s (fetchBytes p s).state := by
  unfold fetchBytes
  split
  · next i n hd =>
    have := decodeAt_length hd
    simp only [List.length_drop] at this
    exact cursor_keeps _ fun h => by unfold CursorIn at h; omega
  · exact (cursor_keeps s.src.length fun _ => le_refl _).trans (endOfStream_keeps hp _)
  · next hd =>
    have hlen : 6 ≤ s.src.length - s.sp := by
      cases p with
      | gifHeader =>
        simp only [decodeAt, decodeHeader] at hd
        split at hd
        · cases hd
        · next h => simpa using h
      | gifLsd => simp only [decodeAt, decodeLsd] at hd; split at hd <;> cases hd
      | gifGct => simp only [decodeAt, decodeGct] at hd; split at hd <;> cases hd
      | gifBlock => cases decodeBlock_error hd
      | drle => cases hp
      | lzwCode => cases hp
    refine (cursor_keeps (s.sp + 6) fun h => by unfold CursorIn at h; omega).trans ((exits_keep _).2.1 _)
  · exact .refl s

theorem gifRun_keeps (fuel : Nat) {s t : State} (h : gifRun fuel s = .next t) : GifKeeps s t := by
  induction fuel generalizing s with
  | zero => cases h; exact .refl _
  | succ fuel ih =>
    simp only [gifRun] at h
    split at h
    · cases h; exact .refl _
    · next p hp =>
      obtain ⟨-, hp'⟩ := gifPos_some hp
      rw [fetchAt_bytes hp'] at h
      have hf := fetchBytes_keeps hp' s
      split at h
      · next s1 h1 => rw [h1] at hf; cases h; exact hf
      · next i s1 h1 =>
        rw [h1] at hf
        obtain ⟨u, hu, hr⟩ := andThen_eq_next h
        exact (hf.trans (gifToken_keeps hu)).trans (ih hr)

/-! ## Outcomes -/

/-- The exits of R172. -/
theorem exits_outcome (s : State) :
    GifOutcome s (streamEnd s) ∧ (∀ e, GifOutcome s (formatError e s)) ∧ (∀ f, GifOutcome s (gifRaise f s)) ∧
      GifOutcome s (imageDone s) :=
  ⟨.ended rfl rfl, fun e => .error e rfl rfl, fun f => .fault f rfl rfl rfl, .frame _ rfl rfl⟩

theorem GifOutcome.of_out {s s' t : State} (h : GifOutcome s' t) (ho : s'.out = s.out) : GifOutcome s t := by
  cases h with
  | frame ms he hs => exact .frame ms (by rw [← ho]; exact he) hs
  | ended he hs => exact .ended (by rw [← ho]; exact he) hs
  | error e he hs => exact .error e (by rw [← ho]; exact he) hs
  | fault f he hs hf => exact .fault f (by rw [← ho]; exact he) hs hf

/-- "When the test passes, every address ... is inside DST and inside the image's own rows" (R186). -/
theorem imgAddr_in {g : GifRegs} {m : ImgRegs} {k : Nat} (hx : m.left.toNat + m.w.toNat ≤ g.scrW.toNat)
    (hy : m.top.toNat + m.h.toNat ≤ g.scrH.toNat) (hk : k < m.w.toNat * m.h.toNat) :
    m.left.toNat + k % m.w.toNat < m.left.toNat + m.w.toNat ∧
      m.top.toNat + k / m.w.toNat < m.top.toNat + m.h.toNat ∧
      imgAddr g m k + 1 < 2 * (g.scrW.toNat * g.scrH.toNat) := by
  have hw : 0 < m.w.toNat := by
    rcases Nat.eq_zero_or_pos m.w.toNat with h | h
    · rw [h] at hk; omega
    · exact h
  have h1 := Nat.mod_lt k hw
  have h2 : k / m.w.toNat < m.h.toNat := Nat.div_lt_of_lt_mul hk
  refine ⟨by omega, by omega, ?_⟩
  unfold imgAddr
  have h3 : (m.top.toNat + k / m.w.toNat + 1) * g.scrW.toNat ≤ g.scrH.toNat * g.scrW.toNat :=
    Nat.mul_le_mul_right _ (by omega)
  rw [Nat.succ_mul, Nat.mul_comm g.scrH.toNat] at h3
  omega

/-- What an image leaves (R190, R196): one outcome, PALG and the screen as they were, DST outside the image as it was. -/
structure ImageOutcome (s t : State) : Prop where
  outcome : GifOutcome s t
  ctl : t.ctl = none
  palG : t.palG = s.palG
  gif : t.gif = { s.gif with state := t.gif.state, fault := t.gif.fault }
  dstLen : t.dstLen = s.dstLen
  desc : t.img.left = s.img.left ∧ t.img.top = s.img.top ∧ t.img.w = s.img.w ∧ t.img.h = s.img.h ∧
    t.img.flags = s.img.flags
  dst : ∀ b, (∀ k < s.img.w.toNat * s.img.h.toNat, b ≠ imgAddr s.gif s.img k ∧ b ≠ imgAddr s.gif s.img k + 1) →
    memRead t.dst b = memRead s.dst b

/-- Leaving an image at any of its exits. -/
theorem exits_image {s u : State} (ho : u.out = s.out) (hp : u.palG = s.palG) (hg : u.gif = s.gif)
    (hl : u.dstLen = s.dstLen) (hi : u.img.left = s.img.left ∧ u.img.top = s.img.top ∧ u.img.w = s.img.w ∧
      u.img.h = s.img.h ∧ u.img.flags = s.img.flags)
    (hd : ∀ b, (∀ k < s.img.w.toNat * s.img.h.toNat, b ≠ imgAddr s.gif s.img k ∧ b ≠ imgAddr s.gif s.img k + 1) →
      memRead u.dst b = memRead s.dst b) :
    ImageOutcome s (streamEnd u) ∧ (∀ e, ImageOutcome s (formatError e u)) ∧ (∀ f, ImageOutcome s (gifRaise f u)) ∧
      ImageOutcome s (imageDone u) := by
  obtain ⟨h1, h2, h3, h4⟩ := exits_outcome u
  exact ⟨⟨h1.of_out ho, rfl, hp, by rw [← hg]; rfl, hl, hi, hd⟩,
    fun e => ⟨(h2 e).of_out ho, rfl, hp, by rw [← hg]; rfl, hl, hi, hd⟩,
    fun f => ⟨(h3 f).of_out ho, rfl, hp, by rw [← hg]; rfl, hl, hi, hd⟩,
    ⟨h4.of_out ho, rfl, hp, by rw [← hg]; rfl, hl, hi, hd⟩⟩

/-- After the descriptor's checks an image always ends in an outcome of R172. -/
theorem imageBody_outcome {s : State} (hc : CursorIn s) (hg : GctOk s) (hs : ScreenFits s)
    (hx : s.img.left.toNat + s.img.w.toNat ≤ s.gif.scrW.toNat)
    (hy : s.img.top.toNat + s.img.h.toNat ≤ s.gif.scrH.toNat) :
    ∃ t, imageBody s = .next t ∧ ImageOutcome s t := by
  unfold imageBody
  rcases localTable_cases s with ⟨table, hlen, -, hcur, hl⟩ | ⟨-, hl⟩
  · generalize localTable s = l at hl
    obtain ⟨o, s1⟩ := l
    dsimp only at hl
    subst hl
    dsimp only
    generalize hs2 : ({ s with
        sp := s.sp + 3 * tableSize s.img.flags, palL := writePalette table 0 s.palL
        img := { s.img with
          lctLen := tableSize s.img.flags, palSel := selectPalette (tableSize s.img.flags) s.gif.gctLen } } : State) = s2
    have hc2 : CursorIn s2 := by subst hs2; exact hcur hc
    have hbf := streamByte_frame s2
    have hbc := streamByte_cursor hc2
    generalize streamByte s2 = b at *
    obtain ⟨ob, s3⟩ := b
    dsimp only at hbf hbc
    have hs3 : s3 = { s with
        sp := s3.sp, palL := writePalette table 0 s.palL
        img := { s.img with
          lctLen := tableSize s.img.flags, palSel := selectPalette (tableSize s.img.flags) s.gif.gctLen } } := by
      rw [hbf, ← hs2]
    have hc3 : CursorIn s3 := by
      unfold CursorIn; rw [hbf]; exact hbc.1
    cases ob with
    | none =>
      refine ⟨_, rfl, (exits_image (u := s3) ?_ ?_ ?_ ?_ ?_ ?_).1⟩ <;> rw [hs3]
      · exact ⟨rfl, rfl, rfl, rfl, rfl⟩
      · exact fun _ _ => rfl
    | some mcs =>
      dsimp only
      have hready : ImageReady (imageData mcs s3) := by
        rw [hs3]
        refine ⟨fun p hp => ?_, fun k hk => ?_⟩
        · simp only [selectedPalette, imageData, selectPalette] at hp ⊢
          by_cases h1 : 0 < tableSize s.img.flags
          · rw [if_pos h1] at hp ⊢
            dsimp only at hp ⊢
            rw [memRead_writePalette, dif_pos (by omega)]
            rfl
          · rw [if_neg h1] at hp ⊢
            by_cases h2 : 0 < s.gif.gctLen
            · rw [if_pos h2] at hp ⊢
              exact hg p hp
            · rw [if_neg h2] at hp
              exact absurd hp (Nat.not_lt_zero _)
        · have := (imgAddr_in hx hy hk).2.2
          unfold ScreenFits at hs
          show imgAddr s.gif s.img k + 1 < s.dstLen
          omega
      have hfine := (lzwImage_fine hready hc3).and_all (lzwImage_frame (imageData mcs s3))
      generalize lzwImage (imageData mcs s3) = r at hfine
      have hkept : ∀ u, LzwFrame (imageData mcs s3) u → DstIn (imageData mcs s3) u →
          ImageOutcome s (streamEnd u) ∧ (∀ e, ImageOutcome s (formatError e u)) ∧
            (∀ f, ImageOutcome s (gifRaise f u)) ∧ ImageOutcome s (imageDone u) := by
        intro u hu hd
        refine exits_image ?_ ?_ ?_ ?_ ?_ ?_
        · rw [hu, hs3]; rfl
        · rw [hu, hs3]; rfl
        · rw [hu, hs3]; rfl
        · rw [hu, hs3]; rfl
        · rw [hu, hs3]; exact ⟨rfl, rfl, rfl, rfl, rfl⟩
        · intro b hb
          rw [hd b (by rw [hs3]; exact hb), hs3]; rfl
      cases r with
      | ok u => exact ⟨_, rfl, (hkept u hfine.2.1 hfine.1.2).2.2.2⟩
      | raised f u => exact ⟨_, rfl, (hkept u hfine.2.1 hfine.1).2.2.1 f⟩
      | stuck r => exact hfine.elim
  · rw [hl]
    exact ⟨_, rfl, (exits_image (s := s) (u := { s with sp := s.src.length }) rfl rfl rfl rfl ⟨rfl, rfl, rfl, rfl, rfl⟩
      fun _ _ => rfl).1⟩

/-- GIF.IMAGE always ends in an outcome of R172: interlaced, out of bounds, or the image's own end. -/
theorem execGifImage_outcome (left top w h : U16) (flags : Byte) {s : State} (hc : CursorIn s) (hg : GctOk s)
    (hs : ScreenFits s) :
    ∃ t, execGifImage left top w h flags s = .next t ∧ ImageOutcome (setDescriptor left top w h flags s) t := by
  unfold execGifImage
  dsimp only
  have hexit := exits_image (s := setDescriptor left top w h flags s) (u := setDescriptor left top w h flags s)
    rfl rfl rfl rfl ⟨rfl, rfl, rfl, rfl, rfl⟩ fun _ _ => rfl
  split
  · exact ⟨_, rfl, hexit.2.1 _⟩
  · split
    · exact ⟨_, rfl, hexit.2.2.1 _⟩
    · next hb =>
      exact imageBody_outcome (s := setDescriptor left top w h flags s) hc hg hs
        (by show left.toNat + w.toNat ≤ s.gif.scrW.toNat; omega) (by show top.toNat + h.toNat ≤ s.gif.scrH.toNat; omega)

/-- What the block loop leaves: one outcome, PALG and the screen as they were, DST beyond the screen as it was. -/
structure NextOutcome (s t : State) : Prop where
  outcome : GifOutcome s t
  ctl : t.ctl = none
  palG : t.palG = s.palG
  gif : t.gif = { s.gif with state := t.gif.state, fault := t.gif.fault }
  dstLen : t.dstLen = s.dstLen
  dst : ∀ b, 2 * (s.gif.scrW.toNat * s.gif.scrH.toNat) ≤ b → memRead t.dst b = memRead s.dst b

theorem NextOutcome.of_step {s s' t : State} (h : NextOutcome s' t) (ho : s'.out = s.out) (hp : s'.palG = s.palG)
    (hg : s'.gif = s.gif) (hl : s'.dstLen = s.dstLen) (hd : s'.dst = s.dst) : NextOutcome s t :=
  ⟨h.outcome.of_out ho, h.ctl, h.palG.trans hp, by rw [← hg]; exact h.gif, h.dstLen.trans hl,
    fun b hb => by rw [h.dst b (by rw [hg]; exact hb), hd]⟩

theorem streamEnd_next (s : State) : NextOutcome s (streamEnd s) :=
  ⟨(exits_outcome s).1, rfl, rfl, rfl, rfl, fun _ _ => rfl⟩

/-- An image's outcome is one of the block loop's. -/
theorem image_next {left top w h : U16} {flags : Byte} {s t : State}
    (ho : ImageOutcome (setDescriptor left top w h flags s) t) (hx : execGifImage left top w h flags s = .next t) :
    NextOutcome s t := by
  refine ⟨ho.outcome.of_out rfl, ho.ctl, ho.palG, ho.gif, ho.dstLen, fun b hb => ?_⟩
  by_cases hfit : left.toNat + w.toNat ≤ s.gif.scrW.toNat ∧ top.toNat + h.toNat ≤ s.gif.scrH.toNat
  · refine ho.dst b fun k hk => ?_
    have := (imgAddr_in (g := s.gif) (m := (setDescriptor left top w h flags s).img) hfit.1 hfit.2 hk).2.2
    exact ⟨fun he => by rw [he] at hb; exact absurd hb (by show ¬ _ ≤ imgAddr s.gif _ k; omega),
      fun he => by rw [he] at hb; exact absurd hb (by show ¬ _ ≤ imgAddr s.gif _ k + 1; omega)⟩
  · unfold execGifImage at hx
    dsimp only at hx
    split at hx
    · cases hx; rfl
    · rw [if_pos (by omega)] at hx
      cases hx; rfl

/-- An extension is skipped, whatever it holds: the loop goes on, the cursor later (R181, R184). -/
theorem extension_next {i : Instr} {s : State} (h : (∃ body, i = .gifGce body) ∨ ∃ label, i = .gifExt label)
    (hc : CursorIn s) :
    ∃ t, gifToken i s = .next t ∧ s.sp ≤ t.sp ∧ t = { s with sp := t.sp, gce := t.gce } := by
  have hd := fun u : State => (drainFrom_cursor u.src (u.src.length + 1) (sp := u.sp) : _ → _)
  rcases h with ⟨body, rfl⟩ | ⟨label, rfl⟩
  · cases body with
    | nil => exact ⟨s, rfl, le_refl _, rfl⟩
    | cons b bs => exact ⟨_, rfl, (hd { s with gce := (gceFields (b :: bs)).getD s.gce } hc).2, rfl⟩
  · exact ⟨_, rfl, (hd s hc).2, rfl⟩

/-- The block loop ends in exactly one outcome of R172, whatever SRC holds. -/
theorem gifRun_block (fuel : Nat) {s : State} (hctl : s.ctl = some .gifBlock) (hc : CursorIn s) (hg : GctOk s)
    (hs : ScreenFits s) (hf : s.src.length - s.sp < fuel) :
    ∃ t, gifRun fuel s = .next t ∧ NextOutcome s t := by
  induction fuel generalizing s with
  | zero => omega
  | succ fuel ih =>
    have hpos : gifPos s.ctl = some .gifBlock := by rw [hctl]; rfl
    have hstop : ∀ {t : State}, t.ctl = none → gifRun fuel t = .next t := by
      intro t ht
      cases fuel with
      | zero => rfl
      | succ fuel => simp [gifRun, ht, gifPos]
    simp only [gifRun, hpos, fetchAt, fetchBytes, decodeAt]
    cases hd : decodeBlock (s.src.drop s.sp) with
    | error e =>
      cases decodeBlock_error hd
      refine ⟨_, rfl, ?_⟩
      exact (streamEnd_next { s with sp := s.src.length }).of_step rfl rfl rfl rfl rfl
    | ok r =>
      obtain ⟨i, n⟩ := r
      have hn := decodeBlock_length hd
      rw [List.length_drop] at hn
      dsimp only
      have hc1 : CursorIn { s with sp := s.sp + n } := by
        unfold CursorIn at *; show s.sp + n ≤ s.src.length; omega
      rcases decodeBlock_token hd with h | h | ⟨l, tp, w, hh, f, rfl⟩ | rfl | ⟨b, rfl⟩
      · obtain ⟨t, ht, hsp, hfr⟩ := extension_next (.inl h) hc1
        rw [ht, andThen_next]
        have hsp' : s.sp + n ≤ t.sp := hsp
        obtain ⟨u, hu, ho⟩ := ih (s := t) (by rw [hfr]; exact hctl)
          ((gifToken_keeps ht).cursor hc1)
          (by rw [hfr]; exact hg) (by rw [hfr]; exact hs) (by rw [hfr]; show s.src.length - t.sp < fuel; omega)
        exact ⟨u, hu, ho.of_step (by rw [hfr]) (by rw [hfr]) (by rw [hfr]) (by rw [hfr]) (by rw [hfr])⟩
      · obtain ⟨t, ht, hsp, hfr⟩ := extension_next (.inr h) hc1
        rw [ht, andThen_next]
        have hsp' : s.sp + n ≤ t.sp := hsp
        obtain ⟨u, hu, ho⟩ := ih (s := t) (by rw [hfr]; exact hctl)
          ((gifToken_keeps ht).cursor hc1)
          (by rw [hfr]; exact hg) (by rw [hfr]; exact hs) (by rw [hfr]; show s.src.length - t.sp < fuel; omega)
        exact ⟨u, hu, ho.of_step (by rw [hfr]) (by rw [hfr]) (by rw [hfr]) (by rw [hfr]) (by rw [hfr])⟩
      · have hg1 : GctOk { s with sp := s.sp + n } := hg
        have hs1 : ScreenFits { s with sp := s.sp + n } := hs
        obtain ⟨t, ht, ho⟩ := execGifImage_outcome l tp w hh f hc1 hg1 hs1
        have ht' : gifToken (.gifImage l tp w hh f) { s with sp := s.sp + n } = .next t := ht
        rw [ht', andThen_next]
        exact ⟨t, hstop ho.ctl, (image_next ho ht).of_step rfl rfl rfl rfl rfl⟩
      · exact ⟨_, hstop rfl, (streamEnd_next { s with sp := s.sp + n }).of_step rfl rfl rfl rfl rfl⟩
      · exact ⟨_, hstop rfl, (streamEnd_next { s with sp := s.sp + n }).of_step rfl rfl rfl rfl rfl⟩

end Sys2Proof.Machine
end

