-- ==== Sys2Proof/Laws/Exec.lean ====
section
/-! SUPPORT. What any instruction keeps, in any state: the ports the environment owns, the canonical form of every memory,
the cursor inside SRC; and what the scheduler's events do to its own registers. -/

namespace Sys2Proof.Machine

/-- What every instruction keeps. -/
structure Keeps (s t : State) : Prop where
  cfg : t.cfg = s.cfg
  dir : t.dir = s.dir
  nowMs : t.nowMs = s.nowMs
  pins : t.pins = s.pins
  callFault : s.callFault.isSome = true → t.callFault.isSome = true
  inbox : t.inbox = s.inbox
  wf : MemoriesWf s → MemoriesWf t
  cursor : CursorIn s → CursorIn t

theorem Keeps.refl (s : State) : Keeps s s := ⟨rfl, rfl, rfl, rfl, id, rfl, id, id⟩

theorem Keeps.trans {s t u : State} (h1 : Keeps s t) (h2 : Keeps t u) : Keeps s u :=
  ⟨h2.cfg.trans h1.cfg, h2.dir.trans h1.dir, h2.nowMs.trans h1.nowMs, h2.pins.trans h1.pins,
    h2.callFault ∘ h1.callFault, h2.inbox.trans h1.inbox, h2.wf ∘ h1.wf,
    h2.cursor ∘ h1.cursor⟩

/-- A state that differs in registers alone: no memory, no port, no cursor. -/
theorem Keeps.regs {s t : State} (h : t = { s with
    out := t.out, ret := t.ret, ctl := t.ctl, drle := t.drle, gif := t.gif, gce := t.gce, img := t.img, lzw := t.lzw
    bits := t.bits, stkN := t.stkN, dstLen := t.dstLen, sched := t.sched, timer := t.timer, btn := t.btn }) :
    Keeps s t := by
  rw [h]
  exact ⟨rfl, rfl, rfl, rfl, id, rfl, fun h => ⟨h.dst, h.dict, h.stk, h.palG, h.palL⟩, id⟩

/-- A model fault in a direct call is recorded (R304). -/
theorem callRaise_keeps (f : ModelFault) (s : State) : Keeps s (callRaise f s) :=
  ⟨rfl, rfl, rfl, rfl, fun _ => rfl, rfl, fun h => ⟨h.dst, h.dict, h.stk, h.palG, h.palL⟩, id⟩

theorem GifKeeps.keeps {s t : State} (h : GifKeeps s t) : Keeps s t := by
  refine ⟨?_, ?_, ?_, ?_, fun hc => ?_, ?_, h.wf, h.cursor⟩
  all_goals rw [h.frame]
  exact hc

theorem DrleKeeps.keeps {s t : State} (h : DrleKeeps s t) : Keeps s t := by
  refine ⟨?_, ?_, ?_, ?_, fun hc => ?_, ?_, fun hw => ?_, h.cursor⟩
  · rw [h.frame]
  · rw [h.frame]
  · rw [h.frame]
  · rw [h.frame]
  · rw [h.frame]; exact hc
  · rw [h.frame]
  · have := h.wf hw.dst
    rw [h.frame]
    exact ⟨this, hw.dict, hw.stk, hw.palG, hw.palL⟩

/-- What a DRLE decode keeps of the scheduler. -/
theorem DrleKeeps.sched {s t : State} (h : DrleKeeps s t) :
    t.sched = s.sched ∧ t.timer = s.timer ∧ t.btn = s.btn ∧ t.out = s.out ∧ t.gif = s.gif := by
  rw [h.frame]; exact ⟨rfl, rfl, rfl, rfl, rfl⟩

theorem GifKeeps.sched {s t : State} (h : GifKeeps s t) :
    t.sched = s.sched ∧ t.timer = s.timer ∧ t.btn = s.btn := by
  rw [h.frame]; exact ⟨rfl, rfl, rfl⟩

theorem storePixel_keeps {a : Nat} {hi lo : Byte} {s t : State} (h : storePixel a hi lo s = .ok t) :
    t = { s with dst := pixelMem a hi lo s.dst } ∧ Keeps s t := by
  rw [storePixel_eq] at h
  split at h
  · cases h
    exact ⟨rfl, rfl, rfl, rfl, rfl, id, rfl, fun h => ⟨pixelMem_wf _ _ _ h.dst, h.dict, h.stk, h.palG, h.palL⟩, id⟩
  · cases h

theorem ofExcept_next {r : Except Fault State} {t : State} (h : ofExcept r = .next t) : r = .ok t := by
  cases r with
  | ok s => cases h; rfl
  | error e => cases h

theorem drleSetup_keeps (file : List Byte) (w h x y S sx sy e len : Nat) (s : State) :
    Keeps s (drleSetup file w h x y S sx sy e len s) :=
  ⟨rfl, rfl, rfl, rfl, id, rfl, fun h => ⟨h.dst, h.dict, h.stk, h.palG, h.palL⟩, fun _ => Nat.zero_le _⟩

theorem execDrleDecode_keeps {file : List Byte} {w h x y S sx sy e len : Nat} {s t : State}
    (hx : execDrleDecode file w h x y S sx sy e len s = .next t) :
    Keeps s t ∧ t.sched = s.sched ∧ t.timer = s.timer ∧ t.btn = s.btn ∧ t.out = s.out ∧ t.gif = s.gif := by
  unfold execDrleDecode at hx
  repeat' split at hx
  · cases hx; exact ⟨callRaise_keeps _ _, rfl, rfl, rfl, rfl, rfl⟩
  · cases hx; exact ⟨.refl _, rfl, rfl, rfl, rfl, rfl⟩
  · have hk := drleRun_keeps _ hx
    exact ⟨(drleSetup_keeps _ _ _ _ _ _ _ _ _ _ s).trans hk.keeps, hk.sched⟩

theorem execGifStart_keeps {w h : Nat} {s t : State} (hx : execGifStart w h s = .next t) : GifKeeps s t := by
  unfold execGifStart at hx
  split at hx
  · cases hx; exact .refl _
  · refine GifKeeps.trans ?_ (gifRun_keeps _ hx)
    exact ⟨rfl, fun h => ⟨h.dst, h.dict, h.stk, h.palG, h.palL⟩, fun _ => Nat.zero_le _⟩

theorem execGifNext_keeps {s t : State} (hx : execGifNext s = .next t) : GifKeeps s t := by
  unfold execGifNext at hx
  split at hx
  · refine GifKeeps.trans ?_ (gifRun_keeps _ hx)
    exact ⟨rfl, fun h => ⟨h.dst, h.dict, h.stk, h.palG, h.palL⟩, id⟩
  · cases hx; exact .refl _

/-- A code token as a step. -/
theorem lzwToken_settle_keeps {i : Instr} {s t : State} (h : (lzwToken i s).settle = .next t) : GifKeeps s t :=
  settle_keeps ((lzwToken_keeps i s).mono fun _ hu => ⟨by rw [hu.frame], hu.wf, hu.cursor⟩) h

/-! ## The scheduler -/

/-- The scheduler's events outside the frame branch touch its own registers, the timer, the buttons and the ports it
writes. -/
def SchedFrame (s t : State) : Prop :=
  t = { s with out := t.out, sched := t.sched, timer := t.timer, btn := t.btn }

theorem SchedFrame.keeps {s t : State} (h : SchedFrame s t) : Keeps s t := by
  refine Keeps.regs ?_
  unfold SchedFrame at h
  rw [h]

theorem execSchLoad_frame {s t : State} (h : execSchLoad s = .next t) : SchedFrame s t := by
  unfold execSchLoad loadGeometry at h
  dsimp only at h
  repeat' split at h
  all_goals first | (cases h; rfl) | cases h

theorem execSchTick_frame {s t : State} (h : execSchTick s = .next t) : SchedFrame s t := by
  unfold execSchTick at h
  split at h <;> (cases h; rfl)

theorem execSchPoll_frame {now : Nat} {a b : Bool} {s t : State} (h : execSchPoll now a b s = .next t) :
    SchedFrame s t := by
  unfold execSchPoll pollAct at h
  dsimp only at h
  repeat' split at h
  all_goals first | (cases h; rfl) | cases h

theorem execSchSwitch_frame {s t : State} (h : execSchSwitch s = .next t) : SchedFrame s t := by
  unfold execSchSwitch at h
  split at h <;> (cases h; rfl)

theorem passEnd_frame {s t : State} (h : passEnd s = .next t) : SchedFrame s t := by
  unfold passEnd at h
  split at h
  · cases h
  · cases h; rfl

theorem countFrame_frame (s : State) : SchedFrame s (countFrame s) := by
  unfold countFrame
  dsimp only
  split <;> rfl

theorem SchedFrame.trans {s t u : State} (h1 : SchedFrame s t) (h2 : SchedFrame t u) : SchedFrame s u := by
  unfold SchedFrame at *
  rw [h2, h1]

theorem finishFrame_frame {s t : State} (h : finishFrame s = .next t) : SchedFrame s t := by
  unfold finishFrame at h
  dsimp only at h
  split at h
  · exact (countFrame_frame s).trans (passEnd_frame h)
  · cases h; exact countFrame_frame s

theorem beginFrame_keeps {s t : State} (h : beginFrame s = .next t) : Keeps s t := by
  unfold beginFrame at h
  dsimp only at h
  split at h
  · cases h
  · split at h
    · cases h
    · split at h
      · cases h; exact Keeps.regs rfl
      · cases h
        refine Keeps.trans ?_ (drleSetup_keeps _ _ _ _ _ _ _ _ _ _ _)
        exact Keeps.regs rfl

theorem runFrame_keeps {s t : State} (h : runFrame s = .next t) : Keeps s t := by
  unfold runFrame at h
  split at h
  · obtain ⟨u, hu, hf⟩ := andThen_eq_next h
    exact (drleRun_keeps _ hu).keeps.trans (finishFrame_frame hf).keeps
  · cases h; exact .refl _

theorem execSchStep_keeps {s t : State} (h : execSchStep s = .next t) : Keeps s t := by
  unfold execSchStep at h
  split at h
  · split at h
    · exact runFrame_keeps h
    · split at h
      · obtain ⟨u, hu, hf⟩ := andThen_eq_next h
        exact (beginFrame_keeps hu).trans (runFrame_keeps hf)
      · cases h; exact .refl _
  · cases h; exact .refl _

/-- What any instruction keeps. -/
theorem exec_keeps {i : Instr} {s t : State} (h : exec i s = .next t) : Keeps s t := by
  cases i with
  | pxcPack r g b => cases h; exact Keeps.regs rfl
  | pxcStore a c => exact (storePixel_keeps (ofExcept_next h)).2
  | drleEnd => exact (drleRecord_keeps (skip := 0) (write := 0) h).keeps
  | drleRec k w => exact (drleRecord_keeps (skip := k) (write := w) h).keeps
  | drleBlit pos hi lo =>
    have := blit_ok (ofExcept_next h)
    rw [this]
    exact ⟨rfl, rfl, rfl, rfl, id, rfl, fun h => ⟨pixelsMem_wf _ _ _ h.dst, h.dict, h.stk, h.palG, h.palL⟩, id⟩
  | drleDecode f w h' x y S sx sy e len => exact (execDrleDecode_keeps h).1
  | drleEncode p c =>
    simp only [exec, execDrleEncode] at h
    split at h
    · cases h; exact Keeps.regs rfl
    · cases h
  | drleEncodeFirst c =>
    simp only [exec, execDrleEncodeFirst] at h
    split at h
    · cases h; exact Keeps.regs rfl
    · cases h
  | gifHeader87a => exact (gifToken_keeps (i := .gifHeader87a) h).keeps
  | gifHeader89a => exact (gifToken_keeps (i := .gifHeader89a) h).keeps
  | gifLsd w h' f b a => exact (gifToken_keeps (i := .gifLsd w h' f b a) h).keeps
  | gifGct t => exact (gifToken_keeps (i := .gifGct t) h).keeps
  | gifGce b => exact (gifToken_keeps (i := .gifGce b) h).keeps
  | gifExt l => exact (gifToken_keeps (i := .gifExt l) h).keeps
  | gifImage l tp w h' f => exact (gifToken_keeps (i := .gifImage l tp w h' f) h).keeps
  | gifTrailer => exact (gifToken_keeps (i := .gifTrailer) h).keeps
  | gifUnknown b => exact (gifToken_keeps (i := .gifUnknown b) h).keeps
  | gifStart w h' => exact (execGifStart_keeps h).keeps
  | gifNext => exact (execGifNext_keeps h).keeps
  | lzwImage =>
    simp only [exec, execLzwImage] at h
    split at h
    · cases h; exact .refl _
    · exact (settle_keeps (lzwImage_keeps s) h).keeps
  | lzwClear => exact (lzwToken_settle_keeps (i := .lzwClear) h).keeps
  | lzwEnd => exact (lzwToken_settle_keeps (i := .lzwEnd) h).keeps
  | lzwFirst c => exact (lzwToken_settle_keeps (i := .lzwFirst c) h).keeps
  | lzwLit c => exact (lzwToken_settle_keeps (i := .lzwLit c) h).keeps
  | lzwDict c => exact (lzwToken_settle_keeps (i := .lzwDict c) h).keeps
  | lzwKwkwk => exact (lzwToken_settle_keeps (i := .lzwKwkwk) h).keeps
  | lzwBadCode c => exact (lzwToken_settle_keeps (i := .lzwBadCode c) h).keeps
  | schLoad => exact (execSchLoad_frame h).keeps
  | schTick => exact (execSchTick_frame h).keeps
  | schStep => exact execSchStep_keeps h
  | schPoll n a b => exact (execSchPoll_frame h).keeps
  | schSwitch => exact (execSchSwitch_frame h).keeps

end Sys2Proof.Machine
end

