-- ==== Sys2Proof/Laws/PerInstr.lean ====
section
/-! SUPPORT. What holds of every instruction as syntax, one lemma per constructor: the fixed part of a stream token takes
at least one byte unless it is an absent colour table, and at most 768, the longest colour table. -/

namespace Sys2Proof.Laws.EncodeLength

/-- A well-formed instruction that has a byte encoding (R92 to R107) belongs to a stream of bytes, not of codes, and its
encoding is within the bounds of the formats. -/
def Statement (i : Instr) : Prop :=
  ∀ (p : Pos) (bytes : List Byte), i.wf = true → encode i = some (p, bytes) →
    p ≠ .lzwCode ∧ bytes.length ≤ 768 ∧ (bytes = [] → i = .gifGct [])

/-- An instruction without an encoding. -/
theorem of_none {i : Instr} (h : encode i = none) : Statement i := fun p bytes _ he => by
  rw [h] at he; cases he

/-- An instruction whose encoding is `bytes` at position `p`. -/
theorem of_some {i : Instr} {p : Pos} {bytes : List Byte} (h : encode i = some (p, bytes)) (hp : p ≠ .lzwCode)
    (hl : i.wf = true → bytes.length ≤ 768) (hn : bytes = [] → i = .gifGct []) : Statement i :=
  fun q bs hw he => by
    rw [h] at he
    cases he
    exact ⟨hp, hl hw, hn⟩

theorem pxcPack (r g b : Byte) : Statement (.pxcPack r g b) := of_none rfl
theorem pxcStore (a : Nat) (c : U16) : Statement (.pxcStore a c) := of_none rfl
theorem drleEnd : Statement .drleEnd := of_some rfl (by simp) (by simp) (by simp)
theorem drleRec (skip write : Byte) : Statement (.drleRec skip write) := of_some rfl (by simp) (by simp) (by simp)
theorem drleBlit (pos : Nat) (hi lo : Byte) : Statement (.drleBlit pos hi lo) := of_none rfl
theorem drleDecode (file : List Byte) (w h x y stride scaleX scaleY extra dstLen : Nat) :
    Statement (.drleDecode file w h x y stride scaleX scaleY extra dstLen) := of_none rfl
theorem drleEncode (prev cur : List Byte) : Statement (.drleEncode prev cur) := of_none rfl
theorem drleEncodeFirst (cur : List Byte) : Statement (.drleEncodeFirst cur) := of_none rfl
theorem gifHeader87a : Statement .gifHeader87a := of_some rfl (by simp) (by decide) (by simp [magic87a])
theorem gifHeader89a : Statement .gifHeader89a := of_some rfl (by simp) (by decide) (by simp [magic89a])
theorem gifLsd (w h : U16) (flags bg aspect : Byte) : Statement (.gifLsd w h flags bg aspect) :=
  of_some rfl (by simp) (by simp) (by simp)
theorem gifGct (table : List Rgb) : Statement (.gifGct table) := by
  refine of_some rfl (by simp) (fun hw => ?_) (fun h => ?_)
  · have : ∀ n ∈ tableLengths, n ≤ 256 := by decide
    have := this _ (List.contains_iff_mem.1 hw)
    rw [tableBytes_length]; omega
  · cases table with
    | nil => rfl
    | cons c t => cases h
theorem gifGce (body : List Byte) : Statement (.gifGce body) := by
  refine of_some rfl (by simp) (fun hw => ?_) (by simp)
  have : body.length ≤ 255 := of_decide_eq_true hw
  simp; omega
theorem gifExt (label : Byte) : Statement (.gifExt label) := of_some rfl (by simp) (by simp) (by simp)
theorem gifImage (left top w h : U16) (flags : Byte) : Statement (.gifImage left top w h flags) :=
  of_some rfl (by simp) (by simp) (by simp)
theorem gifTrailer : Statement .gifTrailer := of_some rfl (by simp) (by simp) (by simp)
theorem gifUnknown (intro : Byte) : Statement (.gifUnknown intro) := of_some rfl (by simp) (by simp) (by simp)
theorem gifStart (expW expH : Nat) : Statement (.gifStart expW expH) := of_none rfl
theorem gifNext : Statement .gifNext := of_none rfl
theorem lzwImage : Statement .lzwImage := of_none rfl
theorem lzwClear : Statement .lzwClear := of_none rfl
theorem lzwEnd : Statement .lzwEnd := of_none rfl
theorem lzwFirst (c : Nat) : Statement (.lzwFirst c) := of_none rfl
theorem lzwLit (c : Nat) : Statement (.lzwLit c) := of_none rfl
theorem lzwDict (c : Nat) : Statement (.lzwDict c) := of_none rfl
theorem lzwKwkwk : Statement .lzwKwkwk := of_none rfl
theorem lzwBadCode (c : Nat) : Statement (.lzwBadCode c) := of_none rfl
theorem schLoad : Statement .schLoad := of_none rfl
theorem schTick : Statement .schTick := of_none rfl
theorem schStep : Statement .schStep := of_none rfl
theorem schPoll (now : Nat) (a b : Bool) : Statement (.schPoll now a b) := of_none rfl
theorem schSwitch : Statement .schSwitch := of_none rfl

end Sys2Proof.Laws.EncodeLength
end

