-- ==== Sys2Proof/Laws/Step.lean ====
section
/-! SUPPORT. What a step can do: the token at the cursor when an operation is in progress, and everything that any
step keeps, said once. -/

namespace Sys2Proof.Machine

/-- A step with nothing in the inbox, while a stream is being read: the token fetched there, run. -/
theorem step_at {s : State} {p : Pos} (hi : s.inbox = []) (hc : s.ctl = some p) :
    step s = match fetchAt p s with
      | .token i s1 => exec i s1
      | .ended s1 => .next s1 := by
  unfold step
  rw [hi]
  show advance s = _
  unfold advance
  generalize s.ctl = c at hc
  subst hc
  rfl

/-- What fetching keeps, whichever stream is read. -/
theorem fetch_keeps (p : Pos) (s : State) : GifKeeps s (fetchAt p s).state ∨ DrleKeeps s (fetchAt p s).state := by
  cases p with
  | drle =>
    right
    rcases fetchAt_drle s with ⟨k, w, h0, h1, hft⟩ | ⟨hn, hft⟩
    · rw [hft]
      have hlt : s.sp + 1 < s.src.length := (List.getElem?_eq_some_iff.1 h1).1
      exact ⟨rfl, .inl rfl, id, fun _ => hlt⟩
    · rw [hft]
      exact ⟨rfl, .inr rfl, id, fun _ => le_refl _⟩
  | lzwCode =>
    left
    have := fetchCode_keeps s
    exact ⟨by rw [show fetchAt .lzwCode s = fetchCode s from rfl]; rw [this.frame], this.wf, this.cursor⟩
  | gifHeader => exact .inl (fetchBytes_keeps rfl s)
  | gifLsd => exact .inl (fetchBytes_keeps rfl s)
  | gifGct => exact .inl (fetchBytes_keeps rfl s)
  | gifBlock => exact .inl (fetchBytes_keeps rfl s)

/-- The poll the main loop owes is a poll, or nothing. -/
theorem owedPoll_cases {s t : State} (hx : owedPoll s = .next t) :
    t = s ∨ s.sched.pollDue = true ∧ exec (.schPoll s.nowMs s.pins.a s.pins.b) s = .next t := by
  unfold owedPoll at hx
  split at hx
  · next h => exact .inr ⟨(Bool.and_eq_true_iff.1 h).1, hx⟩
  · cases hx; exact .inl rfl

theorem owedPoll_keeps {s t : State} (hx : owedPoll s = .next t) : Keeps s t := by
  rcases owedPoll_cases hx with rfl | ⟨-, h⟩
  · exact .refl _
  · exact exec_keeps h

/-- With no poll owed, or no moment for it, the operation alone. -/
theorem owedPoll_none {s : State} (h : s.sched.pollDue = false ∨ pollEnabled s = false) : owedPoll s = .next s := by
  unfold owedPoll
  rcases h with h | h <;> simp [h]

/-- Performing an operation is running it, after the poll owed where it is a turn of SCHED's loop. -/
theorem perform_cases {i : Instr} {s t : State} (hx : perform i s = .next t) :
    ∃ u, (u = s ∨ i = .schStep ∧ s.sched.pollDue = true ∧ exec (.schPoll s.nowMs s.pins.a s.pins.b) s = .next u) ∧
      exec i u = .next t := by
  unfold perform at hx
  split at hx
  · obtain ⟨u, hu, h⟩ := andThen_eq_next hx
    rcases owedPoll_cases hu with rfl | ⟨hd, hp⟩
    · exact ⟨_, .inl rfl, h⟩
    · exact ⟨u, .inr ⟨rfl, hd, hp⟩, h⟩
  · exact ⟨s, .inl rfl, hx⟩

theorem perform_keeps {i : Instr} {s t : State} (hx : perform i s = .next t) : Keeps s t := by
  obtain ⟨u, rfl | ⟨-, -, hp⟩, h⟩ := perform_cases hx
  · exact exec_keeps h
  · exact (exec_keeps hp).trans (exec_keeps h)

theorem drleStart_keeps (file : List Byte) (w h x y S sx sy e len : Nat) (s : State) :
    Keeps s (drleStart file w h x y S sx sy e len s) := by
  unfold drleStart
  repeat' split
  · exact callRaise_keeps _ _
  · exact .refl _
  · exact drleSetup_keeps _ _ _ _ _ _ _ _ _ _ _

theorem stepStart_keeps {s t : State} (hx : stepStart s = .next t) : Keeps s t := by
  unfold stepStart at hx
  split at hx
  · exact beginFrame_keeps hx
  · cases hx; exact .refl _

/-- What starting an operation keeps. -/
theorem startOp_keeps {i : Instr} {s t : State} (hx : startOp i s = .next t) : Keeps s t := by
  unfold startOp at hx
  split at hx
  · cases hx; exact drleStart_keeps _ _ _ _ _ _ _ _ _ _ _
  · cases hx; unfold gifStartStart; split
    · exact .refl _
    · exact ⟨rfl, rfl, rfl, rfl, id, rfl, fun h => ⟨h.dst, h.dict, h.stk, h.palG, h.palL⟩, fun _ => Nat.zero_le _⟩
  · cases hx; unfold gifNextStart; split
    · exact Keeps.regs rfl
    · exact .refl _
  · cases hx; unfold lzwStart; repeat' split
    · exact .refl _
    · exact Keeps.regs rfl
    · exact Keeps.regs rfl
  · obtain ⟨u, hu, h⟩ := andThen_eq_next hx
    exact (owedPoll_keeps hu).trans (stepStart_keeps h)
  · exact exec_keeps hx

/-- Everything a step can do, said once: `x` is the entry of the inbox it takes, if there is one, `s` the state without that
entry, `t` the next state. -/
inductive Moved (x : Option Input) (s : State) : State → Prop
  | notEnabled (i : Instr) (hx : x = some (.op i) ∨ x = some (.start i)) (hb : busy s = true) (hi : i ≠ .schTick) :
      Moved x s s
  | op {t : State} (i : Instr) (hx : x = some (.op i)) (hc : isCommand i = true) (hb : busy s = false ∨ i = .schTick)
      (h : perform i s = .next t) : Moved x s t
  | start {t : State} (i : Instr) (hx : x = some (.start i)) (hc : isCommand i = true)
      (hb : busy s = false ∨ i = .schTick) (h : startOp i s = .next t) : Moved x s t
  | main {t : State} (i : Instr) (hx : x = none ∨ x = some .turn) (hc : s.ctl = none) (hm : mainInstr s = some i)
      (h : perform i s = .next t) : Moved x s t
  | waiting (hx : x = none ∨ x = some .turn) (hc : s.ctl = none) (hm : mainInstr s = none) : Moved x s s
  | token {t : State} (p : Pos) (i : Instr) (u : State) (hx : x = none ∨ x = some .turn) (hc : s.ctl = some p)
      (hf : fetchAt p s = .token i u) (h : exec i u = .next t) : Moved x s t
  | ended {t : State} (p : Pos) (hx : x = none ∨ x = some .turn) (hc : s.ctl = some p) (hf : fetchAt p s = .ended t) :
      Moved x s t
  | clock (ms : Nat) (hx : x = some (.clock ms)) (h : s.nowMs ≤ ms) : Moved x s { s with nowMs := ms }
  | buttons (a b : Bool) (hx : x = some (.buttons a b)) : Moved x s { s with pins := { a := a, b := b } }
  | source (bytes : List Byte) (hx : x = some (.source bytes)) (hb : busy s = false) :
      Moved x s { s with src := bytes, sp := 0 }
  | reset (y : Input) (full : Mem Byte) (reached : List Nat) (hx : x = some y) (hr : isReset y = true) :
      Moved x s (resetDuring full reached s)

/-- What the main context does by itself. -/
theorem advance_moved {x : Option Input} {s t : State} (hx : x = none ∨ x = some .turn) (h : advance s = .next t) :
    Moved x s t := by
  unfold advance at h
  split at h
  · next hc =>
    unfold mainOp at h
    split at h
    · next i hm => exact .main i hx hc hm h
    · next hm => cases h; exact .waiting hx hc hm
  · next p hc =>
    split at h
    · next i u hf => exact .token p i u hx hc hf h
    · next u hf => cases h; exact .ended p hx hc hf

theorem step_moved {s t : State} (hx : step s = .next t) :
    Moved s.inbox.head? { s with inbox := s.inbox.tail } t := by
  have guard : ∀ {i : Instr} {u : State}, ¬ (busy u && i != .schTick) = true → busy u = false ∨ i = .schTick := by
    intro i u h
    cases hb : busy u with
    | false => exact .inl rfl
    | true => rw [hb] at h; exact .inr (by simpa using h)
  have shut : ∀ {i : Instr} {u : State}, (busy u && i != .schTick) = true → busy u = true ∧ i ≠ .schTick := by
    intro i u h
    exact ⟨(Bool.and_eq_true_iff.1 h).1, by simpa using (Bool.and_eq_true_iff.1 h).2⟩
  unfold step at hx
  split at hx
  · next x rest hi =>
    rw [hi]
    unfold take at hx
    split at hx
    · next i =>
      unfold offered at hx
      split at hx
      · next hc =>
        split at hx
        · next hb => cases hx; exact .notEnabled i (.inl rfl) (shut hb).1 (shut hb).2
        · next hb => exact .op i rfl hc (guard hb) hx
      · cases hx
    · next i =>
      split at hx
      · next hc =>
        split at hx
        · next hb => cases hx; exact .notEnabled i (.inr rfl) (shut hb).1 (shut hb).2
        · next hb => exact .start i rfl hc (guard hb) hx
      · cases hx
    · exact advance_moved (.inr rfl) hx
    · next ms =>
      split at hx
      · next h => cases hx; exact .clock ms rfl h
      · cases hx
    · next a b => cases hx; exact .buttons a b rfl
    · next bytes =>
      split at hx
      · cases hx
      · next h =>
        cases hx
        refine .source bytes rfl ?_
        cases hb : busy { s with inbox := rest } with
        | false => exact hb
        | true => rw [hb] at h; exact absurd rfl h
    · cases hx; exact .reset .reset [] [] rfl rfl
    · next op count =>
      obtain ⟨u, -, h⟩ := andThen_eq_next hx
      cases h
      exact .reset (.cut op count) _ _ rfl rfl
  · next hi =>
    rw [hi]
    exact advance_moved (.inl rfl) (by cases s; simp at hi; subst hi; exact hx)

/-- Everything a step can do to the ports and the memories: what any instruction keeps, one of the environment's entries,
or the reset event, with the DST bytes written before it. -/
theorem step_cases {s t : State} (hx : step s = .next t) :
    Keeps { s with inbox := s.inbox.tail } t ∨
    (∃ ms rest, s.inbox = .clock ms :: rest ∧ s.nowMs ≤ ms ∧ t = { s with inbox := rest, nowMs := ms }) ∨
    (∃ a b rest, s.inbox = .buttons a b :: rest ∧ t = { s with inbox := rest, pins := { a := a, b := b } }) ∨
    (∃ b rest, s.inbox = .source b :: rest ∧ t = { s with inbox := rest, src := b, sp := 0 }) ∨
    (∃ x full reached, s.inbox.head? = some x ∧ isReset x = true ∧
      t = resetDuring full reached { s with inbox := s.inbox.tail }) := by
  have cons : ∀ {x : Input}, s.inbox.head? = some x → s.inbox = x :: s.inbox.tail := by
    intro x h
    cases hi : s.inbox with
    | nil => rw [hi] at h; cases h
    | cons y rest => rw [hi] at h; cases h; rfl
  cases step_moved hx with
  | notEnabled i hd hb hi => exact .inl (.refl _)
  | op i hd hc hb h => exact .inl (perform_keeps h)
  | start i hd hc hb h => exact .inl (startOp_keeps h)
  | main i hd hc hm h => exact .inl (perform_keeps h)
  | waiting hd hc hm => exact .inl (.refl _)
  | token p i u hd hc hf h =>
    refine .inl (Keeps.trans ?_ (exec_keeps h))
    rcases fetch_keeps p { s with inbox := s.inbox.tail } with hk | hk
    · rw [hf] at hk; exact hk.keeps
    · rw [hf] at hk; exact hk.keeps
  | ended p hd hc hf =>
    rcases fetch_keeps p { s with inbox := s.inbox.tail } with hk | hk
    · rw [hf] at hk; exact .inl hk.keeps
    · rw [hf] at hk; exact .inl hk.keeps
  | clock ms hd h => exact .inr (.inl ⟨ms, _, cons hd, h, rfl⟩)
  | buttons a b hd => exact .inr (.inr (.inl ⟨a, b, _, cons hd, rfl⟩))
  | source bytes hd hb => exact .inr (.inr (.inr (.inl ⟨bytes, _, cons hd, rfl⟩)))
  | reset y full reached hd hr => exact .inr (.inr (.inr (.inr ⟨y, full, reached, hd, hr, rfl⟩)))

end Sys2Proof.Machine
end

