-- ==== Sys2Proof/Tests/Slice0.lean ====
section
/-! SUPPORT. Tests. Expected results come from spec/95_test_vectors.md (the row is named) or from the encodings of
30_encoding.md, written out by hand; then a concrete state and operands that meet the hypotheses of each statement. -/

open Sys2Proof Sys2Proof.Machine

namespace Sys2Proof.Tests

/-! ## Builders -/

/-- A memory that holds `bytes` from address 0 on. -/
def image (bytes : List Byte) : Mem Byte := (List.range bytes.length).zip bytes

/-- A DST of `n` bytes, each `b`. -/
def filled (n : Nat) (b : Byte) (s : State) : State := { s with dstLen := n, dst := image (List.replicate n b) }

/-- Part of the next state of an instruction. -/
def after {α : Type} (i : Instr) (s : State) (f : State → α) : Option α := (nextState? (exec i s)).map f

/-- Part of the state after one step. -/
def afterStep {α : Type} (s : State) (f : State → α) : Option α := (nextState? (step s)).map f

/-- The defaults of 95_test_vectors.md 3.1: `W = 4, H = 2, S = 4`, unscaled, 16 bytes of DST. -/
def decode42 (file : List Byte) : Instr := .drleDecode file 4 2 0 0 4 1 1 0 16

/-- DST of 16 bytes `EE`. -/
def ee16 : State := filled 16 0xEE State.reset

/-- `GCT4` of 95_test_vectors.md 4. -/
def gct4 : List Byte := [0xFF, 0, 0, 0, 0xFF, 0, 0, 0, 0xFF, 0xFF, 0xFF, 0xFF]

/-- The table of `gct4`, as PALG. -/
def palG4 : Mem Rgb := [(0, ⟨0xFF, 0, 0⟩), (1, ⟨0, 0xFF, 0⟩), (2, ⟨0, 0, 0xFF⟩), (3, ⟨0xFF, 0xFF, 0xFF⟩)]

/-- A ready 2x2 GIF whose blocks are `src`, DST of 8 bytes `AA`. -/
def ready (src : List Byte) : State :=
  { filled 8 0xAA State.reset with
    src := src, palG := palG4
    gif := { GifRegs.reset with state := .ready, expW := 2, expH := 2, scrW := 2, scrH := 2, scrFlags := 0x81
                                gctLen := 4 } }

/-- A ready 2x2 GIF whose next token is read at `p`. -/
def reading (p : Pos) (src : List Byte) : State := { ready src with ctl := some p }

/-- A 2x2 image in decoding with `mcs = 2`, the set-up of R212 done. -/
def decoding (src : List Byte) : State :=
  lzwSetup { ready src with
    img := { ImgRegs.reset with w := 2, h := 2, palSel := .globalTable, npix := 4 }
    lzw := { LzwRegs.reset with mcs := 2 } }

/-- The same after the code 0 (R221). -/
def afterZero : State :=
  let s := decoding []
  { s with lzw := { s.lzw with prev := some 0 }, img := { s.img with pixN := 1 } }

/-- Geometry Q8 with two frames in folder 0 (95_test_vectors.md P4). -/
def q8 : State :=
  { filled 40 0 State.reset with
    cfg := { Cfg.atReset with surfW := 4, surfH := 5, frameW := 2, frameH := 2, targetLoopMs := 1000 }
    dir := [[[0x00, 0x04, 0xF8, 0x00, 0x07, 0xE0, 0x00, 0x1F, 0xFF, 0xFF], [0x03, 0x01, 0x12, 0x34]]] }

/-- `q8` in its pass, frame `k` next, the tick taken. -/
def inPass (k : Nat) : State :=
  { q8 with
    sched := { SchedRegs.reset with
      state := .timedPlayback, interval := some 500, frameReady := true, frameIdx := k, frameCount := 2
      scaleX := 2, scaleY := 2, extraRows := 1 }
    timer := { armed := true, period := 500 } }

/-- TIMED_PLAYBACK with three folders and the buttons in a state `(last_a, last_b, last_switch_ms, folder_idx)` of
95_test_vectors.md 5.4. -/
def buttons (a b : Bool) (t : Option Nat) (folder : Nat) : State :=
  { inPass 0 with
    cfg := { (inPass 0).cfg with folderCount := 3 }
    sched := { (inPass 0).sched with folderIdx := folder }
    btn := { lastA := a, lastB := b, lastSwitch := t } }

/-- The ports reading a clock and two levels. -/
def reads (now : Nat) (a b : Bool) (s : State) : State := { s with nowMs := now, pins := { a := a, b := b } }

/-- What a poll of those readings leaves. -/
def polled (now : Nat) (a b : Bool) (s : State) : Option (Bool × Bool × Option Nat × Nat) :=
  after (.schPoll now a b) (reads now a b s) fun t => (t.btn.lastA, t.btn.lastB, t.btn.lastSwitch, t.sched.folderIdx)

/-! ## Well-formedness: an ill-formed term for each check -/

theorem test_wf_record : Instr.wf (.drleRec 0 0) = false ∧ Instr.wf (.drleRec 0 1) = true := by decide
theorem test_wf_encode : Instr.wf (.drleEncode [1, 2] []) = false ∧ Instr.wf (.drleEncode [1] [1]) = false ∧
    Instr.wf (.drleEncodeFirst [1]) = false := by decide
theorem test_wf_table : Instr.wf (.gifGct [⟨0, 0, 0⟩, ⟨0, 0, 0⟩, ⟨0, 0, 0⟩]) = false := by decide
theorem test_wf_gce : Instr.wf (.gifGce (List.replicate 256 0)) = false ∧
    Instr.wf (.gifGce (List.replicate 255 0)) = true := by decide +kernel
theorem test_wf_ext : Instr.wf (.gifExt 0xF9) = false := by decide
theorem test_wf_unknown : Instr.wf (.gifUnknown 0x21) = false ∧ Instr.wf (.gifUnknown 0x2C) = false ∧
    Instr.wf (.gifUnknown 0x3B) = false := by decide
theorem test_wf_codes : Instr.wf (.lzwFirst 2048) = false ∧ Instr.wf (.lzwLit 2048) = false ∧
    Instr.wf (.lzwDict 5) = false ∧ Instr.wf (.lzwDict 4096) = false ∧ Instr.wf (.lzwBadCode 4096) = false := by decide

/-! ## Decoding: bytes written out from 30_encoding.md -/

-- R93: skip = 0, write = 0. R92: skip = 00000011, write = 00000010.
theorem test_decode_end : decodeAt .drle 0 [0, 0, 9] = .ok (.drleEnd, 2) := by decide
theorem test_decode_record : decodeAt .drle 0 [0b00000011, 0b00000010, 9] = .ok (.drleRec 3 2, 2) ∧
    decodeAt .drle 0 [3] = .error .truncated := by decide
-- R101: "GIF87a" and "GIF89a" in ASCII; F10 of 95_test_vectors.md: "GIF88a".
theorem test_decode_header : decodeAt .gifHeader 0 [0x47, 0x49, 0x46, 0x38, 0x37, 0x61] = .ok (.gifHeader87a, 6) ∧
    decodeAt .gifHeader 0 [0x47, 0x49, 0x46, 0x38, 0x39, 0x61] = .ok (.gifHeader89a, 6) ∧
    decodeAt .gifHeader 0 [0x47, 0x49, 0x46, 0x38, 0x38, 0x61] = .error .badMagic ∧
    decodeAt .gifHeader 0 [0x47, 0x49, 0x46, 0x38, 0x37] = .error .truncated := by decide
-- R101: width le16 02 01, height le16 04 03, packed byte 10000001, background 7, aspect 9.
theorem test_decode_screen : decodeAt .gifLsd 0 [0x02, 0x01, 0x04, 0x03, 0b10000001, 7, 9] =
    .ok (.gifLsd 0x0102 0x0304 0x81 7 9, 7) := by decide
-- R102: flags 1xxxx000 announce two entries, red first; bit 7 clear announces none.
theorem test_decode_table : decodeAt .gifGct 0b10000000 [1, 2, 3, 4, 5, 6, 7] = .ok (.gifGct [⟨1, 2, 3⟩, ⟨4, 5, 6⟩], 6) ∧
    decodeAt .gifGct 0b01111111 [1] = .ok (.gifGct [], 0) ∧
    decodeAt .gifGct 0b10000000 [1, 2, 3, 4, 5] = .error .truncated := by decide
-- R104, R106: 21 F9, size 4, four data bytes. R104: 21 FE, a comment.
theorem test_decode_extension : decodeAt .gifBlock 0 [0x21, 0xF9, 4, 1, 5, 0, 0, 0] = .ok (.gifGce [1, 5, 0, 0], 7) ∧
    decodeAt .gifBlock 0 [0x21, 0xFE, 3, 0x41] = .ok (.gifExt 0xFE, 2) ∧
    decodeAt .gifBlock 0 [0x21, 0xF9, 4, 1] = .error .truncated ∧
    decodeAt .gifBlock 0 [0x21] = .error .truncated := by decide
-- R107: left 0001, top 0203, width 0405, height 0607, packed byte 10000000.
theorem test_decode_image : decodeAt .gifBlock 0 [0x2C, 1, 0, 3, 2, 5, 4, 7, 6, 0b10000000, 2] =
    .ok (.gifImage 1 0x0203 0x0405 0x0607 0x80, 10) := by decide
-- R103: 3B, and a byte that is none of the three introducers.
theorem test_decode_trailer : decodeAt .gifBlock 0 [0x3B] = .ok (.gifTrailer, 1) ∧
    decodeAt .gifBlock 0 [0x00] = .ok (.gifUnknown 0, 1) ∧ decodeAt .gifBlock 0 [] = .error .truncated := by decide

/-- The registers after the set-up of `mcs = 2` (S14 of 95_test_vectors.md), the previous code given. -/
def ctx2 (next : Nat) (prev : Option Nat) : CodeCtx := { clear := 4, endCode := 5, nextCode := next, prev := prev }

-- R111 with clear = 100, end = 101 in binary: each class, at the values where classes meet.
theorem test_decode_codes_first : decodeCode (ctx2 6 none) 0b100 = .lzwClear ∧ decodeCode (ctx2 6 none) 0b101 = .lzwEnd ∧
    decodeCode (ctx2 6 none) 0b011 = .lzwFirst 3 ∧ decodeCode (ctx2 6 none) 0b110 = .lzwBadCode 6 := by decide
theorem test_decode_codes_next : decodeCode (ctx2 7 (some 1)) 0b011 = .lzwLit 3 ∧
    decodeCode (ctx2 7 (some 1)) 0b110 = .lzwDict 6 ∧ decodeCode (ctx2 7 (some 1)) 0b111 = .lzwKwkwk ∧
    decodeCode (ctx2 7 (some 1)) 0b1000 = .lzwBadCode 8 ∧ decodeCode (ctx2 4096 (some 1)) 4095 = .lzwDict 4095 ∧
    decodeCode (ctx2 4096 (some 1)) 4096 = .lzwBadCode 4096 := by decide
-- G1 of 95_test_vectors.md: 4/3 0/3 1/3 2/3 3/4 5/4 is 44 34 05.
theorem test_encode_codes : encodeCodes [(4, 3), (0, 3), (1, 3), (2, 3), (3, 4), (5, 4)] = [0x44, 0x34, 0x05] := by decide
-- R116: calls, commands and events have no encoding, so they are no token of any stream.
theorem test_commands_have_no_encoding : encode (.pxcPack 1 2 3) = none ∧ encode (.pxcStore 0 0) = none ∧
    encode (.drleBlit 0 0 0) = none ∧ encode (decode42 []) = none ∧ encode (.drleEncode [] []) = none ∧
    encode (.drleEncodeFirst []) = none ∧ encode (.gifStart 1 1) = none ∧ encode .gifNext = none ∧
    encode .lzwImage = none ∧ encode .schLoad = none ∧ encode .schTick = none ∧ encode .schStep = none ∧
    encode (.schPoll 0 true true) = none ∧ encode .schSwitch = none := by decide

/-! ## PXC: section 2 of 95_test_vectors.md -/

theorem test_pack : pack 0x12 0x34 0x56 = 0x11AA ∧ pack 0xFF 0 0 = 0xF800 ∧ pack 0 0xFF 0 = 0x07E0 ∧
    pack 0 0 0xFF = 0x001F := by decide
theorem test_pack_low_bits : pack 7 3 7 = 0 ∧ pack 8 4 8 = 0x0821 ∧ pack 0xAB 0xCD 0xEF = 0xAE7D := by decide
theorem test_store : after (.pxcStore 10 0x11AA) ee16 (fun t => (dstByte t 10, dstByte t 11, dstByte t 12)) =
    some (some 0x11, some 0xAA, some 0xEE) := by decide +kernel

/-! ## DRLE: section 3 of 95_test_vectors.md -/

-- D2: the record after the end marker has no effect.
theorem test_decode_d2 : after (decode42 [1, 1, 0x12, 0x34, 0, 0, 0, 1, 0xFF, 0xFF]) ee16
    (fun t => (t.drle.pos, t.sp, t.dst)) = some (2, 6, image ([0xEE, 0xEE, 0x12, 0x34] ++ List.replicate 12 0xEE)) := by
  decide +kernel
-- DF1, DF3, DF5: the faults.
theorem test_decode_faults : after (.drleDecode [] 0 2 0 0 4 1 1 0 16) ee16 (·.ret) = some (.fault .drleParam) ∧
    after (.drleDecode [] 4 2 1 0 4 1 1 0 16) ee16 (·.ret) = some (.fault .drleGeometry) ∧
    after (.drleDecode [] 2 2 0 0 4 2 2 1 32) ee16 (·.ret) = some (.fault .drleGeometry) ∧
    after (.drleDecode [] 2 2 0 0 4 2 2 1 40) ee16 (·.ret) = some .done := by decide +kernel
-- R312: the fault of a call stays recorded. R317: with a GIF stream open no decode begins.
theorem test_decode_recorded : after (.drleDecode [] 0 2 0 0 4 1 1 0 16) ee16 (·.callFault) = some (some .drleParam) ∧
    after (decode42 [0, 1, 1, 1]) (ready [7]) (fun t => (t.src, t.sp, t.dstLen, t.ret)) = some ([7], 0, 8, .none) := by
  decide +kernel
/-- The registers of a decode with the defaults, at a position. -/
def at42 (pos : Nat) (src : List Byte) : State :=
  { ee16 with
    src := src, sp := 2, ctl := some .drle
    drle := { DrleRegs.reset with pos := pos, w := 4, h := 2, stride := 4 } }
-- D3, as a token.
theorem test_end : after .drleEnd (at42 0 [0, 0]) (fun t => (t.drle.pos, t.sp, t.ctl)) = some (0, 2, none) := by decide
-- D9: a payload past the budget; D10: half a pixel.
theorem test_record_budget : after (.drleRec 7 2) (at42 0 [7, 2, 0x11, 0x11, 0x22, 0x22, 0, 1]) (fun t =>
    (t.drle.pos, t.sp, dstByte t 14, dstByte t 15)) = some (8, 4, some 0x11, some 0x11) := by decide +kernel
theorem test_record_half : after (.drleRec 0 2) (at42 0 [0, 2, 0xAB, 0xCD, 0xEF]) (fun t =>
    (t.drle.pos, t.sp, dstByte t 0, dstByte t 2)) = some (1, 5, some 0xAB, some 0xEE) := by decide +kernel
-- P2: source pixel 3 of a scaled frame, with the extra row.
def p2 : State :=
  { filled 70 0xEE State.reset with
    drle := { DrleRegs.reset with w := 2, h := 2, x := 1, stride := 5, scaleX := 2, scaleY := 3, extra := 1 } }
theorem test_blit : blitAddrs p2.drle 0 = [2, 4, 12, 14, 22, 24] ∧
    blitAddrs p2.drle 3 = [36, 38, 46, 48, 56, 58, 66, 68] := by decide
theorem test_blit_store : after (.drleBlit 3 0x12 0x34) p2 (fun t => (dstByte t 68, dstByte t 69, dstByte t 35)) =
    some (some 0x12, some 0x34, some 0xEE) := by decide +kernel
-- E5 and E6: the encoder.
theorem test_encode : after (.drleEncode [0, 1, 0, 2, 0, 3, 0, 4] [0, 9, 0, 2, 0, 8, 0, 4]) State.reset (·.ret) =
    some (.stream [0, 1, 0, 9, 1, 1, 0, 8, 1, 0]) := by decide +kernel
theorem test_encode_first : after (.drleEncodeFirst [0, 1, 0, 2]) State.reset (·.ret) =
    some (.stream [0, 2, 0, 1, 0, 2]) := by decide +kernel

/-! ## GIF: section 4 of 95_test_vectors.md -/

/-- G1 up to its image. -/
def g1Head : List Byte := [0x47, 0x49, 0x46, 0x38, 0x37, 0x61, 2, 0, 2, 0, 0x81, 0, 0] ++ gct4
/-- A 2x2 image with the given data, and the trailer. -/
def imageOf (data : List Byte) : List Byte := [0x2C, 0, 0, 0, 0, 2, 0, 2, 0, 0] ++ data ++ [0x3B]

theorem test_start_g1 : after (.gifStart 2 2) { ready (g1Head ++ [0x2C]) with gif := GifRegs.reset, palG := [] }
    (fun t => (t.gif.state, t.gif.gctLen, t.sp, t.palG)) = some (.ready, 4, 25, palG4) := by decide +kernel
-- F2: a screen of another size.
theorem test_start_mismatch : after (.gifStart 3 2) (ready g1Head) (fun t => (t.gif.state, t.sp, t.out)) =
    some (.error, 13, [.error .sizeMismatch]) := by decide +kernel
theorem test_next_g1 : after .gifNext (ready (imageOf [2, 3, 0x44, 0x34, 0x05, 0])) (fun t => (t.sp, t.out, t.dst)) =
    some (16, [.frameDone 100], image [0xF8, 0, 0x07, 0xE0, 0, 0x1F, 0xFF, 0xFF]) := by decide +kernel
-- V6: an unrecognised introducer ends the stream.
theorem test_next_unknown : after .gifNext (ready (0 :: imageOf [2, 1, 5, 0])) (fun t => (t.sp, t.gif.state, t.out)) =
    some (1, .done, [.streamEnd]) := by decide +kernel
-- G2: the transparent pixel, the delay, and the control extension forgotten.
theorem test_image_g2 : after (.gifImage 0 0 2 2 0)
    { reading .gifBlock [2, 3, 0x0C, 0x34, 0x05, 0, 0x3B] with
      gce := { seen := true, delayCs := 5, transpOn := true, transpIdx := 0 } }
    (fun t => (t.out, t.dst, t.gce.seen, t.gce.transpOn)) =
    some ([.frameDone 50], image [0x07, 0xE0, 0xAA, 0xAA, 0, 0x1F, 0xFF, 0xFF], false, false) := by decide +kernel
-- F1, F3, F4: the descriptor's and the decoder's refusals.
theorem test_image_checks : after (.gifImage 0 0 2 2 0x40) (ready []) (fun t => (t.gif.state, t.out)) =
      some (.error, [.error .interlaced]) ∧
    after (.gifImage 1 0 2 2 0) (ready []) (fun t => (t.gif.state, t.gif.fault)) = some (.faulted, some .gifImageRect) ∧
    after (.gifImage 0 0 2 2 0) (ready [1]) (·.gif.fault) = some (some (.lzwParam 1)) := by decide +kernel
-- V8's second control extension: delay 3, no transparency; then V9's, of length 3.
theorem test_gce : after (.gifGce [0, 3, 0, 1]) (reading .gifBlock [0, 0x2C]) (fun t => (t.gce, t.sp)) =
    some ({ seen := true, delayCs := 3, transpOn := false, transpIdx := 1 }, 1) := by decide
theorem test_gce_short : after (.gifGce [1, 5, 0]) (reading .gifBlock [0, 0x2C]) (fun t => (t.gce, t.sp)) =
    some (GceRegs.reset, 1) := by decide
-- G4's comment.
theorem test_ext : after (.gifExt 0xFE) (reading .gifBlock [3, 0x41, 0x42, 0x43, 0, 0x2C]) (·.sp) = some 5 := by decide
theorem test_header_87a : after .gifHeader87a (ready []) (·.ctl) = some (some .gifLsd) := by decide
theorem test_header_89a : after .gifHeader89a (ready []) (·.ctl) = some (some .gifLsd) := by decide
theorem test_lsd : after (.gifLsd 2 2 0x81 7 0) (ready []) (fun t => (t.ctl, t.gif.bgIndex, t.out)) =
    some (some .gifGct, 7, []) := by decide
theorem test_gct : after (.gifGct [⟨1, 2, 3⟩, ⟨4, 5, 6⟩]) State.reset (fun t => (t.palG, t.gif.gctLen, t.gif.state)) =
    some ([(0, ⟨1, 2, 3⟩), (1, ⟨4, 5, 6⟩)], 2, .ready) := by decide
theorem test_trailer : after .gifTrailer (ready []) (fun t => (t.gif.state, t.out)) = some (.done, [.streamEnd]) := by decide
theorem test_unknown : after (.gifUnknown 0) (ready []) (fun t => (t.gif.state, t.out)) = some (.done, [.streamEnd]) := by
  decide

/-! ## LZW: the traces of 95_test_vectors.md 4.1 and 4.3 -/

-- G3: three codes used before they are defined draw one colour.
theorem test_lzw_image : after .lzwImage (decoding [2, 0x84, 0x51, 0, 0x3B]) (fun t => (t.img.pixN, t.sp, t.dst)) =
    some (4, 4, image [0xF8, 0, 0xF8, 0, 0xF8, 0, 0xF8, 0]) := by decide +kernel
-- F6: the pixel written before the fault stays.
theorem test_lzw_image_fault : after .lzwImage (decoding [2, 0xC4, 0x0B, 0]) (fun t => (t.gif.fault, t.sp, t.dst)) =
    some (some (.badCode 7), 3, image [0xF8, 0, 0xAA, 0xAA, 0xAA, 0xAA, 0xAA, 0xAA]) := by decide +kernel
-- R313: after ERROR only GIF.START or reset leave that state; a minimum code size of 1 then raises nothing.
theorem test_lzw_image_stopped :
    let s := { ready [] with gif := { (ready []).gif with state := .error }, lzw := { LzwRegs.reset with mcs := 1 } }
    after .lzwImage s (fun t => (t.gif.state, t.gif.fault)) = some (.error, none) := by decide
theorem test_clear : after .lzwClear { afterZero with lzw := { afterZero.lzw with codeSize := 5, nextCode := 20 } }
    (fun t => (t.lzw.codeSize, t.lzw.nextCode, t.lzw.prev)) = some (3, 6, none) := by decide
-- V4: unread sub-blocks are drained.
theorem test_end_code : after .lzwEnd { decoding [0x05, 2, 0xDE, 0xAD, 0, 0x3B] with
    bits := { BitRegs.reset with blkRem := 1 } } (fun t => (t.sp, t.ctl)) = some (5, none) := by decide
theorem test_first : after (.lzwFirst 1) (decoding []) (fun t =>
    (t.lzw.prev, t.lzw.nextCode, t.img.pixN, t.dst)) =
    some (some 1, 6, 1, image [0x07, 0xE0, 0xAA, 0xAA, 0xAA, 0xAA, 0xAA, 0xAA]) := by decide +kernel
-- G1: the code 1 after 0 adds (0, 1); then 2 after 1 makes next_code 8 and the width 4.
theorem test_lit : after (.lzwLit 1) afterZero (fun t =>
    (t.lzw.nextCode, t.dict, t.img.pixN, dstByte t 2)) = some (7, [(6, ⟨0, 1⟩)], 2, some 0x07) := by decide +kernel
theorem test_lit_width : after (.lzwLit 2) { afterZero with lzw := { afterZero.lzw with nextCode := 7, prev := some 1 } }
    (fun t => (t.lzw.nextCode, t.lzw.codeSize, t.dict)) = some (8, 4, [(7, ⟨1, 2⟩)]) := by decide +kernel
-- An entry (0, 1) stands for the indices 0, 1 (R228), drawn at pixels 1 and 2.
theorem test_dict : after (.lzwDict 6)
    { afterZero with dict := [(6, ⟨0, 1⟩)], lzw := { afterZero.lzw with nextCode := 7, prev := some 1 } }
    (fun t => (t.dict, t.img.pixN, t.lzw.prev, dstByte t 2, dstByte t 4)) =
    some ([(6, ⟨0, 1⟩), (7, ⟨1, 0⟩)], 3, some 6, some 0xF8, some 0x07) := by decide +kernel
-- R232 with R226: an entry (0, 1), a palette of one colour: the pixel of 0 stays, the new entry too, 1 faults.
theorem test_dict_palette : after (.lzwDict 6)
    { afterZero with
      dict := [(6, ⟨0, 1⟩)], lzw := { afterZero.lzw with nextCode := 7, prev := some 1 }
      gif := { afterZero.gif with gctLen := 1 } }
    (fun t => (t.dict, dstByte t 2, dstByte t 4, t.gif.fault)) =
    some ([(6, ⟨0, 1⟩), (7, ⟨1, 0⟩)], some 0xF8, some 0xAA, some (.palette 1)) := by decide +kernel
-- G3's second code.
theorem test_kwkwk : after .lzwKwkwk afterZero (fun t => (t.dict, t.img.pixN, t.lzw.prev, t.lzw.nextCode)) =
    some ([(6, ⟨0, 0⟩)], 3, some 6, 7) := by decide +kernel
-- F7: the first code after a reset is not a literal.
theorem test_bad_code : after (.lzwBadCode 6) (decoding []) (fun t => (t.gif.state, t.gif.fault)) =
    some (.faulted, some (.badCode 6)) := by decide

/-! ## SCHED: sections 5 and 7 of 95_test_vectors.md -/

-- P4: the load of Q8 with two frames.
theorem test_load : after .schLoad q8 (fun t => (t.sched.interval, t.sched.scaleX, t.sched.scaleY, t.sched.extraRows,
    t.timer, t.sched.state)) = some (some 500, 2, 2, 1, { armed := true, period := 500 }, .timedPlayback) := by
  decide +kernel
-- Q6 and Z7: the faults of a load.
def q6 : State :=
  { q8 with cfg := { q8.cfg with surfW := 240, surfH := 135, frameW := 100, frameH := 60, offY := 20 } }
theorem test_load_faults : after .schLoad q6 (·.sched.fault) = some (some .extraNegative) ∧
    after .schLoad { q8 with dir := [] } (·.sched.fault) = some (some (.emptyFolder 0)) := by decide +kernel
-- Z3 and Z2: a tick with the flag set; a tick while the timer is disarmed.
theorem test_tick : after .schTick (inPass 0) (·.sched.frameReady) = some true ∧
    after .schTick q8 (·.sched.frameReady) = some false := by decide
-- P4: frame 0, then frame 1 with the pass end at 1004.
theorem test_step : after .schStep (inPass 0) (fun t => (t.sched.frameIdx, t.out, t.sp, dstByte t 24, dstByte t 38)) =
    some (1, [.present], 10, some 0, some 0xFF) := by decide +kernel
theorem test_step_pass_end : after .schStep { inPass 1 with nowMs := 1004 } (fun t =>
    (t.sched.interval, t.sched.state, t.timer.armed, dstByte t 36, dstByte t 39)) =
    some (some 498, .loading, false, some 0x12, some 0x34) := by decide +kernel
-- U1, U5, U7, U8: the interval update.
theorem test_interval : corrected 1000 1013 4 250 = 246 ∧ corrected 1000 1001 4 250 = 249 ∧
    corrected 1000 5000 4 2 = 1 ∧ corrected 1000 1100 3 333 = 299 := by decide
-- K3 inside the window, K2 at its end.
theorem test_poll_window : polled 199 false true (buttons false false (some 0) 1) = some (true, false, some 0, 1) ∧
    polled 200 false true (buttons false false (some 0) 1) = some (true, false, some 200, 2) := by decide
-- K4, K5, K6, K8: both edges, B with wrap, A with wrap, A held.
theorem test_poll_edges : [polled 0 false false (buttons false false none 0),
      polled 0 true false (buttons false false none 0), polled 0 false true (buttons false false none 2),
      polled 0 false false (buttons true false none 0)] =
    [some (true, true, some 0, 1), some (false, true, some 0, 2), some (true, false, some 0, 0),
      some (true, true, some 0, 2)] := by decide
theorem test_switch : after .schSwitch { inPass 1 with sched := { (inPass 1).sched with state := .folderSwitch } }
    (fun t => (t.sched.interval, t.sched.state, t.timer.armed, t.sched.frameReady)) =
    some (none, .loading, false, false) := by decide

/-! ## The step -/

-- The inbox first; a token from SRC; a token of the code stream (G1's first code is the clear code).
theorem test_step_inbox : afterStep { q8 with inbox := [.clock 7, .turn] } (fun t => (t.nowMs, t.inbox)) =
    some (7, [.turn]) := by decide
theorem test_step_token : afterStep (reading .gifBlock [0x3B, 9]) (fun t => (t.sp, t.out)) = some (1, [.streamEnd]) := by
  decide
theorem test_step_code : afterStep (decoding [3, 0x44, 0x34, 0x05, 0]) (fun t => (t.lzw.prev, t.bits.cnt, t.sp)) =
    some (none, 5, 2) := by decide +kernel
-- R270: the poll due since the last frame comes before the next one; A is down, so the folder changes and no frame is shown.
theorem test_step_owed_poll : afterStep
    { reads 9 false true (inPass 1) with
      sched := { (inPass 1).sched with pollDue := true }, inbox := [.op .schStep] }
    (fun t => (t.sched.state, t.sched.frameIdx, t.btn.lastSwitch, t.sched.pollDue)) =
    some (.folderSwitch, 1, some 9, false) := by decide +kernel
-- R6: the environment moves a button.
theorem test_step_buttons : afterStep { q8 with inbox := [.buttons false true] } (·.pins) =
    some { a := false, b := true } := by decide
-- R340: reset in the middle of a record of two pixels, three bytes written; nothing is sent.
theorem test_step_cut : afterStep { ee16 with inbox := [.cut (some (decode42 [0, 2, 0x12, 0x34, 0x56, 0x78])) 3] }
    (fun t => (t.dst, t.sp, t.ctl, t.out)) =
    some (image ([0x12, 0x34, 0x56] ++ List.replicate 13 0xEE), 0, none, []) := by decide +kernel
-- R73 with R149: the block of source pixel 0 row by row, then that of source pixel 1; each high byte before its low byte.
theorem test_store_order : (framePixels p2.drle).take 8 = [2, 4, 12, 14, 22, 24, 6, 8] ∧
    storeOrder [2, 4] = [2, 3, 4, 5] := by decide
-- Z1: after reset the operation enabled is SCH.LOAD, here of an empty folder (Z7).
theorem test_step_reset : afterStep State.reset (·.sched.fault) = some (some (.emptyFolder 0)) := by decide
-- A table word placed where the next token is fetched.
theorem test_placed_word : afterStep (State.reset.withFetchWord 8 0x3B) (·.out) = some [.streamEnd] ∧
    afterStep (State.reset.withFetchWord 48 0x613738464947) (·.ctl) = some (some .gifLsd) := by decide +kernel

/-! ## Witnesses: a concrete state and operands that meet the hypotheses of each statement, clause by clause, at the
values where clauses meet -/

theorem witness_PackKeepsTopBits : exec (.pxcPack 1 2 3) State.reset = .next { State.reset with ret := .color 0 } := rfl

-- The last address of DST, and the first beyond it.
theorem witness_StoreTwoBytes : 0 + 1 < State.reset.dstLen := by decide
theorem witness_StopsOutsideDst : State.reset.dstLen ≤ 1 + 1 ∧ State.reset.drle.w * State.reset.drle.h ≤ 1 ∧
    0 < State.reset.drle.w * State.reset.drle.h ∧
    ∃ a ∈ blitAddrs DrleRegs.reset 0, ({ State.reset with dstLen := 1 } : State).dstLen ≤ a + 1 := by decide

theorem p2_fits : FrameFits p2.drle p2.dstLen :=
  ⟨by decide, by decide, by decide, by decide, by decide, by decide, by decide⟩
theorem reset_fits : FrameFits State.reset.drle State.reset.dstLen :=
  ⟨by decide, by decide, by decide, by decide, by decide, by decide, by decide⟩
theorem at42_fits (pos : Nat) (src : List Byte) : FrameFits (at42 pos src).drle (at42 pos src).dstLen where
  w := (by decide : 1 ≤ 4)
  h := (by decide : 1 ≤ 2)
  stride := (by decide : 1 ≤ 4)
  scaleX := (by decide : 1 ≤ 1)
  scaleY := (by decide : 1 ≤ 1)
  columns := (by decide : 0 + 4 * 1 ≤ 4)
  rows := (by decide : 0 + 2 * 1 + 0 ≤ 16 / (2 * 4))

-- The last pixel of a scaled frame, in its last row; the one pixel of an unscaled frame.
theorem witness_BlitWritesBlock : FrameFits p2.drle p2.dstLen ∧ 3 < p2.drle.w * p2.drle.h ∧
    FrameFits State.reset.drle State.reset.dstLen ∧ 0 < State.reset.drle.w * State.reset.drle.h ∧
    State.reset.drle.x = 0 ∧ State.reset.drle.y = 0 ∧ State.reset.drle.scaleX = 1 ∧ State.reset.drle.scaleY = 1 ∧
    State.reset.drle.extra = 0 ∧ State.reset.drle.stride = State.reset.drle.w :=
  ⟨p2_fits, by decide, reset_fits, by decide⟩

-- DF1, DF3, DF5 of 95_test_vectors.md, and the operands of DF5 with a DST of 40 bytes, which just fit.
theorem witness_DecodeChecks : ((0 : Nat) = 0 ∨ (2 : Nat) = 0 ∨ (4 : Nat) = 0 ∨ (1 : Nat) = 0 ∨ (1 : Nat) = 0) ∧
    (4 < 1 + 4 * 1 ∨ 16 / (2 * 4) < 0 + 2 * 1 + 0) ∧ (4 < 0 + 2 * 2 ∨ 32 / (2 * 4) < 0 + 2 * 2 + 1) ∧
    (0 + 2 * 2 ≤ 4 ∧ 0 + 2 * 2 + 1 ≤ 40 / (2 * 4)) := by decide

/-- The hypotheses of the statements about a decode whose checks pass. -/
def Passes (w h x y stride sx sy e len : Nat) : Prop :=
  1 ≤ w ∧ 1 ≤ h ∧ 1 ≤ stride ∧ 1 ≤ sx ∧ 1 ≤ sy ∧ x + w * sx ≤ stride ∧ y + h * sy + e ≤ len / (2 * stride)

-- A GIF stream open; none.
theorem witness_DecodeEndsInRectangle : Passes 2 2 0 0 4 2 2 1 40 ∧ (ready []).gif.state = .ready ∧
    State.reset.gif.state ≠ .ready := by unfold Passes; decide
theorem witness_ReplayIdempotent : Passes 4 2 0 0 4 1 1 0 16 ∧ State.reset.gif.state ≠ .ready := by
  unfold Passes; decide
theorem witness_EndMarkerStops : Passes 1 1 0 0 1 1 1 0 2 ∧ State.reset.gif.state ≠ .ready := by unfold Passes; decide

-- E6 of 95_test_vectors.md.
theorem witness_EncodeDecodeRoundTrip : State.reset.gif.state ≠ .ready ∧ (1 : Nat) ≤ 4 ∧ (1 : Nat) ≤ 1 ∧
    ([0, 1, 0, 2, 0, 3, 0, 4] : List Byte).length = 2 * (4 * 1) ∧
    ([0, 1, 0, 2, 0, 3, 0, 7] : List Byte).length = 2 * (4 * 1) ∧
    ∀ a < 2 * (4 * 1), dstByte { State.reset with dst := image [0, 1, 0, 2, 0, 3, 0, 4] } a =
      ([0, 1, 0, 2, 0, 3, 0, 4] : List Byte)[a]? := by decide +kernel
theorem witness_EncodeIsGreedyScan : ([0, 1] : List Byte).length = ([0, 2] : List Byte).length ∧
    ([0, 2] : List Byte).length % 2 = 0 := by decide
theorem witness_EncodeFirstIsFullFrame : ([] : List Byte).length % 2 = 0 ∧ ([0, 2] : List Byte).length % 2 = 0 := by decide

-- A skip to the budget; a payload to the budget; a payload that SRC cuts; a payload that ends before the budget.
theorem witness_RecordReplay : (∀ pos src, FrameFits (at42 pos src).drle (at42 pos src).dstLen) ∧
    ¬ ((8 : Byte) = 0 ∧ (0 : Byte) = 0) ∧ 4 * 2 ≤ (at42 0 []).drle.pos + (8 : Byte).toNat ∧
    (at42 0 []).drle.pos + (7 : Byte).toNat < 4 * 2 ∧
    0 + 7 + min (2 : Byte).toNat (min (8 - 7) (((at42 0 [7, 2, 1, 1, 2, 2]).src.length - 2) / 2)) = 8 ∧
    min (2 : Byte).toNat (min (8 - 0) (((at42 0 [0, 2, 1, 1, 2]).src.length - 2) / 2)) < (2 : Byte).toNat ∧
    min (1 : Byte).toNat (min (8 - 0) (((at42 0 [0, 1, 1, 1]).src.length - 2) / 2)) = (1 : Byte).toNat :=
  ⟨at42_fits, by decide⟩

theorem witness_HeaderMagic :
    ((reading .gifHeader g1Head).inbox = [] ∧ (reading .gifHeader g1Head).ctl = some .gifHeader ∧
      (reading .gifHeader g1Head).sp + 6 ≤ (reading .gifHeader g1Head).src.length ∧
      ((reading .gifHeader g1Head).src.drop 0).take 6 = [0x47, 0x49, 0x46, 0x38, 0x37, 0x61]) ∧
    (([0x47, 0x49, 0x46, 0x38, 0x39, 0x61] : List Byte).drop 0).take 6 = [0x47, 0x49, 0x46, 0x38, 0x39, 0x61] ∧
    (([0x47, 0x49, 0x46, 0x38, 0x38, 0x61] : List Byte).drop 0).take 6 ≠ [0x47, 0x49, 0x46, 0x38, 0x37, 0x61] ∧
    (([0x47, 0x49, 0x46, 0x38, 0x38, 0x61] : List Byte).drop 0).take 6 ≠ [0x47, 0x49, 0x46, 0x38, 0x39, 0x61] ∧
    (reading .gifHeader [0x47, 0x49, 0x46, 0x38, 0x38]).src.length < 0 + 6 := by decide

-- The expected size; one dimension off by one; seven bytes; six bytes.
theorem witness_ScreenDescriptor : ((2 : U16).toNat = (ready []).gif.expW ∧ (2 : U16).toNat = (ready []).gif.expH) ∧
    ((3 : U16).toNat ≠ (ready []).gif.expW ∨ (2 : U16).toNat ≠ (ready []).gif.expH) ∧
    ((reading .gifLsd [2, 0, 2, 0, 0x81, 0, 0]).inbox = [] ∧
      (reading .gifLsd [2, 0, 2, 0, 0x81, 0, 0]).ctl = some .gifLsd ∧
      (reading .gifLsd [2, 0, 2, 0, 0x81, 0, 0]).src.drop 0 = [2, 0, 2, 0, 0x81, 0, 0] ++ []) ∧
    (reading .gifLsd [2, 0, 2, 0, 0x81, 0]).src.length < 0 + 7 := by decide

-- A table of four entries, whole and one byte short; no table.
theorem witness_GlobalColourTable : (reading .gifGct gct4).inbox = [] ∧ (reading .gifGct gct4).ctl = some .gifGct ∧
    (reading .gifGct gct4).gif.scrFlags.getLsbD 7 = true ∧
    (reading .gifGct gct4).sp + 3 * (1 <<< ((0x81 &&& 7 : Byte).toNat + 1)) ≤ (reading .gifGct gct4).src.length ∧
    (reading .gifGct (gct4.take 11)).src.length < 0 + 3 * (1 <<< ((0x81 &&& 7 : Byte).toNat + 1)) ∧
    { reading .gifGct [] with gif := { (ready []).gif with scrFlags := 0x7F } }.gif.scrFlags.getLsbD 7 = false := by decide

theorem witness_ControlExtension : (reading .gifBlock [0]).sp ≤ (reading .gifBlock [0]).src.length ∧
    Drains ((reading .gifBlock [0]).src.drop 0) 1 ∧ ([] : List Byte) = [] ∧
    (([1, 5, 0] : List Byte) ≠ [] ∧ ([1, 5, 0] : List Byte).length ≠ 4) ∧
    ((reading .gifBlock [0x21, 0xF9, 1, 7]).src.drop 0 = 0x21 :: 0xF9 :: [1, 7] ∧
      ([1, 7] : List Byte) = 1 :: ([7] ++ []) ∧ ([7] : List Byte).length = (1 : Byte).toNat) ∧
    ((reading .gifBlock [0x21, 0xF9]).src.drop 0 = 0x21 :: 0xF9 :: [] ∧
      ([7] : List Byte).length < (2 : Byte).toNat) :=
  ⟨by decide, .terminator [], by decide⟩

-- R194: a terminator; no byte at all; a block cut short; a block and its terminator.
theorem witness_ExtensionSkipped : Drains [0, 9] 1 ∧ Drains [] 0 ∧ Drains [3, 1, 2] 3 ∧ Drains [2, 1, 2, 0, 9] 4 :=
  ⟨.terminator _, .eos, .short 3 [1, 2] (by decide), .block 2 [1, 2] [0, 9] 1 (by decide) rfl (.terminator _)⟩

-- F1 and F3 of 95_test_vectors.md; a rectangle that just fits; nine bytes and eight.
theorem witness_ImageDescriptorChecks : (0x40 : Byte).getLsbD 6 = true ∧
    ((0 : Byte).getLsbD 6 = false ∧ (ready []).gif.scrW.toNat < (1 : U16).toNat + (2 : U16).toNat) ∧
    ((0 : U16).toNat + (2 : U16).toNat ≤ (ready []).gif.scrW.toNat ∧
      (0 : U16).toNat + (2 : U16).toNat ≤ (ready []).gif.scrH.toNat) ∧
    (reading .gifBlock [0x2C, 0, 0, 0, 0, 2, 0, 2, 0, 0]).src.drop 0 = [0x2C, 0, 0, 0, 0, 2, 0, 2, 0, 0] ++ [] ∧
    ((reading .gifBlock [0x2C, 0, 0, 0, 0, 2, 0, 2, 0]).src.drop 0 = 0x2C :: [0, 0, 0, 0, 2, 0, 2, 0] ∧
      ([0, 0, 0, 0, 2, 0, 2, 0] : List Byte).length < 9) := by decide

/-- The operands of LZW.IMAGE loaded for a 2x2 image without a local table, `mcs` read. -/
def loaded (mcs : Byte) (src : List Byte) : State :=
  { ready src with
    sp := 1, lzw := { LzwRegs.reset with mcs := mcs }
    img := { ImgRegs.reset with w := 2, h := 2, palSel := .globalTable, npix := 4 } }

-- A local table of two entries; none. The data of G1, of F6, of G1 with a palette entry never written, and a code size of 1.
theorem witness_ImageWithEmptyData : ((0x80 : Byte).getLsbD 6 = false ∧
      (0 : U16).toNat + (2 : U16).toNat ≤ (ready []).gif.scrW.toNat ∧
      (0 : U16).toNat + (2 : U16).toNat ≤ (ready []).gif.scrH.toNat ∧
      [(⟨1, 2, 3⟩ : Rgb), ⟨4, 5, 6⟩].length =
        (if (0x80 : Byte).getLsbD 7 then 2 ^ ((0x80 &&& 7 : Byte).toNat + 1) else 0) ∧
      2 ≤ (2 : Byte).toNat ∧ (2 : Byte).toNat ≤ 11 ∧ (ready [1, 2, 3, 4, 5, 6, 2, 0]).sp ≤ 8 ∧
      (ready [1, 2, 3, 4, 5, 6, 2, 0]).src.drop 0 = tableBytes [⟨1, 2, 3⟩, ⟨4, 5, 6⟩] ++ 2 :: 0 :: []) ∧
    (([] : List Rgb).length = (if (0 : Byte).getLsbD 7 then 2 ^ ((0 &&& 7 : Byte).toNat + 1) else 0) ∧
      (ready [11, 0]).src.drop 0 = tableBytes [] ++ 11 :: 0 :: []) ∧ (ready []).gif.state = .ready ∧
    after .lzwImage (loaded 2 [2, 3, 0x44, 0x34, 0x05, 0]) (·.gif.state) = some .ready ∧
    after .lzwImage (loaded 2 [2, 2, 0xC4, 0x0B, 0]) (·.gif.state) = some .faulted ∧
    after .lzwImage (loaded 1 [1, 0]) (·.gif.state) = some .faulted ∧
    after .lzwImage { loaded 2 [2, 3, 0x44, 0x34, 0x05, 0] with palG := [] } (·.gif.state) = none := by decide +kernel

theorem ready_cursor (src : List Byte) : CursorIn (ready src) := Nat.zero_le _
theorem ready_table (src : List Byte) : GctOk (ready src) := by
  have : ∀ p < 4, (memRead palG4 p).isSome := by decide
  exact this
theorem ready_screen (src : List Byte) : ScreenFits (ready src) := by
  show 2 * ((2 : U16).toNat * (2 : U16).toNat) ≤ 8
  decide

-- SRC ends inside the local table; after it; a code size of 1 and of 12 after it.
theorem witness_ImageAlwaysEnds : CursorIn (ready []) ∧ GctOk (ready []) ∧ ScreenFits (ready []) ∧
    (0x80 : Byte).getLsbD 6 = false ∧ (0 : U16).toNat + (2 : U16).toNat ≤ (ready []).gif.scrW.toNat ∧
    (0 : U16).toNat + (2 : U16).toNat ≤ (ready []).gif.scrH.toNat ∧
    (ready [1, 2, 3, 4, 5]).src.length < (ready [1, 2, 3, 4, 5]).sp + 3 * 2 ∧
    (ready [1, 2, 3, 4, 5, 6]).src.drop 0 = tableBytes [⟨1, 2, 3⟩, ⟨4, 5, 6⟩] ∧
    (ready [1, 2, 3, 4, 5, 6, 1]).src.drop 0 = tableBytes [⟨1, 2, 3⟩, ⟨4, 5, 6⟩] ++ 1 :: [] ∧
    (1 : Byte).toNat < 2 ∧ 11 < (12 : Byte).toNat :=
  ⟨ready_cursor _, ready_table _, ready_screen _, by decide⟩
-- R175, R189: no byte of image data, no FRAME_DONE; R211: a code size of 12.
theorem test_image_short : after (.gifImage 0 0 2 2 0) (ready []) (fun t => (t.gif.state, t.out)) = some (.done, [.streamEnd]) ∧
    after (.gifImage 0 0 2 2 0x80) (ready [1, 2, 3, 4, 5, 6, 12]) (fun t => (t.gif.fault, t.out, t.sp)) =
      some (some (.lzwParam 12), [], 7) := by decide +kernel
theorem witness_NextEndsInOneOutcome : State.reset.gif.state ≠ .ready ∧ (ready [0]).gif.state = .ready ∧
    CursorIn (ready [0]) ∧ GctOk (ready [0]) ∧ ScreenFits (ready [0]) :=
  ⟨by decide, rfl, ready_cursor _, ready_table _, ready_screen _⟩
theorem witness_TrailerEndsStream : (ready [0x3B]).gif.state = .ready ∧ (ready [0x3B]).src[0]? = some 0x3B ∧
    (0x3B : Byte) ≠ 0x21 ∧ (0x3B : Byte) ≠ 0x2C ∧ (ready [0]).src[0]? = some 0 ∧ (0 : Byte) ≠ 0x21 ∧
    (0 : Byte) ≠ 0x2C := by decide
theorem witness_StartReadsHeader :
    ({ ready [] with gif := { (ready []).gif with state := .faulted } } : State).gif.state = .faulted ∧
    (ready []).gif.state ≠ .faulted ∧ (2 : U16).toNat = 2 ∧
    [(⟨0xFF, 0, 0⟩ : Rgb), ⟨0, 0xFF, 0⟩, ⟨0, 0, 0xFF⟩, ⟨0xFF, 0xFF, 0xFF⟩].length =
      (if (0x81 : Byte).getLsbD 7 then 2 ^ ((0x81 &&& 7 : Byte).toNat + 1) else 0) ∧
    (ready (g1Head ++ [0x3B])).src = magic87a ++ [lo8 2, hi8 2, lo8 2, hi8 2, 0x81, 0, 0] ++
      tableBytes [⟨0xFF, 0, 0⟩, ⟨0, 0xFF, 0⟩, ⟨0, 0, 0xFF⟩, ⟨0xFF, 0xFF, 0xFF⟩] ++ [0x3B] := by decide

/-- `decoding` with the transparent index 0. -/
def transparent0 : State := { decoding [] with gce := { GceRegs.reset with transpOn := true } }

-- The transparent index; the first index without an entry; the last index with one, and room for its pixel.
theorem witness_FirstCodeEmitsPixel : (decoding []).lzw.prev = none ∧ 3 < (decoding []).lzw.clear ∧
    (decoding []).lzw.endCode = (decoding []).lzw.clear + 1 ∧
    (transparent0.gce.transpOn = true ∧ 0 = transparent0.gce.transpIdx.toNat) ∧
    ((decoding []).gce.transpOn = false ∧ (selectedPalette (decoding [])).2 ≤ 4) ∧
    3 < (selectedPalette (decoding [])).2 ∧
    memRead (selectedPalette (decoding [])).1 3 = some ⟨0xFF, 0xFF, 0xFF⟩ ∧
    imgAddr (decoding []).gif (decoding []).img 0 + 1 < (decoding []).dstLen := by decide
-- A palette of two entries with three literals: the second clause's code is a literal.
theorem witness_FirstCodeEmitsPixel_palette :
    let s := { decoding [] with gif := { (decoding []).gif with gctLen := 2 } }
    s.lzw.prev = none ∧ 2 < s.lzw.clear ∧ (selectedPalette s).2 ≤ 2 := by decide

/-- `afterZero` with the entry (0, 1) for the code 6. -/
def withSix : State := { afterZero with dict := [(6, ⟨0, 1⟩)], lzw := { afterZero.lzw with nextCode := 7, prev := some 1 } }

theorem withSix_expands : Expands withSix.lzw.clear withSix.dict 6 [0, 1] :=
  .entry (e := ⟨0, 1⟩) (by decide) rfl (.lit (by decide) : Expands withSix.lzw.clear withSix.dict 0 [0])
theorem withSix_drawable (p : Nat) (h : p < 4) : Drawable withSix p := by
  have : ∀ p < 4, (paletteColor withSix p).isSome := by decide
  exact .inr (this p h)
theorem withSix_room : ∀ k < withSix.img.npix, imgAddr withSix.gif withSix.img k + 1 < withSix.dstLen := by decide

-- A literal and a dictionary code; the largest of each here.
theorem witness_DefinedCodeExpands : withSix.lzw.prev = some 1 ∧
    Expands withSix.lzw.clear withSix.dict 6 [0, 1] ∧ [0, 1].head? = some 0 ∧ [0, 1].length ≤ 4096 ∧
    withSix.img.pixN ≤ withSix.img.npix ∧
    (∀ k < withSix.img.npix, imgAddr withSix.gif withSix.img k + 1 < withSix.dstLen) ∧
    withSix.lzw.endCode = withSix.lzw.clear + 1 ∧ (withSix.lzw.endCode < 6 ∧ 6 < withSix.lzw.nextCode) ∧
    Expands withSix.lzw.clear withSix.dict 3 [3] ∧ 3 < withSix.lzw.clear :=
  ⟨rfl, withSix_expands, rfl, by decide, by decide, withSix_room, by decide, by decide, .lit (by decide), by decide⟩

/-- `withSix` with a palette of one colour, a palette whose second entry nothing has written, a budget of two pixels. -/
def oneColour : State := { withSix with gif := { withSix.gif with gctLen := 1 } }
def holeInPalette : State := { withSix with palG := palG4.take 1 }
def budgetTwo : State := { oneColour with img := { withSix.img with npix := 2 } }

-- Every index drawn; the second without an entry; below the length but never written; dropped by the budget.
theorem witness_CodeOutcome : (∀ x ∈ visible withSix [0, 1], Drawable withSix x) ∧
    (visible oneColour [0, 1] = [0] ++ 1 :: [] ∧ (∀ y ∈ [0], Drawable oneColour y) ∧
      isTransparent oneColour.gce 1 = false ∧ (selectedPalette oneColour).2 ≤ 1) ∧
    (visible holeInPalette [0, 1] = [0] ++ 1 :: [] ∧ (∀ y ∈ [0], Drawable holeInPalette y) ∧
      isTransparent holeInPalette.gce 1 = false ∧ 1 < (selectedPalette holeInPalette).2 ∧
      memRead (selectedPalette holeInPalette).1 1 = none) ∧
    visible budgetTwo [0, 1] = [0] := by unfold Drawable; decide

-- G3's second code: the code 6 after the code 0.
theorem witness_UndefinedCodeExpands : afterZero.lzw.prev = some 0 ∧
    Expands afterZero.lzw.clear afterZero.dict 0 [0] ∧ [0].head? = some 0 ∧ [0].length < 4096 ∧
    afterZero.img.pixN ≤ afterZero.img.npix ∧
    (∀ k < afterZero.img.npix, imgAddr afterZero.gif afterZero.img k + 1 < afterZero.dstLen) ∧
    afterZero.lzw.endCode = afterZero.lzw.clear + 1 ∧ afterZero.lzw.clear + 2 ≤ afterZero.lzw.nextCode ∧
    afterZero.lzw.nextCode < 4096 :=
  ⟨rfl, .lit (by decide), rfl, by decide, by decide, by decide, by decide, by decide, by decide⟩

-- A literal after the code 0.
theorem witness_ClearCodeResets : Instr.lzwLit 1 ∈ [.lzwEnd, .lzwFirst 1, .lzwLit 1, .lzwDict 1, .lzwKwkwk, .lzwBadCode 1] ∧
    (nextState? (exec (.lzwLit 1) afterZero)).isSome := by decide +kernel

/-- `decoding` with one byte of the current sub-block left. -/
def oneLeft (src : List Byte) : State := { decoding src with bits := { BitRegs.reset with blkRem := 1 } }

-- The chain's end consumed; SRC ends in the sub-block; the sub-block, then a terminator.
theorem witness_EndCodeDrains :
    ({ decoding [] with bits := { BitRegs.reset with termSeen := true } } : State).bits.termSeen = true ∧
    ({ decoding [] with bits := { BitRegs.reset with eosSeen := true } } : State).bits.eosSeen = true ∧
    (oneLeft [5, 0]).sp ≤ (oneLeft [5, 0]).src.length ∧ (oneLeft [5, 0]).bits.termSeen = false ∧
    (oneLeft [5, 0]).bits.eosSeen = false ∧
    (oneLeft []).src.length < (oneLeft []).sp + (oneLeft []).bits.blkRem.toNat ∧
    (oneLeft [5, 0]).sp + (oneLeft [5, 0]).bits.blkRem.toNat ≤ (oneLeft [5, 0]).src.length ∧
    Drains ((oneLeft [5, 0]).src.drop ((oneLeft [5, 0]).sp + (oneLeft [5, 0]).bits.blkRem.toNat)) 1 :=
  ⟨rfl, rfl, by decide, rfl, rfl, by decide, by decide, .terminator _⟩

/-- `afterZero` with a full dictionary. -/
def fullDict : State := { afterZero with lzw := { afterZero.lzw with nextCode := 4096, codeSize := 12 } }

-- F7 and F6 of 95_test_vectors.md; the value 4096 with a full dictionary.
theorem witness_BadCodeFaults : (decoding []).lzw.endCode = (decoding []).lzw.clear + 1 ∧
    ((decoding []).lzw.prev = none ∧ (decoding []).lzw.endCode < 6) ∧
    (afterZero.lzw.prev = some 0 ∧ afterZero.lzw.endCode < 7 ∧ afterZero.lzw.nextCode < 7) ∧
    (fullDict.lzw.prev = some 0 ∧ fullDict.lzw.endCode < 4096 ∧ 4096 = fullDict.lzw.nextCode) := by decide
theorem witness_CodeClasses : (ctx2 6 none).endCode = (ctx2 6 none).clear + 1 ∧
    (ctx2 6 none).endCode < (ctx2 6 none).nextCode := by decide
-- A code of the wrong class for each token; an entry and a palette entry that nothing has written.
theorem witness_CodeTokenStops : decodeCode (codeCtx afterZero) 3 ≠ .lzwFirst 3 ∧
    decodeCode (codeCtx (decoding [])) 3 ≠ .lzwLit 3 ∧ decodeCode (codeCtx afterZero) 6 ≠ .lzwDict 6 ∧
    decodeCode (codeCtx afterZero) 6 ≠ .lzwBadCode 6 ∧
    decodeCode (codeCtx (decoding [])) (decoding []).lzw.nextCode ≠ .lzwKwkwk ∧
    decodeCode (codeCtx withSix) 6 = .lzwDict 6 ∧ memRead ({ withSix with dict := [] } : State).dict 6 = none ∧
    decodeCode (codeCtx (decoding [])) 3 = .lzwFirst 3 ∧ isTransparent (decoding []).gce 3 = false ∧
    3 < (selectedPalette { decoding [] with palG := [] }).2 ∧
    memRead (selectedPalette { decoding [] with palG := [] }).1 3 = none := by decide

/-- No image loaded, but a minimum code size. -/
def withMcs (mcs : Byte) (src : List Byte) : State :=
  { ready src with lzw := { LzwRegs.reset with mcs := mcs } }

-- F4 and F5 of 95_test_vectors.md: 1 and 12 fault; 2 and 11 are decoded; the states of GIFD.
theorem witness_LzwSetUp : (∀ st ∈ [GifState.done, .error, .faulted],
      let s : State := { withMcs 2 [] with gif := { (ready []).gif with state := st } }
      s.gif.state = .done ∨ s.gif.state = .error ∨ s.gif.state = .faulted) ∧
    ((withMcs 1 []).gif.state = .ready ∧ State.reset.gif.state = .idle) ∧
    (withMcs 1 []).lzw.mcs.toNat < 2 ∧ 11 < (withMcs 12 []).lzw.mcs.toNat ∧
    2 ≤ (withMcs 2 [0]).lzw.mcs.toNat ∧ (withMcs 11 [0]).lzw.mcs.toNat ≤ 11 ∧ (withMcs 2 [0]).img.npix = 0 ∧
    (withMcs 2 [0]).sp ≤ (withMcs 2 [0]).src.length ∧ Drains ((withMcs 2 [0]).src.drop (withMcs 2 [0]).sp) 1 :=
  ⟨by decide, by decide, by decide, by decide, by decide, by decide, rfl, by decide, .terminator _⟩

theorem decoding_ready (src : List Byte) : ImageReady (decoding src) where
  palette := by
    have : ∀ p < 4, (memRead palG4 p).isSome := by decide
    exact this
  room := by
    have : ∀ k < (decoding []).img.npix, imgAddr (decoding []).gif (decoding []).img k + 1 < 8 := by decide
    exact this
theorem witness_LzwImageAlwaysEnds : (decoding [2, 0x84, 0x51, 0]).gif.state = .ready ∧
    ImageReady (decoding [2, 0x84, 0x51, 0]) ∧ CursorIn (decoding [2, 0x84, 0x51, 0]) :=
  ⟨rfl, decoding_ready _, Nat.zero_le _⟩
-- LZW.IMAGE started on the smallest admitted size; every class of code in the dictionary so set up.
theorem witness_DictionaryStaysValid :
    (let s : State := { withMcs 2 [] with inbox := [.start .lzwImage] }
     s.inbox = .start .lzwImage :: [] ∧ s.ctl = none ∧ s.sched.frameBusy = false ∧ s.gif.state = .ready ∧
      2 ≤ s.lzw.mcs.toNat ∧ s.lzw.mcs.toNat ≤ 11) ∧
    LzwOk (decoding [3]) ∧ ImageReady (decoding [3]) ∧ CursorIn (decoding [3]) ∧
    (decoding [3]).img.pixN < (decoding [3]).img.npix :=
  ⟨by decide, setup_ok (s := { ready [3] with
      img := { ImgRegs.reset with w := 2, h := 2, palSel := .globalTable, npix := 4 }
      lzw := { LzwRegs.reset with mcs := 2 } }) rfl, decoding_ready _, Nat.zero_le _, by decide⟩

-- One data byte and the terminator: eight bits for a code of three. SRC ends in a sub-block after its first byte. No bit
-- left: the terminator; a missing length byte. A terminator seen, with three bits held and with two.
theorem witness_CodesAreBitFields :
    (Pending (decoding [1, 0x44, 0]) false (bitsOf 8 0x44) ∧ Pending (decoding [2, 0x44]) true (bitsOf 8 0x44) ∧
      (decoding [1, 0x44, 0]).lzw.codeSize ≤ (bitsOf 8 0x44).length) ∧
    (Pending (decoding [0]) false [] ∧ Pending (decoding []) true [] ∧
      ([] : List Bool).length < (decoding [0]).lzw.codeSize) ∧
    ((decoding []).bits.termSeen = false ∧ (decoding []).bits.eosSeen = false ∧
      (decoding []).bits.buf < 2 ^ (decoding []).bits.cnt) ∧
    (∀ n ∈ [2, 3], let s := { decoding [] with bits := { BitRegs.reset with cnt := n, termSeen := true } }
      s.bits.termSeen = true ∧ (s.lzw.codeSize ≤ s.bits.cnt ↔ n = 3) ∧ (s.bits.cnt < s.lzw.codeSize ↔ n = 2)) :=
  ⟨⟨⟨rfl, rfl, by decide, [0x44], .block 1 _ _ _ (by decide) (.byte 0 0x44 _ _ _ (.terminator [])), rfl⟩,
      ⟨rfl, rfl, by decide, [0x44], .block 2 _ _ _ (by decide) (.byte 1 0x44 _ _ _ (.short 0)), rfl⟩, by decide⟩,
    ⟨⟨rfl, rfl, by decide, [], .terminator [], rfl⟩, ⟨rfl, rfl, by decide, [], .noLength, rfl⟩, by decide⟩,
    by decide, by decide⟩

/-! ### SCHED -/

-- Q8 of 95_test_vectors.md; the next pass keeps its interval.
theorem witness_LoadStartsPass : q8.sched.state = .loading ∧ q8.sched.fault = none ∧
    1 ≤ (q8.dir.getD q8.sched.folderIdx []).length ∧ 1 ≤ q8.cfg.frameW ∧ q8.cfg.frameW ≤ q8.cfg.surfW ∧
    1 ≤ q8.cfg.frameH ∧ q8.cfg.frameH ≤ q8.cfg.surfH ∧
    q8.cfg.offY + q8.cfg.frameH * (q8.cfg.surfH / q8.cfg.frameH) ≤ q8.cfg.surfH := by decide
-- Z7, Q7 and Q6.
theorem witness_LoadFaults : (q6.sched.state = .loading ∧ q6.sched.fault = none) ∧
    (({ q8 with dir := [] } : State).dir.getD 0 []).length = 0 ∧
    (1 ≤ (q6.dir.getD q6.sched.folderIdx []).length ∧ 1 ≤ q6.cfg.frameW ∧ 1 ≤ q6.cfg.frameH) ∧
    ({ q6.cfg with surfW := 99 } : Cfg).surfW < q6.cfg.frameW ∧
    (q6.cfg.frameW ≤ q6.cfg.surfW ∧ q6.cfg.frameH ≤ q6.cfg.surfH ∧
      q6.cfg.surfH < q6.cfg.offY + q6.cfg.frameH * (q6.cfg.surfH / q6.cfg.frameH)) := by decide

/-- `inPass` in FOLDER_SWITCH. -/
def switching : State := { inPass 1 with sched := { (inPass 1).sched with state := .folderSwitch } }
/-- `inPass` with the flag clear. -/
def waiting : State := { inPass 1 with sched := { (inPass 1).sched with frameReady := false } }

theorem witness_TickWaitSwitch : waiting.timer.armed = true ∧
    (waiting.sched.state = .timedPlayback ∧ waiting.sched.frameReady = false ∧ waiting.sched.frameBusy = false) ∧
    switching.sched.state = .folderSwitch ∧ switching.sched.fault = none := by decide
theorem witness_NotEnabledChangesNothing :
    (let s : State := { inPass 0 with gif := (ready []).gif }
     s.gif.state = .ready ∧ s.sched.frameBusy = false) ∧ q8.timer.armed = false ∧ waiting.sched.state ≠ .loading ∧
    q8.sched.state ≠ .timedPlayback ∧ waiting.sched.state ≠ .folderSwitch := by decide
theorem witness_TickCommutes : (Instr.pxcPack 1 2 3 ≠ .schTick ∧ Instr.pxcPack 1 2 3 ≠ .schStep ∧
      Instr.pxcPack 1 2 3 ≠ .schLoad ∧ Instr.pxcPack 1 2 3 ≠ .schSwitch) ∧ waiting.timer.armed = true ∧
    exec (.pxcPack 1 2 3) waiting = .next { waiting with ret := .color 0 } := ⟨by decide, rfl, rfl⟩

/-- The hypotheses of the statement about a frame branch. -/
def FrameNext (s : State) (file : List Byte) : Prop :=
  s.sched.state = .timedPlayback ∧ s.sched.fault = none ∧ s.sched.frameReady = true ∧ s.sched.frameBusy = false ∧
  s.sched.interval = some 500 ∧ 1 ≤ s.cfg.refreshDiv ∧ s.gif.state ≠ .ready ∧
  (s.dir.getD s.sched.folderIdx [])[s.sched.frameIdx]? = some file ∧
  drleCheck s.cfg.frameW s.cfg.frameH s.cfg.offX s.cfg.offY s.cfg.surfW s.sched.scaleX s.sched.scaleY
    s.sched.extraRows (2 * s.cfg.surfW * s.cfg.surfH) = none

/-- The last frame's decode ended, its branch still in progress. -/
def branchEnd : State :=
  { inPass 1 with sched := { (inPass 1).sched with frameReady := false, frameBusy := true } }

-- P4 of 95_test_vectors.md: a frame inside the pass, and its last frame, whole and token by token.
theorem witness_FrameBranch : FrameNext (inPass 0) [0x00, 0x04, 0xF8, 0x00, 0x07, 0xE0, 0x00, 0x1F, 0xFF, 0xFF] ∧
    (inPass 0).sched.frameIdx + 1 ≠ (inPass 0).sched.frameCount ∧ FrameNext (inPass 1) [0x03, 0x01, 0x12, 0x34] ∧
    (inPass 1).sched.frameIdx + 1 = (inPass 1).sched.frameCount ∧
    (branchEnd.sched.state = .timedPlayback ∧ branchEnd.sched.fault = none ∧ branchEnd.sched.frameBusy = true ∧
      branchEnd.ctl = none ∧ branchEnd.sched.interval = some 500) := by unfold FrameNext; decide
-- The same frame with one extra row too many.
theorem witness_FrameDecodeFault :
    let s := { inPass 1 with sched := { (inPass 1).sched with extraRows := 2 } }
    s.sched.state = .timedPlayback ∧ s.sched.fault = none ∧ s.sched.frameReady = true ∧ s.sched.frameBusy = false ∧
    1 ≤ s.cfg.refreshDiv ∧ s.gif.state ≠ .ready ∧
    (s.dir.getD s.sched.folderIdx [])[s.sched.frameIdx]? = some [0x03, 0x01, 0x12, 0x34] ∧
    drleCheck s.cfg.frameW s.cfg.frameH s.cfg.offX s.cfg.offY s.cfg.surfW s.sched.scaleX s.sched.scaleY
      s.sched.extraRows (2 * s.cfg.surfW * s.cfg.surfH) = some .drleGeometry := by decide

-- U4, U7, U2 and U5 of 95_test_vectors.md: target, observed, frames, interval of each clause.
theorem witness_IntervalCorrection : ((1 : Nat) ≤ 4 ∧ (1 : Nat) ≤ 250 ∧ (1000 : Int) = 1000) ∧
    ((2 : Int) + (1000 - 5000) / 4 ≤ 0) ∧ ((0 : Int) < 1000 - 997 ∧ (1000 : Int) - 997 < 4) ∧
    ((1000 : Int) - 1001 < 0 ∧ -(4 : Int) < 1000 - 1001) := by decide
-- T1 of 95_test_vectors.md.
theorem witness_IntervalConverges : (1 : Nat) ≤ 4 ∧ (1 : Nat) ≤ 250 ∧ (1 : Int) ≤ (1000 - 13) / 4 := by decide

-- Not enabled; in the window at its last millisecond; at its end, each edge and none.
theorem witness_PollButtons : q8.sched.state ≠ .timedPlayback ∧
    (∀ now ∈ [199, 200], ∀ a ∈ [true, false], ∀ b ∈ [true, false],
      let s := reads now a b (buttons false false (some 0) 1)
      s.sched.state = .timedPlayback ∧ s.sched.frameBusy = false ∧ s.sched.fault = none ∧ 1 ≤ s.cfg.folderCount ∧
      s.btn.lastSwitch = some 0 ∧ (s.nowMs < 0 + 200 ↔ now = 199) ∧
      (s.pins.a = false ∧ s.btn.lastA = false ↔ a = false) ∧ (s.pins.b = false ∧ s.btn.lastB = false ↔ b = false)) := by
  decide

/-- SCHED faulted. -/
def schedFaulted : State := schedRaise .scaleZero q8
theorem witness_FaultedSchedStops : schedFaulted.sched.fault.isSome = true ∧ schedFaulted.timer.armed = false ∧
    noReset schedFaulted ∧ step schedFaulted = .next schedFaulted := ⟨rfl, rfl, fun _ h => (nomatch h), rfl⟩

/-! ### The machine -/

theorem witness_StepRunsToken : ((reading .gifBlock [0x3B]).inbox = [] ∧ (reading .gifBlock [0x3B]).ctl = some .gifBlock ∧
      decodeAt .gifBlock (reading .gifBlock [0x3B]).gif.scrFlags ((reading .gifBlock [0x3B]).src.drop 0) =
        .ok (.gifTrailer, 1)) ∧
    ((decoding [1, 0x44, 0]).inbox = [] ∧ (decoding [1, 0x44, 0]).ctl = some .lzwCode ∧
      (decoding [1, 0x44, 0]).img.pixN < (decoding [1, 0x44, 0]).img.npix) ∧
    (readCode (decoding [1, 0x44, 0])).1 = some 4 ∧ (readCode (decoding [0])).1 = none ∧
    (withMcs 2 []).img.npix ≤ (withMcs 2 []).img.pixN ∧
    (∀ bytes ∈ [[], [0x21]], (reading .gifBlock bytes).src.drop (reading .gifBlock bytes).sp = [] ∨
      (reading .gifBlock bytes).src.drop (reading .gifBlock bytes).sp = [0x21]) ∧
    ((at42 0 [0, 0, 1]).inbox = [] ∧ (at42 0 [0, 0, 1]).ctl = some .drle ∧
      (at42 0 [0, 0, 1]).src.length < (at42 0 [0, 0, 1]).sp + 2) := by decide

/-- `inPass` with a poll due. -/
def pollOwed : State := { inPass 1 with sched := { (inPass 1).sched with pollDue := true } }
theorem witness_WhoMovesNext :
    (({ q8 with inbox := [.op .schLoad] } : State).inbox = .op .schLoad :: [] ∧ isCommand .schLoad = true ∧
      q8.ctl = none ∧ q8.sched.frameBusy = false ∧ Instr.schLoad ≠ .schStep) ∧
    (pollOwed.ctl = none ∧ pollOwed.sched.frameBusy = false ∧ pollOwed.sched.state = .timedPlayback ∧
      pollOwed.sched.fault = none ∧ pollOwed.sched.pollDue = true ∧ pollOwed.cfg.mode = .drleFolder) ∧
    ({ pollOwed with sched := { pollOwed.sched with state := .loading } } : State).sched.state ≠ .timedPlayback ∧
    ((reading .gifBlock []).ctl.isSome = true ∧ Instr.schLoad ≠ .schTick) ∧
    (({ q8 with inbox := [.start (decode42 [0, 0])] } : State).inbox = .start (decode42 [0, 0]) :: [] ∧
      isCommand (decode42 [0, 0]) = true) ∧
    (q8.inbox = [] ∧ (nextState? (step { q8 with inbox := [.op (decode42 [0, 0])] })).isSome) ∧
    isCommand .gifTrailer = false ∧ (branchEnd.inbox = [] ∧ branchEnd.ctl = none ∧ branchEnd.sched.frameBusy = true) ∧
    ({ q8 with cfg := { q8.cfg with mode := .gifFile } } : State).cfg.mode = .gifFile ∧
    (q8.sched.fault = none ∧ q8.cfg.mode = .drleFolder ∧ q8.sched.state = .loading) ∧
    (waiting.cfg.mode = .drleFolder ∧ waiting.sched.state = .timedPlayback ∧ waiting.sched.pollDue = false) ∧
    (switching.cfg.mode = .drleFolder ∧ switching.sched.state = .folderSwitch) := by decide +kernel
theorem witness_DecodeOfEncode : Instr.wf (.gifGct [⟨1, 2, 3⟩, ⟨4, 5, 6⟩]) = true ∧
    encode (.gifGct [⟨1, 2, 3⟩, ⟨4, 5, 6⟩]) = some (.gifGct, [1, 2, 3, 4, 5, 6]) ∧ tableSize 0x80 = 2 := by decide
theorem witness_EncodeOfDecode : decodeAt .gifBlock 0 [0x21, 0xFE, 3, 0x41] = .ok (.gifExt 0xFE, 2) := by decide

theorem ready_memories (src : List Byte) : MemoriesWf (ready src) := by
  have h1 : Mem.wf (ready []).dst := by decide
  have h2 : Mem.wf (ready []).palG := by decide
  exact ⟨h1, .nil, .nil, h2, .nil⟩
theorem witness_MemoriesStayCanonical : MemoriesWf (reading .gifBlock [0x3B]) ∧
    (nextState? (step (reading .gifBlock [0x3B]))).isSome :=
  ⟨⟨(ready_memories []).dst, .nil, .nil, (ready_memories []).palG, .nil⟩, by decide⟩
theorem witness_CursorAndTableStay : CursorIn (reading .gifBlock [0x3B]) ∧ GctOk (reading .gifBlock [0x3B]) ∧
    (nextState? (step (reading .gifBlock [0x3B]))).isSome := ⟨Nat.zero_le _, ready_table [], by decide⟩
theorem witness_SchedulerStaysOk : SchedOk (inPass 1) ∧ (nextState? (step (inPass 1))).isSome :=
  ⟨{ interval_pos := fun v h => by cases h; decide
     pass := fun _ => by decide
     loading := fun h => by cases h
     busy := fun h => by cases h
     stopped := fun h => by cases h }, by decide +kernel⟩
-- The two entries that are the reset event; the second in the middle of a store, of an image, of a decode, and of what the
-- main context does next: SCHED's frame, a block of a GIF stream.
theorem witness_ResetLeaves : (∀ x ∈ [Input.reset, .cut (some (decode42 [0, 0])) 2, .cut none 2], isReset x = true ∧
      (nextState? (step { inPass 1 with inbox := [x] })).isSome) ∧
    (nextState? (inFlight (some (.pxcStore 0 1)) ee16)).isSome ∧
    (nextState? (inFlight (some .gifNext) (ready [0x3B]))).isSome ∧
    (nextState? (inFlight (some (decode42 [0, 0])) ee16)).isSome ∧
    (nextState? (inFlight none (inPass 1))).isSome ∧
    (nextState? (inFlight none (reading .gifBlock [0x3B]))).isSome := by decide +kernel
-- The clock at the time it shows; a source with no decoder, and before the GIF.START that abandons a stream.
theorem witness_PortsStay : (∀ x ∈ [Input.turn, .clock 7, .buttons false true, .op .schStep],
      (nextState? (step { inPass 1 with inbox := [x] })).isSome) ∧
    (inPass 1).inbox.head? ≠ some (.clock 7) ∧ (inPass 1).inbox.head? ≠ some (.buttons false true) ∧
    (inPass 1).nowMs ≤ 0 ∧ q8.ctl = none ∧ q8.sched.frameBusy = false ∧ q8.gif.state ≠ .ready ∧
    (ready []).gif.state = .ready ∧ ([.op (.gifStart 2 2)] : List Input).head? = some (.op (.gifStart 2 2)) := by
  decide +kernel
-- A stream that has ended in each way; a decode in progress with none open; a call that has faulted.
theorem witness_FaultedUntilReset : (∀ st ∈ [GifState.done, .error, .faulted],
      let s := { ready [] with gif := { (ready []).gif with state := st } }
      s.ctl = none ∧ s.gif.state ≠ .ready ∧ noReset s ∧ (nextState? (step s)).isSome ∧
      ∀ expW expH, s.inbox.head? ≠ some (.op (.gifStart expW expH)) ∧ s.inbox.head? ≠ some (.start (.gifStart expW expH))) ∧
    OneDecoder (at42 0 [0, 0, 0, 0]) ∧ noReset (callRaise .drleParam State.reset) ∧
    (callRaise .drleParam State.reset).callFault.isSome = true := by
  have none : ∀ s : State, s.inbox = [] → noReset s ∧ ∀ x, s.inbox.head? ≠ some x := fun s h => by
    unfold noReset; rw [h]; exact ⟨fun _ h => (nomatch h), fun _ h => (nomatch h)⟩
  refine ⟨fun st hst => ?_, ⟨fun _ => .inr rfl, fun h => by cases h⟩, (none _ rfl).1, rfl⟩
  exact ⟨rfl, by simp at hst; rcases hst with rfl | rfl | rfl <;> decide, (none _ rfl).1, rfl,
    fun _ _ => ⟨(none _ rfl).2 _, (none _ rfl).2 _⟩⟩
-- Each clause at its first refused value.
theorem witness_RefusedOutsideDomain : ([0, 0] : List Byte).length ≠ ([] : List Byte).length ∧ ([0] : List Byte).length % 2 ≠ 0 ∧
    (q8.sched.state = .loading ∧ q8.sched.fault = none ∧ 1 ≤ (q8.dir.getD q8.sched.folderIdx []).length ∧
      ({ q8.cfg with frameW := 0 } : Cfg).frameW = 0) ∧
    ((inPass 2).sched.state = .timedPlayback ∧ (inPass 2).sched.fault = none ∧ (inPass 2).sched.frameBusy = false ∧
      (inPass 2).sched.frameReady = true ∧ ({ (inPass 2).cfg with refreshDiv := 0 } : Cfg).refreshDiv = 0 ∧
      1 ≤ (inPass 2).cfg.refreshDiv ∧ ((inPass 2).dir.getD 0 [])[(inPass 2).sched.frameIdx]? = none) ∧
    (inPass 2).gif.state ≠ .ready ∧
    (let s := { reads 200 false false (buttons false false (some 0) 0) with cfg := { q8.cfg with folderCount := 0 } }
     s.sched.state = .timedPlayback ∧ s.sched.fault = none ∧ s.sched.frameBusy = false ∧ s.cfg.folderCount = 0 ∧
      s.btn.lastSwitch = some 0 ∧ 0 + 200 ≤ s.nowMs ∧ (s.pins.a = false ∧ s.btn.lastA = false) ∧
      (s.pins.b = false ∧ s.btn.lastB = false)) ∧
    (1 ≠ (inPass 0).nowMs ∧ false ≠ (inPass 0).pins.a ∧ false ≠ (inPass 0).pins.b) ∧
    6 < (reads 7 true true q8).nowMs ∧ (reading .drle []).ctl.isSome = true ∧ branchEnd.sched.frameBusy = true ∧
    (ready []).gif.state = .ready := by decide
-- U17 at the time the clock shows and one below; R76 with and without the GIF.START that abandons a stream.
theorem test_step_clock : step { reads 7 true true q8 with inbox := [.clock 6] } = .refused .clockDecreases ∧
    afterStep { reads 7 true true q8 with inbox := [.clock 7] } (·.nowMs) = some 7 := ⟨rfl, by decide⟩
theorem test_step_source : step { ready [] with inbox := [.source [1], .op .gifNext] } = .refused .srcWhileRunning ∧
    afterStep { ready [9] with inbox := [.source [1], .op (.gifStart 2 2)] } (fun t => (t.src, t.sp)) = some ([1], 0) :=
  ⟨rfl, by decide⟩
-- The poll whose operands are not what the ports read.
theorem test_poll_operands : exec (.schPoll 1 true true) (inPass 0) = .refused .pollOperands := rfl

end Sys2Proof.Tests
end

section
/-! PROOFS. What each family of instructions may change: the inversion lemmas of `exec`, `fetchAt` and `startOp` from
which the step invariants of 10_state.md follow. -/

namespace Sys2Proof.Machine

/-! ## The global colour table -/

/-- The global colour table and its length stay. -/
structure TableKept (s t : State) : Prop where
  palG : t.palG = s.palG
  gctLen : t.gif.gctLen = s.gif.gctLen

theorem TableKept.refl (s : State) : TableKept s s := ⟨rfl, rfl⟩

theorem TableKept.trans {s t u : State} (h1 : TableKept s t) (h2 : TableKept t u) : TableKept s u :=
  ⟨h2.palG.trans h1.palG, h2.gctLen.trans h1.gctLen⟩

theorem TableKept.gctOk {s t : State} (h : TableKept s t) (hs : GctOk s) : GctOk t := by
  unfold GctOk at *
  rw [h.palG, h.gctLen]
  exact hs

theorem LzwFrame.tableKept {s t : State} (h : LzwFrame s t) : TableKept s t :=
  ⟨h.kept.palG, by rw [h.kept.gif]⟩

theorem DrleFrame.tableKept {s t : State} (h : DrleFrame s t) : TableKept s t := by
  rw [h]; exact ⟨rfl, rfl⟩

theorem SchedFrame.tableKept {s t : State} (h : SchedFrame s t) : TableKept s t := by
  rw [h]; exact ⟨rfl, rfl⟩

/-- A table of no entries is whole, as GIF.START and reset leave it (R171, R341). -/
theorem gctOk_of_empty {s : State} (h : s.gif.gctLen = 0) : GctOk s := by
  intro p hp
  rw [h] at hp
  exact absurd hp (Nat.not_lt_zero p)

/-- Every entry of a table just written holds a colour (R178). -/
theorem memRead_writePalette_isSome (table : List Rgb) (m : Mem Rgb) {p : Nat} (hp : p < table.length) :
    (memRead (writePalette table 0 m) p).isSome := by
  rw [memRead_writePalette, dif_pos (by omega)]
  rfl

theorem settle_tableKept {s t : State} {r : Res} (h : r.All (TableKept s)) (ht : r.settle = .next t) : TableKept s t := by
  cases r with
  | ok u => cases ht; exact h
  | raised f u => cases ht; exact h.trans ⟨rfl, rfl⟩
  | stuck r => cases ht

theorem lzwImage_tableKept (s : State) : (lzwImage s).All (TableKept s) :=
  (lzwImage_frame s).mono fun _ ht => ht.1.tableKept

theorem lzwToken_tableKept (i : Instr) (s : State) : (lzwToken i s).All (TableKept s) :=
  (lzwToken_keeps i s).mono fun _ ht => ht.frame.tableKept

theorem localTable_tableKept {s t s1 : State} (h : localTable s = (some t, s1)) : TableKept s t := by
  rcases localTable_cases s with ⟨table, -, -, -, hl⟩ | ⟨-, hl⟩
  · rw [h] at hl; cases hl; exact ⟨rfl, rfl⟩
  · rw [h] at hl; cases hl

theorem streamByte_tableKept (s : State) : TableKept s (streamByte s).2 := by
  rw [streamByte_frame s]; exact ⟨rfl, rfl⟩

theorem imageBody_tableKept {s t : State} (h : imageBody s = .next t) : TableKept s t := by
  unfold imageBody at h
  split at h
  · next s1 hl =>
    cases h
    rcases localTable_cases s with ⟨table, -, -, -, hl'⟩ | ⟨-, hl'⟩
    · rw [hl] at hl'; cases hl'
    · rw [hl] at hl'; cases hl'; exact ⟨rfl, rfl⟩
  · next s2 s1 hl =>
    have h2 := localTable_tableKept hl
    have h3 := h2.trans (streamByte_tableKept s2)
    split at h
    · next s3 hb => rw [hb] at h3; cases h; exact h3.trans ⟨rfl, rfl⟩
    · next mcs s3 hb =>
      rw [hb] at h3
      have h4 : TableKept s3 (imageData mcs s3) := ⟨rfl, rfl⟩
      refine (h3.trans h4).trans (settle_tableKept ?_ h)
      exact (lzwImage_tableKept _).bind fun u hu => hu.trans ⟨rfl, rfl⟩

theorem execGifImage_tableKept {l tp w h : U16} {f : Byte} {s t : State} (hx : execGifImage l tp w h f s = .next t) :
    TableKept s t := by
  unfold execGifImage at hx
  dsimp only at hx
  split at hx
  · cases hx; exact ⟨rfl, rfl⟩
  · split at hx
    · cases hx; exact ⟨rfl, rfl⟩
    · exact TableKept.trans (t := setDescriptor l tp w h f s) ⟨rfl, rfl⟩ (imageBody_tableKept hx)

theorem execGifLsd_tableKept {w h : U16} {f b a : Byte} {s t : State} (hx : execGifLsd w h f b a s = .next t) :
    TableKept s t := by
  unfold execGifLsd at hx
  dsimp only at hx
  split at hx
  · cases hx; exact ⟨rfl, rfl⟩
  · cases hx; exact ⟨rfl, rfl⟩

theorem execGifGce_tableKept {body : List Byte} {s t : State} (h : execGifGce body s = .next t) : TableKept s t := by
  unfold execGifGce at h
  split at h
  · cases h; exact .refl s
  · cases h; exact ⟨rfl, rfl⟩

/-- A GIF token keeps the table whole: only GIF.GCT writes it, and then to its full length (R178). -/
theorem gifToken_gctOk {i : Instr} {s t : State} (h : gifToken i s = .next t) (hs : GctOk s) : GctOk t := by
  cases i with
  | gifHeader87a => cases h; exact hs
  | gifHeader89a => cases h; exact hs
  | gifLsd w h' f b a => exact (execGifLsd_tableKept (w := w) (h := h') (f := f) (b := b) (a := a) h).gctOk hs
  | gifGct table => cases h; exact fun p hp => memRead_writePalette_isSome table s.palG hp
  | gifGce body => exact (execGifGce_tableKept (body := body) h).gctOk hs
  | gifExt label => cases h; exact hs
  | gifImage l tp w h' f => exact (execGifImage_tableKept h).gctOk hs
  | gifTrailer => cases h; exact hs
  | gifUnknown b => cases h; exact hs
  | _ => cases h

theorem fetchBytes_tableKept (p : Pos) (s : State) : TableKept s (fetchBytes p s).state := by
  unfold fetchBytes
  split
  · exact ⟨rfl, rfl⟩
  · cases p with
    | lzwCode =>
      exact TableKept.trans (t := { s with sp := s.src.length }) ⟨rfl, rfl⟩ (endImage_keeps _).frame.tableKept
    | _ => exact ⟨rfl, rfl⟩
  · exact ⟨rfl, rfl⟩
  · exact ⟨rfl, rfl⟩

/-- Fetching a token reads the table's length and writes neither it nor the table. -/
theorem fetchAt_tableKept (p : Pos) (s : State) : TableKept s (fetchAt p s).state := by
  cases p with
  | lzwCode => exact (fetchCode_keeps s).frame.tableKept
  | drle => exact fetchBytes_tableKept .drle s
  | gifHeader => exact fetchBytes_tableKept .gifHeader s
  | gifLsd => exact fetchBytes_tableKept .gifLsd s
  | gifGct => exact fetchBytes_tableKept .gifGct s
  | gifBlock => exact fetchBytes_tableKept .gifBlock s

theorem gifRun_gctOk (fuel : Nat) {s t : State} (h : gifRun fuel s = .next t) (hs : GctOk s) : GctOk t := by
  induction fuel generalizing s with
  | zero => cases h; exact hs
  | succ fuel ih =>
    simp only [gifRun] at h
    split at h
    · cases h; exact hs
    · next p hp =>
      have hf := fetchAt_tableKept p s
      split at h
      · next s1 h1 => rw [h1] at hf; cases h; exact hf.gctOk hs
      · next i s1 h1 =>
        rw [h1] at hf
        obtain ⟨u, hu, hr⟩ := andThen_eq_next h
        exact ih hr (gifToken_gctOk hu (hf.gctOk hs))

theorem execGifStart_gctOk {w h : Nat} {s t : State} (hx : execGifStart w h s = .next t) (hs : GctOk s) : GctOk t := by
  unfold execGifStart at hx
  split at hx
  · cases hx; exact hs
  · exact gifRun_gctOk _ hx (gctOk_of_empty rfl)

theorem execGifNext_gctOk {s t : State} (hx : execGifNext s = .next t) (hs : GctOk s) : GctOk t := by
  unfold execGifNext at hx
  split at hx
  · exact gifRun_gctOk _ hx hs
  · cases hx; exact hs

theorem execLzwImage_tableKept {s t : State} (hx : execLzwImage s = .next t) : TableKept s t := by
  unfold execLzwImage at hx
  split at hx
  · cases hx; exact .refl s
  · exact settle_tableKept (lzwImage_tableKept s) hx

theorem execLzwImage_keeps {s t : State} (hx : execLzwImage s = .next t) : GifKeeps s t := by
  unfold execLzwImage at hx
  split at hx
  · cases hx; exact .refl s
  · exact settle_keeps (lzwImage_keeps s) hx

/-! ## The families of instructions -/

/-- What PXC, the delta-RLE codec and its encoder may change: DST and its length, SRC and the cursor, the codec's own
registers, and the outcome of a direct call. -/
def CodecFrame (s t : State) : Prop :=
  t = { s with
    src := t.src, dst := t.dst, dstLen := t.dstLen, ret := t.ret, callFault := t.callFault, ctl := t.ctl, sp := t.sp
    drle := t.drle }

theorem CodecFrame.trans {s t u : State} (h1 : CodecFrame s t) (h2 : CodecFrame t u) : CodecFrame s u := by
  unfold CodecFrame at *
  rw [h2, h1]

theorem CodecFrame.tableKept {s t : State} (h : CodecFrame s t) : TableKept s t := by
  rw [h]; exact ⟨rfl, rfl⟩

theorem CodecFrame.sched {s t : State} (h : CodecFrame s t) : t.sched = s.sched ∧ t.timer = s.timer := by
  rw [h]; exact ⟨rfl, rfl⟩

theorem DrleFrame.codec {s t : State} (h : DrleFrame s t) : CodecFrame s t ∧ t.src = s.src := by
  refine ⟨?_, h.operands.src⟩
  unfold CodecFrame
  rw [h]

theorem GifKeeps.src {s t : State} (h : GifKeeps s t) : t.src = s.src := by rw [h.frame]

theorem SchedFrame.src {s t : State} (h : SchedFrame s t) : t.src = s.src := by rw [h]

theorem drleStart_codec (file : List Byte) (w h x y S sx sy e len : Nat) (s : State) :
    CodecFrame s (drleStart file w h x y S sx sy e len s) ∧
      ((drleStart file w h x y S sx sy e len s).src = s.src ∨
        (drleStart file w h x y S sx sy e len s).src = file) := by
  unfold drleStart
  split
  · exact ⟨rfl, .inl rfl⟩
  · split
    · exact ⟨rfl, .inl rfl⟩
    · exact ⟨rfl, .inr rfl⟩

/-- A direct decode replaces SRC by its operand, or leaves it (R60, R76). -/
theorem execDrleDecode_codec {file : List Byte} {w h x y S sx sy e len : Nat} {s t : State}
    (hx : execDrleDecode file w h x y S sx sy e len s = .next t) :
    CodecFrame s t ∧ (t.src = s.src ∨ t.src = file) := by
  unfold execDrleDecode at hx
  split at hx
  · cases hx; exact ⟨rfl, .inl rfl⟩
  · split at hx
    · cases hx; exact ⟨rfl, .inl rfl⟩
    · obtain ⟨hf, hsrc⟩ := (drleRun_keeps _ hx).frame.codec
      exact ⟨CodecFrame.trans (t := drleSetup file w h x y S sx sy e len s) rfl hf, .inr hsrc⟩

/-- The families of instructions by what one that answers the next state `t` may have changed of `s`. -/
inductive ExecFamily (s t : State) : Instr → Prop
  | codec (i : Instr) (hf : CodecFrame s t) (hsrc : t.src = s.src) : ExecFamily s t i
  | decode {file : List Byte} {w h x y S sx sy e len : Nat} (hf : CodecFrame s t) (hsrc : t.src = s.src ∨ t.src = file) :
      ExecFamily s t (.drleDecode file w h x y S sx sy e len)
  | gif (i : Instr) (hk : GifKeeps s t) (hg : GctOk s → GctOk t) : ExecFamily s t i
  | schLoad (h : execSchLoad s = .next t) : ExecFamily s t .schLoad
  | schTick (h : execSchTick s = .next t) : ExecFamily s t .schTick
  | schStep (h : execSchStep s = .next t) : ExecFamily s t .schStep
  | schPoll {now : Nat} {a b : Bool} (h : execSchPoll now a b s = .next t) : ExecFamily s t (.schPoll now a b)
  | schSwitch (h : execSchSwitch s = .next t) : ExecFamily s t .schSwitch

theorem ExecFamily.drle {i : Instr} {s t : State} (h : DrleKeeps s t) : ExecFamily s t i :=
  .codec i h.frame.codec.1 h.frame.codec.2

theorem ExecFamily.gifToken {i : Instr} {s t : State} (h : gifToken i s = .next t) : ExecFamily s t i :=
  .gif i (gifToken_keeps h) (gifToken_gctOk h)

theorem ExecFamily.lzwToken {i : Instr} {s t : State} (h : (lzwToken i s).settle = .next t) : ExecFamily s t i :=
  .gif i (lzwToken_settle_keeps h) (settle_tableKept (lzwToken_tableKept i s) h).gctOk

/-- Every instruction belongs to a family. -/
theorem exec_family {i : Instr} {s t : State} (h : exec i s = .next t) : ExecFamily s t i := by
  cases i with
  | pxcPack r g b => cases h; exact .codec _ rfl rfl
  | pxcStore a c =>
    have hs := (storePixel_keeps (ofExcept_next h)).1
    exact .codec _ (by rw [hs]; rfl) (by rw [hs])
  | drleEnd => exact .drle (drleRecord_keeps (skip := 0) (write := 0) h)
  | drleRec k w => exact .drle (drleRecord_keeps (skip := k) (write := w) h)
  | drleBlit pos hi lo =>
    have hb := blit_ok (ofExcept_next h)
    exact .codec _ (by rw [hb]; rfl) (by rw [hb])
  | drleDecode f w h' x y S sx sy e len => exact .decode (execDrleDecode_codec h).1 (execDrleDecode_codec h).2
  | drleEncode p c =>
    simp only [exec, execDrleEncode] at h
    split at h
    · cases h; exact .codec _ rfl rfl
    · cases h
  | drleEncodeFirst c =>
    simp only [exec, execDrleEncodeFirst] at h
    split at h
    · cases h; exact .codec _ rfl rfl
    · cases h
  | gifHeader87a => exact .gifToken (i := .gifHeader87a) h
  | gifHeader89a => exact .gifToken (i := .gifHeader89a) h
  | gifLsd w h' f b a => exact .gifToken (i := .gifLsd w h' f b a) h
  | gifGct table => exact .gifToken (i := .gifGct table) h
  | gifGce body => exact .gifToken (i := .gifGce body) h
  | gifExt label => exact .gifToken (i := .gifExt label) h
  | gifImage l tp w h' f => exact .gifToken (i := .gifImage l tp w h' f) h
  | gifTrailer => exact .gifToken (i := .gifTrailer) h
  | gifUnknown b => exact .gifToken (i := .gifUnknown b) h
  | gifStart w h' => exact .gif _ (execGifStart_keeps h) (execGifStart_gctOk h)
  | gifNext => exact .gif _ (execGifNext_keeps h) (execGifNext_gctOk h)
  | lzwImage => exact .gif _ (execLzwImage_keeps h) (execLzwImage_tableKept h).gctOk
  | lzwClear => exact .lzwToken (i := .lzwClear) h
  | lzwEnd => exact .lzwToken (i := .lzwEnd) h
  | lzwFirst c => exact .lzwToken (i := .lzwFirst c) h
  | lzwLit c => exact .lzwToken (i := .lzwLit c) h
  | lzwDict c => exact .lzwToken (i := .lzwDict c) h
  | lzwKwkwk => exact .lzwToken (i := .lzwKwkwk) h
  | lzwBadCode c => exact .lzwToken (i := .lzwBadCode c) h
  | schLoad => exact .schLoad h
  | schTick => exact .schTick h
  | schStep => exact .schStep h
  | schPoll now a b => exact .schPoll h
  | schSwitch => exact .schSwitch h

end Sys2Proof.Machine
end

section
/-! PROOFS. What starting an operation and fetching a token can do, and the one induction over a step: what every family
of instructions, every fetch and every entry of the inbox keeps, every step keeps. -/

namespace Sys2Proof.Machine

/-! ## Fetching -/

/-- What is decoded at a byte position is a token, not a command (R116). -/
theorem decodeAt_not_command {p : Pos} {flags : Byte} {l : List Byte} {i : Instr} {n : Nat}
    (h : decodeAt p flags l = .ok (i, n)) : isCommand i = false := by
  cases p with
  | drle =>
    rcases decodeRecord_cases l with ⟨k, w, -, -, hd⟩ | ⟨-, hd⟩
    · cases hd.symm.trans h
      split <;> rfl
    · cases hd.symm.trans h
  | gifHeader =>
    simp only [decodeAt, decodeHeader] at h
    repeat' split at h
    all_goals cases h
    · rfl
    · rfl
  | gifLsd =>
    simp only [decodeAt, decodeLsd] at h
    split at h
    · cases h; rfl
    · cases h
  | gifGct =>
    simp only [decodeAt, decodeGct] at h
    split at h
    · cases h; rfl
    · cases h
  | gifBlock =>
    rcases decodeBlock_token h with ⟨_, rfl⟩ | ⟨_, rfl⟩ | ⟨_, _, _, _, _, rfl⟩ | rfl | ⟨_, rfl⟩ <;> rfl
  | lzwCode => cases h

/-- So is a code (R111). -/
theorem decodeCode_not_command (x : CodeCtx) (c : Nat) : isCommand (decodeCode x c) = false := by
  unfold decodeCode
  repeat' split
  all_goals rfl

theorem fetchBytes_not_command {p : Pos} {i : Instr} {s u : State} (h : fetchBytes p s = .token i u) :
    isCommand i = false := by
  unfold fetchBytes at h
  split at h
  · next hd => cases h; exact decodeAt_not_command hd
  · cases h
  · cases h
  · cases h

/-- What is fetched from SRC is a stream's token (R116). -/
theorem fetchAt_not_command {p : Pos} {i : Instr} {s u : State} (h : fetchAt p s = .token i u) :
    isCommand i = false := by
  cases p with
  | lzwCode =>
    simp only [fetchAt, fetchCode] at h
    split at h
    · split at h
      · cases h
      · cases h; exact decodeCode_not_command _ _
    · cases h
  | drle => exact fetchBytes_not_command (p := .drle) h
  | gifHeader => exact fetchBytes_not_command (p := .gifHeader) h
  | gifLsd => exact fetchBytes_not_command (p := .gifLsd) h
  | gifGct => exact fetchBytes_not_command (p := .gifGct) h
  | gifBlock => exact fetchBytes_not_command (p := .gifBlock) h

/-- Fetching leaves SRC and the scheduler as they are. -/
theorem fetchAt_src_sched (p : Pos) (s : State) : (fetchAt p s).state.src = s.src ∧
    (fetchAt p s).state.sched = s.sched ∧ (fetchAt p s).state.timer = s.timer := by
  rcases fetch_keeps p s with hk | hk
  · exact ⟨hk.src, hk.sched.1, hk.sched.2.1⟩
  · exact ⟨hk.frame.codec.2, hk.sched.1, hk.sched.2.1⟩

/-! ## Starting an operation -/

theorem gifStartStart_keeps (w h : Nat) (s : State) :
    GifKeeps s (gifStartStart w h s) ∧ (GctOk s → GctOk (gifStartStart w h s)) := by
  unfold gifStartStart
  split
  · exact ⟨.refl s, id⟩
  · exact ⟨⟨rfl, fun h => ⟨h.dst, h.dict, h.stk, h.palG, h.palL⟩, fun _ => Nat.zero_le _⟩,
      fun _ => gctOk_of_empty rfl⟩

theorem gifNextStart_keeps (s : State) : GifKeeps s (gifNextStart s) ∧ TableKept s (gifNextStart s) := by
  unfold gifNextStart
  split
  · exact ⟨ctlGif_keeps (some .gifBlock) s.gif s, ⟨rfl, rfl⟩⟩
  · exact ⟨.refl s, .refl s⟩

theorem lzwStart_keeps (s : State) : GifKeeps s (lzwStart s) ∧ TableKept s (lzwStart s) := by
  unfold lzwStart
  split
  · exact ⟨.refl s, .refl s⟩
  · split
    · exact ⟨⟨rfl, fun h => ⟨h.dst, h.dict, h.stk, h.palG, h.palL⟩, id⟩, ⟨rfl, rfl⟩⟩
    · exact ⟨(exits_keep s).2.2.1 _, ⟨rfl, rfl⟩⟩

/-- A started operation changes no more than its family, but for a frame branch, begun after the poll owed (R270). -/
theorem startOp_family {i : Instr} {s t : State} (hx : startOp i s = .next t) :
    (i = .schStep ∧ ∃ u, owedPoll s = .next u ∧ stepStart u = .next t) ∨ ExecFamily s t i := by
  unfold startOp at hx
  split at hx
  · cases hx
    have hd := drleStart_codec
    exact .inr (.decode (hd _ _ _ _ _ _ _ _ _ _ s).1 (hd _ _ _ _ _ _ _ _ _ _ s).2)
  · cases hx
    exact .inr (.gif _ (gifStartStart_keeps _ _ s).1 (gifStartStart_keeps _ _ s).2)
  · cases hx
    exact .inr (.gif _ (gifNextStart_keeps s).1 (gifNextStart_keeps s).2.gctOk)
  · cases hx
    exact .inr (.gif _ (lzwStart_keeps s).1 (lzwStart_keeps s).2.gctOk)
  · obtain ⟨u, hu, h⟩ := andThen_eq_next hx
    exact .inl ⟨rfl, u, hu, h⟩
  · exact .inr (exec_family hx)

/-! ## The induction over a step -/

/-- A property that the families of instructions, the start of a frame branch and a fetch keep, that says nothing of the
ports and the cursor, and that reset establishes, is kept by every step. -/
theorem step_invariant {P : State → Prop}
    (hfam : ∀ {i : Instr} {s t : State}, ExecFamily s t i → P s → P t)
    (hbegin : ∀ {s t : State}, stepStart s = .next t → P s → P t)
    (hfetch : ∀ (p : Pos) (s : State), P s → P (fetchAt p s).state)
    (hports : ∀ (s : State) (inbox : List Input) (now : Nat) (pins : Levels) (src : List Byte) (sp : Nat), P s →
      P { s with inbox := inbox, nowMs := now, pins := pins, src := src, sp := sp })
    (hreset : ∀ s : State, P (resetEvent s))
    {s t : State} (hs : P s) (hx : step s = .next t) : P t := by
  have hexec : ∀ {i : Instr} {u v : State}, exec i u = .next v → P u → P v := fun h => hfam (exec_family h)
  have hperform : ∀ {i : Instr} {u v : State}, perform i u = .next v → P u → P v := by
    intro i u v h hu
    obtain ⟨w, rfl | ⟨-, -, hp⟩, he⟩ := perform_cases h
    · exact hexec he hu
    · exact hexec he (hexec hp hu)
  have hs' : P { s with inbox := s.inbox.tail } := hports s s.inbox.tail s.nowMs s.pins s.src s.sp hs
  cases step_moved hx with
  | notEnabled i hd hb hi => exact hs'
  | op i hd hc hb h => exact hperform h hs'
  | start i hd hc hb h =>
    rcases startOp_family h with ⟨-, u, hu, hbeg⟩ | hf
    · rcases owedPoll_cases hu with rfl | ⟨-, hp⟩
      · exact hbegin hbeg hs'
      · exact hbegin hbeg (hexec hp hs')
    · exact hfam hf hs'
  | main i hd hc hm h => exact hperform h hs'
  | waiting hd hc hm => exact hs'
  | token p i u hd hc hf h =>
    have hu := hfetch p _ hs'
    rw [hf] at hu
    exact hexec h hu
  | ended p hd hc hf =>
    have hu := hfetch p _ hs'
    rw [hf] at hu
    exact hu
  | clock ms hd h => exact hports s s.inbox.tail ms s.pins s.src s.sp hs
  | buttons a b hd => exact hports s s.inbox.tail s.nowMs ⟨a, b⟩ s.src s.sp hs
  | source bytes hd hb => exact hports s s.inbox.tail s.nowMs s.pins bytes 0 hs
  | reset y full reached hd hr => exact hreset _

/-! ## The frame branch -/

/-- A frame branch begun (R260, R261): the file is there, and the decode's checks have faulted or its operands are loaded. -/
theorem beginFrame_cases {s t : State} (h : beginFrame s = .next t) :
    ∃ file, (dirFrames s s.sched.folderIdx)[s.sched.frameIdx]? = some file ∧
      ((∃ f, t = schedRaise f { s with sched := { s.sched with frameReady := false } }) ∨
        ∃ w h x y S sx sy e len, t = drleSetup file w h x y S sx sy e len
          { s with sched := { s.sched with frameReady := false, frameBusy := true } }) := by
  unfold beginFrame at h
  dsimp only at h
  split at h
  · cases h
  · split at h
    · cases h
    · next file hfile =>
      refine ⟨file, hfile, ?_⟩
      split at h
      · next f hf => cases h; exact .inl ⟨f, rfl⟩
      · cases h; exact .inr ⟨_, _, _, _, _, _, _, _, _, rfl⟩

/-- The rest of a frame branch (R262 to R264): the decode to its end, then the frame's count. -/
theorem runFrame_cases {s t : State} (h : runFrame s = .next t) :
    s.sched.frameBusy = false ∧ t = s ∨
      s.sched.frameBusy = true ∧ ∃ u, DrleKeeps s u ∧ finishFrame u = .next t := by
  unfold runFrame at h
  split at h
  · next hb =>
    obtain ⟨u, hu, hf⟩ := andThen_eq_next h
    exact .inr ⟨hb, u, drleRun_keeps _ hu, hf⟩
  · next hb => cases h; exact .inl ⟨by simpa using hb, rfl⟩

/-- SCH.STEP (R259, R260): the wait branch, a frame branch in progress, or a frame branch from its beginning. -/
theorem execSchStep_cases {s t : State} (h : execSchStep s = .next t) :
    t = s ∨ s.sched.state = .timedPlayback ∧ s.sched.fault = none ∧
      (runFrame s = .next t ∨
        s.sched.frameBusy = false ∧ s.sched.frameReady = true ∧
          ∃ u, beginFrame s = .next u ∧ runFrame u = .next t) := by
  unfold execSchStep at h
  split at h
  · next hin =>
    have hin' : s.sched.state = .timedPlayback ∧ s.sched.fault = none := by simpa [schedIn] using hin
    split at h
    · exact .inr ⟨hin'.1, hin'.2, .inl h⟩
    · next hb =>
      split at h
      · next hdue =>
        have hready : s.sched.frameReady = true := (Bool.and_eq_true_iff.1 hdue).1
        exact .inr ⟨hin'.1, hin'.2, .inr ⟨by simpa using hb, hready, andThen_eq_next h⟩⟩
      · cases h; exact .inl rfl
  · cases h; exact .inl rfl

/-- SCH.STEP started: nothing, or a frame branch begun. -/
theorem stepStart_cases {s t : State} (h : stepStart s = .next t) :
    t = s ∨ s.sched.state = .timedPlayback ∧ s.sched.fault = none ∧ s.sched.frameBusy = false ∧
      s.sched.frameReady = true ∧ beginFrame s = .next t := by
  unfold stepStart at h
  split at h
  · next hc =>
    simp only [schedIn, frameDue, Bool.and_eq_true, decide_eq_true_eq, Option.isNone_iff_eq_none,
      Bool.not_eq_true'] at hc
    obtain ⟨⟨⟨hstate, hfault⟩, hbusy⟩, hready, -⟩ := hc
    exact .inr ⟨hstate, hfault, hbusy, hready, h⟩
  · cases h; exact .inl rfl

end Sys2Proof.Machine
end

section
/-! PROOFS. O54: the cursor inside SRC and the global colour table whole (10_state.md R36, R39). -/

namespace Sys2Proof.Machine

theorem beginFrame_tableKept {s t : State} (h : beginFrame s = .next t) : TableKept s t := by
  obtain ⟨file, -, ⟨f, rfl⟩ | ⟨_, _, _, _, _, _, _, _, _, rfl⟩⟩ := beginFrame_cases h
  · exact ⟨rfl, rfl⟩
  · exact ⟨rfl, rfl⟩

theorem runFrame_tableKept {s t : State} (h : runFrame s = .next t) : TableKept s t := by
  rcases runFrame_cases h with ⟨-, rfl⟩ | ⟨-, u, hk, hf⟩
  · exact .refl _
  · exact hk.frame.tableKept.trans (finishFrame_frame hf).tableKept

theorem execSchStep_tableKept {s t : State} (h : execSchStep s = .next t) : TableKept s t := by
  rcases execSchStep_cases h with rfl | ⟨-, -, hr | ⟨-, -, u, hu, hr⟩⟩
  · exact .refl _
  · exact runFrame_tableKept hr
  · exact (beginFrame_tableKept hu).trans (runFrame_tableKept hr)

theorem stepStart_tableKept {s t : State} (h : stepStart s = .next t) : TableKept s t := by
  rcases stepStart_cases h with rfl | ⟨-, -, -, -, hb⟩
  · exact .refl _
  · exact beginFrame_tableKept hb

/-- Only GIF's own instructions write the table or its length. -/
theorem ExecFamily.gctOk {i : Instr} {s t : State} (h : ExecFamily s t i) (hs : GctOk s) : GctOk t := by
  cases h with
  | codec i hf hsrc => exact hf.tableKept.gctOk hs
  | decode hf hsrc => exact hf.tableKept.gctOk hs
  | gif i hk hg => exact hg hs
  | schLoad h => exact (execSchLoad_frame h).tableKept.gctOk hs
  | schTick h => exact (execSchTick_frame h).tableKept.gctOk hs
  | schStep h => exact (execSchStep_tableKept h).gctOk hs
  | schPoll h => exact (execSchPoll_frame h).tableKept.gctOk hs
  | schSwitch h => exact (execSchSwitch_frame h).tableKept.gctOk hs

/-- Every step keeps the global table whole (R178). -/
theorem step_gctOk {s t : State} (hs : GctOk s) (hx : step s = .next t) : GctOk t :=
  step_invariant (P := GctOk) (fun h => h.gctOk) (fun h => (stepStart_tableKept h).gctOk)
    (fun p s => (fetchAt_tableKept p s).gctOk) (fun _ _ _ _ _ _ h => h) (fun _ => gctOk_of_empty rfl) hs hx

/-- Every step keeps the cursor in SRC (R36): another SRC and the reset set it to 0. -/
theorem step_cursorIn {s t : State} (hs : CursorIn s) (hx : step s = .next t) : CursorIn t := by
  rcases step_cases hx with hk | ⟨ms, rest, -, -, rfl⟩ | ⟨a, b, rest, -, rfl⟩ | ⟨bytes, rest, -, rfl⟩ |
    ⟨x, full, reached, -, -, rfl⟩
  · exact hk.cursor hs
  · exact hs
  · exact hs
  · exact Nat.zero_le _
  · exact Nat.zero_le _

/-- Settles O54: what every instruction keeps, with the entries of the inbox, for the cursor; the families of instructions
for the table. -/
theorem cursorAndTableStay : Obligations.CursorAndTableStay :=
  ⟨fun _ _ => step_cursorIn, fun _ _ => step_gctOk⟩

end Sys2Proof.Machine
end

section
/-! PROOFS. O55: what the rules promise of SCHED's registers (10_state.md R32, 44_scheduler.md, 60_exceptions.md R312). -/

namespace Sys2Proof.Machine

theorem SchedOk.congr {s t : State} (h : SchedOk s) (hs : t.sched = s.sched) (ht : t.timer = s.timer) : SchedOk t := by
  obtain ⟨hpos, hpass, hload, hbusy, hstop⟩ := h
  constructor <;> rw [hs] <;> (try rw [ht]) <;> assumption

/-- In LOADING and in FOLDER_SWITCH no frame branch is in progress (R260). -/
theorem SchedOk.not_busy {s : State} (h : SchedOk s) (hs : s.sched.state ≠ .timedPlayback) :
    s.sched.frameBusy = false := by
  cases hb : s.sched.frameBusy with
  | false => rfl
  | true => exact absurd (h.busy hb).1 hs

/-- A fault outside a frame branch: the timer is disarmed, `sched_state` stays (R312). -/
theorem schedRaise_schedOk {s : State} (h : SchedOk s) (hb : s.sched.frameBusy = false) (f : ModelFault) :
    SchedOk (schedRaise f s) where
  interval_pos := h.interval_pos
  pass := h.pass
  loading hl := ⟨rfl, (h.loading hl).2⟩
  busy hb' := absurd (hb.symm.trans hb') Bool.false_ne_true
  stopped _ := rfl

/-- LOADING entered between two frames (R253), whatever positive interval is kept. -/
theorem enterLoading_schedOk {s : State} (hv : ∀ v, s.sched.interval = some v → 1 ≤ v)
    (hb : s.sched.frameBusy = false) : SchedOk (enterLoading s) where
  interval_pos := hv
  pass h := nomatch h
  loading _ := ⟨rfl, rfl⟩
  busy h := absurd (hb.symm.trans h) Bool.false_ne_true
  stopped _ := rfl

/-! ## SCH.LOAD -/

theorem startInterval_pos {s : State} (h : ∀ v, s.sched.interval = some v → 1 ≤ v) (frames : Nat) :
    1 ≤ startInterval s frames := by
  unfold startInterval
  split
  · exact le_max_left _ _
  · next v hv => exact h v hv

/-- A pass begun (R255) with the scale factors and a frame count of at least 1. -/
theorem loadPacing_schedOk {s : State} (hv : ∀ v, s.sched.interval = some v → 1 ≤ v) (hx : 1 ≤ s.sched.scaleX)
    (hy : 1 ≤ s.sched.scaleY) (hn : 1 ≤ s.sched.frameCount) (hb : s.sched.frameBusy = false)
    (hf : s.sched.fault = none) : SchedOk (loadPacing s) where
  interval_pos v h := by
    cases h
    exact startInterval_pos hv _
  pass _ := ⟨rfl, hx, hy, hn⟩
  loading h := nomatch h
  busy h := absurd (hb.symm.trans h) Bool.false_ne_true
  stopped h := absurd (congrArg Option.isSome hf |>.symm.trans h) Bool.false_ne_true

/-- In LOADING the frame count and the scale factors are free: only a pass speaks of them. -/
theorem SchedOk.loading_operands {s : State} (h : SchedOk s) (hs : s.sched.state = .loading) (n sx sy : Nat) :
    SchedOk { s with sched := { s.sched with frameCount := n, scaleX := sx, scaleY := sy } } where
  interval_pos := h.interval_pos
  pass hp := nomatch hs.symm.trans hp
  loading := h.loading
  busy := h.busy
  stopped := h.stopped

/-- SCH.LOAD (R252 to R256): not enabled, a fault with the operands found so far, or a pass begun. -/
theorem execSchLoad_cases {s t : State} (h : execSchLoad s = .next t) :
    t = s ∨ s.sched.state = .loading ∧ s.sched.fault = none ∧ ∃ n sx sy,
      ((∃ f, t = schedRaise f { s with sched := { s.sched with frameCount := n, scaleX := sx, scaleY := sy } }) ∨
        1 ≤ n ∧ 1 ≤ sx ∧ 1 ≤ sy ∧ ∃ e, t = loadPacing { s with sched := { s.sched with
          frameCount := n, scaleX := sx, scaleY := sy, extraRows := e } }) := by
  unfold execSchLoad loadGeometry at h
  dsimp only at h
  split at h
  · next hin =>
    have hin' : s.sched.state = .loading ∧ s.sched.fault = none := by simpa [schedIn] using hin
    refine .inr ⟨hin'.1, hin'.2, ?_⟩
    split at h
    · cases h
      exact ⟨_, s.sched.scaleX, s.sched.scaleY, .inl ⟨_, rfl⟩⟩
    · next hn =>
      split at h
      · cases h
      · split at h
        · cases h
          exact ⟨_, _, _, .inl ⟨_, rfl⟩⟩
        · next hscale =>
          split at h
          · cases h
            exact ⟨_, _, _, .inl ⟨_, rfl⟩⟩
          · cases h
            obtain ⟨hx, hy⟩ := not_or.1 hscale
            exact ⟨_, _, _, .inr ⟨Nat.one_le_iff_ne_zero.2 hn, Nat.one_le_iff_ne_zero.2 hx,
              Nat.one_le_iff_ne_zero.2 hy, _, rfl⟩⟩
  · cases h; exact .inl rfl

theorem execSchLoad_schedOk {s t : State} (hs : SchedOk s) (h : execSchLoad s = .next t) : SchedOk t := by
  rcases execSchLoad_cases h with rfl | ⟨hst, hfault, n, sx, sy, ⟨f, rfl⟩ | ⟨hn, hx, hy, e, rfl⟩⟩
  · exact hs
  · exact schedRaise_schedOk (hs.loading_operands hst n sx sy) (hs.not_busy (by rw [hst]; decide)) f
  · exact loadPacing_schedOk hs.interval_pos hx hy hn (hs.not_busy (by rw [hst]; decide)) hfault

/-! ## Ticks, polls and the switch -/

theorem execSchTick_schedOk {s t : State} (hs : SchedOk s) (h : execSchTick s = .next t) : SchedOk t := by
  unfold execSchTick at h
  split at h
  · next harmed =>
    cases h
    exact {
      interval_pos := hs.interval_pos
      pass := hs.pass
      loading := fun hl => nomatch (hs.loading hl).1.symm.trans harmed
      busy := hs.busy
      stopped := hs.stopped }
  · cases h; exact hs

/-- A poll that happens records the levels, and may accept a switch of the folder (R271 to R276). -/
theorem execSchPoll_cases {now : Nat} {a b : Bool} {s t : State} (h : execSchPoll now a b s = .next t) :
    t = s ∨ pollEnabled s = true ∧ (t = recordLevels (pressed a) (pressed b) s ∨
      ∃ folder, t = acceptSwitch now folder (recordLevels (pressed a) (pressed b) s)) := by
  unfold execSchPoll at h
  split at h
  · next hp =>
    split at h
    · unfold pollAct at h
      dsimp only at h
      repeat' split at h
      all_goals cases h
      · exact .inr ⟨hp, .inl rfl⟩
      · exact .inr ⟨hp, .inr ⟨_, rfl⟩⟩
      · exact .inr ⟨hp, .inr ⟨_, rfl⟩⟩
      · exact .inr ⟨hp, .inl rfl⟩
    · cases h
  · cases h; exact .inl rfl

theorem recordLevels_schedOk {s : State} (h : SchedOk s) (pa pb : Bool) : SchedOk (recordLevels pa pb s) :=
  ⟨h.interval_pos, h.pass, h.loading, h.busy, h.stopped⟩

theorem execSchPoll_schedOk {now : Nat} {a b : Bool} {s t : State} (hs : SchedOk s)
    (h : execSchPoll now a b s = .next t) : SchedOk t := by
  rcases execSchPoll_cases h with rfl | ⟨hp, rfl | ⟨folder, rfl⟩⟩
  · exact hs
  · exact recordLevels_schedOk hs _ _
  · have hb : s.sched.frameBusy = false := by
      simpa using (Bool.and_eq_true_iff.1 hp).2
    exact {
      interval_pos := hs.interval_pos
      pass := fun h => nomatch h
      loading := fun h => nomatch h
      busy := fun h => absurd (hb.symm.trans h) Bool.false_ne_true
      stopped := hs.stopped }

theorem execSchSwitch_schedOk {s t : State} (hs : SchedOk s) (h : execSchSwitch s = .next t) : SchedOk t := by
  unfold execSchSwitch at h
  split at h
  · next hin =>
    have hin' : s.sched.state = .folderSwitch ∧ s.sched.fault = none := by simpa [schedIn] using hin
    cases h
    exact enterLoading_schedOk (fun v hv => nomatch hv) (hs.not_busy (by rw [hin'.1]; decide))
  · cases h; exact hs

/-! ## The frame branch -/

/-- A frame branch begun between two frames (R260, R261). -/
theorem beginFrame_schedOk {s t : State} (hs : SchedOk s) (hst : s.sched.state = .timedPlayback)
    (hfault : s.sched.fault = none) (hb : s.sched.frameBusy = false) (h : beginFrame s = .next t) : SchedOk t := by
  have hcleared : ∀ busy : Bool,
      SchedOk { s with sched := { s.sched with frameReady := false, frameBusy := busy } } := fun busy =>
    { interval_pos := hs.interval_pos
      pass := hs.pass
      loading := fun hl => nomatch hst.symm.trans hl
      busy := fun _ => ⟨hst, hfault⟩
      stopped := hs.stopped }
  obtain ⟨file, -, ⟨f, rfl⟩ | ⟨_, _, _, _, _, _, _, _, _, rfl⟩⟩ := beginFrame_cases h
  · have hoff := hcleared false
    exact (schedRaise_schedOk hoff rfl f).congr (by rw [← hb]) rfl
  · exact (hcleared true).congr rfl rfl

theorem countFrame_sched (s : State) :
    (countFrame s).sched = { s.sched with
        decodedCtr := s.sched.decodedCtr + 1, frameIdx := s.sched.frameIdx + 1, frameBusy := false, pollDue := true } ∧
      (countFrame s).timer = s.timer := by
  unfold countFrame
  dsimp only
  split
  · exact ⟨rfl, rfl⟩
  · exact ⟨rfl, rfl⟩

/-- The corrected interval is at least 1 (R265). -/
theorem corrected_pos (target observed : Int) (frames interval : Nat) : 1 ≤ corrected target observed frames interval := by
  unfold corrected
  omega

/-- The end of a pass (R264, R265): a positive interval, then LOADING. -/
theorem passEnd_schedOk {s t : State} (hb : s.sched.frameBusy = false) (h : passEnd s = .next t) : SchedOk t := by
  unfold passEnd at h
  split at h
  · cases h
  · cases h
    refine enterLoading_schedOk (fun v hv => ?_) hb
    cases hv
    exact corrected_pos _ _ _ _

/-- A frame counted (R263, R264): the next frame of the pass, or its end. -/
theorem finishFrame_schedOk {s t : State} (hs : SchedOk s) (hb : s.sched.frameBusy = true)
    (h : finishFrame s = .next t) : SchedOk t := by
  obtain ⟨hst, hfault⟩ := hs.busy hb
  obtain ⟨hint, hx, hy, hlt⟩ := hs.pass hst
  obtain ⟨hc, htimer⟩ := countFrame_sched s
  unfold finishFrame at h
  dsimp only at h
  split at h
  · exact passEnd_schedOk (by rw [hc]) h
  · next hne =>
    cases h
    have hnext : s.sched.frameIdx + 1 < s.sched.frameCount := by
      rw [hc] at hne
      exact lt_of_le_of_ne hlt hne
    constructor <;> rw [hc]
    · exact hs.interval_pos
    · exact fun _ => ⟨hint, hx, hy, hnext⟩
    · exact fun hl => nomatch hst.symm.trans hl
    · exact fun h => nomatch h
    · rw [htimer]; exact hs.stopped

theorem runFrame_schedOk {s t : State} (hs : SchedOk s) (h : runFrame s = .next t) : SchedOk t := by
  rcases runFrame_cases h with ⟨-, rfl⟩ | ⟨hb, u, hk, hf⟩
  · exact hs
  · obtain ⟨hsched, htimer, -⟩ := hk.sched
    exact finishFrame_schedOk (hs.congr hsched htimer) (by rw [hsched]; exact hb) hf

theorem execSchStep_schedOk {s t : State} (hs : SchedOk s) (h : execSchStep s = .next t) : SchedOk t := by
  rcases execSchStep_cases h with rfl | ⟨hst, hfault, hr | ⟨hb, -, u, hu, hr⟩⟩
  · exact hs
  · exact runFrame_schedOk hs hr
  · exact runFrame_schedOk (beginFrame_schedOk hs hst hfault hb hu) hr

theorem stepStart_schedOk {s t : State} (hs : SchedOk s) (h : stepStart s = .next t) : SchedOk t := by
  rcases stepStart_cases h with rfl | ⟨hst, hfault, hb, -, hbeg⟩
  · exact hs
  · exact beginFrame_schedOk hs hst hfault hb hbeg

/-! ## Every step -/

/-- Only the scheduler's own events change its registers or the timer. -/
theorem ExecFamily.schedOk {i : Instr} {s t : State} (h : ExecFamily s t i) (hs : SchedOk s) : SchedOk t := by
  cases h with
  | codec i hf hsrc => exact hs.congr hf.sched.1 hf.sched.2
  | decode hf hsrc => exact hs.congr hf.sched.1 hf.sched.2
  | gif i hk hg => exact hs.congr hk.sched.1 hk.sched.2.1
  | schLoad h => exact execSchLoad_schedOk hs h
  | schTick h => exact execSchTick_schedOk hs h
  | schStep h => exact execSchStep_schedOk hs h
  | schPoll h => exact execSchPoll_schedOk hs h
  | schSwitch h => exact execSchSwitch_schedOk hs h

/-- After reset (R341): LOADING, no interval, the timer disarmed. -/
theorem resetEvent_schedOk (s : State) : SchedOk (resetEvent s) where
  interval_pos _ h := nomatch h
  pass h := nomatch h
  loading _ := ⟨rfl, rfl⟩
  busy h := nomatch h
  stopped h := nomatch h

/-- Settles O55, event by event of the scheduler; nothing else touches its registers. -/
theorem schedulerStaysOk : Obligations.SchedulerStaysOk := fun _ _ =>
  step_invariant (P := SchedOk) (fun h hs => h.schedOk hs) (fun h hs => stepStart_schedOk hs h)
    (fun p s hs => hs.congr (fetchAt_src_sched p s).2.1 (fetchAt_src_sched p s).2.2)
    (fun _ _ _ _ _ _ hs => hs.congr rfl rfl) resetEvent_schedOk

end Sys2Proof.Machine
end

section
/-! PROOFS. O57: what may change SRC, and what the environment's entries do (10_state.md R35, 20_memory.md R60, R61, R76). -/

namespace Sys2Proof.Machine

/-! ## SRC -/

/-- A frame branch that begins here decodes `file` (R260). -/
def FrameFile (s : State) (file : List Byte) : Prop :=
  s.sched.state = .timedPlayback ∧ s.sched.frameReady = true ∧
    (s.dir.getD s.sched.folderIdx [])[s.sched.frameIdx]? = some file

/-- An instruction that may put `file` in SRC (R60, R76). -/
def PutsSource (i : Instr) (s : State) (file : List Byte) : Prop :=
  (∃ w h x y stride sx sy e len, i = .drleDecode file w h x y stride sx sy e len) ∨ i = .schStep ∧ FrameFile s file

theorem beginFrame_src {s t : State} (h : beginFrame s = .next t) :
    t.src = s.src ∨ (dirFrames s s.sched.folderIdx)[s.sched.frameIdx]? = some t.src := by
  obtain ⟨file, hfile, ⟨f, rfl⟩ | ⟨_, _, _, _, _, _, _, _, _, rfl⟩⟩ := beginFrame_cases h
  · exact .inl rfl
  · exact .inr hfile

theorem runFrame_src {s t : State} (h : runFrame s = .next t) : t.src = s.src := by
  rcases runFrame_cases h with ⟨-, rfl⟩ | ⟨-, u, hk, hf⟩
  · rfl
  · exact (finishFrame_frame hf).src.trans hk.frame.codec.2

theorem execSchStep_src {s t : State} (h : execSchStep s = .next t) : t.src = s.src ∨ FrameFile s t.src := by
  rcases execSchStep_cases h with rfl | ⟨hst, -, hr | ⟨-, hready, u, hu, hr⟩⟩
  · exact .inl rfl
  · exact .inl (runFrame_src hr)
  · rw [runFrame_src hr]
    exact (beginFrame_src hu).imp_right fun hfile => ⟨hst, hready, hfile⟩

theorem stepStart_src {s t : State} (h : stepStart s = .next t) : t.src = s.src ∨ FrameFile s t.src := by
  rcases stepStart_cases h with rfl | ⟨hst, -, -, hready, hbeg⟩
  · exact .inl rfl
  · exact (beginFrame_src hbeg).imp_right fun hfile => ⟨hst, hready, hfile⟩

theorem ExecFamily.putsSource {i : Instr} {s t : State} (h : ExecFamily s t i) :
    t.src = s.src ∨ PutsSource i s t.src := by
  cases h with
  | codec i hf hsrc => exact .inl hsrc
  | decode hf hsrc =>
    refine hsrc.imp_right fun hfile => .inl ?_
    rw [hfile]
    exact ⟨_, _, _, _, _, _, _, _, _, rfl⟩
  | gif i hk hg => exact .inl hk.src
  | schLoad h => exact .inl (execSchLoad_frame h).src
  | schTick h => exact .inl (execSchTick_frame h).src
  | schStep h => exact (execSchStep_src h).imp_right fun hfile => .inr ⟨rfl, hfile⟩
  | schPoll h => exact .inl (execSchPoll_frame h).src
  | schSwitch h => exact .inl (execSchSwitch_frame h).src

/-- A poll before a frame branch chooses no other file: a switch it accepts ends the pass (R276). -/
theorem execSchPoll_frameFile {now : Nat} {a b : Bool} {s u : State} (h : execSchPoll now a b s = .next u)
    {file : List Byte} (hu : FrameFile u file) : FrameFile s file := by
  rcases execSchPoll_cases h with rfl | ⟨-, rfl | ⟨folder, rfl⟩⟩
  · exact hu
  · exact hu
  · exact nomatch hu.1

/-- The poll owed leaves SRC, and the file of a frame branch that begins after it, as they are. -/
theorem owedPoll_src {s u : State} (h : owedPoll s = .next u) :
    u.src = s.src ∧ ∀ file, FrameFile u file → FrameFile s file := by
  rcases owedPoll_cases h with rfl | ⟨-, hp⟩
  · exact ⟨rfl, fun _ => id⟩
  · exact ⟨(execSchPoll_frame hp).src, fun _ => execSchPoll_frameFile hp⟩

theorem perform_src {i : Instr} {s t : State} (h : perform i s = .next t) : t.src = s.src ∨ PutsSource i s t.src := by
  unfold perform at h
  split at h
  · obtain ⟨u, hu, he⟩ := andThen_eq_next h
    obtain ⟨hsrc, hfile⟩ := owedPoll_src hu
    rw [← hsrc]
    exact (execSchStep_src he).imp_right fun hf => .inr ⟨rfl, hfile _ hf⟩
  · exact (exec_family h).putsSource

theorem startOp_src {i : Instr} {s t : State} (h : startOp i s = .next t) : t.src = s.src ∨ PutsSource i s t.src := by
  rcases startOp_family h with ⟨rfl, u, hu, hbeg⟩ | hf
  · obtain ⟨hsrc, hfile⟩ := owedPoll_src hu
    rw [← hsrc]
    exact (stepStart_src hbeg).imp_right fun hf => .inr ⟨rfl, hfile _ hf⟩
  · exact hf.putsSource

/-- A token of a stream leaves SRC as it is: no token is a decode or a turn of SCHED's loop. -/
theorem exec_token_src {i : Instr} {s t : State} (hi : isCommand i = false) (h : exec i s = .next t) :
    t.src = s.src := by
  rcases (exec_family h).putsSource with hs | ⟨_, _, _, _, _, _, _, _, _, rfl⟩ | ⟨rfl, -⟩
  · exact hs
  · cases hi
  · cases hi

/-- The main context by itself calls no decode: its operations are SCHED's (R250). -/
theorem mainInstr_ne_drleDecode {s : State} {file : List Byte} {w h x y stride sx sy e len : Nat} :
    mainInstr s ≠ some (.drleDecode file w h x y stride sx sy e len) := by
  unfold mainInstr
  repeat' split
  all_goals exact nofun

/-- What alone changes SRC: another one connected, a decode called directly, or a frame branch that begins. -/
theorem step_src {s t : State} (hx : step s = .next t) :
    t.src = s.src ∨ s.inbox.head? = some (.source t.src) ∨
      (∃ w h x y stride sx sy e len, s.inbox.head? = some (.op (.drleDecode t.src w h x y stride sx sy e len)) ∨
        s.inbox.head? = some (.start (.drleDecode t.src w h x y stride sx sy e len))) ∨
      (s.inbox = [] ∨ s.inbox.head? = some .turn ∨ s.inbox.head? = some (.op .schStep) ∨
        s.inbox.head? = some (.start .schStep)) ∧ FrameFile s t.src := by
  cases step_moved hx with
  | notEnabled i hd hb hi => exact .inl rfl
  | op i hd hc hb h =>
    rcases perform_src h with hs | ⟨_, _, _, _, _, _, _, _, _, rfl⟩ | ⟨rfl, hf⟩
    · exact .inl hs
    · exact .inr (.inr (.inl ⟨_, _, _, _, _, _, _, _, _, .inl hd⟩))
    · exact .inr (.inr (.inr ⟨.inr (.inr (.inl hd)), hf⟩))
  | start i hd hc hb h =>
    rcases startOp_src h with hs | ⟨_, _, _, _, _, _, _, _, _, rfl⟩ | ⟨rfl, hf⟩
    · exact .inl hs
    · exact .inr (.inr (.inl ⟨_, _, _, _, _, _, _, _, _, .inr hd⟩))
    · exact .inr (.inr (.inr ⟨.inr (.inr (.inr hd)), hf⟩))
  | main i hd hc hm h =>
    rcases perform_src h with hs | ⟨_, _, _, _, _, _, _, _, _, rfl⟩ | ⟨rfl, hf⟩
    · exact .inl hs
    · exact absurd hm mainInstr_ne_drleDecode
    · exact .inr (.inr (.inr ⟨hd.imp List.head?_eq_none_iff.1 .inl, hf⟩))
  | waiting hd hc hm => exact .inl rfl
  | token p i u hd hc hf h =>
    have hu := (fetchAt_src_sched p { s with inbox := s.inbox.tail }).1
    rw [hf] at hu
    exact .inl ((exec_token_src (fetchAt_not_command hf) h).trans hu)
  | ended p hd hc hf =>
    have hu := (fetchAt_src_sched p { s with inbox := s.inbox.tail }).1
    rw [hf] at hu
    exact .inl hu
  | clock ms hd h => exact .inl rfl
  | buttons a b hd => exact .inl rfl
  | source bytes hd hb => exact .inr (.inl hd)
  | reset y full reached hd hr => exact .inl rfl

/-! ## The other ports -/

/-- The configuration, DIR, the clock, the button levels and the inbox over a step (R35, R315, R270). -/
theorem step_ports {s t : State} (hx : step s = .next t) :
    t.cfg = s.cfg ∧ t.dir = s.dir ∧ s.nowMs ≤ t.nowMs ∧
    ((∀ ms, s.inbox.head? ≠ some (.clock ms)) → t.nowMs = s.nowMs) ∧
    ((∀ a b, s.inbox.head? ≠ some (.buttons a b)) → t.pins = s.pins) ∧ t.inbox = s.inbox.tail := by
  rcases step_cases hx with hk | ⟨ms, rest, hi, hle, rfl⟩ | ⟨a, b, rest, hi, rfl⟩ | ⟨bytes, rest, hi, rfl⟩ |
    ⟨x, full, reached, -, -, rfl⟩
  · exact ⟨hk.cfg, hk.dir, hk.nowMs.ge, fun _ => hk.nowMs, fun _ => hk.pins, hk.inbox⟩
  · rw [hi]
    exact ⟨rfl, rfl, hle, fun h => absurd rfl (h ms), fun _ => rfl, rfl⟩
  · rw [hi]
    exact ⟨rfl, rfl, le_refl _, fun _ => rfl, fun h => absurd rfl (h a b), rfl⟩
  · rw [hi]
    exact ⟨rfl, rfl, le_refl _, fun _ => rfl, fun _ => rfl, rfl⟩
  · exact ⟨rfl, rfl, le_refl _, fun _ => rfl, fun _ => rfl, rfl⟩

/-- A step with an entry in the inbox takes it. -/
theorem step_cons {s : State} {x : Input} {rest : List Input} (h : s.inbox = x :: rest) :
    step s = take x { s with inbox := rest } := by
  unfold step
  rw [h]

theorem step_nil {s : State} (h : s.inbox = []) : step s = advance s := by
  unfold step
  rw [h]

theorem abandonsNext_of_gifStart {rest : List Input} {w h : Nat}
    (hr : rest.head? = some (.op (.gifStart w h)) ∨ rest.head? = some (.start (.gifStart w h))) :
    abandonsNext rest = true := by
  cases rest with
  | nil => rcases hr with hr | hr <;> cases hr
  | cons x rest => rcases hr with hr | hr <;> (cases hr; rfl)

/-- Another SRC is accepted between operations, with no stream open or one about to be abandoned (R76, entry 15). -/
theorem take_source {s : State} {bytes : List Byte} (hctl : s.ctl = none) (hbusy : s.sched.frameBusy = false)
    (h : s.gif.state ≠ .ready ∨ abandonsNext s.inbox = true) :
    take (.source bytes) s = .next { s with src := bytes, sp := 0 } := by
  refine if_neg ?_
  rcases h with h | h <;> simp [busy, hctl, hbusy, h]

/-- Settles O57: what every instruction keeps, the three ways SRC is replaced, and each entry of the environment. -/
theorem portsStay : Obligations.PortsStay := by
  refine ⟨fun s t hx => ?_, fun s ms rest hi hle => ?_, fun s a b rest hi => ?_, fun s rest hi => step_cons hi,
    fun s hi => step_nil hi, fun s bytes rest hi hctl hbusy hgif => ?_⟩
  · obtain ⟨hcfg, hdir, hle, hclock, hpins, hinbox⟩ := step_ports hx
    exact ⟨hcfg, hdir, hle, hclock, hpins, hinbox, step_src hx⟩
  · exact (step_cons hi).trans (if_pos hle)
  · exact step_cons hi
  · rw [step_cons hi]
    refine take_source hctl hbusy (hgif.imp_right ?_)
    rintro ⟨w, h, hr⟩
    exact abandonsNext_of_gifStart hr

end Sys2Proof.Machine
end

section
/-! PROOFS. O48: a step runs the token at the cursor, or ends the operation where SRC holds none (30_encoding.md, entry 1). -/

namespace Sys2Proof.Machine

/-- A token that SRC holds is fetched, the cursor moved past it (R36). -/
theorem fetchAt_decoded {p : Pos} {i : Instr} {n : Nat} {s : State}
    (hd : decodeAt p s.gif.scrFlags (s.src.drop s.sp) = .ok (i, n)) :
    fetchAt p s = .token i { s with sp := s.sp + n } := by
  have hfetch : fetchBytes p s = .token i { s with sp := s.sp + n } := by
    unfold fetchBytes
    rw [hd]
  cases p with
  | lzwCode => cases hd
  | _ => exact hfetch

/-- A code the bit reader has is fetched, by its class (R111, R217). -/
theorem fetchAt_code {s s1 : State} {c : Nat} (hpix : s.img.pixN < s.img.npix) (hr : readCode s = (some c, s1)) :
    fetchAt .lzwCode s = .token (decodeCode (codeCtx s1) c) s1 := by
  show fetchCode s = _
  unfold fetchCode
  rw [if_pos hpix, hr]

/-- With no code left the image ends (R220). -/
theorem fetchAt_noCode {s s1 : State} (hpix : s.img.pixN < s.img.npix) (hr : readCode s = (none, s1)) :
    fetchAt .lzwCode s = .ended (endImage s1) := by
  show fetchCode s = _
  unfold fetchCode
  rw [if_pos hpix, hr]

/-- So it does with the pixel budget reached (R235). -/
theorem fetchAt_budget {s : State} (hpix : s.img.npix ≤ s.img.pixN) : fetchAt .lzwCode s = .ended (endImage s) :=
  if_neg (Nat.not_lt.2 hpix)

/-- SRC at its end, or with a lone introducer of an extension, ends the GIF stream (R175, R179, R180). -/
theorem fetchAt_noBlock {s : State} (h : s.src.drop s.sp = [] ∨ s.src.drop s.sp = [0x21]) :
    fetchAt .gifBlock s = .ended (streamEnd { s with sp := s.src.length }) := by
  have hd : decodeAt .gifBlock s.gif.scrFlags (s.src.drop s.sp) = .error .truncated := by
    rcases h with h | h <;> (rw [h]; rfl)
  show fetchBytes .gifBlock s = _
  unfold fetchBytes
  rw [hd]
  rfl

/-- Fewer than two bytes for a record's header stop the decode (R144). -/
theorem fetchAt_noRecord {s : State} (h : s.src.length < s.sp + 2) :
    fetchAt .drle s = .ended (drleStop { s with sp := s.src.length }) := by
  rcases fetchAt_drle s with ⟨k, w, -, hw, -⟩ | ⟨-, hf⟩
  · have := (List.getElem?_eq_some_iff.1 hw).1
    omega
  · exact hf

/-- Settles O48, place by place of the grammar. -/
theorem stepRunsToken : Obligations.StepRunsToken := by
  refine ⟨fun s p i n hi hc hd => ?_, fun s s1 c hi hc hpix hr => ?_, fun s s1 hi hc hpix hr => ?_,
    fun s hi hc hpix => ?_, fun s hi hc h => ?_, fun s hi hc h => ?_⟩
  · rw [step_at hi hc, fetchAt_decoded hd]
  · rw [step_at hi hc, fetchAt_code hpix hr]
  · rw [step_at hi hc, fetchAt_noCode hpix hr]
    rfl
  · rw [step_at hi hc, fetchAt_budget hpix]
    rfl
  · rw [step_at hi hc, fetchAt_noBlock h]
    rfl
  · rw [step_at hi hc, fetchAt_noRecord h]
    rfl

end Sys2Proof.Machine
end

section
/-! PROOFS. O53: every memory in its canonical form (20_memory.md R60, entry 8). -/

namespace Sys2Proof.Machine

/-- The reset event empties the units' memories; DST holds what had been stored, in canonical form (R340, R342). -/
theorem resetDuring_memoriesWf (full : Mem Byte) (reached : List Nat) {s : State} (h : MemoriesWf s) :
    MemoriesWf (resetDuring full reached s) :=
  ⟨memMerge_wf full reached h.dst, .nil, .nil, .nil, .nil⟩

/-- Settles O53: what every instruction keeps, and the entries of the inbox that are no instruction. -/
theorem memoriesStayCanonical : Obligations.MemoriesStayCanonical := by
  intro s t hs hx
  have hs' : MemoriesWf { s with inbox := s.inbox.tail } := ⟨hs.dst, hs.dict, hs.stk, hs.palG, hs.palL⟩
  rcases step_cases hx with hk | ⟨ms, rest, -, -, rfl⟩ | ⟨a, b, rest, -, rfl⟩ | ⟨bytes, rest, -, rfl⟩ |
    ⟨x, full, reached, -, -, rfl⟩
  · exact hk.wf hs'
  · exact ⟨hs.dst, hs.dict, hs.stk, hs.palG, hs.palL⟩
  · exact ⟨hs.dst, hs.dict, hs.stk, hs.palG, hs.palL⟩
  · exact ⟨hs.dst, hs.dict, hs.stk, hs.palG, hs.palL⟩
  · exact resetDuring_memoriesWf full reached hs'

end Sys2Proof.Machine
end

section
/-! PROOFS. O4: the stops outside DST and outside the pixel budget (20_memory.md R71, 41_delta_rle.md R149, entries 9 and 31). -/

namespace Sys2Proof.Machine

/-- A store at or beyond the end of DST stops (R71, entry 9). -/
theorem storePixel_outside {a : Nat} {hi lo : Byte} {s : State} (h : s.dstLen ≤ a + 1) :
    storePixel a hi lo s = .error (.dstOutOfRange a) :=
  if_neg (Nat.not_lt.2 h)

/-- Stores of which one is outside DST stop at the first that is. -/
theorem storeAll_outside {as : List Nat} {hi lo : Byte} {s : State} (h : ∃ a ∈ as, s.dstLen ≤ a + 1) :
    ∃ a ∈ as, s.dstLen ≤ a + 1 ∧ storeAll as hi lo s = .error (.dstOutOfRange a) := by
  induction as generalizing s with
  | nil => exact absurd h (by simp)
  | cons a rest ih =>
    rw [storeAll]
    by_cases ha : s.dstLen ≤ a + 1
    · exact ⟨a, .head _, ha, by rw [storePixel_outside ha]⟩
    · have hrest : ∃ c ∈ rest, s.dstLen ≤ c + 1 := by simpa [ha] using h
      rw [storePixel_eq, if_pos (Nat.not_le.1 ha)]
      obtain ⟨c, hc, hlen, hstop⟩ := ih (s := { s with dst := pixelMem a hi lo s.dst }) hrest
      exact ⟨c, .tail _ hc, hlen, hstop⟩

/-- A block of a pixel at or beyond the budget stops (R149, entry 31). -/
theorem blit_outside_budget {pos : Nat} {hi lo : Byte} {s : State} (h : s.drle.budget ≤ pos) :
    blit pos hi lo s = .error (.blitPosition pos) :=
  if_neg (Nat.not_lt.2 h)

/-- Settles O4: a single store, a position beyond the budget, and the first address of a block that is outside DST. -/
theorem stopsOutsideDst : Obligations.StopsOutsideDst := by
  refine ⟨fun a c s h => ?_, fun pos hi lo s h => ?_, fun pos hi lo s hpos h => ?_⟩
  · exact congrArg ofExcept (storePixel_outside h)
  · exact congrArg ofExcept (blit_outside_budget h)
  · obtain ⟨a, ha, hlen, hstop⟩ := storeAll_outside (hi := hi) (lo := lo) h
    have hblit : blit pos hi lo s = .error (.dstOutOfRange a) := (if_pos hpos).trans hstop
    exact ⟨a, ha, hlen, congrArg ofExcept hblit⟩

end Sys2Proof.Machine
end

section
/-! PROOFS. O8: a delta-RLE stream replayed into the DST it left (20_memory.md R70). -/

namespace Sys2Proof.Machine

/-- Painting the same pixels a second time changes no byte (R70). -/
theorem memRead_paint_paint (d : DrleRegs) (ps : List DrlePixel) (m : Mem Byte) (b : Nat) :
    memRead (paint d ps (paint d ps m)) b = memRead (paint d ps m) b := by
  rw [memRead_paint, memRead_paint, ← Option.or_assoc, Option.or_self]

/-- Settles O8: both decodes paint the pixels the stream names, with the same operands. -/
theorem replayIdempotent : Obligations.ReplayIdempotent := by
  intro file w h x y stride sx sy e len s hg hw hh hS hsx hsy hcols hrows
  have hc : drleCheck w h x y stride sx sy e len = none :=
    ((drleSetup file w h x y stride sx sy e len s).drle.fits_iff len).2 ⟨hw, hh, hS, hsx, hsy, hcols, hrows⟩
  obtain ⟨t, ht, hframe, -, -, htdst, -⟩ := execDrleDecode_eq (file := file) s hg hc
  have hgt : t.gif.state ≠ .ready := by rw [hframe]; exact hg
  obtain ⟨u, hu, -, -, -, hudst, -⟩ := execDrleDecode_eq (file := file) t hgt hc
  refine ⟨t, u, ht, hu, fun b => ?_⟩
  have hpaint : paint (drleSetup file w h x y stride sx sy e len t).drle =
      paint (drleSetup file w h x y stride sx sy e len s).drle := rfl
  simp only [dstByte, hudst, htdst, hpaint, memRead_paint_paint]

end Sys2Proof.Machine
end

section
/-! PROOFS. O60: what the model refuses, by name (20_memory.md R76, 91_not_in_source.md N23, entries 10, 11, 12, 15, 26). -/

namespace Sys2Proof.Machine

theorem schedIn_eq_true {st : SchedState} {s : State} (hs : s.sched.state = st) (hf : s.sched.fault = none) :
    schedIn st s = true := by
  simp [schedIn, hs, hf]

theorem pollEnabled_eq_true {s : State} (hs : s.sched.state = .timedPlayback) (hf : s.sched.fault = none)
    (hb : s.sched.frameBusy = false) : pollEnabled s = true := by
  simp [pollEnabled, schedIn_eq_true hs hf, hb]

/-- A frame branch that is due begins (R260). -/
theorem execSchStep_due {s : State} (hs : s.sched.state = .timedPlayback) (hf : s.sched.fault = none)
    (hb : s.sched.frameBusy = false) (hr : s.sched.frameReady = true) (hg : s.gif.state ≠ .ready) :
    execSchStep s = andThen (beginFrame s) runFrame := by
  have hdue : frameDue s = true := by simp [frameDue, hr, gifActive, hg]
  unfold execSchStep
  rw [if_pos (schedIn_eq_true hs hf), if_neg (by simp [hb]), if_pos hdue]

/-- An edge of either button outside the debounce window needs a folder to switch to (R273, R276, entry 11). -/
theorem pollAct_noFolder {now : Nat} {pa pb : Bool} {s : State} (hn : s.cfg.folderCount = 0)
    (hw : inWindow s.btn now = false) (he : edge pa s.btn.lastA = true ∨ edge pb s.btn.lastB = true) :
    pollAct now pa pb s = .refused .bootRequirement := by
  unfold pollAct
  dsimp only
  rw [if_neg (by simp [hw]), if_pos hn, if_pos hn]
  by_cases hA : edge pa s.btn.lastA = true
  · exact if_pos hA
  · exact (if_neg hA).trans (if_pos (he.resolve_left hA))

/-- Past the debounce window, or before the first accepted switch (R271). -/
theorem inWindow_eq_false {b : BtnRegs} {now : Nat} (h : ∀ t, b.lastSwitch = some t → t + 200 ≤ now) :
    inWindow b now = false := by
  unfold inWindow
  split
  · rfl
  · next t ht => exact decide_eq_false (Nat.not_lt.2 (h t ht))

theorem readsPorts_self (s : State) : readsPorts s.nowMs s.pins.a s.pins.b s = true := by
  simp [readsPorts]

theorem readsPorts_eq_false {now : Nat} {a b : Bool} {s : State} (h : now ≠ s.nowMs ∨ a ≠ s.pins.a ∨ b ≠ s.pins.b) :
    readsPorts now a b s = false := by
  rcases h with h | h | h <;> simp [readsPorts, h]

/-- Only a GIF.START at its head makes the rest of the inbox abandon an open stream (R171). -/
theorem abandonsNext_eq_false {rest : List Input}
    (h : ∀ w h, rest.head? ≠ some (.op (.gifStart w h)) ∧ rest.head? ≠ some (.start (.gifStart w h))) :
    abandonsNext rest = false := by
  unfold abandonsNext
  split
  · next w k _ => exact absurd rfl (h w k).1
  · next w k _ => exact absurd rfl (h w k).2
  · rfl

/-- Another SRC is refused under an operation in progress or an open stream (R76, entry 15). -/
theorem take_source_refused {s : State} {bytes : List Byte}
    (h : s.ctl.isSome = true ∨ s.sched.frameBusy = true ∨ s.gif.state = .ready ∧ abandonsNext s.inbox = false) :
    take (.source bytes) s = .refused .srcWhileRunning := by
  refine if_pos ?_
  rcases h with h | h | ⟨h, ha⟩
  · simp [busy, h]
  · simp [busy, h]
  · simp [h, ha]

/-- Settles O60: each refusal at the test that raises it. -/
theorem refusedOutsideDomain : Obligations.RefusedOutsideDomain := by
  refine ⟨fun prev cur s h => ?_, fun cur s h => if_neg h, fun s hs hf hn hz => ?_,
    fun s hs hf hb hr hg => ⟨fun hz => ?_, fun hz hfile => ?_⟩, fun s hs hf hb hn hw he => ?_,
    fun s now a b hs hf hb h => ?_, fun s ms rest hi h => ?_, fun s bytes rest hi h => ?_⟩
  · exact if_neg (by omega)
  · show execSchLoad s = _
    unfold execSchLoad
    rw [if_pos (schedIn_eq_true hs hf)]
    exact (if_neg (Nat.one_le_iff_ne_zero.1 hn)).trans (if_pos hz)
  · have hbegin : beginFrame s = .refused .bootRequirement := if_pos hz
    exact (execSchStep_due hs hf hb hr hg).trans (congrArg (andThen · runFrame) hbegin)
  · have hbegin : beginFrame s = .refused .dirAnswer := by
      unfold beginFrame dirFrames
      rw [if_neg (Nat.one_le_iff_ne_zero.1 hz), hfile]
    exact (execSchStep_due hs hf hb hr hg).trans (congrArg (andThen · runFrame) hbegin)
  · show execSchPoll s.nowMs s.pins.a s.pins.b s = _
    unfold execSchPoll
    rw [if_pos (pollEnabled_eq_true hs hf hb), if_pos (readsPorts_self s)]
    refine pollAct_noFolder hn (inWindow_eq_false hw) (he.imp ?_ ?_)
    · rintro ⟨hp, hl⟩; simp [edge, pressed, hp, hl]
    · rintro ⟨hp, hl⟩; simp [edge, pressed, hp, hl]
  · show execSchPoll now a b s = _
    unfold execSchPoll
    rw [if_pos (pollEnabled_eq_true hs hf hb), if_neg (by simp [readsPorts_eq_false h])]
  · rw [step_cons hi]
    exact if_neg (Nat.not_le.2 h)
  · rw [step_cons hi]
    exact take_source_refused (h.imp_right (Or.imp_right (And.imp_right abandonsNext_eq_false)))

end Sys2Proof.Machine
end

section
/-! PROOFS. Two runs from states that differ in DST alone (20_memory.md R65): what it means that they end alike, and that
reading SRC and fetching a token commute with the change of DST. -/

namespace Sys2Proof.Machine

/-! ## Two runs -/

/-- The same state with other content in DST. -/
def withDst (d : Mem Byte) (s : State) : State := { s with dst := d }

@[simp] theorem withDst_cfg (d : Mem Byte) (s : State) : (withDst d s).cfg = s.cfg := rfl
@[simp] theorem withDst_src (d : Mem Byte) (s : State) : (withDst d s).src = s.src := rfl
@[simp] theorem withDst_sp (d : Mem Byte) (s : State) : (withDst d s).sp = s.sp := rfl
@[simp] theorem withDst_ctl (d : Mem Byte) (s : State) : (withDst d s).ctl = s.ctl := rfl
@[simp] theorem withDst_gif (d : Mem Byte) (s : State) : (withDst d s).gif = s.gif := rfl
@[simp] theorem withDst_img (d : Mem Byte) (s : State) : (withDst d s).img = s.img := rfl
@[simp] theorem withDst_lzw (d : Mem Byte) (s : State) : (withDst d s).lzw = s.lzw := rfl
@[simp] theorem withDst_bits (d : Mem Byte) (s : State) : (withDst d s).bits = s.bits := rfl
@[simp] theorem withDst_dict (d : Mem Byte) (s : State) : (withDst d s).dict = s.dict := rfl
@[simp] theorem withDst_stk (d : Mem Byte) (s : State) : (withDst d s).stk = s.stk := rfl
@[simp] theorem withDst_sched (d : Mem Byte) (s : State) : (withDst d s).sched = s.sched := rfl
@[simp] theorem withDst_dirFrames (d : Mem Byte) (s : State) (k : Nat) :
    dirFrames (withDst d s) k = dirFrames s k := rfl
@[simp] theorem withDst_palette (d : Mem Byte) (s : State) : selectedPalette (withDst d s) = selectedPalette s := rfl

/-- DST goes from `m` to `n` in one run and from `m'` to `n'` in the other: each byte is left in place in both, or written
with the same value in both. -/
def SameWrites (m m' n n' : Mem Byte) : Prop :=
  ∀ b, (memRead n b = memRead m b ∧ memRead n' b = memRead m' b) ∨ memRead n' b = memRead n b

theorem SameWrites.refl (m m' : Mem Byte) : SameWrites m m' m m' := fun _ => .inl ⟨rfl, rfl⟩

theorem SameWrites.trans {m m' n n' k k' : Mem Byte} (h1 : SameWrites m m' n n') (h2 : SameWrites n n' k k') :
    SameWrites m m' k k' := by
  intro b
  rcases h2 b with ⟨hk, hk'⟩ | hw
  · rw [hk, hk']; exact h1 b
  · exact .inr hw

theorem SameWrites.pixel (a : Nat) (hi lo : Byte) (m m' : Mem Byte) :
    SameWrites m m' (pixelMem a hi lo m) (pixelMem a hi lo m') := by
  intro b
  rw [memRead_pixelMem, memRead_pixelMem]
  by_cases h1 : b = a + 1
  · exact .inr (by rw [if_pos h1, if_pos h1])
  · by_cases h2 : b = a
    · exact .inr (by rw [if_neg h1, if_neg h1, if_pos h2, if_pos h2])
    · exact .inl (by simp [h1, h2])

theorem SameWrites.pixels (as : List Nat) (hi lo : Byte) (m m' : Mem Byte) :
    SameWrites m m' (pixelsMem as hi lo m) (pixelsMem as hi lo m') := by
  induction as generalizing m m' with
  | nil => exact .refl m m'
  | cons a rest ih => exact (SameWrites.pixel a hi lo m m').trans (ih _ _)

/-- The outcomes of two runs begun with `m` and `m'` in DST: the same ending, and a next state that differs in DST alone,
where the writes were the same. -/
inductive OutTwin (m m' : Mem Byte) : Out → Out → Prop
  | next {t : State} {n : Mem Byte} (h : SameWrites m m' t.dst n) : OutTwin m m' (.next t) (.next (withDst n t))
  | fault (r : Fault) : OutTwin m m' (.fault r) (.fault r)
  | refused (r : Refusal) : OutTwin m m' (.refused r) (.refused r)

/-- The same of the results of a code token. -/
inductive ResTwin (m m' : Mem Byte) : Res → Res → Prop
  | ok {t : State} {n : Mem Byte} (h : SameWrites m m' t.dst n) : ResTwin m m' (.ok t) (.ok (withDst n t))
  | raised (f : ModelFault) {t : State} {n : Mem Byte} (h : SameWrites m m' t.dst n) :
      ResTwin m m' (.raised f t) (.raised f (withDst n t))
  | stuck (r : Fault) : ResTwin m m' (.stuck r) (.stuck r)

/-- An operation that does not read DST. -/
def Blind (F : State → Out) : Prop := ∀ (s : State) (d : Mem Byte), OutTwin s.dst d (F s) (F (withDst d s))

/-- A code token's meaning that does not read DST. -/
def ResBlind (F : State → Res) : Prop := ∀ (s : State) (d : Mem Byte), ResTwin s.dst d (F s) (F (withDst d s))

/-- Next states reached without a store. -/
theorem OutTwin.same {m d : Mem Byte} {t t' : State} (hm : t.dst = m) (ht : t' = withDst d t) :
    OutTwin m d (.next t) (.next t') := by
  subst hm ht
  exact .next (.refl t.dst d)

theorem ResTwin.same {m d : Mem Byte} {t t' : State} (hm : t.dst = m) (ht : t' = withDst d t) :
    ResTwin m d (.ok t) (.ok t') := by
  subst hm ht
  exact .ok (.refl t.dst d)

theorem OutTwin.after {m m' n n' : Mem Byte} {o o' : Out} (h : OutTwin n n' o o') (hw : SameWrites m m' n n') :
    OutTwin m m' o o' := by
  cases h with
  | next h => exact .next (hw.trans h)
  | fault r => exact .fault r
  | refused r => exact .refused r

theorem ResTwin.after {m m' n n' : Mem Byte} {r r' : Res} (h : ResTwin n n' r r') (hw : SameWrites m m' n n') :
    ResTwin m m' r r' := by
  cases h with
  | ok h => exact .ok (hw.trans h)
  | raised f h => exact .raised f (hw.trans h)
  | stuck r => exact .stuck r

theorem OutTwin.ite {m m' : Mem Byte} {c : Prop} [Decidable c] {o o' p p' : Out} (h : OutTwin m m' o o')
    (hn : OutTwin m m' p p') : OutTwin m m' (if c then o else p) (if c then o' else p') := by
  split
  · exact h
  · exact hn

theorem ResTwin.ite {m m' : Mem Byte} {c : Prop} [Decidable c] {r r' q q' : Res} (h : ResTwin m m' r r')
    (hn : ResTwin m m' q q') : ResTwin m m' (if c then r else q) (if c then r' else q') := by
  split
  · exact h
  · exact hn

theorem OutTwin.andThen {m m' : Mem Byte} {o o' : Out} {k : State → Out} (h : OutTwin m m' o o') (hk : Blind k) :
    OutTwin m m' (andThen o k) (andThen o' k) := by
  cases h with
  | next h => exact (hk _ _).after h
  | fault r => exact .fault r
  | refused r => exact .refused r

theorem ResTwin.bind {m m' : Mem Byte} {r r' : Res} {k : State → Res} (h : ResTwin m m' r r') (hk : ResBlind k) :
    ResTwin m m' (r.bind k) (r'.bind k) := by
  cases h with
  | ok h => exact (hk _ _).after h
  | raised f h => exact .raised f h
  | stuck r => exact .stuck r

theorem ResTwin.settle {m m' : Mem Byte} {r r' : Res} (h : ResTwin m m' r r') : OutTwin m m' r.settle r'.settle := by
  cases h with
  | @ok t n h => exact .next h
  | @raised f t n h => exact .next (t := gifRaise f t) h
  | stuck r => exact .fault r

/-! ## Reading SRC -/

/-- A branch whose two ends commute with `f` does. -/
theorem ite_map {α β : Type} (f : α → β) {c : Prop} [Decidable c] {a b : α} {a' b' : β} (ha : a' = f a)
    (hb : b' = f b) : (if c then a' else b') = f (if c then a else b) := by
  rw [ha, hb, apply_ite f]

/-- A reader of SRC: what it returns does not depend on DST, and it leaves DST as it is. -/
def Quiet {β : Type} (F : State → β × State) : Prop :=
  ∀ (s : State) (d : Mem Byte), F (withDst d s) = Prod.map id (withDst d) (F s)

/-- A reader run on both states: nothing more to read in both, or the same value. -/
theorem Quiet.cases {β : Type} {F : State → Option β × State} (h : Quiet F) (s : State) (d : Mem Byte) :
    (∃ u, F s = (none, u) ∧ F (withDst d s) = (none, withDst d u) ∧ s.dst = u.dst) ∨
      ∃ b u, F s = (some b, u) ∧ F (withDst d s) = (some b, withDst d u) ∧ s.dst = u.dst := by
  have hdst : s.dst = (F s).2.dst := (congrArg (·.2.dst) (h s s.dst)).symm
  rw [h s d]
  generalize F s = r at hdst
  obtain ⟨_ | b, u⟩ := r
  · exact .inl ⟨u, rfl, rfl, hdst⟩
  · exact .inr ⟨b, u, rfl, rfl, hdst⟩

theorem streamRead_quiet (n : Nat) : Quiet (streamRead n) := fun _ _ => ite_map _ rfl (ite_map _ rfl rfl)

theorem streamByte_quiet : Quiet streamByte := by
  intro s d
  simp only [streamByte, withDst_sp, withDst_src]
  cases s.src[s.sp]? <;> rfl

theorem streamPair_quiet : Quiet streamPair := by
  intro s d
  simp only [streamPair, withDst_sp, withDst_src]
  cases s.src[s.sp]? <;> cases s.src[s.sp + 1]? <;> rfl

theorem nextDataByte_quiet : Quiet nextDataByte := by
  intro s d
  refine ite_map _ rfl (ite_map _ ?_ ?_)
  · obtain ⟨u, hu, hu', -⟩ | ⟨n, u, hu, hu', -⟩ := streamByte_quiet.cases s d
    · rw [hu, hu']; rfl
    · rw [hu, hu']
      refine ite_map _ rfl ?_
      obtain ⟨v, hv, hv', -⟩ | ⟨b, v, hv, hv', -⟩ := streamByte_quiet.cases u d
      · rw [hv, hv']; rfl
      · rw [hv, hv']; rfl
  · obtain ⟨u, hu, hu', -⟩ | ⟨b, u, hu, hu', -⟩ := streamByte_quiet.cases s d
    · rw [hu, hu']; rfl
    · rw [hu, hu']; rfl

theorem fillBits_quiet (fuel : Nat) : Quiet (fillBits fuel) := by
  induction fuel with
  | zero => exact fun _ _ => rfl
  | succ fuel ih =>
    intro s d
    refine ite_map _ ?_ rfl
    obtain ⟨u, hu, hu', -⟩ | ⟨b, u, hu, hu', -⟩ := nextDataByte_quiet.cases s d
    · rw [hu, hu']; rfl
    · rw [hu, hu']
      exact ih (shiftIn b u) d

theorem readCode_quiet : Quiet readCode := by
  intro s d
  simp only [readCode, withDst_lzw, fillBits_quiet _ s d]
  generalize fillBits s.lzw.codeSize s = r
  obtain ⟨_ | _, u⟩ := r <;> rfl

/-! ## Fetching -/

theorem drainImage_withDst (s : State) (d : Mem Byte) : drainImage (withDst d s) = withDst d (drainImage s) := by
  refine ite_map _ rfl ?_
  rw [withDst_bits]
  obtain ⟨u, hu, hu', -⟩ | ⟨b, u, hu, hu', -⟩ := (streamRead_quiet s.bits.blkRem.toNat).cases s d
  · rw [hu, hu']
  · rw [hu, hu']; rfl

theorem endImage_withDst (s : State) (d : Mem Byte) : endImage (withDst d s) = withDst d (endImage s) := by
  unfold endImage
  rw [drainImage_withDst]
  rfl

theorem endOfStream_withDst (p : Pos) (s : State) (d : Mem Byte) :
    endOfStream p (withDst d s) = withDst d (endOfStream p s) := by
  cases p with
  | lzwCode => exact endImage_withDst s d
  | _ => rfl

/-- A fetch with other content in DST. -/
def Fetched.withDst (d : Mem Byte) : Fetched → Fetched
  | .token i s => .token i (Machine.withDst d s)
  | .ended s => .ended (Machine.withDst d s)

theorem fetchBytes_withDst (p : Pos) (s : State) (d : Mem Byte) :
    fetchBytes p (withDst d s) = (fetchBytes p s).withDst d := by
  simp only [fetchBytes, withDst_gif, withDst_src, withDst_sp]
  cases decodeAt p s.gif.scrFlags (s.src.drop s.sp) with
  | ok r => rfl
  | error e =>
    cases e with
    | truncated => exact congrArg Fetched.ended (endOfStream_withDst p { s with sp := s.src.length } d)
    | badMagic => rfl
    | notBytes => rfl

theorem fetchCode_withDst (s : State) (d : Mem Byte) : fetchCode (withDst d s) = (fetchCode s).withDst d := by
  refine ite_map (Fetched.withDst d) ?_ (congrArg Fetched.ended (endImage_withDst s d))
  obtain ⟨u, hu, hu', -⟩ | ⟨c, u, hu, hu', -⟩ := readCode_quiet.cases s d
  · rw [hu, hu']
    exact congrArg Fetched.ended (endImage_withDst u d)
  · rw [hu, hu']; rfl

theorem fetchAt_withDst (p : Pos) (s : State) (d : Mem Byte) : fetchAt p (withDst d s) = (fetchAt p s).withDst d := by
  cases p with
  | lzwCode => exact fetchCode_withDst s d
  | drle => exact fetchBytes_withDst .drle s d
  | gifHeader => exact fetchBytes_withDst .gifHeader s d
  | gifLsd => exact fetchBytes_withDst .gifLsd s d
  | gifGct => exact fetchBytes_withDst .gifGct s d
  | gifBlock => exact fetchBytes_withDst .gifBlock s d

/-- A fetch on both states: the same token, or an end in both; DST stays. -/
theorem fetchAt_twin (p : Pos) (s : State) (d : Mem Byte) :
    (∃ u, fetchAt p s = .ended u ∧ fetchAt p (withDst d s) = .ended (withDst d u) ∧ s.dst = u.dst) ∨
      ∃ i u, fetchAt p s = .token i u ∧ fetchAt p (withDst d s) = .token i (withDst d u) ∧ s.dst = u.dst := by
  have hself : fetchAt p s = (fetchAt p s).withDst s.dst := fetchAt_withDst p s s.dst
  rw [fetchAt_withDst]
  generalize fetchAt p s = f at hself
  cases f with
  | ended u => exact .inl ⟨u, rfl, rfl, (congrArg (·.state.dst) hself).symm⟩
  | token i u => exact .inr ⟨i, u, rfl, rfl, (congrArg (·.state.dst) hself).symm⟩

end Sys2Proof.Machine
end

section
/-! PROOFS. O58: no instruction reads DST (20_memory.md R65). A part of a unit that does not store commutes with the change
of DST; one that stores writes the same bytes in both runs. -/

namespace Sys2Proof.Machine

/-! ## The delta-RLE decoder -/

theorem storePixel_withDst (a : Nat) (hi lo : Byte) (s : State) (d : Mem Byte) :
    storePixel a hi lo (withDst d s) = (storePixel a hi lo s).map (withDst (pixelMem a hi lo d)) :=
  ite_map (Except.map _) rfl rfl

theorem storeAll_withDst (as : List Nat) (hi lo : Byte) (s : State) (d : Mem Byte) :
    storeAll as hi lo (withDst d s) = (storeAll as hi lo s).map (withDst (pixelsMem as hi lo d)) := by
  induction as generalizing s d with
  | nil => rfl
  | cons a rest ih =>
    simp only [storeAll, storePixel_withDst]
    cases storePixel a hi lo s with
    | error r => rfl
    | ok t => exact ih t (pixelMem a hi lo d)

theorem blit_withDst (pos : Nat) (hi lo : Byte) (s : State) (d : Mem Byte) :
    blit pos hi lo (withDst d s) = (blit pos hi lo s).map (withDst (pixelsMem (blitAddrs s.drle pos) hi lo d)) :=
  ite_map (Except.map _) (storeAll_withDst _ hi lo s d) rfl

theorem execPxcStore_blind (a : Nat) (c : U16) : Blind (execPxcStore a c) := by
  intro s d
  unfold execPxcStore storeColor
  rw [storePixel_withDst]
  cases h : storePixel a (hi8 c) (lo8 c) s with
  | error r => exact .fault r
  | ok t =>
    obtain ⟨rfl, -⟩ := storePixel_keeps h
    exact .next (SameWrites.pixel a _ _ s.dst d)

theorem execDrleBlit_blind (pos : Nat) (hi lo : Byte) : Blind (execDrleBlit pos hi lo) := by
  intro s d
  unfold execDrleBlit
  rw [blit_withDst]
  cases h : blit pos hi lo s with
  | error r => exact .fault r
  | ok t =>
    obtain rfl := blit_ok h
    exact .next (SameWrites.pixels _ hi lo s.dst d)

/-- What follows the block of a payload's pixel (R147, R148): the pixel counted, then the stop at the budget or the rest. -/
def payloadNext (left : Nat) (s : State) : Out :=
  let s1 := { s with drle := { s.drle with pos := s.drle.pos + 1, recLeft := left } }
  if s1.drle.budget ≤ s1.drle.pos then .next (drleStop s1) else drlePayload left s1

/-- A payload with a pixel to come: its block, and what follows. -/
theorem drlePayload_succ_some {left : Nat} {s u : State} {hi lo : Byte} (h : streamPair s = (some (hi, lo), u)) :
    drlePayload (left + 1) s =
      andThen (execDrleBlit u.drle.pos hi lo { u with drle := { u.drle with pxHi := hi, pxLo := lo } })
        (payloadNext left) := by
  simp only [drlePayload, h, execDrleBlit]
  cases blit u.drle.pos hi lo { u with drle := { u.drle with pxHi := hi, pxLo := lo } } <;> rfl

theorem payloadNext_blind {left : Nat} (h : Blind (drlePayload left)) : Blind (payloadNext left) := fun s d =>
  .ite (.same rfl rfl) (h { s with drle := { s.drle with pos := s.drle.pos + 1, recLeft := left } } d)

theorem drlePayload_blind (left : Nat) : Blind (drlePayload left) := by
  induction left with
  | zero => exact fun _ _ => .same rfl rfl
  | succ left ih =>
    intro s d
    obtain ⟨u, hu, hu', hd⟩ | ⟨⟨hi, lo⟩, u, hu, hu', hd⟩ := streamPair_quiet.cases s d
    · simp only [drlePayload, hu, hu', hd]
      exact .same rfl rfl
    · rw [drlePayload_succ_some hu, drlePayload_succ_some hu', hd]
      exact (execDrleBlit_blind u.drle.pos hi lo { u with drle := { u.drle with pxHi := hi, pxLo := lo } } d).andThen
        (payloadNext_blind ih)

theorem drleRecord_blind (skip write : Byte) : Blind (drleRecord skip write) := by
  intro s d
  unfold drleRecord
  refine .ite (.same rfl rfl) (.ite ?_ ?_)
  · exact .same rfl rfl
  · exact drlePayload_blind write.toNat { s with drle := { s.drle with
      recSkip := skip, recWrite := write, pos := s.drle.pos + skip.toNat, recLeft := write.toNat } } d

theorem drleToken_blind (i : Instr) : Blind (drleToken i) := by
  intro s d
  cases i with
  | drleEnd => exact drleRecord_blind 0 0 s d
  | drleRec skip write => exact drleRecord_blind skip write s d
  | _ => exact .refused _

theorem drleRun_blind (fuel : Nat) : Blind (drleRun fuel) := by
  induction fuel with
  | zero => exact fun _ _ => .same rfl rfl
  | succ fuel ih =>
    intro s d
    simp only [drleRun]
    refine .ite ?_ (.same rfl rfl)
    obtain ⟨u, hu, hu', hd⟩ | ⟨i, u, hu, hu', hd⟩ := fetchAt_twin .drle s d
    · rw [hu, hu', hd]
      exact .same rfl rfl
    · rw [hu, hu', hd]
      exact (drleToken_blind i u d).andThen ih

theorem execDrleDecode_blind (file : List Byte) (w h x y stride sx sy e len : Nat) :
    Blind (execDrleDecode file w h x y stride sx sy e len) := by
  intro s d
  unfold execDrleDecode
  cases drleCheck w h x y stride sx sy e len with
  | some f => exact .same rfl rfl
  | none => exact .ite (.same rfl rfl) (drleRun_blind _ (drleSetup file w h x y stride sx sy e len s) d)

theorem execDrleEncode_blind (prev cur : List Byte) : Blind (execDrleEncode prev cur) := fun _ _ =>
  .ite (.same rfl rfl) (.refused _)

theorem execDrleEncodeFirst_blind (cur : List Byte) : Blind (execDrleEncodeFirst cur) := fun _ _ =>
  .ite (.same rfl rfl) (.refused _)

/-! ## The LZW decompressor -/

theorem drawPixel_blind (p : Nat) : ResBlind (drawPixel p) := by
  intro s d
  simp only [drawPixel, withDst_palette]
  refine .ite (.raised _ (.refl _ _)) ?_
  cases memRead (selectedPalette s).1 p with
  | none => exact .stuck _
  | some c =>
    simp only [storeColor, storePixel_withDst, withDst_gif, withDst_img]
    cases h : storePixel (imgAddr s.gif s.img s.img.pixN) (hi8 (pack c.r c.g c.b)) (lo8 (pack c.r c.g c.b)) s with
    | error r => exact .stuck r
    | ok t =>
      obtain ⟨rfl, -⟩ := storePixel_keeps h
      exact .ok (SameWrites.pixel _ _ _ s.dst d)

theorem emitPixel_blind (p : Nat) : ResBlind (emitPixel p) := fun s d =>
  .ite (.same rfl rfl) ((drawPixel_blind p s d).bind fun _ _ => .same rfl rfl)

theorem emitStack_blind (n : Nat) : ResBlind (emitStack n) := by
  induction n with
  | zero => exact fun _ _ => .same rfl rfl
  | succ n ih =>
    intro s d
    simp only [emitStack, withDst_stk]
    refine .ite ?_ (ih { s with stkN := n } d)
    cases memRead s.stk n with
    | none => exact .stuck _
    | some p => exact (emitPixel_blind p { s with stkN := n } d).bind ih

theorem pushStk_blind (v : Nat) : ResBlind (pushStk v) := fun _ _ =>
  .ite (.same rfl rfl) (.stuck _)

theorem expandOnto_blind (fuel c : Nat) : ResBlind (expandOnto fuel c) := by
  induction fuel generalizing c with
  | zero => exact fun _ _ => .stuck _
  | succ fuel ih =>
    intro s d
    simp only [expandOnto, withDst_dict]
    refine .ite (pushStk_blind c s d) ?_
    cases memRead s.dict c with
    | none => exact .stuck _
    | some e => exact (pushStk_blind e.sfx s d).bind (ih e.pfx)

theorem expand_blind (c : Nat) : ResBlind (expand c) := fun s d => expandOnto_blind _ c { s with stkN := 0 } d

theorem chainHead_withDst (fuel c : Nat) (s : State) (d : Mem Byte) :
    chainHead fuel c (withDst d s) = chainHead fuel c s := by
  induction fuel generalizing c with
  | zero => rfl
  | succ fuel ih => simp only [chainHead, withDst_lzw, withDst_dict, ih]

theorem addEntry_withDst (p f : Nat) (s : State) (d : Mem Byte) :
    addEntry p f (withDst d s) = withDst d (addEntry p f s) := ite_map (withDst d) rfl rfl

theorem finishCode_blind (p f c : Nat) : ResBlind (finishCode p f c) := by
  intro s d
  have hd : s.dst = (addEntry p f s).dst := (congrArg State.dst (addEntry_withDst p f s s.dst)).symm
  unfold finishCode
  rw [addEntry_withDst, hd]
  exact (emitStack_blind _ (addEntry p f s) d).bind fun _ _ => .same rfl rfl

theorem knownCode_blind (c : Nat) : ResBlind (knownCode c) := by
  intro s d
  simp only [knownCode, firstIndex, withDst_lzw, chainHead_withDst]
  cases s.lzw.prev with
  | none => exact .stuck _
  | some p =>
    cases chainHead (Config.dictSize + 1) c s with
    | error r => exact .stuck r
    | ok f => exact (expand_blind c s d).bind (finishCode_blind p f c)

theorem codeKwkwk_blind : ResBlind codeKwkwk := by
  intro s d
  simp only [codeKwkwk, firstIndex, withDst_lzw, chainHead_withDst]
  cases s.lzw.prev with
  | none => exact .stuck _
  | some p =>
    refine .ite ?_ (.stuck _)
    cases chainHead (Config.dictSize + 1) p s with
    | error r => exact .stuck r
    | ok f =>
      exact ((pushStk_blind f { s with stkN := 0 } d).bind (expandOnto_blind _ p)).bind
        (finishCode_blind p f s.lzw.nextCode)

theorem lzwToken_blind (i : Instr) : ResBlind (lzwToken i) := by
  intro s d
  cases i with
  | lzwClear => exact .same rfl rfl
  | lzwEnd =>
    have hd : s.dst = (endImage s).dst := by rw [endImage_frame s]
    simp only [lzwToken, codeEnd]
    rw [endImage_withDst, hd]
    exact .same rfl rfl
  | lzwFirst c => exact .ite ((emitPixel_blind c s d).bind fun _ _ => .same rfl rfl) (.stuck _)
  | lzwLit c => exact .ite (knownCode_blind c s d) (.stuck _)
  | lzwDict c => exact .ite (knownCode_blind c s d) (.stuck _)
  | lzwKwkwk => exact codeKwkwk_blind s d
  | lzwBadCode c => exact .ite (.raised _ (.refl _ _)) (.stuck _)
  | _ => exact .stuck _

theorem lzwRun_blind (fuel : Nat) : ResBlind (lzwRun fuel) := by
  induction fuel with
  | zero => exact fun _ _ => .same rfl rfl
  | succ fuel ih =>
    intro s d
    simp only [lzwRun]
    refine .ite ?_ (.same rfl rfl)
    obtain ⟨u, hu, hu', hd⟩ | ⟨i, u, hu, hu', hd⟩ := fetchAt_twin .lzwCode s d
    · rw [hu, hu', hd]
      exact .same rfl rfl
    · rw [hu, hu', hd]
      exact (lzwToken_blind i u d).bind ih

theorem lzwImage_blind : ResBlind lzwImage := fun s d =>
  .ite (lzwRun_blind _ (lzwSetup s) d) (.raised _ (.refl _ _))

theorem execLzwImage_blind : Blind execLzwImage := fun s d => .ite (.same rfl rfl) (lzwImage_blind s d).settle

/-! ## The GIF container -/

/-- The part of GIF.IMAGE after the local colour table (R189 to R191). -/
theorem imageRest_blind : Blind fun s =>
    match streamByte s with
    | (none, s1) => .next (streamEnd s1)
    | (some mcs, s1) => ((lzwImage (imageData mcs s1)).bind fun s2 => .ok (imageDone s2)).settle := by
  intro s d
  dsimp only
  obtain ⟨u, hu, hu', hd⟩ | ⟨mcs, u, hu, hu', hd⟩ := streamByte_quiet.cases s d
  · rw [hu, hu', hd]
    exact .same rfl rfl
  · rw [hu, hu', hd]
    have hdone : ResBlind fun s => .ok (imageDone s) := fun _ _ => .same rfl rfl
    exact ((lzwImage_blind (imageData mcs u) d).bind hdone).settle

theorem imageBody_blind : Blind imageBody := by
  intro s d
  simp only [imageBody, localTable, withDst_img]
  obtain ⟨u, hu, hu', hd⟩ | ⟨bytes, u, hu, hu', hd⟩ := (streamRead_quiet (3 * tableSize s.img.flags)).cases s d
  · rw [hu, hu', hd]
    exact .same rfl rfl
  · rw [hu, hu', hd]
    exact imageRest_blind { u with
      palL := writePalette ((readTriples (tableSize s.img.flags) bytes).getD []) 0 u.palL
      img := { u.img with
        lctLen := tableSize s.img.flags, palSel := selectPalette (tableSize s.img.flags) u.gif.gctLen } } d

theorem execGifImage_blind (left top w h : U16) (flags : Byte) : Blind (execGifImage left top w h flags) := fun s d =>
  .ite (.same rfl rfl) (.ite (.same rfl rfl) (imageBody_blind (setDescriptor left top w h flags s) d))

theorem execGifLsd_blind (w h : U16) (flags bg aspect : Byte) : Blind (execGifLsd w h flags bg aspect) := fun _ _ =>
  .ite (.same rfl rfl) (.same rfl rfl)

theorem execGifGce_blind (body : List Byte) : Blind (execGifGce body) := by
  intro s d
  cases body with
  | nil => exact .same rfl rfl
  | cons b rest => exact .same rfl rfl

theorem gifToken_blind (i : Instr) : Blind (gifToken i) := by
  intro s d
  cases i with
  | gifHeader87a => exact .same rfl rfl
  | gifHeader89a => exact .same rfl rfl
  | gifLsd w h flags bg aspect => exact execGifLsd_blind w h flags bg aspect s d
  | gifGct table => exact .same rfl rfl
  | gifGce body => exact execGifGce_blind body s d
  | gifExt label => exact .same rfl rfl
  | gifImage left top w h flags => exact execGifImage_blind left top w h flags s d
  | gifTrailer => exact .same rfl rfl
  | gifUnknown intro => exact .same rfl rfl
  | _ => exact .refused _

theorem gifRun_blind (fuel : Nat) : Blind (gifRun fuel) := by
  induction fuel with
  | zero => exact fun _ _ => .same rfl rfl
  | succ fuel ih =>
    intro s d
    simp only [gifRun, withDst_ctl]
    cases gifPos s.ctl with
    | none => exact .same rfl rfl
    | some p =>
      dsimp only
      obtain ⟨u, hu, hu', hd⟩ | ⟨i, u, hu, hu', hd⟩ := fetchAt_twin p s d
      · rw [hu, hu', hd]
        exact .same rfl rfl
      · rw [hu, hu', hd]
        exact (gifToken_blind i u d).andThen ih

theorem execGifStart_blind (expW expH : Nat) : Blind (execGifStart expW expH) := fun s d =>
  .ite (.same rfl rfl) (gifRun_blind _ (gifSetup expW expH s) d)

theorem execGifNext_blind : Blind execGifNext := fun s d =>
  .ite (gifRun_blind _ { s with ctl := some .gifBlock } d) (.same rfl rfl)

/-! ## The scheduler -/

theorem loadGeometry_blind : Blind loadGeometry := fun _ _ =>
  .ite (.refused _) (.ite (.same rfl rfl) (.ite (.same rfl rfl) (.same rfl rfl)))

theorem execSchLoad_blind : Blind execSchLoad := fun s d =>
  .ite
    (.ite (.same rfl rfl) (loadGeometry_blind
      { s with sched := { s.sched with frameCount := (dirFrames s s.sched.folderIdx).length } } d))
    (.same rfl rfl)

theorem execSchTick_blind : Blind execSchTick := fun _ _ => .ite (.same rfl rfl) (.same rfl rfl)

theorem pollAct_blind (now : Nat) (pa pb : Bool) : Blind (pollAct now pa pb) := fun _ _ =>
  .ite (.same rfl rfl)
    (.ite (.ite (.refused _) (.same rfl rfl)) (.ite (.ite (.refused _) (.same rfl rfl)) (.same rfl rfl)))

theorem execSchPoll_blind (now : Nat) (a b : Bool) : Blind (execSchPoll now a b) := fun s d =>
  .ite (.ite (pollAct_blind now (pressed a) (pressed b) s d) (.refused _)) (.same rfl rfl)

theorem execSchSwitch_blind : Blind execSchSwitch := fun _ _ => .ite (.same rfl rfl) (.same rfl rfl)

theorem passEnd_blind : Blind passEnd := by
  intro s d
  simp only [passEnd, withDst_sched]
  cases s.sched.interval with
  | none => exact .fault _
  | some v => exact .same rfl rfl

theorem countFrame_withDst (s : State) (d : Mem Byte) : countFrame (withDst d s) = withDst d (countFrame s) :=
  ite_map (withDst d) rfl rfl

theorem finishFrame_blind : Blind finishFrame := by
  intro s d
  have hd : s.dst = (countFrame s).dst := by rw [countFrame_frame s]
  simp only [finishFrame]
  rw [countFrame_withDst, hd]
  exact .ite (passEnd_blind (countFrame s) d) (.same rfl rfl)

theorem beginFrame_blind : Blind beginFrame := by
  intro s d
  simp only [beginFrame, withDst_cfg, withDst_sched, withDst_dirFrames]
  refine .ite (.refused _) ?_
  cases (dirFrames s s.sched.folderIdx)[s.sched.frameIdx]? with
  | none => exact .refused _
  | some file =>
    dsimp only
    split
    · exact .same rfl rfl
    · exact .same rfl rfl

theorem runFrame_blind : Blind runFrame := fun s d =>
  .ite ((drleRun_blind _ s d).andThen finishFrame_blind) (.same rfl rfl)

theorem execSchStep_blind : Blind execSchStep := fun s d =>
  .ite (.ite (runFrame_blind s d) (.ite ((beginFrame_blind s d).andThen runFrame_blind) (.same rfl rfl)))
    (.same rfl rfl)

/-! ## Every instruction -/

/-- No instruction reads DST (R65). -/
theorem exec_blind (i : Instr) : Blind (exec i) := by
  cases i with
  | pxcPack r g b => exact fun _ _ => .same rfl rfl
  | pxcStore a c => exact execPxcStore_blind a c
  | drleEnd => exact drleRecord_blind 0 0
  | drleRec skip write => exact drleRecord_blind skip write
  | drleBlit pos hi lo => exact execDrleBlit_blind pos hi lo
  | drleDecode file w h x y S sx sy e len => exact execDrleDecode_blind file w h x y S sx sy e len
  | drleEncode prev cur => exact execDrleEncode_blind prev cur
  | drleEncodeFirst cur => exact execDrleEncodeFirst_blind cur
  | gifHeader87a => exact gifToken_blind .gifHeader87a
  | gifHeader89a => exact gifToken_blind .gifHeader89a
  | gifLsd w h flags bg aspect => exact gifToken_blind (.gifLsd w h flags bg aspect)
  | gifGct table => exact gifToken_blind (.gifGct table)
  | gifGce body => exact gifToken_blind (.gifGce body)
  | gifExt label => exact gifToken_blind (.gifExt label)
  | gifImage left top w h flags => exact gifToken_blind (.gifImage left top w h flags)
  | gifTrailer => exact gifToken_blind .gifTrailer
  | gifUnknown intro => exact gifToken_blind (.gifUnknown intro)
  | gifStart expW expH => exact execGifStart_blind expW expH
  | gifNext => exact execGifNext_blind
  | lzwImage => exact execLzwImage_blind
  | lzwClear => exact fun s d => (lzwToken_blind .lzwClear s d).settle
  | lzwEnd => exact fun s d => (lzwToken_blind .lzwEnd s d).settle
  | lzwFirst c => exact fun s d => (lzwToken_blind (.lzwFirst c) s d).settle
  | lzwLit c => exact fun s d => (lzwToken_blind (.lzwLit c) s d).settle
  | lzwDict c => exact fun s d => (lzwToken_blind (.lzwDict c) s d).settle
  | lzwKwkwk => exact fun s d => (lzwToken_blind .lzwKwkwk s d).settle
  | lzwBadCode c => exact fun s d => (lzwToken_blind (.lzwBadCode c) s d).settle
  | schLoad => exact execSchLoad_blind
  | schTick => exact execSchTick_blind
  | schStep => exact execSchStep_blind
  | schPoll now a b => exact execSchPoll_blind now a b
  | schSwitch => exact execSchSwitch_blind

/-- Settles O58: two runs of any instruction end alike, with the same writes to DST. -/
theorem dstIsWriteOnly : Obligations.DstIsWriteOnly := by
  intro i s m
  have h : OutTwin s.dst m (exec i s) (exec i { s with dst := m }) := exec_blind i s m
  revert h
  generalize exec i s = o
  generalize exec i { s with dst := m } = o'
  intro h
  cases h with
  | next h => exact ⟨rfl, h⟩
  | fault r => rfl
  | refused r => rfl

end Sys2Proof.Machine
end

section
/-! PROOFS. The classes of a code value (30_encoding.md R111), where a code token stops, and what the decoder reads from
words of the opcode table. -/

namespace Sys2Proof.Machine

/-! ## Classes of a code value -/

/-- When a code value is of the last class (R222, R225). -/
theorem decodeCode_lzwBadCode {x : CodeCtx} {c : Nat} (hend : x.endCode = x.clear + 1)
    (h : decodeCode x c = .lzwBadCode c) :
    x.prev = none ∧ x.endCode < c ∨ x.prev ≠ none ∧ (x.nextCode < c ∨ c = x.nextCode ∧ 4096 ≤ x.nextCode) := by
  unfold decodeCode at h
  split at h
  · cases h
  split at h
  · cases h
  split at h
  · next hp =>
    split at h
    · cases h
    · exact .inl ⟨hp, by omega⟩
  · next p hp =>
    refine .inr ⟨by simp [hp], ?_⟩
    split at h
    · cases h
    split at h
    · cases h
    split at h
    · cases h
    · simp only [Config.dictSize] at *; omega

/-- Settles O31: in each class the token read is none of the other six, and the class's condition excludes theirs. -/
theorem codeClasses : Obligations.CodeClasses := by
  intro x c hend hnext
  rcases decodeCode_cases x c with ⟨hc, hd⟩ | ⟨-, hc, hd⟩ | ⟨hp, hc, -, hd⟩ | ⟨⟨p, hp⟩, hc, -, -, hd⟩ |
    ⟨⟨p, hp⟩, -, -, hc, hn, hd⟩ | ⟨⟨p, hp⟩, hc, hn, hd⟩ | hd
  · rw [hd]; simp; omega
  · rw [hd]; simp; omega
  · rw [hd]; simp [hp]; omega
  · rw [hd]; simp [hp]; omega
  · rw [hd]; simp [hp]; omega
  · simp only [Config.dictSize] at hn
    rw [hd]; simp [hp]; omega
  · obtain ⟨hp, hc⟩ | ⟨hp, hc⟩ := decodeCode_lzwBadCode hend hd
    · rw [hd]; simp [hp]; omega
    · rw [hd]; simp [hp]; omega

/-! ## Where a code token stops -/

/-- A dictionary code whose entry nothing has written: its chain stops there (R229). -/
theorem knownCode_unwritten {c p : Nat} {s : State} (hp : s.lzw.prev = some p) (hc : s.lzw.clear ≤ c)
    (hm : memRead s.dict c = none) : knownCode c s = .stuck (.unwrittenDict c) := by
  have hf : firstIndex c s = .error (.unwrittenDict c) := by
    simp only [firstIndex, chainHead, if_neg (Nat.not_lt.2 hc), hm]
  simp only [knownCode, hp, hf]

/-- A dictionary code has a code before it, and is not a literal (R111). -/
theorem decodeCode_lzwDict {x : CodeCtx} {c : Nat} (h : decodeCode x c = .lzwDict c) :
    (∃ p, x.prev = some p) ∧ x.clear ≤ c := by
  rcases decodeCode_cases x c with ⟨-, hd⟩ | ⟨-, -, hd⟩ | ⟨-, -, -, hd⟩ | ⟨-, -, -, -, hd⟩ | ⟨hp, hc, -⟩ |
    ⟨-, -, -, hd⟩ | hd
  case inr.inr.inr.inr.inl => exact ⟨hp, hc⟩
  all_goals cases h.symm.trans hd

theorem codeKwkwk_stuck {s : State} (h : decodeCode (codeCtx s) s.lzw.nextCode ≠ .lzwKwkwk) :
    codeKwkwk s = .stuck .codeClass := by
  unfold codeKwkwk
  split
  · rfl
  · exact if_neg h

/-- Settles O32: a token's own test of its class comes first; then the dictionary or the palette is read. -/
theorem codeTokenStops : Obligations.CodeTokenStops := by
  intro c s
  refine ⟨fun h => congrArg Res.settle (if_neg h), fun h => congrArg Res.settle (if_neg h),
    fun h => congrArg Res.settle (if_neg h), fun h => congrArg Res.settle (if_neg h),
    fun h => congrArg Res.settle (codeKwkwk_stuck h), fun hd hm => ?_, fun hd ht hp hm => ?_⟩
  · obtain ⟨⟨p, hprev⟩, hc⟩ := decodeCode_lzwDict hd
    have hcode : codeDict c s = .stuck (.unwrittenDict c) := (if_pos hd).trans (knownCode_unwritten hprev hc hm)
    exact congrArg Res.settle hcode
  · have hcode : codeFirst c s = .stuck (.unwrittenPalette c) := by
      simp only [codeFirst, if_pos hd, (emitPixel_undrawable ht).2 hp hm, Res.bind]
    exact congrArg Res.settle hcode

/-! ## Words of the opcode table -/

/-- A table word through its bytes: the position its width selects, and the decoder on the bytes with zeros after them. -/
theorem decodeTableWord_eq {n w : Nat} {p : Pos} {bytes : List Byte} {i : Instr} {k : Nat} (hp : tablePos n w = some p)
    (hw : wordBytes (n / 8) w = bytes) (hd : decodeAt p 0 (bytes ++ List.replicate longestToken 0) = .ok (i, k)) :
    decodeTableWord n w = some i := by
  simp only [decodeTableWord, hp, tableBytesOf, hw, hd]

theorem decodeHeader_magic87a (rest : List Byte) : decodeHeader (magic87a ++ rest) = .ok (.gifHeader87a, 6) := by
  simp [decodeHeader, magic87a]

theorem decodeHeader_magic89a (rest : List Byte) : decodeHeader (magic89a ++ rest) = .ok (.gifHeader89a, 6) := by
  simp [decodeHeader, magic87a, magic89a]

theorem decodeBlock_emptyGce (rest : List Byte) : decodeBlock (0x21 :: 0xF9 :: 0 :: rest) = .ok (.gifGce [], 3) := by
  simp [decodeBlock, decodeExtension, decodeGce]

/-- Settles O52: each word as its bytes, and the decoder on those. -/
theorem sampleWords : Obligations.SampleWords := by
  refine ⟨?_, ?_, ?_, ?_, ?_, ?_, ?_, ?_, ?_, ?_⟩
  · exact decodeTableWord_eq (bytes := [0, 0]) rfl rfl rfl
  · exact decodeTableWord_eq (bytes := [1, 2]) rfl rfl rfl
  · exact decodeTableWord_eq (bytes := magic87a) rfl rfl (decodeHeader_magic87a _)
  · exact decodeTableWord_eq (bytes := magic89a) rfl rfl (decodeHeader_magic89a _)
  · exact decodeTableWord_eq (bytes := [3, 0, 2, 0, 0x81, 0, 0]) rfl rfl rfl
  · exact decodeTableWord_eq (bytes := [0x3B]) rfl rfl rfl
  · exact decodeTableWord_eq (bytes := [0]) rfl rfl rfl
  · exact decodeTableWord_eq (bytes := [0x2C]) rfl rfl rfl
  · exact decodeTableWord_eq (bytes := [0x21]) rfl rfl rfl
  · exact decodeTableWord_eq (bytes := [0x21, 0xF9]) rfl rfl (decodeBlock_emptyGce (List.replicate 257 0))

end Sys2Proof.Machine
end

section
/-! PROOFS. O36: the bit reader (43_lzw.md R215, R216) delivers the bit string of the data bytes. First the bit strings of
numbers, then the next data byte, the filling loop, and a code. -/

namespace Sys2Proof.Machine

/-! ## Bit strings (R110) -/

@[simp] theorem bitsOf_length (n v : Nat) : (bitsOf n v).length = n := by
  induction n generalizing v with
  | zero => rfl
  | succ n ih => simp [bitsOf, ih]

/-- The bits of a number in two parts. -/
theorem bitsOf_add (n m v : Nat) : bitsOf (n + m) v = bitsOf n v ++ bitsOf m (v / 2 ^ n) := by
  induction n generalizing v with
  | zero => simp [bitsOf]
  | succ n ih => rw [Nat.succ_add, bitsOf, bitsOf, ih, Nat.div_div_eq_div_mul, ← Nat.pow_succ', List.cons_append]

/-- The number that `n` bits of `v` stand for. -/
theorem ofBits_bitsOf (n v : Nat) : ofBits (bitsOf n v) = v % 2 ^ n := by
  induction n generalizing v with
  | zero => simp [bitsOf, ofBits, Nat.mod_one]
  | succ n ih =>
    rw [bitsOf, ofBits, ih, Nat.pow_succ', Nat.mod_mul]
    rcases Nat.mod_two_eq_zero_or_one v with h | h <;> simp [h]

/-- The low `n` bits do not depend on what lies above them. -/
theorem bitsOf_mod (n v : Nat) : bitsOf n (v % 2 ^ n) = bitsOf n v := by
  induction n generalizing v with
  | zero => rfl
  | succ n ih =>
    rw [bitsOf, bitsOf, Nat.pow_succ', Nat.mod_mul_right_mod, Nat.mod_mul_right_div_self, ih]

/-- A number put above `n` bits continues their bit string. -/
theorem bitsOf_or_shiftLeft {n v : Nat} (m w : Nat) (h : v < 2 ^ n) :
    bitsOf (n + m) (v ||| w <<< n) = bitsOf n v ++ bitsOf m w := by
  have hsum : v ||| w <<< n = v + 2 ^ n * w := by
    rw [Nat.or_comm, ← Nat.shiftLeft_add_eq_or_of_lt h, Nat.shiftLeft_eq]; ring
  have hlow : (v + 2 ^ n * w) % 2 ^ n = v := by rw [Nat.add_mul_mod_self_left, Nat.mod_eq_of_lt h]
  have hhigh : (v + 2 ^ n * w) / 2 ^ n = w := by
    rw [Nat.add_mul_div_left _ _ (Nat.two_pow_pos n), Nat.div_eq_of_lt h, Nat.zero_add]
  rw [hsum, bitsOf_add, ← bitsOf_mod n, hlow, hhigh]

/-! ## The next data byte (R215) -/

/-- Any bytes are the rest of some sub-block chain, whole or cut off. -/
theorem dataBytes_exists (src : List Byte) (n : Nat) : ∃ data cut, DataBytes n src data cut := by
  induction src generalizing n with
  | nil =>
    cases n with
    | zero => exact ⟨_, _, .noLength⟩
    | succ n => exact ⟨_, _, .short n⟩
  | cons b src ih =>
    cases n with
    | zero =>
      by_cases hb : b = 0
      · subst hb; exact ⟨_, _, .terminator src⟩
      · obtain ⟨data, cut, h⟩ := ih b.toNat
        exact ⟨_, _, .block b src data cut hb h⟩
    | succ n =>
      obtain ⟨data, cut, h⟩ := ih n
      exact ⟨_, _, .byte n b src data cut h⟩

theorem streamByte_of_nil {s : State} (h : s.src.drop s.sp = []) :
    streamByte s = (none, { s with sp := s.src.length }) := by
  have hget : s.src[s.sp]? = none := by rw [← List.head?_drop, h]; rfl
  simp only [streamByte, hget]

theorem streamByte_of_cons {s : State} {b : Byte} {rest : List Byte} (h : s.src.drop s.sp = b :: rest) :
    streamByte s = (some b, { s with sp := s.sp + 1 }) ∧ s.src.drop (s.sp + 1) = rest := by
  have hget : s.src[s.sp]? = some b := by rw [← List.head?_drop, h]; rfl
  exact ⟨by simp only [streamByte, hget], by rw [← List.tail_drop, h]; rfl⟩

/-- A data byte entering the accumulator leaves the bit string as it was. -/
theorem pending_shiftIn {t : State} {cut : Bool} {data : List Byte} (b : Byte) (hterm : t.bits.termSeen = false)
    (heos : t.bits.eosSeen = false) (hbuf : t.bits.buf < 2 ^ t.bits.cnt)
    (hdata : DataBytes t.bits.blkRem.toNat (t.src.drop t.sp) data cut) :
    Pending (shiftIn b t) cut (bitsOf t.bits.cnt t.bits.buf ++ (b :: data).flatMap fun b => bitsOf 8 b.toNat) := by
  refine ⟨hterm, heos, ?_, data, hdata, ?_⟩
  · have hbyte : b.toNat <<< t.bits.cnt < 2 ^ (t.bits.cnt + 8) := by
      rw [Nat.shiftLeft_eq, Nat.pow_add, Nat.mul_comm]
      exact (Nat.mul_lt_mul_left (Nat.two_pow_pos _)).2 b.isLt
    exact Nat.or_lt_two_pow (hbuf.trans (Nat.pow_lt_pow_right (by omega) (Nat.lt_add_of_pos_right (by omega)))) hbyte
  · rw [List.flatMap_cons, ← List.append_assoc]
    exact congrArg (· ++ _) (bitsOf_or_shiftLeft 8 b.toNat hbuf).symm

/-- How `NextDataByte` ends with no byte: the bit string holds nothing beyond the accumulator, and the end the reader has
seen is the terminator or, at `cut`, the end of SRC. -/
def NoByte (s t : State) (cut : Bool) : Prop :=
  t.bits.eosSeen = cut ∧ t.bits.termSeen = !cut ∧ (cut = true → t.sp = s.src.length)

/-- A length byte read opens a sub-block: the rest of the call is a call in it. -/
theorem nextDataByte_block {s : State} {k : Byte} {rest : List Byte} (hlive : (s.bits.termSeen || s.bits.eosSeen) = false)
    (hrem : s.bits.blkRem = 0) (hk : k ≠ 0) (hsrc : s.src.drop s.sp = k :: rest) :
    nextDataByte s = nextDataByte { s with sp := s.sp + 1, bits := { s.bits with blkRem := k } } := by
  simp only [nextDataByte, hlive, hrem, hk, (streamByte_of_cons hsrc).1, if_true, if_false, Bool.false_eq_true]
  simp only [streamByte]
  cases s.src[s.sp + 1]? <;> rfl

/-- `NextDataByte` delivers the data bytes of the chain, one a call. -/
theorem nextDataByte_data {n : Nat} {src data : List Byte} {cut : Bool} (hdata : DataBytes n src data cut) {s : State}
    (hterm : s.bits.termSeen = false) (heos : s.bits.eosSeen = false) (hrem : s.bits.blkRem.toNat = n)
    (hsrc : s.src.drop s.sp = src) :
    (data = [] ∧ ∃ t, nextDataByte s = (none, t) ∧ NoByte s t cut) ∨
    ∃ b rest sp rem, data = b :: rest ∧
      nextDataByte s = (some b, { s with sp := sp, bits := { s.bits with blkRem := rem } }) ∧
      DataBytes rem.toNat (s.src.drop sp) rest cut := by
  have hlive : (s.bits.termSeen || s.bits.eosSeen) = false := by rw [hterm, heos]; rfl
  have hbetween : n = 0 → s.bits.blkRem = 0 := fun h0 => BitVec.eq_of_toNat_eq (hrem.trans h0)
  have hinside : ∀ m, n = m + 1 → s.bits.blkRem ≠ 0 := fun m hm h0 => by simp [h0, hm] at hrem
  induction hdata generalizing s with
  | terminator rest =>
    refine .inl ⟨rfl, { s with sp := s.sp + 1, bits := { s.bits with termSeen := true } }, ?_, heos, rfl, nofun⟩
    simp only [nextDataByte, hlive, hbetween rfl, (streamByte_of_cons hsrc).1, if_true, Bool.false_eq_true, if_false]
  | noLength =>
    refine .inl ⟨rfl, { s with sp := s.src.length, bits := { s.bits with eosSeen := true } }, ?_, rfl, hterm,
      fun _ => rfl⟩
    simp only [nextDataByte, hlive, hbetween rfl, streamByte_of_nil hsrc, if_true, Bool.false_eq_true, if_false]
  | block k src data cut hk h ih =>
    rw [nextDataByte_block hlive (hbetween rfl) hk hsrc]
    exact ih (s := { s with sp := s.sp + 1, bits := { s.bits with blkRem := k } }) hterm heos rfl
      (streamByte_of_cons hsrc).2 hlive (fun h0 => BitVec.eq_of_toNat_eq h0) (fun _ _ => hk)
  | byte n b src data cut h =>
    obtain ⟨hread, hrest⟩ := streamByte_of_cons hsrc
    refine .inr ⟨b, data, s.sp + 1, s.bits.blkRem - 1, rfl, ?_, ?_⟩
    · simp only [nextDataByte, hlive, hinside n rfl, hread, Bool.false_eq_true, if_false]
    · have hn : (s.bits.blkRem - 1).toNat = n := by bv_omega
      rw [hn, hrest]; exact h
  | short n =>
    refine .inl ⟨rfl, { s with sp := s.src.length, bits := { s.bits with eosSeen := true } }, ?_, rfl, hterm,
      fun _ => rfl⟩
    simp only [nextDataByte, hlive, hinside n rfl, streamByte_of_nil hsrc, Bool.false_eq_true, if_false]

/-- What the next data byte is for a reader with `bits` still to deliver: none left beyond those it holds, and which end it
has seen; or a byte, which in the accumulator leaves the bit string as it was. -/
theorem nextDataByte_pending {s : State} {cut : Bool} {bits : List Bool} (h : Pending s cut bits) :
    (bits.length = s.bits.cnt ∧ ∃ t, nextDataByte s = (none, t) ∧ NoByte s t cut) ∨
    ∃ b t, nextDataByte s = (some b, t) ∧ Pending (shiftIn b t) cut bits ∧ t.bits.cnt = s.bits.cnt ∧
      t.lzw = s.lzw ∧ t.src = s.src := by
  obtain ⟨hterm, heos, hbuf, data, hdata, rfl⟩ := h
  obtain ⟨rfl, hnone⟩ | ⟨b, rest, sp, rem, rfl, hread, hrest⟩ := nextDataByte_data hdata hterm heos rfl rfl
  · exact .inl ⟨by simp, hnone⟩
  · exact .inr ⟨b, _, hread, pending_shiftIn b hterm heos hbuf hrest, rfl, rfl, rfl⟩

/-! ## The filling loop (R216) -/

theorem Pending.cnt_le {s : State} {cut : Bool} {bits : List Bool} (h : Pending s cut bits) :
    s.bits.cnt ≤ bits.length := by
  obtain ⟨-, -, -, data, -, rfl⟩ := h
  simp

theorem fillBits_of_le {s : State} (fuel : Nat) (h : s.lzw.codeSize ≤ s.bits.cnt) : fillBits fuel s = (true, s) := by
  cases fuel with
  | zero => simp [fillBits, h]
  | succ fuel => simp [fillBits, Nat.not_lt.2 h]

theorem fillBits_none {s t : State} (fuel : Nat) (h : s.bits.cnt < s.lzw.codeSize) (hn : nextDataByte s = (none, t)) :
    fillBits (fuel + 1) s = (false, t) := by
  simp only [fillBits, if_pos h, hn]

theorem fillBits_some {s t : State} {b : Byte} (fuel : Nat) (h : s.bits.cnt < s.lzw.codeSize)
    (hn : nextDataByte s = (some b, t)) : fillBits (fuel + 1) s = fillBits fuel (shiftIn b t) := by
  simp only [fillBits, if_pos h, hn]

/-- The loop ends with a code's bits held and the bit string unchanged, or, where it has too few bits, at its end. -/
theorem fillBits_pending {cut : Bool} {bits : List Bool} (fuel : Nat) {s : State} (h : Pending s cut bits)
    (hfuel : s.lzw.codeSize ≤ s.bits.cnt + 8 * fuel) :
    (s.lzw.codeSize ≤ bits.length → ∃ t, fillBits fuel s = (true, t) ∧ Pending t cut bits ∧
      s.lzw.codeSize ≤ t.bits.cnt) ∧
    (bits.length < s.lzw.codeSize → ∃ t, fillBits fuel s = (false, t) ∧ NoByte s t cut) := by
  have hcnt := h.cnt_le
  induction fuel generalizing s with
  | zero => exact ⟨fun _ => ⟨s, fillBits_of_le 0 hfuel, h, hfuel⟩, fun _ => by omega⟩
  | succ fuel ih =>
    by_cases hle : s.lzw.codeSize ≤ s.bits.cnt
    · exact ⟨fun _ => ⟨s, fillBits_of_le _ hle, h, hle⟩, fun _ => by omega⟩
    have hlt := Nat.not_le.1 hle
    obtain ⟨hlen, t, hread, hend⟩ | ⟨b, t, hread, hpend, hc, hlzw, hsrc⟩ := nextDataByte_pending h
    · exact ⟨fun _ => by omega, fun _ => ⟨t, fillBits_none fuel hlt hread, hend⟩⟩
    · have hturn := ih hpend (by simp only [shiftIn_lzw, shiftIn_bits, hlzw, hc]; omega) hpend.cnt_le
      rw [fillBits_some fuel hlt hread]
      simpa only [shiftIn_lzw, hlzw, NoByte, shiftIn_src, hsrc] using hturn

/-! ## A code (R216) -/

/-- What `ReadCode` makes of a filled accumulator. -/
theorem readCode_filled {s t : State} (h : fillBits s.lzw.codeSize s = (true, t)) :
    readCode s = (some (t.bits.buf % 2 ^ s.lzw.codeSize), shiftOut s.lzw.codeSize t) := by
  have hframe : t = { s with sp := t.sp, bits := t.bits } := by
    have := fillBits_frame s.lzw.codeSize s
    rwa [h] at this
  have hlzw : t.lzw = s.lzw := by rw [hframe]
  simp only [readCode, h, hlzw, Nat.one_shiftLeft, Nat.and_two_pow_sub_one_eq_mod]

theorem readCode_unfilled {s t : State} (h : fillBits s.lzw.codeSize s = (false, t)) : readCode s = (none, t) := by
  simp only [readCode, h]

theorem readCode_result_frame {s t : State} {r : Option Nat} (h : readCode s = (r, t)) :
    t = { s with sp := t.sp, bits := t.bits } := by
  have hframe := readCode_frame s
  rwa [h] at hframe

/-- The accumulator's low bits are the head of the bit string, and shifting them out leaves the rest. -/
theorem pending_shiftOut {t : State} {cut : Bool} {bits : List Bool} {w : Nat} (h : Pending t cut bits)
    (hw : w ≤ t.bits.cnt) :
    t.bits.buf % 2 ^ w = ofBits (bits.take w) ∧ Pending (shiftOut w t) cut (bits.drop w) := by
  obtain ⟨hterm, heos, hbuf, data, hdata, rfl⟩ := h
  obtain ⟨m, hm⟩ := Nat.exists_eq_add_of_le hw
  have hsplit : bitsOf t.bits.cnt t.bits.buf = bitsOf w t.bits.buf ++ bitsOf m (t.bits.buf / 2 ^ w) := by
    rw [hm, bitsOf_add]
  rw [hsplit, List.append_assoc]
  refine ⟨?_, hterm, heos, ?_, data, hdata, ?_⟩
  · rw [List.take_left' (bitsOf_length w _), ofBits_bitsOf]
  · show t.bits.buf >>> w < 2 ^ (t.bits.cnt - w)
    rw [Nat.shiftRight_eq_div_pow, Nat.div_lt_iff_lt_mul (Nat.two_pow_pos w), ← Nat.pow_add, Nat.sub_add_cancel hw]
    exact hbuf
  · rw [List.drop_left' (bitsOf_length w _)]
    simp [Nat.shiftRight_eq_div_pow, hm]

/-- A reader that has seen an end gets no further byte (R215). -/
theorem nextDataByte_ended {s : State} (h : s.bits.termSeen = true ∨ s.bits.eosSeen = true) :
    nextDataByte s = (none, s) :=
  if_pos (by simpa using h)

/-- Settles O36. -/
theorem codesAreBitFields : Obligations.CodesAreBitFields := by
  refine ⟨fun s cut bits h => ?_, fun s hterm heos hbuf => ?_, fun s hseen => ⟨fun hle => ?_, fun hlt => ?_⟩⟩
  · obtain ⟨hfull, hshort⟩ := fillBits_pending s.lzw.codeSize h (by omega)
    refine ⟨fun hle => ?_, fun hlt => ?_⟩
    · obtain ⟨t, hfill, hpend, hcnt⟩ := hfull hle
      obtain ⟨hcode, hrest⟩ := pending_shiftOut hpend hcnt
      have hread := readCode_filled hfill
      exact ⟨_, hcode ▸ hread, readCode_result_frame hread, hrest⟩
    · obtain ⟨t, hfill, heos, hterm, hcut⟩ := hshort hlt
      have hread := readCode_unfilled hfill
      exact ⟨t, hread, readCode_result_frame hread, heos, hterm, hcut⟩
  · obtain ⟨data, cut, hdata⟩ := dataBytes_exists (s.src.drop s.sp) s.bits.blkRem.toNat
    exact ⟨cut, _, hterm, heos, hbuf, data, hdata, rfl⟩
  · rw [readCode_filled (fillBits_of_le _ hle), shiftOut, Nat.shiftRight_eq_div_pow]
  · obtain ⟨fuel, hfuel⟩ := Nat.exists_eq_succ_of_ne_zero (Nat.ne_zero_of_lt hlt)
    exact readCode_unfilled (hfuel ▸ fillBits_none fuel hlt (nextDataByte_ended hseen))

end Sys2Proof.Machine
end

section
/-! PROOFS. O1, O2, O3: the pixel codec (40_pixel_codec.md R130, R131, R133). A packed colour is the three channels' kept
bits side by side; its sum, its fields and its two bytes are read off that layout. -/

namespace Sys2Proof.Machine

/-! ## The masks of R130 -/

theorem mask_F8 : (0xF8 : Byte) = BitVec.allOnes 8 <<< 3 := rfl

theorem mask_FC : (0xFC : Byte) = BitVec.allOnes 8 <<< 2 := rfl

/-- A mask of the top bits clears the bits below `n` and keeps the others. -/
theorem getElem_and_mask {m i : Nat} (x : BitVec m) (n : Nat) (hi : i < m) :
    (x &&& BitVec.allOnes m <<< n)[i] = (!decide (i < n) && x[i]) := by
  simp [Bool.and_comm]

/-- A mask of the top bits leaves the field of those bits in its place. -/
theorem setWidth_and_mask {m n k w : Nat} (x : BitVec m) (h : m ≤ n + k) :
    (x &&& BitVec.allOnes m <<< n).setWidth w = (x.extractLsb' n k).setWidth w <<< n := by
  ext i hi
  by_cases hn : i < n
  · simp [hn]
  · by_cases hm : i < m
    · simp [hn, hm, show n + (i - n) = i by omega, show i - n < k by omega]
    · simp [hn, hm, show n + (i - n) = i by omega, BitVec.getLsbD_of_ge x i (by omega)]

/-! ## The three terms -/

/-- The red term of R130 is `r[7:3]` at bit 11. -/
theorem redTerm_eq (r : Byte) :
    (r &&& 0xF8).zeroExtend 16 <<< 8 = (r.extractLsb' 3 5).zeroExtend 16 <<< 11 := by
  rw [mask_F8, BitVec.zeroExtend, setWidth_and_mask (k := 5) r (by decide), ← BitVec.shiftLeft_add]

/-- The green term of R130 is `g[7:2]` at bit 5. -/
theorem greenTerm_eq (g : Byte) :
    (g &&& 0xFC).zeroExtend 16 <<< 3 = (g.extractLsb' 2 6).zeroExtend 16 <<< 5 := by
  rw [mask_FC, BitVec.zeroExtend, setWidth_and_mask (k := 6) g (by decide), ← BitVec.shiftLeft_add]

/-- The blue term of R130 is `b[7:3]` at bit 0. -/
theorem blueTerm_eq (b : Byte) : (b >>> 3).zeroExtend 16 = (b.extractLsb' 3 5).zeroExtend 16 := by
  rw [BitVec.ushiftRight_eq_extractLsb'_of_lt (by decide)]
  exact (BitVec.setWidth_append_eq_shiftLeft_setWidth_or (b := 0#3)).trans (by simp)

/-- A field below bit `k` shares no bit with a value shifted to bit `k`. -/
theorem shiftLeft_and_field {w n j k : Nat} (y : BitVec w) (x : BitVec n) (h : n + j ≤ k) :
    y <<< k &&& x.setWidth w <<< j = 0#w := by
  ext i hi
  by_cases hk : i < k
  · simp [hk]
  · simp [BitVec.getLsbD_of_ge x (i - j) (by omega)]

/-- The three terms of R130 share no bit, so `|` adds them. -/
theorem pack_eq_add (r g b : Byte) :
    pack r g b =
      ((r &&& 0xF8).zeroExtend 16 <<< 8) + ((g &&& 0xFC).zeroExtend 16 <<< 3) + (b >>> 3).zeroExtend 16 := by
  have hblue (k : Nat) (y : U16) (hk : 5 ≤ k) : y <<< k &&& (b.extractLsb' 3 5).zeroExtend 16 = 0#16 := by
    simpa using shiftLeft_and_field (j := 0) y (b.extractLsb' 3 5) hk
  rw [pack, redTerm_eq, greenTerm_eq, blueTerm_eq,
    BitVec.add_eq_or_of_and_eq_zero _ _ (shiftLeft_and_field _ (g.extractLsb' 2 6) (by decide)),
    BitVec.add_eq_or_of_and_eq_zero]
  rw [BitVec.and_or_distrib_right, hblue 11 _ (by decide), hblue 5 _ (by decide), BitVec.or_zero]

/-! ## The layout -/

/-- The layout of a packed colour: red, green, blue from the top (R91, R130). -/
theorem pack_eq_append (r g b : Byte) :
    pack r g b = r.extractLsb' 3 5 ++ g.extractLsb' 2 6 ++ b.extractLsb' 3 5 := by
  have hlayout := BitVec.setWidth_append_append_eq_shiftLeft_setWidth_or (w''' := 16)
    (b := r.extractLsb' 3 5) (b' := g.extractLsb' 2 6) (b'' := b.extractLsb' 3 5)
  rw [BitVec.setWidth_eq] at hlayout
  rw [pack, redTerm_eq, greenTerm_eq, blueTerm_eq]
  exact hlayout.symm

theorem pack_red (r g b : Byte) : (pack r g b).extractLsb' 11 5 = r.extractLsb' 3 5 := by
  rw [pack_eq_append, BitVec.extractLsb'_append_eq_of_le (by decide)]
  exact BitVec.extractLsb'_append_eq_left

theorem pack_green (r g b : Byte) : (pack r g b).extractLsb' 5 6 = g.extractLsb' 2 6 := by
  rw [pack_eq_append, BitVec.extractLsb'_append_eq_of_le (by decide)]
  exact BitVec.extractLsb'_append_eq_right

theorem pack_blue (r g b : Byte) : (pack r g b).extractLsb' 0 5 = b.extractLsb' 3 5 := by
  rw [pack_eq_append]
  exact BitVec.extractLsb'_append_eq_right

/-- A packed colour determines the kept bits, and they determine it (R133). -/
theorem pack_eq_pack_iff {r g b r' g' b' : Byte} :
    pack r g b = pack r' g' b' ↔ r.extractLsb' 3 5 = r'.extractLsb' 3 5 ∧
      g.extractLsb' 2 6 = g'.extractLsb' 2 6 ∧ b.extractLsb' 3 5 = b'.extractLsb' 3 5 := by
  refine ⟨fun h => ⟨?_, ?_, ?_⟩, fun ⟨hr, hg, hb⟩ => ?_⟩
  · rw [← pack_red r g b, h, pack_red]
  · rw [← pack_green r g b, h, pack_green]
  · rw [← pack_blue r g b, h, pack_blue]
  · rw [pack_eq_append, hr, hg, hb, ← pack_eq_append]

/-- Every colour is the pack of its own fields, each at the top of a channel. -/
theorem pack_fields (c : U16) :
    pack (c.extractLsb' 11 5 ++ 0#3) (c.extractLsb' 5 6 ++ 0#2) (c.extractLsb' 0 5 ++ 0#3) = c := by
  have hredGreen : c.extractLsb' 11 5 ++ c.extractLsb' 5 6 = c.extractLsb' 5 (5 + 6) :=
    BitVec.extractLsb'_append_extractLsb'_eq_extractLsb' rfl
  simp only [pack_eq_append, BitVec.extractLsb'_append_eq_left, hredGreen]
  exact BitVec.extractLsb'_append_extractLsb' (w := 11) (len := 5)

/-! ## The two bytes -/

/-- The bits of a packed colour, field by field from the lowest (R91). -/
theorem getLsbD_pack (r g b : Byte) (i : Nat) :
    (pack r g b).getLsbD i =
      if i < 5 then (b.extractLsb' 3 5).getLsbD i
      else if i - 5 < 6 then (g.extractLsb' 2 6).getLsbD (i - 5)
      else (r.extractLsb' 3 5).getLsbD (i - 5 - 6) := by
  rw [pack_eq_append, BitVec.getLsbD_append, BitVec.getLsbD_append]

/-- The high byte in terms of the channels (R131): three bits of green below the kept bits of red. -/
theorem hi8_pack (r g b : Byte) : hi8 (pack r g b) = (r &&& (0xF8 : Byte)) ||| (g >>> 5) := by
  ext i hi
  rw [hi8, BitVec.getElem_extractLsb', getLsbD_pack, BitVec.getElem_or, mask_F8, getElem_and_mask]
  by_cases h : i < 3
  · simp [h, show ¬ 8 + i < 5 by omega, show 8 + i - 5 < 6 by omega, show 2 + (8 + i - 5) = 5 + i by omega]
  · simp [h, hi, show ¬ 8 + i < 5 by omega, show ¬ 8 + i - 5 < 6 by omega, show 8 + i - 5 - 6 < 5 by omega,
      show 3 + (8 + i - 5 - 6) = i by omega, BitVec.getLsbD_of_ge g (5 + i) (by omega)]

/-- The low byte in terms of the channels (R131): the kept bits of blue below three bits of green. -/
theorem lo8_pack (r g b : Byte) : lo8 (pack r g b) = ((g &&& (0x1C : Byte)) <<< 3) ||| (b >>> 3) := by
  have hmask : (0x1C : Byte) <<< 3 = BitVec.allOnes 8 <<< 5 := rfl
  ext i hi
  rw [lo8, BitVec.getElem_extractLsb', getLsbD_pack, BitVec.getElem_or, BitVec.shiftLeft_and_distrib, hmask,
    getElem_and_mask]
  by_cases h : i < 5
  · simp [h]
  · simp [h, show ¬ i < 3 by omega, show i - 5 < 6 by omega, show 2 + (i - 5) = i - 3 by omega,
      BitVec.getLsbD_of_ge b (3 + i) (by omega), BitVec.getLsbD_eq_getElem (x := g) (show i - 3 < 8 by omega)]

/-! ## The two instructions -/

theorem exec_pxcPack (r g b : Byte) (s : State) :
    exec (.pxcPack r g b) s = .next { s with ret := .color (pack r g b) } := rfl

theorem exec_pxcPack_eq_iff {r g b : Byte} {c : U16} {s : State} :
    exec (.pxcPack r g b) s = .next { s with ret := .color c } ↔ pack r g b = c := by
  simp [exec_pxcPack]

/-- A store inside DST replaces the two bytes and changes DST alone (R131). -/
theorem exec_pxcStore_inside {a : Nat} {c : U16} {s : State} (h : a + 1 < s.dstLen) :
    exec (.pxcStore a c) s = .next { s with dst := pixelMem a (hi8 c) (lo8 c) s.dst } :=
  congrArg ofExcept ((storePixel_eq a (hi8 c) (lo8 c) s).trans (if_pos h))

/-- Settles O1. -/
theorem packLayout : Obligations.PackLayout :=
  ⟨fun r g b s => ⟨pack r g b, exec_pxcPack r g b s, rfl, pack_eq_add r g b, pack_red r g b, pack_green r g b,
    pack_blue r g b⟩,
   fun c _ => ⟨_, _, _, exec_pxcPack_eq_iff.2 (pack_fields c)⟩,
   fun _ => ⟨exec_pxcPack_eq_iff.2 (by decide), exec_pxcPack_eq_iff.2 (by decide), exec_pxcPack_eq_iff.2 (by decide),
    exec_pxcPack_eq_iff.2 (by decide)⟩⟩

/-- Settles O2: a masked channel is at most its mask, and the next states differ only in the colour. -/
theorem packKeepsTopBits : Obligations.PackKeepsTopBits := by
  have hmasked (x mask : Byte) (k : Nat) : (x &&& mask).toNat <<< k ≤ mask.toNat <<< k := by
    rw [BitVec.toNat_and, Nat.shiftLeft_eq, Nat.shiftLeft_eq]
    exact Nat.mul_le_mul_right _ Nat.and_le_right
  refine ⟨fun r g b => ⟨hmasked r 0xF8 8, hmasked g 0xFC 3, ?_⟩, fun r g b r' g' b' s t h => ?_, fun hinj => ?_⟩
  · exact Nat.le_of_lt_succ (BitVec.toNat_ushiftRight_lt b 3 (by decide))
  · cases h
    rw [← pack_eq_pack_iff, eq_comm (a := pack r g b)]
    exact exec_pxcPack_eq_iff
  · have hsame : pack 0 0 0 = pack 7 3 7 := by decide
    exact absurd (@hinj (0, 0, 0) (7, 3, 7) hsame) (by decide)

/-- Settles O3: the store through `pixelMem`, its bytes through `memRead_pixelMem`. -/
theorem storeTwoBytes : Obligations.StoreTwoBytes := by
  refine ⟨fun a c s h => ⟨_, exec_pxcStore_inside h, rfl, ?_, ?_, fun b hb hb' => ?_⟩,
    fun r g b => ⟨hi8_pack r g b, lo8_pack r g b⟩⟩
  · rw [dstByte, memRead_pixelMem, if_neg (Nat.lt_succ_self a).ne, if_pos rfl, hi8]
  · rw [dstByte, memRead_pixelMem, if_pos rfl, lo8]
  · rw [dstByte, memRead_pixelMem, if_neg hb', if_neg hb, dstByte]

end Sys2Proof.Machine
end

section
/-! PROOFS. O12, O13: the end marker, and what one record of a delta-RLE stream replays (41_delta_rle.md R144 to R149). -/

namespace Sys2Proof.Machine

/-! ## The end of a payload -/

/-- However a payload ends, it has taken the pixels that SRC and the budget allow; only where the cursor stands and
whether the decode goes on differ (R147, R148). -/
theorem payloadDone_eq_taken (left : Nat) (s : State) :
    payloadDone left s = { payloadTaken left (payloadCount left s) s with
      sp := (payloadDone left s).sp, ctl := (payloadDone left s).ctl, ret := (payloadDone left s).ret } := by
  unfold payloadDone
  dsimp only
  split
  · rfl
  · split <;> rfl

theorem payloadDone_at_budget {left : Nat} {s : State} (h : s.drle.pos + payloadCount left s = s.drle.budget) :
    payloadDone left s = drleStop (payloadTaken left (payloadCount left s) s) :=
  if_pos h.ge

theorem payloadDone_cut {left : Nat} {s : State} (h : s.drle.pos + payloadCount left s < s.drle.budget)
    (hcut : payloadCount left s < left) :
    payloadDone left s = drleStop { payloadTaken left (payloadCount left s) s with sp := s.src.length } :=
  (if_neg (Nat.not_le.2 h)).trans (if_pos hcut)

theorem payloadDone_whole {left : Nat} {s : State} (h : s.drle.pos + payloadCount left s < s.drle.budget)
    (hall : payloadCount left s = left) :
    payloadDone left s = payloadTaken left (payloadCount left s) s :=
  (if_neg (Nat.not_le.2 h)).trans (if_neg hall.not_lt)

/-! ## The branches of a record -/

theorem recordDone_skip_to_budget {skip write : Byte} {s : State} (h0 : ¬ (skip = 0 ∧ write = 0))
    (h : s.drle.budget ≤ s.drle.pos + skip.toNat) :
    recordDone skip write s = drleStop { s with drle := { s.drle with
      recSkip := skip, recWrite := write, pos := s.drle.pos + skip.toNat } } :=
  (if_neg h0).trans (if_pos h)

/-- The state in which the payload of a record is read: header and skip taken (R146). -/
def payloadStart (skip write : Byte) (s : State) : State :=
  { s with drle := { s.drle with
    recSkip := skip, recWrite := write, pos := s.drle.pos + skip.toNat, recLeft := write.toNat } }

theorem recordDone_payload {skip write : Byte} {s : State} (h0 : ¬ (skip = 0 ∧ write = 0))
    (h : s.drle.pos + skip.toNat < s.drle.budget) :
    recordDone skip write s = payloadDone write.toNat (payloadStart skip write s) :=
  (if_neg h0).trans (if_neg (Nat.not_le.2 h))

/-! ## The two tokens -/

theorem exec_drleEnd (s : State) :
    exec .drleEnd s = .next (drleStop { s with drle := { s.drle with recSkip := 0, recWrite := 0 } }) := rfl

theorem exec_drleRec (skip write : Byte) {s : State} (hf : FrameFits s.drle s.dstLen) :
    exec (.drleRec skip write) s = .next (recordDone skip write s) :=
  drleRecord_eq skip write ((s.drle.fits_iff s.dstLen).2 hf)

/-- Once the decode has stopped the record loop reads nothing more. -/
theorem drleRun_stopped (fuel : Nat) {s : State} (h : s.ctl ≠ some .drle) : drleRun fuel s = .next s := by
  cases fuel with
  | zero => rfl
  | succ fuel => exact if_neg h

/-- A stream at an end marker ends the record loop behind the marker (R145). -/
theorem drleRun_end_marker (fuel : Nat) {s : State} {rest : List Byte} (hc : s.ctl = some .drle)
    (hsrc : s.src.drop s.sp = 0 :: 0 :: rest) :
    drleRun (fuel + 1) s = .next (recordDone 0 0 { s with sp := s.sp + 2 }) := by
  have hfetch : fetchAt .drle s = .token .drleEnd { s with sp := s.sp + 2 } := by
    simp [fetchAt, fetchBytes, decodeAt, hsrc, decodeRecord]
  rw [drleRun, if_pos hc, hfetch]
  exact drleRun_stopped fuel (by simp [drleStop])

/-- A decode whose checks pass is the record loop from its first record on (R143). -/
theorem execDrleDecode_run {file : List Byte} {w h x y stride sx sy e len : Nat} {s : State}
    (hg : s.gif.state ≠ .ready) (hc : drleCheck w h x y stride sx sy e len = none) :
    execDrleDecode file w h x y stride sx sy e len s =
      drleRun (file.length + 1) (drleSetup file w h x y stride sx sy e len s) := by
  rw [execDrleDecode, hc]
  exact if_neg (by simpa [gifActive] using hg)

/-- Settles O12: the record loop stops at the first header it reads. -/
theorem endMarkerStops : Obligations.EndMarkerStops := by
  refine ⟨exec_drleEnd, fun rest w h x y stride sx sy e len s hg hw hh hS hsx hsy hcols hrows => ?_⟩
  have hc : drleCheck w h x y stride sx sy e len = none :=
    ((drleSetup [] w h x y stride sx sy e len s).drle.fits_iff len).2 ⟨hw, hh, hS, hsx, hsy, hcols, hrows⟩
  have hrun := (execDrleDecode_run hg hc).trans (drleRun_end_marker (0 :: 0 :: rest).length (rest := rest) rfl rfl)
  exact ⟨_, hrun, rfl, rfl⟩

/-- Settles O13: the branches of a record, then those of its payload. -/
theorem recordReplay : Obligations.RecordReplay := by
  intro skip write s h0 hf N p stopped
  refine ⟨fun hN => ?_, fun hp => ?_⟩
  · rw [exec_drleRec skip write hf, recordDone_skip_to_budget h0 hN]
    rfl
  · intro n
    have hn : payloadCount write.toNat (payloadStart skip write s) = n := rfl
    refine ⟨payloadDone write.toNat (payloadStart skip write s), ?_, payloadDone_eq_taken _ _, fun hN => ?_,
      fun hN hcut => ?_, fun hN hall => ?_⟩
    · rw [exec_drleRec skip write hf, recordDone_payload h0 hp]
    · rw [payloadDone_at_budget hN, hn]
      exact ⟨rfl, rfl, rfl⟩
    · rw [payloadDone_cut hN hcut]
      exact ⟨rfl, rfl, rfl⟩
    · rw [payloadDone_whole (left := write.toNat) (s := payloadStart skip write s) hN hall, hn]
      exact ⟨rfl, rfl, rfl⟩

end Sys2Proof.Machine
end

section
/-! PROOFS. O10: the reference encoder's loop is the greedy raster scan (41_delta_rle.md R155). -/

namespace Sys2Proof.Machine

/-! ## Runs -/

/-- A run is the prefix of the first `cap` pixels up to one that does not belong to it. -/
theorem runLength_eq_findIdx (want : Bool) (cap : Nat) (ps : List EncPixel) :
    runLength want cap ps = (ps.take cap).findIdx fun p => decide (p.same ≠ want) := by
  induction cap generalizing ps with
  | zero => simp [runLength]
  | succ cap ih =>
    cases ps with
    | nil => simp [runLength]
    | cons p ps =>
      rw [runLength, List.take_succ_cons, List.findIdx_cons, ih]
      by_cases h : p.same = want <;> simp [h]

theorem runLength_le (want : Bool) (cap : Nat) (ps : List EncPixel) :
    runLength want cap ps ≤ cap ∧ runLength want cap ps ≤ ps.length := by
  rw [runLength_eq_findIdx, ← Nat.le_min, ← List.length_take]
  exact List.findIdx_le_length

/-- Every pixel of a run belongs to it. -/
theorem same_of_lt_runLength {want : Bool} {cap : Nat} {ps : List EncPixel} {j : Nat} (hj : j < ps.length)
    (h : j < runLength want cap ps) : ps[j].same = want := by
  rw [runLength_eq_findIdx] at h
  simpa using List.not_of_lt_findIdx h

/-- A run below its cap ends at the end of the pixels or at one that does not belong to it. -/
theorem same_ne_at_runLength {want : Bool} {cap : Nat} {ps : List EncPixel} (hcap : runLength want cap ps < cap)
    (hlen : runLength want cap ps < ps.length) : ps[runLength want cap ps].same ≠ want := by
  have hidx : (ps.take cap).findIdx (fun p => decide (p.same ≠ want)) < (ps.take cap).length := by
    rw [← runLength_eq_findIdx, List.length_take]
    exact Nat.lt_min.2 ⟨hcap, hlen⟩
  have hend := List.findIdx_getElem (w := hidx)
  simp only [List.getElem_take, ← runLength_eq_findIdx] at hend
  simpa using hend

/-! ## The pixels of two buffers -/

theorem pixelBytes_length (ps : List EncPixel) : (pixelBytes ps).length = 2 * ps.length := by
  induction ps with
  | nil => rfl
  | cons p ps ih => simp only [pixelBytes, List.length_cons, ih]; ring

theorem pixelBytes_take (k : Nat) (ps : List EncPixel) : pixelBytes (ps.take k) = (pixelBytes ps).take (2 * k) := by
  induction k generalizing ps with
  | zero => rfl
  | succ k ih =>
    cases ps with
    | nil => rfl
    | cons p ps => simp [pixelBytes, ih, Nat.mul_succ]

theorem pixelBytes_drop (k : Nat) (ps : List EncPixel) : pixelBytes (ps.drop k) = (pixelBytes ps).drop (2 * k) := by
  induction k generalizing ps with
  | zero => rfl
  | succ k ih =>
    cases ps with
    | nil => rfl
    | cons p ps => simp [pixelBytes, ih, Nat.mul_succ]

/-- The pixels of two buffers carry the bytes of the second. -/
theorem pixelBytes_encPixels {prev cur : List Byte} (hlen : prev.length = cur.length) (heven : cur.length % 2 = 0) :
    pixelBytes (encPixels prev cur) = cur := by
  fun_induction encPixels prev cur with
  | case1 p0 p1 ps c0 c1 cs ih =>
    simp only [List.length_cons] at hlen heven
    rw [pixelBytes, ih (by omega) (by omega)]
  | case2 prev cur hshort =>
    match prev, cur with
    | _, [] => rfl
    | _, [_] => exact absurd heven (by simp)
    | p0 :: p1 :: ps, c0 :: c1 :: cs => exact absurd rfl (hshort p0 p1 ps c0 c1 cs rfl)
    | [], _ :: _ :: _ => exact absurd hlen (by simp)
    | [_], _ :: _ :: _ => exact absurd hlen (by simp)

theorem encPixels_length {prev cur : List Byte} (hlen : prev.length = cur.length) (heven : cur.length % 2 = 0) :
    (encPixels prev cur).length = cur.length / 2 := by
  have h := pixelBytes_length (encPixels prev cur)
  rw [pixelBytes_encPixels hlen heven] at h
  omega

theorem samePixel_cons_succ (p0 p1 c0 c1 : Byte) (ps cs : List Byte) (j : Nat) :
    samePixel (p0 :: p1 :: ps) (c0 :: c1 :: cs) (j + 1) ↔ samePixel ps cs j := Iff.rfl

/-- The flag of a pixel says whether it is the same in both buffers (R155). -/
theorem encPixels_same {prev cur : List Byte} {j : Nat} (hj : j < (encPixels prev cur).length) :
    (encPixels prev cur)[j].same = true ↔ samePixel prev cur j := by
  fun_induction encPixels prev cur generalizing j with
  | case1 p0 p1 ps c0 c1 cs ih =>
    cases j with
    | zero => simp [samePixel]
    | succ j => rw [samePixel_cons_succ]; exact ih _
  | case2 => exact absurd hj (Nat.not_lt_zero j)

/-! ## The greedy scan -/

/-- The scan emits no end marker: a first pixel that is the same is skipped, one that differs is written. -/
theorem Greedy.ne_zero {same : Nat → Prop} {n i : Nat} {rs : List (Nat × Nat)} (h : Greedy same n i rs) :
    ∀ r ∈ rs, r ≠ (0, 0) := by
  induction rs generalizing i with
  | nil => simp
  | cons r rs ih =>
    obtain ⟨k, w⟩ := r
    obtain ⟨hi, -, -, -, -, -, hskip, hwrite, hrest⟩ := h
    refine List.forall_mem_cons.2 ⟨?_, ih hrest⟩
    rintro ⟨⟩
    exact hskip (by decide) hi (hwrite (by decide) hi)

section Loop

variable {ps : List EncPixel} {same : Nat → Prop} (hsame : ∀ j (hj : j < ps.length), ps[j].same = true ↔ same j)

include hsame

/-- The pixels of a run that starts at pixel `i`. -/
theorem same_iff_in_run {want : Bool} {cap i j : Nat} (hij : i ≤ j) (hj : j < i + runLength want cap (ps.drop i)) :
    same j ↔ want = true := by
  have hrun : j - i < runLength want cap (ps.drop i) := by omega
  have hlt : j - i < (ps.drop i).length := hrun.trans_le (runLength_le want cap _).2
  have hflag := same_of_lt_runLength hlt hrun
  simp only [List.getElem_drop, Nat.add_sub_cancel' hij] at hflag
  rw [← hsame j (by rw [List.length_drop] at hlt; omega), hflag]

/-- The pixel at which a run that starts at pixel `i` ends below its cap. -/
theorem same_iff_after_run {want : Bool} {cap i : Nat} (hcap : runLength want cap (ps.drop i) < cap)
    (hlt : i + runLength want cap (ps.drop i) < ps.length) :
    same (i + runLength want cap (ps.drop i)) ↔ want = false := by
  have hflag := same_ne_at_runLength hcap (by rw [List.length_drop]; omega)
  rw [List.getElem_drop] at hflag
  rw [← hsame _ hlt, Bool.eq_not_of_ne hflag, Bool.not_eq_true']

/-- The encoder's loop from pixel `i` on is the greedy scan, for any reading `same` of the pixels' flags. -/
theorem encodeLoop_greedy (fuel i : Nat) (hi : i ≤ ps.length) (hfuel : ps.length ≤ i + fuel) :
    ∃ rs, Greedy same ps.length i rs ∧ encodeLoop fuel (ps.drop i) = recordBytes (pixelBytes ps) i rs := by
  induction fuel generalizing i with
  | zero => exact ⟨[], (by omega : i = ps.length), rfl⟩
  | succ fuel ih =>
    rcases hi.eq_or_lt with rfl | hlt
    · exact ⟨[], rfl, by rw [List.drop_length]; rfl⟩
    rw [encodeLoop.eq_3 _ _ (by simpa using hlt), List.drop_drop]
    generalize hk : runLength true 255 (ps.drop i) = k
    generalize hw : runLength false 255 (ps.drop (i + k)) = w
    have hkle := runLength_le true 255 (ps.drop i)
    have hwle := runLength_le false 255 (ps.drop (i + k))
    rw [hk, List.length_drop] at hkle
    rw [hw, List.length_drop] at hwle
    have hskip : k < 255 → i + k < ps.length → ¬ same (i + k) := by
      subst hk; simpa using same_iff_after_run hsame (want := true) (i := i)
    have hwrite : w < 255 → i + k + w < ps.length → same (i + k + w) := by
      subst hw; simpa using same_iff_after_run hsame (want := false) (i := i + k)
    have hprogress : ¬ (k = 0 ∧ w = 0) := by
      rintro ⟨rfl, rfl⟩
      exact hskip (by decide) hlt (hwrite (by decide) hlt)
    obtain ⟨rs, hrs, hbytes⟩ := ih (i + k + w) (by omega) (by omega)
    refine ⟨(k, w) :: rs,
      ⟨hlt, by omega, hkle.1, hwle.1, fun j h1 h2 => ?_, fun j h1 h2 => ?_, hskip, hwrite, hrs⟩, ?_⟩
    · exact (same_iff_in_run hsame h1 (hk ▸ h2)).2 rfl
    · exact fun hs => Bool.false_ne_true ((same_iff_in_run hsame h1 (hw ▸ h2)).1 hs)
    · rw [if_neg hprogress, List.drop_drop, hbytes, pixelBytes_take, pixelBytes_drop]
      rfl

end Loop

/-- `DRLE.ENCODE` is the greedy scan of the two buffers (R155). -/
theorem drleEncode_greedy {prev cur : List Byte} (hlen : prev.length = cur.length) (heven : cur.length % 2 = 0) :
    ∃ rs, Greedy (samePixel prev cur) (cur.length / 2) 0 rs ∧ drleEncode prev cur = recordBytes cur 0 rs := by
  have hloop := encodeLoop_greedy (ps := encPixels prev cur) (fun _ hj => encPixels_same hj)
    (encPixels prev cur).length 0 (Nat.zero_le _) (by omega)
  rw [pixelBytes_encPixels hlen heven] at hloop
  rwa [← encPixels_length hlen heven]

theorem exec_drleEncode {prev cur : List Byte} (s : State) (hlen : prev.length = cur.length)
    (heven : cur.length % 2 = 0) :
    exec (.drleEncode prev cur) s = .next { s with ret := .stream (drleEncode prev cur) } :=
  if_pos ⟨hlen, heven⟩

/-- Settles O10: the scan of `drleEncode_greedy`, which never has an empty record. -/
theorem encodeIsGreedyScan : Obligations.EncodeIsGreedyScan := by
  intro prev cur s hlen heven
  obtain ⟨rs, hgreedy, hbytes⟩ := drleEncode_greedy hlen heven
  exact ⟨rs, hgreedy, hgreedy.ne_zero, hbytes ▸ exec_drleEncode s hlen heven⟩

end Sys2Proof.Machine
end

section
/-! PROOFS. O9: what the decoder stores from an encoder's stream are the changed pixels, so that decoding over the
previous frame gives the current one (41_delta_rle.md R158). -/

namespace Sys2Proof.Machine

/-! ## The pixels the encoder writes -/

/-- Pixel `j` of a buffer, with its two bytes. -/
def bufferPixel (cur : List Byte) (j : Nat) : DrlePixel := ⟨j, cur.getD (2 * j) 0, cur.getD (2 * j + 1) 0⟩

/-- The indices of the pixels that records from pixel `i` on carry. -/
def writtenPixels : Nat → List (Nat × Nat) → List Nat
  | _, [] => []
  | i, (k, w) :: rs => List.range' (i + k) w ++ writtenPixels (i + k + w) rs

/-- The greedy scan writes exactly the pixels that differ. -/
theorem mem_writtenPixels {same : Nat → Prop} {n i j : Nat} {rs : List (Nat × Nat)} (h : Greedy same n i rs) :
    j ∈ writtenPixels i rs ↔ i ≤ j ∧ j < n ∧ ¬ same j := by
  induction rs generalizing i with
  | nil =>
    have hi : i = n := h
    simp only [writtenPixels, List.not_mem_nil, false_iff]
    omega
  | cons r rs ih =>
    obtain ⟨k, w⟩ := r
    obtain ⟨-, hle, -, -, hskipped, hwritten, -, -, hrest⟩ := h
    rw [writtenPixels, List.mem_append, List.mem_range'_1, ih hrest]
    constructor
    · rintro (⟨h1, h2⟩ | ⟨h1, h2, h3⟩)
      · exact ⟨by omega, by omega, hwritten j h1 h2⟩
      · exact ⟨by omega, h2, h3⟩
    · rintro ⟨h1, h2, h3⟩
      have hge : i + k ≤ j := by
        by_contra hlt
        exact h3 (hskipped j h1 (by omega))
      rcases Nat.lt_or_ge j (i + k + w) with hlt | hge'
      · exact .inl ⟨hge, hlt⟩
      · exact .inr ⟨hge', h2, h3⟩

theorem samePixel.getElem?_eq {prev cur : List Byte} {a : Nat} (h : samePixel prev cur (a / 2)) :
    prev[a]? = cur[a]? := by
  rcases Nat.mod_two_eq_zero_or_one a with ha | ha
  · rw [show a = 2 * (a / 2) by omega, h.1]
  · rw [show a = 2 * (a / 2) + 1 by omega, h.2]

/-! ## Reading the records back -/

theorem recordBytes_length_ge (cur : List Byte) (i : Nat) (rs : List (Nat × Nat)) :
    rs.length ≤ (recordBytes cur i rs).length := by
  induction rs generalizing i with
  | nil => exact le_rfl
  | cons r rs ih =>
    obtain ⟨k, w⟩ := r
    have hrest := ih (i + k + w)
    simp only [recordBytes, List.length_cons, List.length_append]
    omega

/-- The bytes of a slice of `cur` that stands at byte `a` of `src`. -/
theorem getElem?_slice {src cur tail : List Byte} {a b len m : Nat}
    (h : src.drop a = (cur.drop b).take len ++ tail) (hlen : b + len ≤ cur.length) (hm : m < len) :
    src[a + m]? = cur[b + m]? := by
  rw [← List.getElem?_drop, h, List.getElem?_append_left (by rw [List.length_take, List.length_drop]; omega),
    List.getElem?_take_of_lt hm, List.getElem?_drop]

/-- A payload that is a slice of `cur` at its own pixels carries those pixels. -/
theorem payloadPixels_slice {src cur tail : List Byte} {sp p w : Nat}
    (h : src.drop sp = (cur.drop (2 * p)).take (2 * w) ++ tail) (hlen : 2 * p + 2 * w ≤ cur.length) :
    payloadPixels src sp p w = (List.range' p w).map (bufferPixel cur) := by
  rw [payloadPixels, List.range'_eq_map_range, List.map_map]
  refine List.map_congr_left fun j hj => ?_
  have hj : j < w := List.mem_range.1 hj
  simp only [Function.comp, bufferPixel, List.getD_eq_getElem?_getD, Nat.mul_add, Nat.add_assoc]
  rw [getElem?_slice h hlen (by omega), getElem?_slice h hlen (by omega)]

theorem recordCount_whole {src : List Byte} {N sp pos : Nat} {write : Byte} (hN : pos + write.toNat ≤ N)
    (hsrc : sp + 2 * write.toNat ≤ src.length) : recordCount src N write sp pos = write.toNat := by
  unfold recordCount; omega

/-- A record whose payload fits in SRC and in the budget stores all of it. -/
theorem recordPixels_whole {src : List Byte} {N sp pos : Nat} {skip write : Byte} (h0 : ¬ (skip = 0 ∧ write = 0))
    (hN : pos + skip.toNat + write.toNat ≤ N) (hsrc : sp + 2 * write.toNat ≤ src.length) :
    recordPixels src N skip write sp pos = payloadPixels src sp (pos + skip.toNat) write.toNat := by
  rw [recordPixels, if_neg h0, recordCount_whole hN hsrc]
  split
  · next hskip =>
    rw [show write.toNat = 0 by omega]
    rfl
  · rfl

/-- After such a record the decode goes on exactly where pixels are left. -/
theorem recordGoesOn_whole {src : List Byte} {N sp pos : Nat} {skip write : Byte} (h0 : ¬ (skip = 0 ∧ write = 0))
    (hN : pos + skip.toNat + write.toNat ≤ N) (hsrc : sp + 2 * write.toNat ≤ src.length) :
    recordGoesOn src N skip write sp pos = decide (pos + skip.toNat + write.toNat < N) := by
  rw [recordGoesOn, recordCount_whole hN hsrc]
  exact decide_eq_decide.2 ⟨fun h => h.2.1, fun h => ⟨h0, h, rfl⟩⟩

/-- The greedy scan ends at the last pixel. -/
theorem Greedy.eq_nil_of_end {same : Nat → Prop} {n : Nat} {rs : List (Nat × Nat)} (h : Greedy same n n rs) :
    rs = [] := by
  cases rs with
  | nil => rfl
  | cons r rs => exact absurd h.1 (Nat.lt_irrefl n)

/-- Where the parts of a record that stands at byte `sp` lie: its header, its payload, and what follows it. -/
theorem record_layout {src payload tail : List Byte} {skip write : Byte} {sp : Nat}
    (h : src.drop sp = skip :: write :: (payload ++ tail)) :
    src[sp]? = some skip ∧ src[sp + 1]? = some write ∧ src.drop (sp + 2) = payload ++ tail ∧
      src.drop (sp + 2 + payload.length) = tail ∧ sp + 2 + payload.length ≤ src.length := by
  have hpayload : src.drop (sp + 2) = payload ++ tail := by
    rw [← List.drop_drop, h]
    rfl
  refine ⟨?_, ?_, hpayload, ?_, ?_⟩
  · rw [← Nat.add_zero sp, ← List.getElem?_drop, h]
    rfl
  · rw [← List.getElem?_drop, h]
    rfl
  · rw [← List.drop_drop, hpayload, List.drop_left]
  · have hlen := congrArg List.length h
    simp only [List.length_drop, List.length_cons, List.length_append] at hlen
    omega

/-- The records of a greedy scan, read back by the decoder, store the pixels that they carry. -/
theorem streamPixels_recordBytes {src cur : List Byte} {same : Nat → Prop} {n fuel sp i : Nat} {rs : List (Nat × Nat)}
    (hg : Greedy same n i rs) (hcur : cur.length = 2 * n) (hsrc : src.drop sp = recordBytes cur i rs)
    (hfuel : rs.length ≤ fuel) :
    streamPixels src n fuel sp i = (writtenPixels i rs).map (bufferPixel cur) := by
  induction rs generalizing fuel sp i with
  | nil =>
    have hend : src[sp]? = none := by rw [← Nat.add_zero sp, ← List.getElem?_drop, hsrc]; rfl
    cases fuel with
    | zero => rfl
    | succ fuel => simp [streamPixels, hend, writtenPixels]
  | cons r rs ih =>
    obtain ⟨k, w⟩ := r
    have hne : ¬ (k = 0 ∧ w = 0) := by simpa using hg.ne_zero (k, w) (.head _)
    obtain ⟨-, hle, hk, hw, -, -, -, -, hrest⟩ := hg
    have hkb : (BitVec.ofNat 8 k).toNat = k := Nat.mod_eq_of_lt (by omega)
    have hwb : (BitVec.ofNat 8 w).toNat = w := Nat.mod_eq_of_lt (by omega)
    have hslice : ((cur.drop (2 * (i + k))).take (2 * w)).length = 2 * w := by
      rw [List.length_take, List.length_drop]; omega
    obtain ⟨hskip, hwrite, hpayload, hnext, hin⟩ := record_layout hsrc
    rw [hslice] at hnext hin
    have h0 : ¬ (BitVec.ofNat 8 k = 0 ∧ BitVec.ofNat 8 w = 0) := fun ⟨hk0, hw0⟩ =>
      hne ⟨hkb ▸ congrArg BitVec.toNat hk0, hwb ▸ congrArg BitVec.toNat hw0⟩
    cases fuel with
    | zero => exact absurd hfuel (by simp)
    | succ fuel =>
      simp only [streamPixels, hskip, hwrite]
      rw [recordPixels_whole h0 (by omega) (by omega), recordGoesOn_whole h0 (by omega) (by omega), hkb, hwb,
        payloadPixels_slice hpayload (by omega), writtenPixels, List.map_append]
      rcases hle.lt_or_eq with hmore | hlast
      · rw [if_pos (decide_eq_true hmore), ih hrest hnext (Nat.le_of_succ_le_succ hfuel)]
      · rw [hlast] at hrest
        rw [if_neg (by simp [hlast]), hrest.eq_nil_of_end]
        rfl

/-! ## An unscaled frame in DST -/

/-- At scale 1, offset 0, with the stride of the frame, the block of a pixel is that pixel (R151). -/
theorem blitAddrs_unscaled (file : List Byte) (w h len : Nat) (s : State) (pos : Nat) :
    blitAddrs (drleSetup file w h 0 0 w 1 1 0 len s).drle pos = [2 * pos] := by
  have hrow : blitRows (drleSetup file w h 0 0 w 1 1 0 len s).drle (pos / w) = 1 := by
    rw [blitRows]
    exact congrArg (1 + ·) (ite_self 0)
  have haddr : pos / w * w + pos % w = pos := Nat.div_add_mod' pos w
  simp only [blitAddrs]
  rw [show (drleSetup file w h 0 0 w 1 1 0 len s).drle.w = w from rfl, hrow]
  simp [drleSetup, haddr]

/-- A frame fits, unscaled, in a DST of exactly its pixels. -/
theorem drleCheck_unscaled {w h : Nat} (hw : 1 ≤ w) (hh : 1 ≤ h) :
    drleCheck w h 0 0 w 1 1 0 (2 * (w * h)) = none := by
  have hrows : 2 * (w * h) / (2 * w) = h := by
    rw [← Nat.mul_assoc, Nat.mul_div_cancel_left h (by omega)]
  rw [drleCheck, hrows, if_neg (by omega), if_neg (by omega)]

/-- Painting pixels of `cur` into an unscaled frame gives the bytes of `cur` at those pixels. -/
theorem painted_bufferPixels {d : DrleRegs} (hd : ∀ pos, blitAddrs d pos = [2 * pos]) (cur : List Byte)
    (js : List Nat) (b : Nat) :
    painted d (js.map (bufferPixel cur)) b = if b / 2 ∈ js then some (cur.getD b 0) else none := by
  induction js with
  | nil => rfl
  | cons j js ih =>
    rw [List.map_cons, painted, ih, hd]
    by_cases hmem : b / 2 ∈ js
    · simp [hmem]
    · rw [if_neg hmem]
      rcases (by omega : b = 2 * j ∨ b = 2 * j + 1 ∨ b / 2 ≠ j) with rfl | rfl | hb
      · simp [bufferPixel]
      · simp [bufferPixel, show (2 * j + 1) / 2 = j by omega]
      · simp [bufferPixel, hb, hmem, show b ≠ 2 * j by omega, show b ≠ 2 * j + 1 by omega]

/-- Settles O9: each byte of DST is painted from `cur` where its pixel is written, and is the same in `prev` elsewhere. -/
theorem encodeDecodeRoundTrip : Obligations.EncodeDecodeRoundTrip := by
  intro prev cur w h s hgif hw hh hprev hcur hdst
  obtain ⟨rs, hgreedy, hbytes⟩ := drleEncode_greedy (hprev.trans hcur.symm) (by omega)
  rw [hcur, Nat.mul_div_cancel_left _ (by decide)] at hgreedy
  obtain ⟨t, ht, -, -, -, hpaint, -⟩ :=
    execDrleDecode_eq (file := drleEncode prev cur) s hgif (drleCheck_unscaled hw hh)
  have hpixels : streamPixels (drleEncode prev cur) (w * h) ((drleEncode prev cur).length + 1) 0 0 = _ :=
    streamPixels_recordBytes hgreedy hcur hbytes (hbytes ▸ (recordBytes_length_ge cur 0 rs).trans (Nat.le_succ _))
  have hread (a : Nat) : dstByte t a =
      if a / 2 ∈ writtenPixels 0 rs then some (cur.getD a 0) else dstByte s a := by
    rw [dstByte, hpaint, hpixels, memRead_paint, painted_bufferPixels (blitAddrs_unscaled _ w h _ s)]
    split <;> rfl
  refine ⟨_, t, exec_drleEncode s (hprev.trans hcur.symm) (by omega), ht, fun a ha => ?_, fun a ha => ?_⟩
  · rw [hread]
    split
    · rw [List.getD_eq_getElem _ _ (by omega), List.getElem?_eq_getElem]
    · next hmem =>
      have hsame : samePixel prev cur (a / 2) := by
        by_contra hdiff
        exact hmem ((mem_writtenPixels hgreedy).2 ⟨Nat.zero_le _, by omega, hdiff⟩)
      rw [hdst a ha, hsame.getElem?_eq]
  · rw [hread, if_neg]
    rw [mem_writtenPixels hgreedy]
    omega

end Sys2Proof.Machine
end

section
/-! PROOFS. O59: only reset leaves FAULTED, only GIF.START or reset leaves DONE and ERROR, and the two decoders are never
both active (42_gif_container.md R171, 60_exceptions.md R313, R317). -/

namespace Sys2Proof.Machine

/-! ## What an operation may do to the decoders -/

/-- GIFD's state stays; the position being read stays, or is given up, or is that of a delta-RLE stream with GIFD not
open. -/
structure GifdUntouched (s t : State) : Prop where
  state : t.gif.state = s.gif.state
  ctl : t.ctl = s.ctl ∨ t.ctl = none ∨ t.ctl = some .drle ∧ s.gif.state ≠ .ready

/-- The invariant is kept, and a GIFD that has stopped stays in the state it stopped in. -/
structure StoppedStays (s t : State) : Prop where
  oneDecoder : OneDecoder s → OneDecoder t
  state : gifStopped s = true → t.gif.state = s.gif.state

/-- The invariant is kept where GIFD has not stopped: what a token of a GIF or a code stream may rely on. -/
def LiveKept (s t : State) : Prop := OneDecoder s → gifStopped s = false → OneDecoder t

theorem gifStopped_congr {s t : State} (h : t.gif.state = s.gif.state) : gifStopped t = gifStopped s := by
  unfold gifStopped
  rw [h]

theorem gifStopped_eq_true_iff {s : State} :
    gifStopped s = true ↔ s.gif.state = .done ∨ s.gif.state = .error ∨ s.gif.state = .faulted := by
  unfold gifStopped
  cases s.gif.state <;> simp

/-- With nothing being read both promises hold. -/
theorem oneDecoder_of_ctl_none {s : State} (h : s.ctl = none) : OneDecoder s :=
  ⟨fun _ => .inl h, fun _ hc => nomatch h.symm.trans hc⟩

/-- So they do with GIFD running and a part of its stream being read. -/
theorem oneDecoder_of_live {s : State} (hlive : gifStopped s = false) (h : s.ctl ≠ some .drle) : OneDecoder s :=
  ⟨fun hs => (nomatch hlive.symm.trans hs), fun _ => h⟩

/-- While a GIF or a code stream is read, GIFD has not stopped. -/
theorem OneDecoder.live {s : State} (h : OneDecoder s) (hnone : s.ctl ≠ none) (hdrle : s.ctl ≠ some .drle) :
    gifStopped s = false := by
  cases hst : gifStopped s with
  | false => rfl
  | true => exact absurd (h.stopped hst) (by simp [hnone, hdrle])

theorem GifdUntouched.refl (s : State) : GifdUntouched s s := ⟨rfl, .inl rfl⟩

theorem GifdUntouched.trans {s t u : State} (h1 : GifdUntouched s t) (h2 : GifdUntouched t u) : GifdUntouched s u := by
  refine ⟨h2.state.trans h1.state, ?_⟩
  have h := h2.ctl
  rw [h1.state] at h
  rcases h with h | h
  · rw [h]; exact h1.ctl
  · exact .inr h

theorem GifdUntouched.oneDecoder {s t : State} (h : GifdUntouched s t) (hs : OneDecoder s) : OneDecoder t := by
  rcases h.ctl with hc | hc | ⟨hc, hr⟩
  · exact ⟨fun hst => hc ▸ hs.stopped (gifStopped_congr h.state ▸ hst),
      fun hr => hc ▸ hs.oneActive (h.state ▸ hr)⟩
  · exact oneDecoder_of_ctl_none hc
  · exact ⟨fun _ => .inr hc, fun hr' => absurd (h.state ▸ hr') hr⟩

theorem GifdUntouched.stoppedStays {s t : State} (h : GifdUntouched s t) : StoppedStays s t :=
  ⟨h.oneDecoder, fun _ => h.state⟩

theorem StoppedStays.refl (s : State) : StoppedStays s s := ⟨id, fun _ => rfl⟩

theorem StoppedStays.trans {s t u : State} (h1 : StoppedStays s t) (h2 : StoppedStays t u) : StoppedStays s u := by
  refine ⟨h2.oneDecoder ∘ h1.oneDecoder, fun hs => ?_⟩
  have hst := h1.state hs
  exact (h2.state ((gifStopped_congr hst).trans hs)).trans hst

/-- An operation that a stopped GIFD refuses, and that otherwise keeps the invariant. -/
theorem StoppedStays.of_refused {s t : State} (hstopped : gifStopped s = true → t = s) (hlive : LiveKept s t) :
    StoppedStays s t := by
  refine ⟨fun hs => ?_, fun hst => by rw [hstopped hst]⟩
  cases hst : gifStopped s with
  | true => rw [hstopped hst]; exact hs
  | false => exact hlive hs hst

/-! ## The delta-RLE codec and the scheduler -/

theorem SchedFrame.gifdUntouched {s t : State} (h : SchedFrame s t) : GifdUntouched s t := by
  rw [h]
  exact ⟨rfl, .inl rfl⟩

theorem DrleKeeps.gifdUntouched {s t : State} (h : DrleKeeps s t) : GifdUntouched s t :=
  ⟨congrArg GifRegs.state h.sched.2.2.2.2, h.ctl.imp_right .inl⟩

/-- A decode that begins, GIFD not being the active decoder (R317, entry 28). -/
theorem drleSetup_gifdUntouched (file : List Byte) (w h x y S sx sy e len : Nat) {s : State}
    (hs : s.gif.state ≠ .ready) : GifdUntouched s (drleSetup file w h x y S sx sy e len s) :=
  ⟨rfl, .inr (.inr ⟨rfl, hs⟩)⟩

theorem drleStart_gifdUntouched (file : List Byte) (w h x y S sx sy e len : Nat) (s : State) :
    GifdUntouched s (drleStart file w h x y S sx sy e len s) := by
  unfold drleStart
  split
  · exact ⟨rfl, .inl rfl⟩
  · split
    · exact .refl s
    · next hactive => exact drleSetup_gifdUntouched _ _ _ _ _ _ _ _ _ _ (by simpa [gifActive] using hactive)

/-- A direct decode is one started and run to its end (R140). -/
theorem execDrleDecode_gifdUntouched {file : List Byte} {w h x y S sx sy e len : Nat} {s t : State}
    (hx : execDrleDecode file w h x y S sx sy e len s = .next t) : GifdUntouched s t := by
  unfold execDrleDecode at hx
  split at hx
  · cases hx; exact ⟨rfl, .inl rfl⟩
  · split at hx
    · cases hx; exact .refl s
    · next hactive =>
      exact (drleSetup_gifdUntouched _ _ _ _ _ _ _ _ _ _ (by simpa [gifActive] using hactive)).trans
        (drleRun_keeps _ hx).gifdUntouched

theorem beginFrame_gifdUntouched {s t : State} (hs : s.gif.state ≠ .ready) (h : beginFrame s = .next t) :
    GifdUntouched s t := by
  obtain ⟨file, -, ⟨f, rfl⟩ | ⟨_, _, _, _, _, _, _, _, _, rfl⟩⟩ := beginFrame_cases h
  · exact ⟨rfl, .inl rfl⟩
  · exact ⟨rfl, .inr (.inr ⟨rfl, hs⟩)⟩

theorem runFrame_gifdUntouched {s t : State} (h : runFrame s = .next t) : GifdUntouched s t := by
  rcases runFrame_cases h with ⟨-, rfl⟩ | ⟨-, u, hk, hf⟩
  · exact .refl _
  · exact hk.gifdUntouched.trans (finishFrame_frame hf).gifdUntouched

theorem not_ready_of_frameDue {s : State} (h : frameDue s = true) : s.gif.state ≠ .ready := by
  simp only [frameDue, gifActive, Bool.and_eq_true, Bool.not_eq_true', decide_eq_false_iff_not] at h
  exact h.2

/-- A frame branch begins only while GIFD is not the active decoder (R317, entry 28). -/
theorem execSchStep_gifdUntouched {s t : State} (h : execSchStep s = .next t) : GifdUntouched s t := by
  unfold execSchStep at h
  split at h
  · split at h
    · exact runFrame_gifdUntouched h
    · split at h
      · next hdue =>
        obtain ⟨u, hu, hr⟩ := andThen_eq_next h
        exact (beginFrame_gifdUntouched (not_ready_of_frameDue hdue) hu).trans (runFrame_gifdUntouched hr)
      · cases h; exact .refl s
  · cases h; exact .refl s

theorem stepStart_gifdUntouched {s t : State} (h : stepStart s = .next t) : GifdUntouched s t := by
  unfold stepStart at h
  split at h
  · next hc => exact beginFrame_gifdUntouched (not_ready_of_frameDue (Bool.and_eq_true_iff.1 hc).2) h
  · cases h; exact .refl s

theorem owedPoll_gifdUntouched {s t : State} (h : owedPoll s = .next t) : GifdUntouched s t := by
  rcases owedPoll_cases h with rfl | ⟨-, hp⟩
  · exact .refl _
  · exact (execSchPoll_frame hp).gifdUntouched

/-! ## The tokens of a GIF and of a code stream -/

theorem imageBody_ctl {s t : State} (h : imageBody s = .next t) : t.ctl = none := by
  unfold imageBody at h
  split at h
  · cases h; rfl
  · split at h
    · cases h; rfl
    · next mcs s3 _ =>
      generalize lzwImage (imageData mcs s3) = r at h
      cases r with
      | ok u => cases h; rfl
      | raised f u => cases h; rfl
      | stuck r => cases h

/-- An image ends the reading of the block it stands in (R172). -/
theorem execGifImage_ctl {l tp w h : U16} {f : Byte} {s t : State} (hx : execGifImage l tp w h f s = .next t) :
    t.ctl = none := by
  unfold execGifImage at hx
  dsimp only at hx
  split at hx
  · cases hx; rfl
  · split at hx
    · cases hx; rfl
    · exact imageBody_ctl hx

/-- The next position of a stream's header, read with GIFD not stopped. -/
theorem oneDecoder_next {s : State} {p : Pos} {g : GifRegs} (hlive : gifStopped s = false) (hp : p ≠ .drle)
    (hg : g.state = s.gif.state) : OneDecoder { s with ctl := some p, gif := g } :=
  oneDecoder_of_live ((gifStopped_congr hg).trans hlive) (by simpa using hp)

theorem execGifLsd_liveKept {w h : U16} {f b a : Byte} {s t : State} (hx : execGifLsd w h f b a s = .next t) :
    LiveKept s t := by
  intro _ hlive
  unfold execGifLsd at hx
  dsimp only at hx
  split at hx
  · cases hx; exact oneDecoder_of_ctl_none rfl
  · cases hx; exact oneDecoder_next hlive nofun rfl

theorem execGifGce_liveKept {body : List Byte} {s t : State} (hx : execGifGce body s = .next t) : LiveKept s t := by
  intro hs _
  unfold execGifGce at hx
  split at hx
  · cases hx; exact hs
  · cases hx; exact ⟨hs.stopped, hs.oneActive⟩

theorem gifToken_liveKept {i : Instr} {s t : State} (h : gifToken i s = .next t) : LiveKept s t := by
  intro hs hlive
  cases i with
  | gifHeader87a => cases h; exact oneDecoder_next hlive nofun rfl
  | gifHeader89a => cases h; exact oneDecoder_next hlive nofun rfl
  | gifLsd w h' f b a => exact execGifLsd_liveKept (w := w) (h := h') (f := f) (b := b) (a := a) h hs hlive
  | gifGct table => cases h; exact oneDecoder_of_ctl_none rfl
  | gifGce body => exact execGifGce_liveKept (body := body) h hs hlive
  | gifExt label => cases h; exact ⟨hs.stopped, hs.oneActive⟩
  | gifImage l tp w h' f => exact oneDecoder_of_ctl_none (execGifImage_ctl (l := l) (tp := tp) (w := w) (h := h') (f := f) h)
  | gifTrailer => cases h; exact oneDecoder_of_ctl_none rfl
  | gifUnknown b => cases h; exact oneDecoder_of_ctl_none rfl
  | _ => cases h

theorem LzwKeeps.gifdUntouched {s t : State} (h : LzwKeeps s t) : GifdUntouched s t :=
  ⟨congrArg GifRegs.state h.frame.kept.gif, h.ctl.imp_right .inl⟩

/-- Settling a code's result keeps the invariant: a fault raised ends the reading (R312). -/
theorem settle_oneDecoder {r : Res} {t : State} (hr : r.All OneDecoder) (ht : r.settle = .next t) : OneDecoder t := by
  cases r with
  | ok u => cases ht; exact hr
  | raised f u => cases ht; exact oneDecoder_of_ctl_none rfl
  | stuck r => cases ht

theorem lzwToken_liveKept {i : Instr} {s t : State} (h : (lzwToken i s).settle = .next t) : LiveKept s t := by
  intro hs _
  exact settle_oneDecoder ((lzwToken_keeps i s).mono fun _ hu => hu.gifdUntouched.oneDecoder hs) h

/-! ## The operations of GIFD -/

theorem execLzwImage_stoppedStays {s t : State} (h : execLzwImage s = .next t) : StoppedStays s t := by
  unfold execLzwImage at h
  split at h
  · cases h; exact .refl s
  · next hlive =>
    refine .of_refused (fun hst => absurd hst hlive) fun hs hst => settle_oneDecoder ?_ h
    refine (lzwImage_frame s).mono fun u hu => ?_
    obtain ⟨hframe, -, -, hctl⟩ := hu
    have hstate : u.gif.state = s.gif.state := by rw [hframe]
    rcases hctl with hc | hc | hc
    · exact GifdUntouched.oneDecoder ⟨hstate, .inl hc⟩ hs
    · exact oneDecoder_of_live ((gifStopped_congr hstate).trans hst) (by simp [hc])
    · exact oneDecoder_of_ctl_none hc

theorem lzwStart_stoppedStays (s : State) : StoppedStays s (lzwStart s) := by
  unfold lzwStart
  split
  · exact .refl s
  · next hlive =>
    refine .of_refused (fun hst => absurd hst hlive) fun hs hst => ?_
    split
    · exact oneDecoder_of_live hst nofun
    · exact oneDecoder_of_ctl_none rfl

theorem endOfStream_ctl (p : Pos) (s : State) : (endOfStream p s).ctl = none := by
  cases p <;> rfl

/-- What a fetch may rely on and must keep: with a token GIFD is as it was, without one the invariant holds. -/
def Fetched.Live (s : State) : Fetched → Prop
  | .token _ u => GifdUntouched s u
  | .ended t => OneDecoder t

theorem fetchBytes_live (p : Pos) {s : State} (hs : OneDecoder s) : (fetchBytes p s).Live s := by
  unfold fetchBytes
  split
  · exact ⟨rfl, .inl rfl⟩
  · exact oneDecoder_of_ctl_none (endOfStream_ctl _ _)
  · exact oneDecoder_of_ctl_none rfl
  · exact hs

/-- A fetch of a GIF token or of a code. -/
theorem fetchAt_live {p : Pos} (hp : p ≠ .drle) {s : State} (hs : OneDecoder s) : (fetchAt p s).Live s := by
  cases p with
  | drle => exact absurd rfl hp
  | lzwCode =>
    have hk := (fetchCode_keeps s).gifdUntouched
    show (fetchCode s).Live s
    generalize fetchCode s = r at hk
    cases r with
    | token i u => exact hk
    | ended t => exact hk.oneDecoder hs
  | gifHeader => exact fetchBytes_live .gifHeader hs
  | gifLsd => exact fetchBytes_live .gifLsd hs
  | gifGct => exact fetchBytes_live .gifGct hs
  | gifBlock => exact fetchBytes_live .gifBlock hs

/-- The parts of GIF.START and the block loop keep the invariant: each is read with GIFD not stopped. -/
theorem gifRun_oneDecoder (fuel : Nat) {s t : State} (h : gifRun fuel s = .next t) (hs : OneDecoder s) :
    OneDecoder t := by
  induction fuel generalizing s with
  | zero => cases h; exact hs
  | succ fuel ih =>
    simp only [gifRun] at h
    split at h
    · cases h; exact hs
    · next p hp =>
      obtain ⟨hctl, hpos⟩ := gifPos_some hp
      have hdrle : p ≠ .drle := by rintro rfl; cases hpos
      have hf := fetchAt_live hdrle hs
      split at h
      · next s1 h1 => rw [h1] at hf; cases h; exact hf
      · next i s1 h1 =>
        rw [h1] at hf
        obtain ⟨u, hu, hr⟩ := andThen_eq_next h
        have hlive : gifStopped s = false := hs.live (by simp [hctl]) (by simpa [hctl] using hdrle)
        exact ih hr (gifToken_liveKept hu (hf.oneDecoder hs) ((gifStopped_congr hf.state).trans hlive))

theorem gifSetup_oneDecoder (w h : Nat) (s : State) : OneDecoder (gifSetup w h s) := oneDecoder_of_live rfl nofun

/-- GIF.START: refused in FAULTED, otherwise a stream from its beginning (R171). -/
theorem execGifStart_decoder {w h : Nat} {s t : State} (hx : execGifStart w h s = .next t) :
    (OneDecoder s → OneDecoder t) ∧ (s.gif.state = .faulted → t = s) := by
  unfold execGifStart at hx
  split at hx
  · cases hx; exact ⟨id, fun _ => rfl⟩
  · next hf => exact ⟨fun _ => gifRun_oneDecoder _ hx (gifSetup_oneDecoder w h s), fun h => absurd h hf⟩

theorem gifStartStart_decoder (w h : Nat) (s : State) :
    (OneDecoder s → OneDecoder (gifStartStart w h s)) ∧ (s.gif.state = .faulted → gifStartStart w h s = s) := by
  unfold gifStartStart
  split
  · exact ⟨id, fun _ => rfl⟩
  · next hf => exact ⟨fun _ => gifSetup_oneDecoder w h s, fun h => absurd h hf⟩

theorem gifStopped_of_ready {s : State} (h : s.gif.state = .ready) : gifStopped s = false := by
  simp only [gifStopped, h]

theorem gifNextStart_stoppedStays (s : State) : StoppedStays s (gifNextStart s) := by
  unfold gifNextStart
  split
  · next hr =>
    have hlive := gifStopped_of_ready hr
    exact .of_refused (fun hst => nomatch hlive.symm.trans hst) fun _ _ => oneDecoder_of_live hlive nofun
  · exact .refl s

theorem execGifNext_stoppedStays {s t : State} (h : execGifNext s = .next t) : StoppedStays s t := by
  unfold execGifNext at h
  split at h
  · next hr =>
    have hlive := gifStopped_of_ready hr
    exact .of_refused (fun hst => nomatch hlive.symm.trans hst) fun _ _ =>
      gifRun_oneDecoder _ h (oneDecoder_of_live hlive nofun)
  · cases h; exact .refl s

/-! ## Every instruction -/

/-- A command keeps the invariant; of a GIFD that has stopped, only GIF.START changes the state, and not from FAULTED. -/
structure CommandKept (i : Instr) (s t : State) : Prop where
  oneDecoder : OneDecoder s → OneDecoder t
  state : gifStopped s = true → s.gif.state = .faulted ∨ (∀ w h, i ≠ .gifStart w h) → t.gif.state = s.gif.state

theorem StoppedStays.command {i : Instr} {s t : State} (h : StoppedStays s t) : CommandKept i s t :=
  ⟨h.oneDecoder, fun hst _ => h.state hst⟩

theorem CommandKept.of_gifStart {w h : Nat} {s t : State} (hone : OneDecoder s → OneDecoder t)
    (hfault : s.gif.state = .faulted → t = s) : CommandKept (.gifStart w h) s t := by
  refine ⟨hone, fun _ hor => ?_⟩
  rcases hor with hf | hne
  · rw [hfault hf]
  · exact absurd rfl (hne w h)

/-- What an instruction that answers the next state `t` did to the decoders. -/
inductive DecoderFamily (s t : State) (i : Instr) : Prop
  | command (h : CommandKept i s t)
  | token (hi : isCommand i = false) (h : LiveKept s t)

theorem DecoderFamily.untouched {i : Instr} {s t : State} (h : GifdUntouched s t) : DecoderFamily s t i :=
  .command h.stoppedStays.command

theorem exec_decoderFamily {i : Instr} {s t : State} (h : exec i s = .next t) : DecoderFamily s t i := by
  cases i with
  | pxcPack r g b => cases h; exact .untouched ⟨rfl, .inl rfl⟩
  | pxcStore a c =>
    rw [(storePixel_keeps (ofExcept_next h)).1]
    exact .untouched ⟨rfl, .inl rfl⟩
  | drleEnd => exact .untouched (drleRecord_keeps (skip := 0) (write := 0) h).gifdUntouched
  | drleRec k w => exact .untouched (drleRecord_keeps (skip := k) (write := w) h).gifdUntouched
  | drleBlit pos hi lo =>
    rw [blit_ok (ofExcept_next h)]
    exact .untouched ⟨rfl, .inl rfl⟩
  | drleDecode f w h' x y S sx sy e len => exact .untouched (execDrleDecode_gifdUntouched h)
  | drleEncode p c =>
    simp only [exec, execDrleEncode] at h
    split at h
    · cases h; exact .untouched ⟨rfl, .inl rfl⟩
    · cases h
  | drleEncodeFirst c =>
    simp only [exec, execDrleEncodeFirst] at h
    split at h
    · cases h; exact .untouched ⟨rfl, .inl rfl⟩
    · cases h
  | gifHeader87a => exact .token rfl (gifToken_liveKept (i := .gifHeader87a) h)
  | gifHeader89a => exact .token rfl (gifToken_liveKept (i := .gifHeader89a) h)
  | gifLsd w h' f b a => exact .token rfl (gifToken_liveKept (i := .gifLsd w h' f b a) h)
  | gifGct table => exact .token rfl (gifToken_liveKept (i := .gifGct table) h)
  | gifGce body => exact .token rfl (gifToken_liveKept (i := .gifGce body) h)
  | gifExt label => exact .token rfl (gifToken_liveKept (i := .gifExt label) h)
  | gifImage l tp w h' f => exact .token rfl (gifToken_liveKept (i := .gifImage l tp w h' f) h)
  | gifTrailer => exact .token rfl (gifToken_liveKept (i := .gifTrailer) h)
  | gifUnknown b => exact .token rfl (gifToken_liveKept (i := .gifUnknown b) h)
  | gifStart w h' => exact .command (.of_gifStart (execGifStart_decoder h).1 (execGifStart_decoder h).2)
  | gifNext => exact .command (execGifNext_stoppedStays h).command
  | lzwImage => exact .command (execLzwImage_stoppedStays h).command
  | lzwClear => exact .token rfl (lzwToken_liveKept (i := .lzwClear) h)
  | lzwEnd => exact .token rfl (lzwToken_liveKept (i := .lzwEnd) h)
  | lzwFirst c => exact .token rfl (lzwToken_liveKept (i := .lzwFirst c) h)
  | lzwLit c => exact .token rfl (lzwToken_liveKept (i := .lzwLit c) h)
  | lzwDict c => exact .token rfl (lzwToken_liveKept (i := .lzwDict c) h)
  | lzwKwkwk => exact .token rfl (lzwToken_liveKept (i := .lzwKwkwk) h)
  | lzwBadCode c => exact .token rfl (lzwToken_liveKept (i := .lzwBadCode c) h)
  | schLoad => exact .untouched (execSchLoad_frame h).gifdUntouched
  | schTick => exact .untouched (execSchTick_frame h).gifdUntouched
  | schStep => exact .untouched (execSchStep_gifdUntouched h)
  | schPoll now a b => exact .untouched (execSchPoll_frame h).gifdUntouched
  | schSwitch => exact .untouched (execSchSwitch_frame h).gifdUntouched

theorem exec_commandKept {i : Instr} {s t : State} (hi : isCommand i = true) (h : exec i s = .next t) :
    CommandKept i s t := by
  cases exec_decoderFamily h with
  | command hk => exact hk
  | token hn hk => exact nomatch hi.symm.trans hn

/-- Any instruction keeps the invariant while GIFD has not stopped. -/
theorem exec_liveKept {i : Instr} {s t : State} (h : exec i s = .next t) : LiveKept s t := by
  cases exec_decoderFamily h with
  | command hk => exact fun hs _ => hk.oneDecoder hs
  | token hi hk => exact hk

theorem perform_commandKept {i : Instr} {s t : State} (hi : isCommand i = true) (h : perform i s = .next t) :
    CommandKept i s t := by
  obtain ⟨u, rfl | ⟨rfl, -, hp⟩, he⟩ := perform_cases h
  · exact exec_commandKept hi he
  · exact ((execSchPoll_frame hp).gifdUntouched.trans (execSchStep_gifdUntouched he)).stoppedStays.command

theorem startOp_commandKept {i : Instr} {s t : State} (hi : isCommand i = true) (h : startOp i s = .next t) :
    CommandKept i s t := by
  unfold startOp at h
  split at h
  · cases h; exact (drleStart_gifdUntouched _ _ _ _ _ _ _ _ _ _ s).stoppedStays.command
  · cases h; exact .of_gifStart (gifStartStart_decoder _ _ s).1 (gifStartStart_decoder _ _ s).2
  · cases h; exact (gifNextStart_stoppedStays s).command
  · cases h; exact (lzwStart_stoppedStays s).command
  · obtain ⟨u, hu, hbeg⟩ := andThen_eq_next h
    exact ((owedPoll_gifdUntouched hu).trans (stepStart_gifdUntouched hbeg)).stoppedStays.command
  · exact exec_commandKept hi h

/-! ## Every step -/

theorem exec_record (k w : Byte) (s : State) :
    exec (if k = 0 ∧ w = 0 then .drleEnd else .drleRec k w) s = drleRecord k w s := by
  rw [← drleToken_record]
  split <;> rfl

/-- The record at the cursor of a delta-RLE stream, or the stream's end, leaves GIFD alone. -/
theorem drle_turn_untouched {s t : State}
    (h : (∃ i u, fetchAt .drle s = .token i u ∧ exec i u = .next t) ∨ fetchAt .drle s = .ended t) :
    GifdUntouched s t := by
  rcases fetchAt_drle s with ⟨k, w, -, -, hf⟩ | ⟨-, hf⟩
  · rw [hf] at h
    rcases h with ⟨i, u, hi, hx⟩ | hi
    · cases hi
      rw [exec_record] at hx
      exact GifdUntouched.trans (t := { s with sp := s.sp + 2 }) ⟨rfl, .inl rfl⟩ (drleRecord_keeps hx).gifdUntouched
    · cases hi
  · rw [hf] at h
    rcases h with ⟨i, u, hi, hx⟩ | hi
    · cases hi
    · cases hi; exact ⟨rfl, .inr (.inl rfl)⟩

/-- The next token of an operation in progress, or its end. -/
theorem turn_stoppedStays {p : Pos} {s t : State} (hs : OneDecoder s) (hc : s.ctl = some p)
    (h : (∃ i u, fetchAt p s = .token i u ∧ exec i u = .next t) ∨ fetchAt p s = .ended t) : StoppedStays s t := by
  by_cases hp : p = .drle
  · subst hp
    exact (drle_turn_untouched h).stoppedStays
  · have hlive : gifStopped s = false := hs.live (by simp [hc]) (by simpa [hc] using hp)
    have hfetch := fetchAt_live hp hs
    refine .of_refused (fun hst => nomatch hlive.symm.trans hst) fun _ _ => ?_
    rcases h with ⟨i, u, hf, hx⟩ | hf
    · rw [hf] at hfetch
      exact exec_liveKept hx (hfetch.oneDecoder hs) ((gifStopped_congr hfetch.state).trans hlive)
    · rw [hf] at hfetch
      exact hfetch

/-- The main context by itself gives no GIF command: its operations are SCHED's (R250). -/
theorem mainInstr_command {s : State} {i : Instr} (h : mainInstr s = some i) :
    isCommand i = true ∧ ∀ w h, i ≠ .gifStart w h := by
  unfold mainInstr at h
  repeat' split at h
  all_goals cases h
  all_goals exact ⟨rfl, nofun⟩

/-- The next entry of the inbox is no GIF.START. -/
def NoGifStart (s : State) : Prop :=
  ∀ w h, s.inbox.head? ≠ some (.op (.gifStart w h)) ∧ s.inbox.head? ≠ some (.start (.gifStart w h))

/-- What a step keeps: the invariant; and, but for a reset, or a GIF.START from DONE or ERROR, the state of a GIFD that has
stopped. -/
structure StepKept (s t : State) : Prop where
  oneDecoder : OneDecoder t
  state : noReset s → gifStopped s = true → s.gif.state = .faulted ∨ NoGifStart s → t.gif.state = s.gif.state

theorem step_kept {s t : State} (hs : OneDecoder s) (hx : step s = .next t) : StepKept s t := by
  have hs' : OneDecoder { s with inbox := s.inbox.tail } := ⟨hs.stopped, hs.oneActive⟩
  have hcommand : ∀ {i : Instr}, s.inbox.head? = some (.op i) ∨ s.inbox.head? = some (.start i) →
      CommandKept i { s with inbox := s.inbox.tail } t → StepKept s t := by
    intro i hi hk
    refine ⟨hk.oneDecoder hs', fun _ hst hor => hk.state hst (hor.imp_right fun hno w h heq => ?_)⟩
    subst heq
    rcases hi with hi | hi
    · exact (hno w h).1 hi
    · exact (hno w h).2 hi
  have hstays : StoppedStays { s with inbox := s.inbox.tail } t → StepKept s t :=
    fun hk => ⟨hk.oneDecoder hs', fun _ hst _ => hk.state hst⟩
  cases step_moved hx with
  | notEnabled i hd hb hi => exact hstays (.refl _)
  | op i hd hc hb h => exact hcommand (.inl hd) (perform_commandKept hc h)
  | start i hd hc hb h => exact hcommand (.inr hd) (startOp_commandKept hc h)
  | main i hd hc hm h =>
    obtain ⟨hi, hne⟩ := mainInstr_command hm
    have hk := perform_commandKept hi h
    exact hstays ⟨hk.oneDecoder, fun hst => hk.state hst (.inr hne)⟩
  | waiting hd hc hm => exact hstays (.refl _)
  | token p i u hd hc hf h => exact hstays (turn_stoppedStays hs' hc (.inl ⟨i, u, hf, h⟩))
  | ended p hd hc hf => exact hstays (turn_stoppedStays hs' hc (.inr hf))
  | clock ms hd h => exact hstays ⟨fun h => ⟨h.stopped, h.oneActive⟩, fun _ => rfl⟩
  | buttons a b hd => exact hstays ⟨fun h => ⟨h.stopped, h.oneActive⟩, fun _ => rfl⟩
  | source bytes hd hb => exact hstays ⟨fun h => ⟨h.stopped, h.oneActive⟩, fun _ => rfl⟩
  | reset y full reached hd hr => exact ⟨oneDecoder_of_ctl_none rfl, fun hno => nomatch (hno y hd).symm.trans hr⟩

/-- A recorded fault of a direct call stays until reset (R304, entry 42). -/
theorem step_callFault {s t : State} (hx : step s = .next t) (hno : noReset s) (hf : s.callFault.isSome = true) :
    t.callFault.isSome = true := by
  rcases step_cases hx with hk | ⟨ms, rest, -, -, rfl⟩ | ⟨a, b, rest, -, rfl⟩ | ⟨bytes, rest, -, rfl⟩ |
    ⟨x, full, reached, hi, hr, rfl⟩
  · exact hk.callFault hf
  · exact hf
  · exact hf
  · exact hf
  · exact nomatch (hno x hi).symm.trans hr

/-- Settles O59: what each command does to a stopped GIFD, and that no token of a GIF or a code stream runs in one. -/
theorem faultedUntilReset : Obligations.FaultedUntilReset := by
  refine ⟨fun s t hs hx => ?_, fun s t => step_callFault⟩
  obtain ⟨hone, hstate⟩ := step_kept hs hx
  refine ⟨hone, fun hno hf => ?_, fun hno hde hstart => ?_⟩
  · exact (hstate hno (gifStopped_eq_true_iff.2 (.inr (.inr hf))) (.inl hf)).trans hf
  · exact hstate hno (gifStopped_eq_true_iff.2 (hde.imp_right .inl)) (.inr hstart)

end Sys2Proof.Machine
end

section
/-! PROOFS. O18, O23: the blocks of a GIF stream that draw nothing (42_gif_container.md R184, R192 to R194). -/

namespace Sys2Proof.Machine

/-- The bytes after a length byte that SRC holds whole, or not (R105). -/
theorem drains_cons {k : Byte} {d : List Byte} {n : Nat} (hk : k ≠ 0) (h : Drains (k :: d) n) :
    d.length < k.toNat ∧ n = 1 + d.length ∨
      k.toNat ≤ d.length ∧ ∃ m, Drains (d.drop k.toNat) m ∧ n = 1 + k.toNat + m := by
  cases h with
  | terminator => exact absurd rfl hk
  | short _ _ hd => exact .inl ⟨hd, rfl⟩
  | block _ d rest m _ hd hr => exact .inr ⟨by simp [hd], m, by simpa [← hd] using hr, by rw [hd]⟩

/-- Every byte sequence is drained (R194). -/
theorem drains_exists (bytes : List Byte) : ∃ n, Drains bytes n := by
  induction hlen : bytes.length using Nat.strong_induction_on generalizing bytes with
  | _ len ih =>
    match bytes with
    | [] => exact ⟨0, .eos⟩
    | k :: d =>
      by_cases hk : k = 0
      · subst hk; exact ⟨1, .terminator d⟩
      by_cases hd : d.length < k.toNat
      · exact ⟨_, .short k d hd⟩
      · obtain ⟨m, hm⟩ := ih _ (by simp at hlen ⊢; omega) (d.drop k.toNat) rfl
        have hblock := Drains.block k (d.take k.toNat) (d.drop k.toNat) m hk (by simp; omega) hm
        rw [List.take_append_drop] at hblock
        exact ⟨_, hblock⟩

/-- And in one way only. -/
theorem Drains.unique {bytes : List Byte} {n m : Nat} (hn : Drains bytes n) (hm : Drains bytes m) : m = n := by
  induction hn generalizing m with
  | eos => cases hm; rfl
  | terminator rest =>
    cases hm with
    | terminator => rfl
    | short _ _ hd => exact absurd hd (Nat.not_lt_zero _)
    | block _ d rest m hk hd hr => exact absurd rfl hk
  | short k d hd =>
    rcases drains_cons (by rintro rfl; exact absurd hd (Nat.not_lt_zero _)) hm with ⟨-, rfl⟩ | ⟨hle, -⟩
    · rfl
    · omega
  | block k d rest n' hk hd hr ih =>
    rcases drains_cons hk hm with ⟨hlt, -⟩ | ⟨-, m', hm', rfl⟩
    · rw [List.length_append] at hlt; omega
    · rw [← hd, List.drop_left] at hm'
      rw [ih hm', hd]

/-- Settles O18: draining as a relation, total and functional. -/
theorem extensionSkipped : Obligations.ExtensionSkipped := by
  refine ⟨fun label s n hsp hd => congrArg _ (drainSubBlocks_eq hd hsp), fun bytes => ?_⟩
  obtain ⟨n, hn⟩ := drains_exists bytes
  exact ⟨n, hn, fun m hm => hn.unique hm⟩

/-- The loop stops where no position of a GIF stream is being read. -/
theorem gifRun_stopped (fuel : Nat) {s : State} (h : s.ctl = none) : gifRun fuel s = .next s := by
  cases fuel with
  | zero => rfl
  | succ fuel => simp only [gifRun, h, gifPos]

/-- One turn of the loop: the token at the cursor, then the loop again. -/
theorem gifRun_token (fuel : Nat) {s u : State} {p : Pos} {i : Instr} (hp : gifPos s.ctl = some p)
    (hf : fetchAt p s = .token i u) : gifRun (fuel + 1) s = andThen (gifToken i u) (gifRun fuel) := by
  simp only [gifRun, hp, hf]

/-- A byte that introduces neither an extension nor an image is a token of its own: the trailer, or unrecognised (R103). -/
theorem decodeBlock_last {b : Byte} (rest : List Byte) (hext : b ≠ 0x21) (himg : b ≠ 0x2C) :
    ∃ i, decodeBlock (b :: rest) = .ok (i, 1) ∧ ∀ s, gifToken i s = .next (streamEnd s) := by
  simp only [decodeBlock, if_neg hext, if_neg himg]
  split
  · exact ⟨_, rfl, fun _ => rfl⟩
  · exact ⟨_, rfl, fun _ => rfl⟩

/-- Settles O23: the block loop takes the one token and stops with it. -/
theorem trailerEndsStream : Obligations.TrailerEndsStream := by
  refine ⟨fun s => ⟨rfl, fun b => rfl⟩, fun s b hready hb hext himg => ?_⟩
  have hdrop : s.src.drop s.sp = b :: s.src.drop (s.sp + 1) := by
    obtain ⟨hlt, rfl⟩ := List.getElem?_eq_some_iff.1 hb
    exact List.drop_eq_getElem_cons hlt
  obtain ⟨i, hdec, htok⟩ := decodeBlock_last (s.src.drop (s.sp + 1)) hext himg
  rw [← hdrop] at hdec
  have hfetch := fetchAt_decoded (p := .gifBlock) (s := { s with ctl := some .gifBlock }) hdec
  calc exec .gifNext s = gifRun (gifFuel s) { s with ctl := some .gifBlock } := if_pos hready
    _ = andThen (gifToken i { s with ctl := some .gifBlock, sp := s.sp + 1 }) (gifRun (s.src.length + 3)) :=
      gifRun_token (s.src.length + 3) rfl hfetch
    _ = gifRun (s.src.length + 3) (streamEnd { s with ctl := some .gifBlock, sp := s.sp + 1 }) := by
      rw [htok, andThen_next]
    _ = .next (streamEnd { s with ctl := some .gifBlock, sp := s.sp + 1 }) := gifRun_stopped _ rfl

end Sys2Proof.Machine
end

section
/-! PROOFS. O20, O21: GIF.IMAGE after its descriptor's checks (42_gif_container.md R185 to R191). -/

namespace Sys2Proof.Machine

/-! ## The parts of an image -/

/-- The descriptor accepted (R185, R186): the rest of GIF.IMAGE. -/
theorem execGifImage_accepted {left top w h : U16} {flags : Byte} {s : State} (hflag : flags.getLsbD 6 = false)
    (hx : left.toNat + w.toNat ≤ s.gif.scrW.toNat) (hy : top.toNat + h.toNat ≤ s.gif.scrH.toNat) :
    exec (.gifImage left top w h flags) s = imageBody (setDescriptor left top w h flags s) := by
  show execGifImage left top w h flags s = _
  unfold execGifImage
  dsimp only
  rw [if_neg (by rw [interlaceFlag, hflag]; exact Bool.false_ne_true), if_neg (by omega)]

/-- A local colour table read (R187) and the palette selected (R188). -/
def tableLoaded (table : List Rgb) (s : State) : State :=
  { s with
    sp := s.sp + 3 * table.length, palL := writePalette table 0 s.palL
    img := { s.img with lctLen := table.length, palSel := selectPalette table.length s.gif.gctLen } }

/-- SRC ends inside the local table (R175, R187). -/
theorem imageBody_cutTable {s : State} (hcur : s.sp ≤ s.src.length)
    (h : s.src.length < s.sp + 3 * tableSize s.img.flags) :
    imageBody s = .next (streamEnd { s with sp := s.src.length }) := by
  have hl : localTable s = (none, { s with sp := s.src.length }) := by
    rcases localTable_cases s with ⟨_, -, -, hle, -⟩ | ⟨-, hl⟩
    · exact absurd (hle hcur) (by omega)
    · exact hl
  simp only [imageBody, hl]

/-- The local table that SRC holds is loaded. -/
theorem localTable_loaded {s : State} {table : List Rgb} {rest : List Byte} (hcur : s.sp ≤ s.src.length)
    (hlen : table.length = tableSize s.img.flags) (hsrc : s.src.drop s.sp = tableBytes table ++ rest) :
    ∃ u, localTable s = (some (tableLoaded table s), u) := by
  have hroom := congrArg List.length hsrc
  rw [List.length_drop, List.length_append, tableBytes_length, hlen] at hroom
  rcases localTable_cases s with ⟨table', -, hread, -, hl⟩ | ⟨hlt, -⟩
  · have htake : (s.src.drop s.sp).take (3 * tableSize s.img.flags) = tableBytes table ++ [] := by
      rw [hsrc, ← hlen, ← tableBytes_length, List.take_left, List.append_nil]
    rw [htake, ← hlen, readTriples_tableBytes] at hread
    cases hread
    rw [← hlen] at hl
    exact ⟨(localTable s).2, Prod.ext hl rfl⟩
  · omega

theorem drop_tableLoaded {s : State} {table : List Rgb} {rest : List Byte}
    (hsrc : s.src.drop s.sp = tableBytes table ++ rest) :
    (tableLoaded table s).src.drop (tableLoaded table s).sp = rest := by
  show s.src.drop (s.sp + 3 * table.length) = rest
  rw [← List.drop_drop, hsrc, ← tableBytes_length, List.drop_left]

/-- SRC ends before the minimum code size (R189). -/
theorem imageBody_noSize {s : State} {table : List Rgb} (hcur : s.sp ≤ s.src.length)
    (hlen : table.length = tableSize s.img.flags) (hsrc : s.src.drop s.sp = tableBytes table) :
    imageBody s = .next (streamEnd { tableLoaded table s with sp := s.src.length }) := by
  have hsrc' : s.src.drop s.sp = tableBytes table ++ [] := by rw [hsrc, List.append_nil]
  obtain ⟨u, hl⟩ := localTable_loaded hcur hlen hsrc'
  simp only [imageBody, hl, streamByte_of_nil (drop_tableLoaded hsrc')]
  rfl

/-- The operands of LZW.IMAGE in their registers, the cursor at the first byte of the image's data (R189). -/
def operandsLoaded (table : List Rgb) (mcs : Byte) (s : State) : State :=
  imageData mcs { tableLoaded table s with sp := s.sp + 3 * table.length + 1 }

/-- How GIF.IMAGE goes on from what LZW.IMAGE leaves: FRAME_DONE where it is done (R190). -/
def imageEnd (r : Res) : Out := (r.bind fun t => .ok (imageDone t)).settle

/-- With the minimum code size read the image is LZW.IMAGE on the operands loaded, then FRAME_DONE (R189, R190). -/
theorem imageBody_loaded {s : State} {table : List Rgb} {mcs : Byte} {data : List Byte} (hcur : s.sp ≤ s.src.length)
    (hlen : table.length = tableSize s.img.flags) (hsrc : s.src.drop s.sp = tableBytes table ++ mcs :: data) :
    imageBody s = imageEnd (lzwImage (operandsLoaded table mcs s)) ∧
      (operandsLoaded table mcs s).src.drop (operandsLoaded table mcs s).sp = data := by
  obtain ⟨u, hl⟩ := localTable_loaded hcur hlen hsrc
  obtain ⟨hbyte, hdata⟩ := streamByte_of_cons (drop_tableLoaded hsrc)
  exact ⟨by simp only [imageBody, hl, hbyte]; rfl, hdata⟩

/-! ## The end of an image -/

/-- FRAME_DONE carries the delay of the control extension that stood before the image, and the extension is forgotten
(R190). -/
theorem imageDone_eq {s t : State} (h : LzwFrame s t) : imageDone t = { t with
    ctl := none, gif := { t.gif with state := .ready }, gce := { s.gce with seen := false, transpOn := false }
    out := s.out ++ [.frameDone (delayMs s.gce)] } := by
  have hout : t.out = s.out := by rw [h]
  rw [← h.kept.gce, ← hout]
  rfl

/-- How an image ends, by how LZW.IMAGE ends on its operands: FRAME_DONE, or its fault or stop carried over (R189, R190). -/
theorem imageEnd_after_lzwImage {s : State} (hready : s.gif.state = .ready) :
    (∀ t, exec .lzwImage s = .next t →
      (t.gif.state = .faulted → imageEnd (lzwImage s) = .next t) ∧
      (t.gif.state ≠ .faulted → imageEnd (lzwImage s) = .next { t with
        ctl := none, gif := { t.gif with state := .ready }, gce := { s.gce with seen := false, transpOn := false }
        out := s.out ++ [.frameDone (delayMs s.gce)] })) ∧
    ∀ r, exec .lzwImage s = .fault r → imageEnd (lzwImage s) = .fault r := by
  have hexec : exec .lzwImage s = (lzwImage s).settle := if_neg (by simp [gifStopped_of_ready hready])
  have hframe := lzwImage_frame s
  rw [hexec]
  generalize lzwImage s = res at hframe
  cases res with
  | ok u =>
    obtain ⟨hu, -⟩ := hframe
    refine ⟨fun t ht => ?_, fun r hr => by cases hr⟩
    cases ht
    refine ⟨fun hf => ?_, fun _ => congrArg _ (imageDone_eq hu)⟩
    rw [hu.kept.gif, hready] at hf
    cases hf
  | raised f u =>
    refine ⟨fun t ht => ?_, fun r hr => by cases hr⟩
    cases ht
    exact ⟨fun _ => rfl, fun hf => absurd rfl hf⟩
  | stuck r =>
    refine ⟨fun t ht => ?_, fun _ hr => hr⟩
    cases ht

/-! ## An image without data -/

/-- The drain of an image whose terminator the reader has seen reads nothing (R234). -/
theorem endImage_seen {s : State} (h : s.bits.termSeen = true) : endImage s = { s with ctl := none } := by
  simp only [endImage, drainImage, h, Bool.true_or, if_true]

/-- Between two sub-blocks the drain is `DrainSubBlocks` (R234). -/
theorem endImage_between {s : State} {n : Nat} (hterm : s.bits.termSeen = false) (heos : s.bits.eosSeen = false)
    (hrem : s.bits.blkRem = 0) (hsp : s.sp ≤ s.src.length) (hd : Drains (s.src.drop s.sp) n) :
    endImage s = { s with sp := s.sp + n, ctl := none } := by
  have hread : streamRead s.bits.blkRem.toNat s = (some [], s) := by rw [hrem]; rfl
  simp only [endImage, drainImage, hterm, heos, hread, drainSubBlocks_eq hd hsp, Bool.or_self, Bool.false_eq_true,
    if_false]

/-- A terminator where a sub-block's length is due ends the code stream (R215, R216). -/
theorem readCode_terminator {s : State} {rest : List Byte} (hterm : s.bits.termSeen = false)
    (heos : s.bits.eosSeen = false) (hrem : s.bits.blkRem = 0) (hcnt : s.bits.cnt < s.lzw.codeSize)
    (hsrc : s.src.drop s.sp = 0 :: rest) :
    readCode s = (none, { s with sp := s.sp + 1, bits := { s.bits with termSeen := true } }) := by
  have hnext : nextDataByte s = (none, { s with sp := s.sp + 1, bits := { s.bits with termSeen := true } }) := by
    simp only [nextDataByte, hterm, heos, hrem, (streamByte_of_cons hsrc).1, Bool.or_self, Bool.false_eq_true, if_false,
      if_true]
  obtain ⟨fuel, hfuel⟩ := Nat.exists_eq_succ_of_ne_zero (show s.lzw.codeSize ≠ 0 by omega)
  refine readCode_unfilled ?_
  rw [hfuel]
  exact fillBits_none fuel hcnt hnext

/-- What LZW.IMAGE leaves on an empty chain: the set-up of R212, and the terminator read as a length where there is a pixel
to draw, by the drain where there is none (R215, R220, R234). -/
def emptyChainDone (s : State) : State :=
  { lzwSetup s with
    sp := s.sp + 1, ctl := none
    bits := { buf := 0, cnt := 0, blkRem := 0, termSeen := decide (s.img.pixN < s.img.npix), eosSeen := false } }

theorem lzwImage_emptyChain {s : State} {rest : List Byte} (hadm : mcsAdmitted s.lzw.mcs = true)
    (hsrc : s.src.drop s.sp = 0 :: rest) :
    lzwImage s = .ok (emptyChainDone s) := by
  have hcur : s.sp ≤ s.src.length := by
    by_contra hlt
    rw [List.drop_eq_nil_of_le (by omega)] at hsrc
    cases hsrc
  have hend : fetchAt .lzwCode (lzwSetup s) = .ended (emptyChainDone s) := by
    unfold emptyChainDone
    by_cases hpix : s.img.pixN < s.img.npix
    · rw [fetchAt_noCode (s := lzwSetup s) hpix (readCode_terminator rfl rfl rfl (Nat.succ_pos _) hsrc),
        endImage_seen rfl, decide_eq_true hpix]
      rfl
    · have hdrain : Drains ((lzwSetup s).src.drop (lzwSetup s).sp) 1 := hsrc ▸ .terminator rest
      rw [fetchAt_budget (s := lzwSetup s) (Nat.not_lt.1 hpix),
        endImage_between (s := lzwSetup s) rfl rfl rfl hcur hdrain, decide_eq_false hpix]
      rfl
  unfold lzwImage
  rw [if_pos hadm]
  show lzwRun (_ + 1) (lzwSetup s) = _
  simp only [lzwRun, hend]
  rfl

/-- Settles O20: LZW.IMAGE on the loaded operands and its end; then the run of it on an empty chain. -/
theorem imageWithEmptyData : Obligations.ImageWithEmptyData := by
  intro left top w h flags mcs table s hflag hx hy hlen hcur
  dsimp only
  rw [execGifImage_accepted hflag hx hy]
  have hbody := fun size data =>
    imageBody_loaded (s := setDescriptor left top w h flags s) (mcs := size) (data := data) hcur hlen
  refine ⟨fun data hready hsrc => ?_, fun rest h2 h11 hsrc => ?_⟩
  · rw [(hbody mcs data hsrc).1]
    obtain ⟨hnext, hfault⟩ := imageEnd_after_lzwImage
      (s := operandsLoaded table mcs (setDescriptor left top w h flags s)) hready
    exact ⟨operandsLoaded table mcs (setDescriptor left top w h flags s), rfl,
      fun k => memRead_writePalette table k s.palL, hnext, hfault⟩
  · obtain ⟨heq, hdata⟩ := hbody mcs (0 :: rest) hsrc
    rw [heq, lzwImage_emptyChain (decide_eq_true ⟨h2, h11⟩) hdata]
    refine ⟨imageDone (emptyChainDone (operandsLoaded table mcs (setDescriptor left top w h flags s))), rfl, ?_,
      fun k => memRead_writePalette table k s.palL⟩
    simp only [imageDone, emptyChainDone, lzwSetup, operandsLoaded, imageData, tableLoaded, setDescriptor, emit, delayMs,
      selectPalette]
    rfl

/-! ## An image's outcome -/

/-- LZW.IMAGE of a minimum code size that is not decoded (R211). -/
theorem lzwImage_notAdmitted {s : State} (h : s.lzw.mcs.toNat < 2 ∨ 11 < s.lzw.mcs.toNat) :
    lzwImage s = .raised (.lzwParam s.lzw.mcs) s :=
  if_neg (by simp only [mcsAdmitted, decide_eq_true_eq]; omega)

/-- What GIF.IMAGE leaves as it was: everything but its own registers, the palette of its table, DST and what it sends. -/
theorem execGifImage_frame {left top w h : U16} {flags : Byte} {s t : State}
    (hx : execGifImage left top w h flags s = .next t)
    (ho : ImageOutcome (setDescriptor left top w h flags s) t) : t = { s with
      dst := t.dst, out := t.out, ctl := none, sp := t.sp, gce := t.gce, img := t.img, lzw := t.lzw, bits := t.bits
      dict := t.dict, stk := t.stk, stkN := t.stkN, palL := t.palL
      gif := { s.gif with state := t.gif.state, fault := t.gif.fault } } := by
  conv_lhs => rw [(execGifImage_keeps hx).frame, ho.ctl, ho.palG, ho.gif, ho.dstLen]
  rfl

/-- Settles O21: the outcome of the whole image, then the ends before its data. -/
theorem imageAlwaysEnds : Obligations.ImageAlwaysEnds := by
  refine ⟨fun left top w h flags s hc hg hs => ?_, fun left top w h flags s hflag hx hy hcur => ?_⟩
  · obtain ⟨t, ht, ho⟩ := execGifImage_outcome left top w h flags hc hg hs
    exact ⟨t, ht, ho.outcome.of_out rfl, ho.ctl, execGifImage_frame ht ho, fun b hb => ho.dst b hb⟩
  · dsimp only
    rw [execGifImage_accepted hflag hx hy]
    refine ⟨fun hcut => ?_, fun table hlen => ⟨fun hsrc => ?_, fun mcs data hsrc hmcs => ?_⟩⟩
    · exact imageBody_cutTable (s := setDescriptor left top w h flags s) hcur hcut
    · refine ⟨_, imageBody_noSize (s := setDescriptor left top w h flags s) hcur hlen hsrc, ?_⟩
      rw [← hlen]
      rfl
    · rw [(imageBody_loaded (s := setDescriptor left top w h flags s) hcur hlen hsrc).1, lzwImage_notAdmitted hmcs]
      refine ⟨_, rfl, ?_⟩
      rw [← hlen]
      rfl

end Sys2Proof.Machine
end

section
/-! PROOFS. What a code token may do to the code registers and the dictionary, and which faults it may raise (43_lzw.md R218 to
R232), whatever state it runs in. -/

namespace Sys2Proof.Machine

/-! ## Results -/

/-- A property of the fault a code token raises, and of the state it leaves, done or raised. -/
def Res.Yields (F : ModelFault → Prop) (P : State → Prop) : Res → Prop
  | .ok s => P s
  | .raised f s => F f ∧ P s
  | .stuck _ => True

theorem Res.Yields.bind {F : ModelFault → Prop} {P Q : State → Prop} {r : Res} {k : State → Res} (h : r.Yields F P)
    (hk : ∀ s, P s → (k s).Yields F Q) (hpq : ∀ s, P s → Q s) : (r.bind k).Yields F Q := by
  cases r with
  | ok s => exact hk s h
  | raised f s => exact ⟨h.1, hpq s h.2⟩
  | stuck r => trivial

theorem Res.Yields.mono {F G : ModelFault → Prop} {P Q : State → Prop} {r : Res} (h : r.Yields F P)
    (hf : ∀ f, F f → G f) (hpq : ∀ s, P s → Q s) : r.Yields G Q := by
  cases r with
  | ok s => exact hpq s h
  | raised f s => exact ⟨hf f h.1, hpq s h.2⟩
  | stuck r => trivial

/-- A token run only where its class holds (entry 21). -/
theorem Res.Yields.guarded {F : ModelFault → Prop} {P : State → Prop} {r : Res} (h : r.Yields F P) (g : Prop)
    [Decidable g] (x : Fault) : (if g then r else .stuck x).Yields F P := by
  split
  · exact h
  · trivial

/-- The state a step goes on in: the one left, or with the fault taken as GIFD takes it (R312). -/
theorem Res.Yields.settled {F : ModelFault → Prop} {P : State → Prop} {r : Res} {t : State} (h : r.Yields F P)
    (hraise : ∀ f s, P s → P (gifRaise f s)) (ht : r.settle = .next t) : P t := by
  cases r with
  | ok s => cases ht; exact h
  | raised f s => cases ht; exact hraise f s h.2
  | stuck r => cases ht

/-- The faults of a code stream (R210): a code without expansion, an index without palette entry. -/
def CodeFault (f : ModelFault) : Prop := (∃ c, f = .badCode c) ∨ ∃ p, f = .palette p

/-! ## Drawing and expanding -/

/-- The code registers and the dictionary stay. -/
structure CodesKept (s t : State) : Prop where
  lzw : t.lzw = s.lzw
  dict : t.dict = s.dict

theorem CodesKept.refl (s : State) : CodesKept s s := ⟨rfl, rfl⟩

theorem CodesKept.trans {s t u : State} (h1 : CodesKept s t) (h2 : CodesKept t u) : CodesKept s u :=
  ⟨h2.lzw.trans h1.lzw, h2.dict.trans h1.dict⟩

theorem Res.Yields.kept_bind {s : State} {r : Res} {k : State → Res} (h : r.Yields CodeFault (CodesKept s))
    (hk : ∀ t, (k t).Yields CodeFault (CodesKept t)) : (r.bind k).Yields CodeFault (CodesKept s) :=
  h.bind (fun t ht => (hk t).mono (fun _ => id) fun _ => ht.trans) fun _ => id

theorem drawPixel_codes (p : Nat) (s : State) : (drawPixel p s).Yields CodeFault (CodesKept s) := by
  unfold drawPixel storeColor
  split
  · exact ⟨.inr ⟨p, rfl⟩, .refl s⟩
  · split
    · trivial
    · rw [storePixel_eq]
      split
      · next h =>
        split at h
        · cases h; exact ⟨rfl, rfl⟩
        · cases h
      · trivial

theorem emitPixel_codes (p : Nat) (s : State) : (emitPixel p s).Yields CodeFault (CodesKept s) := by
  unfold emitPixel
  split
  · exact ⟨rfl, rfl⟩
  · exact (drawPixel_codes p s).kept_bind fun t => ⟨rfl, rfl⟩

theorem emitStack_codes (n : Nat) (s : State) : (emitStack n s).Yields CodeFault (CodesKept s) := by
  induction n generalizing s with
  | zero => exact ⟨rfl, rfl⟩
  | succ n ih =>
    have hpop : CodesKept s { s with stkN := n } := ⟨rfl, rfl⟩
    unfold emitStack
    split
    · split
      · trivial
      · exact ((emitPixel_codes _ _).kept_bind ih).mono (fun _ => id) fun _ => hpop.trans
    · exact (ih _).mono (fun _ => id) fun _ => hpop.trans

theorem pushStk_codes (v : Nat) (s : State) : (pushStk v s).Yields CodeFault (CodesKept s) := by
  have hpush : CodesKept s { s with stk := memWrite s.stk s.stkN v, stkN := s.stkN + 1 } := ⟨rfl, rfl⟩
  exact Res.Yields.guarded (r := .ok _) hpush _ _

theorem expandOnto_codes (fuel c : Nat) (s : State) : (expandOnto fuel c s).Yields CodeFault (CodesKept s) := by
  induction fuel generalizing c s with
  | zero => trivial
  | succ fuel ih =>
    unfold expandOnto
    split
    · exact pushStk_codes c s
    · split
      · trivial
      · exact (pushStk_codes _ s).kept_bind (ih _)

theorem expand_codes (c : Nat) (s : State) : (expand c s).Yields CodeFault (CodesKept s) :=
  (expandOnto_codes _ c _).mono (fun _ => id) fun _ ht => ⟨ht.lzw, ht.dict⟩

/-! ## The code tokens -/

/-- The next code and the width do not shrink (R237). -/
structure CodesGrow (s t : State) : Prop where
  codeSize : s.lzw.codeSize ≤ t.lzw.codeSize
  nextCode : s.lzw.nextCode ≤ t.lzw.nextCode

theorem CodesGrow.of_eq {s t : State} (h : t.lzw = s.lzw) : CodesGrow s t := ⟨by rw [h], by rw [h]⟩

theorem CodesGrow.of_kept {s t u : State} (hk : CodesKept s t) (h : CodesGrow t u) : CodesGrow s u :=
  ⟨hk.lzw ▸ h.codeSize, hk.lzw ▸ h.nextCode⟩

theorem CodesGrow.of_added {s t : State} {p f : Nat} (h : EntryAdded s p f t) : CodesGrow s t := by
  obtain ⟨-, hnext, hsize⟩ := h
  exact ⟨by rw [hsize]; split <;> omega, by rw [hnext]; split <;> omega⟩

/-- The end of a turn of R217 adds its entry and no other, whether the expansion is drawn or faults. -/
theorem finishCode_added (p f c : Nat) (s : State) :
    (finishCode p f c s).Yields CodeFault fun t => EntryAdded s p f t ∧ t.lzw.clear = s.lzw.clear := by
  have hkept : ∀ t, CodesKept (addEntry p f s) t → EntryAdded s p f t ∧ t.lzw.clear = s.lzw.clear := fun t ht => by
    obtain ⟨hentry, hnext, hsize⟩ := addEntry_added p f s
    have hclear : (addEntry p f s).lzw.clear = s.lzw.clear := by rw [addEntry_frame p f s]
    rw [← ht.lzw] at hnext hsize hclear
    rw [← ht.dict] at hentry
    exact ⟨⟨hentry, hnext, hsize⟩, hclear⟩
  unfold finishCode
  refine (emitStack_codes _ (addEntry p f s)).bind (fun t ht => ?_) hkept
  obtain ⟨⟨hentry, hnext, hsize⟩, hclear⟩ := hkept t ht
  exact ⟨⟨hentry, hnext, hsize⟩, hclear⟩

/-- An expansion, then the end of the turn. -/
theorem expanded_grow {s : State} {r : Res} (h : r.Yields CodeFault (CodesKept s)) (p f c : Nat) :
    (r.bind (finishCode p f c)).Yields CodeFault (CodesGrow s) :=
  h.bind (fun t ht => (finishCode_added p f c t).mono (fun _ => id) fun _ hu => .of_kept ht (.of_added hu.1))
    fun _ ht => .of_eq ht.lzw

theorem knownCode_grow (c : Nat) (s : State) : (knownCode c s).Yields CodeFault (CodesGrow s) := by
  unfold knownCode
  split
  · trivial
  · split
    · trivial
    · exact expanded_grow (expand_codes c s) _ _ _

theorem codeKwkwk_grow (s : State) : (codeKwkwk s).Yields CodeFault (CodesGrow s) := by
  have hpush : ∀ f, (pushStk f { s with stkN := 0 }).Yields CodeFault (CodesKept s) := fun f =>
    (pushStk_codes f _).mono (fun _ => id) fun _ ht => ⟨ht.lzw, ht.dict⟩
  unfold codeKwkwk
  split
  · trivial
  · refine Res.Yields.guarded ?_ _ _
    split
    · trivial
    · exact expanded_grow ((hpush _).kept_bind fun t => expandOnto_codes _ _ t) _ _ _

theorem codeFirst_grow (c : Nat) (s : State) : (codeFirst c s).Yields CodeFault (CodesGrow s) := by
  have hdrawn : ((emitPixel c s).bind fun t => .ok (setPrev c t)).Yields CodeFault (CodesGrow s) :=
    (emitPixel_codes c s).bind (fun t ht => ⟨ht.lzw ▸ le_rfl, ht.lzw ▸ le_rfl⟩) fun _ ht => .of_eq ht.lzw
  exact hdrawn.guarded _ _

/-- No code token but a clear code lets the width or the next code shrink (R218, R226); none raises another fault than those
of R222, R225 and R232. -/
theorem lzwToken_grow {i : Instr} (hi : i ≠ .lzwClear) (s : State) : (lzwToken i s).Yields CodeFault (CodesGrow s) := by
  unfold lzwToken
  split
  · exact absurd rfl hi
  · exact .of_eq (by rw [endImage_frame s])
  · exact codeFirst_grow _ s
  · exact (knownCode_grow _ s).guarded _ _
  · exact (knownCode_grow _ s).guarded _ _
  · exact codeKwkwk_grow s
  · next c => exact Res.Yields.guarded (r := .raised _ s) ⟨.inl ⟨c, rfl⟩, .of_eq rfl⟩ _ _
  · trivial

theorem lzwToken_faults (i : Instr) (s : State) : (lzwToken i s).Yields CodeFault fun _ => True := by
  by_cases hi : i = .lzwClear
  · subst hi; trivial
  · exact (lzwToken_grow hi s).mono (fun _ => id) fun _ _ => trivial

theorem lzwRun_faults (fuel : Nat) (s : State) : (lzwRun fuel s).Yields CodeFault fun _ => True := by
  induction fuel generalizing s with
  | zero => trivial
  | succ fuel ih =>
    unfold lzwRun
    split
    · split
      · trivial
      · exact (lzwToken_faults _ _).bind (fun t _ => ih t) fun _ _ => trivial
    · trivial

/-- The three faults of LZW.IMAGE (R210). -/
theorem lzwImage_faults (s : State) :
    (lzwImage s).Yields (fun f => f = .lzwParam s.lzw.mcs ∨ CodeFault f) fun _ => True := by
  unfold lzwImage
  split
  · exact (lzwRun_faults _ _).mono (fun _ => .inr) fun _ => id
  · exact ⟨.inl rfl, trivial⟩

end Sys2Proof.Machine
end

section
/-! PROOFS. O28, O29, O30: the code tokens that draw nothing (43_lzw.md R218, R219, R222, R225, R234). -/

namespace Sys2Proof.Machine

/-! ## The class of a code value, from its registers (R111) -/

/-- A literal after another code. -/
theorem decodeCode_eq_lzwLit {x : CodeCtx} {c p : Nat} (hp : x.prev = some p) (hend : x.endCode = x.clear + 1)
    (hc : c < x.clear) : decodeCode x c = .lzwLit c := by
  unfold decodeCode
  rw [if_neg (by omega), if_neg (by omega), hp]
  exact if_pos hc

/-- A defined entry. -/
theorem decodeCode_eq_lzwDict {x : CodeCtx} {c p : Nat} (hp : x.prev = some p) (hend : x.endCode = x.clear + 1)
    (hc : x.endCode < c) (hn : c < x.nextCode) : decodeCode x c = .lzwDict c := by
  unfold decodeCode
  rw [if_neg (by omega), if_neg (by omega), hp]
  dsimp only
  rw [if_neg (by omega), if_pos ⟨hc, hn⟩]

/-- The code about to be defined. -/
theorem decodeCode_eq_lzwKwkwk {x : CodeCtx} {p : Nat} (hp : x.prev = some p) (hend : x.endCode = x.clear + 1)
    (hc : x.endCode < x.nextCode) (hn : x.nextCode < Config.dictSize) :
    decodeCode x x.nextCode = .lzwKwkwk := by
  unfold decodeCode
  rw [if_neg (by omega), if_neg (by omega), hp]
  dsimp only
  rw [if_neg (by omega), if_neg (by omega), if_pos ⟨rfl, hn⟩]

/-- A code above `end` right after a reset. -/
theorem decodeCode_eq_lzwBadCode_first {x : CodeCtx} {c : Nat} (hp : x.prev = none) (hend : x.endCode = x.clear + 1)
    (hc : x.endCode < c) : decodeCode x c = .lzwBadCode c := by
  unfold decodeCode
  rw [if_neg (by omega), if_neg (by omega), hp]
  exact if_neg (by omega)

/-- A code beyond the one about to be defined, or that one with the dictionary full. -/
theorem decodeCode_eq_lzwBadCode_next {x : CodeCtx} {c p : Nat} (hp : x.prev = some p) (hend : x.endCode = x.clear + 1)
    (hc : x.endCode < c) (hn : x.nextCode ≤ c) (hfull : c = x.nextCode → Config.dictSize ≤ x.nextCode) :
    decodeCode x c = .lzwBadCode c := by
  unfold decodeCode
  rw [if_neg (by omega), if_neg (by omega), hp]
  dsimp only
  rw [if_neg (by omega), if_neg (by omega), if_neg fun h => absurd (hfull h.1) (Nat.not_le.2 h.2)]

/-- Settles O30: the code is of the last class, whose token raises the fault and does nothing else. -/
theorem badCodeFaults : Obligations.BadCodeFaults := by
  intro c s hend h
  have hclass : decodeCode (codeCtx s) c = .lzwBadCode c := by
    rcases h with ⟨hp, hc⟩ | ⟨⟨p, hp⟩, hc, hn | ⟨hn, hfull⟩⟩
    · exact decodeCode_eq_lzwBadCode_first hp hend hc
    · exact decodeCode_eq_lzwBadCode_next hp hend hc hn.le fun he => absurd hn (by rw [he]; exact lt_irrefl _)
    · exact decodeCode_eq_lzwBadCode_next hp hend hc hn.ge fun _ => hfull.ge
  have hcode : codeBad c s = .raised (.badCode c) s := if_pos hclass
  exact congrArg Res.settle hcode

/-! ## The clear code -/

/-- The code tokens other than the clear code keep the width or let it grow. -/
theorem lzwToken_settle_codeSize_le {i : Instr} {s u : State} (hi : i ≠ .lzwClear)
    (hx : (lzwToken i s).settle = .next u) : s.lzw.codeSize ≤ u.lzw.codeSize :=
  ((lzwToken_grow hi s).settled (fun _ _ h => ⟨h.codeSize, h.nextCode⟩) hx).codeSize

/-- Settles O28: a clear code by its definition, the others by what every code token keeps. -/
theorem clearCodeResets : Obligations.ClearCodeResets := by
  intro s
  refine ⟨_, rfl, rfl, rfl, fun i c u hi hx => ?_⟩
  have hne : i ≠ .lzwClear := by rintro rfl; simp at hi
  refine lzwToken_settle_codeSize_le hne ?_
  rw [← hx]
  simp only [List.mem_cons, List.not_mem_nil, or_false] at hi
  rcases hi with rfl | rfl | rfl | rfl | rfl | rfl <;> rfl

/-! ## The end code -/

/-- A read that SRC can satisfy moves the cursor past it (R10). -/
theorem streamRead_whole {n : Nat} {s : State} (h : s.sp + n ≤ s.src.length) :
    ∃ bytes, streamRead n s = (some bytes, { s with sp := s.sp + n }) := by
  unfold streamRead
  by_cases hn : n = 0
  · subst hn; exact ⟨[], rfl⟩
  · exact ⟨_, by rw [if_neg hn, if_pos h]⟩

/-- A read that SRC cannot satisfy leaves the cursor at its end (R10). -/
theorem streamRead_short {n : Nat} {s : State} (hsp : s.sp ≤ s.src.length) (h : s.src.length < s.sp + n) :
    streamRead n s = (none, { s with sp := s.src.length }) := by
  unfold streamRead
  rw [if_neg (by omega), if_neg (by omega)]

/-- The chain's end was consumed: nothing is left to drain (R234). -/
theorem drainImage_consumed {s : State} (h : s.bits.termSeen = true ∨ s.bits.eosSeen = true) : drainImage s = s :=
  if_pos (by rcases h with h | h <;> simp [h])

/-- SRC ends in the current sub-block (R234). -/
theorem drainImage_short {s : State} (hterm : s.bits.termSeen = false) (heos : s.bits.eosSeen = false)
    (hsp : s.sp ≤ s.src.length) (h : s.src.length < s.sp + s.bits.blkRem.toNat) :
    drainImage s = { s with sp := s.src.length } := by
  simp only [drainImage, hterm, heos, streamRead_short hsp h, Bool.or_self, Bool.false_eq_true, if_false]

/-- The rest of the current sub-block, then the chain (R234). -/
theorem drainImage_whole {s : State} {n : Nat} (hterm : s.bits.termSeen = false) (heos : s.bits.eosSeen = false)
    (h : s.sp + s.bits.blkRem.toNat ≤ s.src.length) (hd : Drains (s.src.drop (s.sp + s.bits.blkRem.toNat)) n) :
    drainImage s = { s with sp := s.sp + s.bits.blkRem.toNat + n } := by
  obtain ⟨bytes, hread⟩ := streamRead_whole h
  simp only [drainImage, hterm, heos, hread, Bool.or_self, Bool.false_eq_true, if_false]
  exact drainSubBlocks_eq (s := { s with sp := s.sp + s.bits.blkRem.toNat }) hd h

/-- Settles O29: the three ways the drain of R234 goes. -/
theorem endCodeDrains : Obligations.EndCodeDrains := by
  intro s hsp
  have hend : ∀ t, drainImage s = t → exec .lzwEnd s = .next { t with ctl := none } := by
    rintro t rfl
    rfl
  exact ⟨fun h => hend s (drainImage_consumed h), fun hterm heos =>
    ⟨fun hshort => hend _ (drainImage_short hterm heos hsp hshort),
      fun n hle hd => hend _ (drainImage_whole hterm heos hle hd)⟩⟩

end Sys2Proof.Machine
end

section
/-! PROOFS. O34, O35: the decoding of an image always ends, in a valid dictionary (43_lzw.md R210, R213, R237). -/

namespace Sys2Proof.Machine

/-- LZW.IMAGE is performed with GIFD idle or with a stream open (R313). -/
theorem gifStopped_eq_false {s : State} (h : s.gif.state = .idle ∨ s.gif.state = .ready) : gifStopped s = false := by
  unfold gifStopped
  rcases h with h | h <;> rw [h]

/-- Settles O34: every result of `lzwImage` is one the spec names, with its frame and the fault it may raise. -/
theorem lzwImageAlwaysEnds : Obligations.LzwImageAlwaysEnds := by
  intro s hlive hr hc
  have hexec : exec .lzwImage s = (lzwImage s).settle := if_neg (by simp [gifStopped_eq_false hlive])
  rw [hexec]
  have hfine := (lzwImage_fine hr hc).and_all (lzwImage_frame s)
  have hfault := lzwImage_faults s
  cases h : lzwImage s with
  | ok t =>
    rw [h] at hfine
    obtain ⟨⟨hctl, hdst⟩, hframe, -, hcur, -⟩ := hfine
    refine ⟨t, rfl, hctl, hcur hc, ?_, .inl hframe.kept.gif, hdst⟩
    conv_lhs => rw [hframe, hctl]
    rw [hframe.kept.gif]
  | raised f t =>
    rw [h] at hfine hfault
    obtain ⟨hdst, hframe, -, hcur, -⟩ := hfine
    refine ⟨gifRaise f t, rfl, rfl, hcur hc, ?_, .inr ⟨f, ?_, hfault.1⟩, hdst⟩
    · conv_lhs => rw [hframe]
      simp only [gifRaise, hframe.kept.gif]
    · simp [hframe.kept.gif]
  | stuck r => rw [h] at hfine; exact hfine.elim

/-! ## The dictionary -/

/-- A code value's token runs as the code stream's tokens do. -/
theorem exec_decodeCode (x : CodeCtx) (c : Nat) (s : State) :
    exec (decodeCode x c) s = (lzwToken (decodeCode x c) s).settle := by
  unfold decodeCode
  repeat' split
  all_goals rfl

/-- A decoding that is started begins with the set-up of R212. -/
theorem lzwStart_admitted {s : State} (hlive : s.gif.state = .idle ∨ s.gif.state = .ready) (h2 : 2 ≤ s.lzw.mcs.toNat)
    (h11 : s.lzw.mcs.toNat ≤ 11) : lzwStart s = lzwSetup s ∧ LzwOk (lzwSetup s) := by
  have hadm : mcsAdmitted s.lzw.mcs = true := decide_eq_true ⟨h2, h11⟩
  refine ⟨?_, setup_ok hadm⟩
  unfold lzwStart
  rw [gifStopped_eq_false hlive, if_neg Bool.false_ne_true, if_pos hadm]

/-- Starting LZW.IMAGE between operations. -/
theorem step_start_lzwImage {s : State} {rest : List Input} (hi : s.inbox = .start .lzwImage :: rest)
    (hctl : s.ctl = none) (hbusy : s.sched.frameBusy = false) :
    step s = .next (lzwStart { s with inbox := rest }) := by
  rw [step_cons hi]
  simp [take, isCommand, busy, hctl, hbusy, startOp]

/-- Settles O35: the set-up of R212, then every class of code. -/
theorem dictionaryStaysValid : Obligations.DictionaryStaysValid := by
  refine ⟨fun s rest hi hctl hbusy hlive h2 h11 => ?_, fun s c hok hr hc hk => ?_⟩
  · obtain ⟨hstart, hok⟩ := lzwStart_admitted (s := { s with inbox := rest }) hlive h2 h11
    exact ⟨_, (step_start_lzwImage hi hctl hbusy).trans (congrArg _ hstart), rfl, hok⟩
  · dsimp only
    rw [exec_decodeCode]
    generalize hi : decodeCode (codeCtx s) c = i
    have hfine := (hi ▸ lzwToken_fine hok hr hc hk c).and_all (lzwToken_keeps i s)
    have hgrow := fun hne : i ≠ .lzwClear => lzwToken_grow hne s
    cases h : lzwToken i s with
    | ok t =>
      rw [h] at hfine hgrow
      obtain ⟨hcode, hkeeps⟩ := hfine
      exact ⟨t, rfl, .inr ⟨hkeeps.frame.kept.gif, hcode.ok, fun hne => ⟨(hgrow hne).codeSize, (hgrow hne).nextCode⟩⟩⟩
    | raised f t =>
      rw [h] at hfine
      obtain ⟨-, hkeeps⟩ := hfine
      exact ⟨gifRaise f t, rfl, .inl ⟨f, by rw [← hkeeps.frame.kept.gif]; rfl⟩⟩
    | stuck r => rw [h] at hfine; exact hfine.elim

end Sys2Proof.Machine
end

section
/-! PROOFS. O26, O27: a code with an expansion draws it, adds its entry and becomes `prev`, or faults inside it (43_lzw.md R223
to R236). -/

namespace Sys2Proof.Machine

/-! ## The end of a turn, with the expansion on the stack -/

/-- The state with the indices `xs` on the stack, the first on top (R228). -/
def stacked (xs : List Nat) (s : State) : State :=
  { s with stk := pushAll s.stk 0 xs.reverse, stkN := xs.length }

theorem memRead_stacked (xs : List Nat) (s : State) {j : Nat} (hj : j < xs.length) :
    memRead (stacked xs s).stk j = xs.reverse[j]? := by
  have h := memRead_pushAll xs.reverse s.stk 0 (j := j) (by simpa using hj)
  rwa [Nat.zero_add] at h

/-- The state from which the expansion is drawn (R217, R230): on the stack, with the dictionary and the code registers that
adding an entry leaves. -/
def entered (xs : List Nat) (dict : Mem DictEntry) (next size : Nat) (s : State) : State :=
  { stacked xs s with dict := dict, lzw := { s.lzw with nextCode := next, codeSize := size } }

theorem addEntry_stacked (p f : Nat) (xs : List Nat) (s : State) : ∃ dict next size,
    addEntry p f (stacked xs s) = entered xs dict next size s ∧ EntryAdded s p f (entered xs dict next size s) := by
  obtain ⟨hentry, hnext, hsize⟩ := addEntry_added p f (stacked xs s)
  exact ⟨_, _, _, addEntry_frame p f (stacked xs s), hentry, hnext, hsize⟩

/-- The outcome of a code token whose expansion is on the stack (R226, R230, R232, R235, R236). -/
theorem finishCode_outcome {i : Instr} {s : State} {p f c : Nat} {xs : List Nat} (hpix : s.img.pixN ≤ s.img.npix)
    (hroom : ∀ k < s.img.npix, imgAddr s.gif s.img k + 1 < s.dstLen)
    (hx : exec i s = (finishCode p f c (stacked xs s)).settle) : CodeOutcome i s p f c xs := by
  obtain ⟨dict, next, size, hadd, hentry, hnext, hsize⟩ := addEntry_stacked p f xs s
  have hfinish : finishCode p f c (stacked xs s) =
      (emitStack xs.length (entered xs dict next size s)).bind fun t => .ok (setPrev c t) := by
    rw [finishCode, hadd]
    rfl
  have hdrawn : drawnAll (entered xs dict next size s) = drawnAll s := drawnAll_congr rfl rfl
  have hstk : ∀ j < xs.length, memRead (entered xs dict next size s).stk j = xs.reverse[j]? :=
    fun j => memRead_stacked xs s
  rw [hfinish] at hx
  refine ⟨fun hd => ?_, fun pre x post hv hd ht => ?_⟩
  · rw [emitStack_eq xs (s := entered xs dict next size s) hroom hstk hd, bind_ok, hdrawn] at hx
    refine ⟨_, hx, rfl, rfl, ?_, hentry, hnext, hsize⟩
    show pixAfter s.img xs.length = _
    unfold pixAfter
    omega
  · obtain ⟨hfault, hstuck⟩ := emitStack_undrawable xs (s := entered xs dict next size s) hroom hstk hv hd ht
    refine ⟨fun hlen => ?_, fun hlt hm => ?_⟩
    · rw [hfault hlen, bind_raised, hdrawn] at hx
      exact ⟨_, hx, rfl, hentry, hnext, hsize⟩
    · rw [hstuck hlt hm] at hx
      exact hx

/-! ## A code already defined -/

/-- The first index of an expansion is what First finds (R229). -/
theorem firstIndex_eq {s : State} {c f : Nat} {xs : List Nat} (hx : Expands s.lzw.clear s.dict c xs)
    (hf : xs.head? = some f) (hlen : xs.length ≤ Config.dictSize) : firstIndex c s = .ok f := by
  obtain ⟨g, hg, -, hhead⟩ := chainHead_eq hx rfl rfl (fuel := Config.dictSize + 1) (by omega)
  cases hf.symm.trans hg
  exact hhead

/-- A defined code puts its expansion on the stack (R223, R228). -/
theorem knownCode_eq {s : State} {c p f : Nat} {xs : List Nat} (hp : s.lzw.prev = some p)
    (hx : Expands s.lzw.clear s.dict c xs) (hf : xs.head? = some f) (hlen : xs.length ≤ Config.dictSize) :
    knownCode c s = finishCode p f c (stacked xs s) := by
  have hexpand : expand c s = .ok (stacked xs s) := by
    refine (expandOnto_eq hx (s := { s with stkN := 0 }) rfl rfl (by omega)
      (by show 0 + _ ≤ _; omega)).trans ?_
    rw [Nat.zero_add]
    rfl
  unfold knownCode
  rw [hp]
  dsimp only
  rw [firstIndex_eq hx hf hlen, hexpand]
  rfl

/-- A literal stands for itself (R223). -/
theorem Expands.eq_singleton {clear : Nat} {dict : Mem DictEntry} {c : Nat} {xs : List Nat}
    (h : Expands clear dict c xs) (hc : c < clear) : xs = [c] := by
  cases h with
  | lit => rfl
  | entry hge => omega

/-- Settles O26: literals and entries put their expansion on the stack in one way. -/
theorem definedCodeExpands : Obligations.DefinedCodeExpands := by
  intro c p f xs s hp hx hf hlen hpix hroom hend
  have hknown := knownCode_eq hp hx hf hlen
  refine ⟨fun hc => ⟨hx.eq_singleton hc, finishCode_outcome hpix hroom ?_⟩,
    fun hc hn => finishCode_outcome hpix hroom ?_⟩
  · have hcode : codeLit c s = knownCode c s := if_pos (decodeCode_eq_lzwLit (x := codeCtx s) hp hend hc)
    rw [← hknown, ← hcode]
    rfl
  · have hcode : codeDict c s = knownCode c s := if_pos (decodeCode_eq_lzwDict (x := codeCtx s) hp hend hc hn)
    rw [← hknown, ← hcode]
    rfl

/-! ## The code about to be defined -/

/-- The first index goes to the bottom of the stack, the previous expansion on top of it (R224). -/
theorem codeKwkwk_eq {s : State} {p f : Nat} {xs : List Nat} (hp : s.lzw.prev = some p)
    (hd : decodeCode (codeCtx s) s.lzw.nextCode = .lzwKwkwk)
    (hx : Expands s.lzw.clear s.dict p xs) (hf : xs.head? = some f) (hlen : xs.length < Config.dictSize) :
    codeKwkwk s = finishCode p f s.lzw.nextCode (stacked (xs ++ [f]) s) := by
  have hpush : pushStk f { s with stkN := 0 } = .ok { s with stk := memWrite s.stk 0 f, stkN := 1 } :=
    if_pos (Nat.zero_lt_of_lt hlen)
  have hexpand : expandOnto (Config.dictSize + 1) p { s with stk := memWrite s.stk 0 f, stkN := 1 } =
      .ok (stacked (xs ++ [f]) s) := by
    refine (expandOnto_eq hx (s := { s with stk := memWrite s.stk 0 f, stkN := 1 }) rfl rfl (by omega)
      (by show 1 + _ ≤ _; omega)).trans ?_
    simp [stacked, pushAll, Nat.add_comm]
  unfold codeKwkwk
  rw [hp]
  dsimp only
  rw [if_pos hd, firstIndex_eq hx hf hlen.le]
  dsimp only
  rw [hpush, bind_ok, hexpand, bind_ok]

/-- A defined code stands for the same indices once the entry at the next code is written (R213, R226). -/
theorem Expands.of_entries_kept {s : State} (hok : LzwOk s) {dict : Mem DictEntry}
    (hd : ∀ k < s.lzw.nextCode, memRead dict k = memRead s.dict k) {c : Nat} {xs : List Nat}
    (h : Expands s.lzw.clear s.dict c xs) (hn : c < s.lzw.nextCode) (hv : c < s.lzw.clear ∨ s.lzw.clear + 2 ≤ c) :
    Expands s.lzw.clear dict c xs := by
  induction h with
  | lit hc => exact .lit hc
  | @entry c e xs hge hm hx ih =>
    obtain ⟨e', hm', -, hlt, hv'⟩ := hok.dict c (hv.resolve_left (Nat.not_lt.2 hge)) hn
    cases hm.symm.trans hm'
    exact .entry hge ((hd c hn).trans hm) (ih (hlt.trans hn) hv')

/-- The entry just added stands for the previous expansion and its first index (R224). -/
theorem expands_newEntry {s t : State} {p f : Nat} {xs : List Nat} (hok : LzwOk s) (hp : s.lzw.prev = some p)
    (hx : Expands s.lzw.clear s.dict p xs) (hroom : s.lzw.nextCode < Config.dictSize) (ht : EntryAdded s p f t) :
    Expands s.lzw.clear t.dict s.lzw.nextCode (xs ++ [f]) := by
  obtain ⟨hpn, hpv⟩ := hok.prev p hp
  have hold : ∀ k < s.lzw.nextCode, memRead t.dict k = memRead s.dict k := fun k hk => by
    rw [ht.entry, if_neg fun h => absurd h.1 hk.ne]
  have hnew : memRead t.dict s.lzw.nextCode = some ⟨p, f⟩ := by rw [ht.entry, if_pos ⟨rfl, hroom⟩]
  exact .entry ((Nat.le_add_right _ 2).trans hok.next.1) hnew (hx.of_entries_kept hok hold hpn hpv)

/-- Settles O27: the expansion of `prev` on the stack above its first index, and the entry the turn adds. -/
theorem undefinedCodeExpands : Obligations.UndefinedCodeExpands := by
  intro p f xs s hp hx hf hlen hpix hroom hend hnext hfull
  have hclass := decodeCode_eq_lzwKwkwk (x := codeCtx s) hp hend (by show s.lzw.endCode < s.lzw.nextCode; omega) hfull
  have hexec : exec .lzwKwkwk s = (finishCode p f s.lzw.nextCode (stacked (xs ++ [f]) s)).settle :=
    congrArg Res.settle (codeKwkwk_eq hp hclass hx hf hlen)
  refine ⟨finishCode_outcome hpix hroom hexec, fun t hok ht => ?_⟩
  obtain ⟨⟨hentry, hsucc, hsize⟩, hclear⟩ := (finishCode_added p f s.lzw.nextCode (stacked (xs ++ [f]) s)).settled
    (fun _ _ h => ⟨⟨h.1.entry, h.1.nextCode, h.1.codeSize⟩, h.2⟩) (hexec.symm.trans ht)
  rw [hclear]
  exact expands_newEntry (s := s) hok hp hx hfull ⟨hentry, hsucc, hsize⟩

end Sys2Proof.Machine
end

section
/-! PROOFS. O44, O45: the correction of the interval at a pass end, and where it settles (44_scheduler.md R265, R278). -/

namespace Sys2Proof.Machine

/-- The corrected interval as an integer: the interval moved by the floor of the error a frame, at least 1 (R265). -/
theorem corrected_cast (target observed : Int) (frames v : Nat) :
    (corrected target observed frames v : Int) = max 1 ((v : Int) + (target - observed) / (frames : Int)) :=
  Int.toNat_of_nonneg (le_max_of_le_left Int.one_nonneg)

/-- A negative error smaller than the frame count rounds down to -1 (decision D34). -/
theorem ediv_eq_neg_one {d : Int} {frames : Nat} (hneg : d < 0) (hsmall : -(frames : Int) < d) :
    d / (frames : Int) = -1 := by
  rw [Int.ediv_eq_iff_of_pos (by omega)]
  omega

/-- Settles O44: the floor of the error a frame in each case. -/
theorem intervalCorrection : Obligations.IntervalCorrection := by
  refine ⟨fun target observed frames v hframes hv => ?_, by decide⟩
  have hcast := corrected_cast target observed frames v
  refine ⟨fun heq => ?_, fun hle => ?_, fun hpos hlt => ?_, fun hneg hlt => ?_, corrected_pos _ _ _ _⟩
  · rw [heq, sub_self, Int.zero_ediv] at hcast
    rw [heq]
    omega
  · omega
  · rw [Int.ediv_eq_zero_of_lt hpos.le hlt] at hcast
    omega
  · rw [ediv_eq_neg_one hneg hlt] at hcast
    omega

/-- With a constant overhead a pass the correction does not depend on the interval it starts from (R278). -/
theorem corrected_overhead (target c : Int) {frames : Nat} (v : Nat) (hframes : 1 ≤ frames) :
    (corrected target ((frames : Int) * v + c) frames v : Int) = max 1 ((target - c) / (frames : Int)) := by
  have herr : target - ((frames : Int) * v + c) = (target - c) + (frames : Int) * -v := by ring
  rw [corrected_cast, herr, Int.add_mul_ediv_left _ _ (by omega)]
  congr 1
  ring

/-- Settles O45: one correction reaches the quotient whatever the interval was, and so the next one stays there. -/
theorem intervalConverges : Obligations.IntervalConverges := by
  intro target c frames v hframes hv v'
  have hv' : (v' : Int) = max 1 ((target - c) / (frames : Int)) := corrected_overhead target c v hframes
  refine ⟨hv', fun hq => ?_, Int.ofNat_inj.1 ((corrected_overhead target c v' hframes).trans hv'.symm)⟩
  have hrem : target - ((frames : Int) * v' + c) = (target - c) % (frames : Int) := by
    rw [hv', max_eq_right hq, Int.emod_def]
    ring
  rw [hrem]
  exact ⟨Int.emod_nonneg _ (by omega), Int.emod_lt_of_pos _ (by omega)⟩

end Sys2Proof.Machine
end

section
/-! PROOFS. O37, O38, O39, O46: a pass loaded, the tick, the folder switch and the poll (44_scheduler.md R252 to R259, R270 to
R277). -/

namespace Sys2Proof.Machine

/-! ## SCH.LOAD -/

/-- The frame count of R252, written before it is tested. -/
def framesCounted (s : State) : State :=
  { s with sched := { s.sched with frameCount := (dirFrames s s.sched.folderIdx).length } }

/-- With frames in the folder SCH.LOAD goes on with the geometry (R252, R254). -/
theorem execSchLoad_frames {s : State} (hs : s.sched.state = .loading) (hf : s.sched.fault = none)
    (hn : 1 ≤ (dirFrames s s.sched.folderIdx).length) : execSchLoad s = loadGeometry (framesCounted s) :=
  (if_pos (schedIn_eq_true hs hf)).trans (if_neg (Nat.one_le_iff_ne_zero.1 hn))

/-- An empty folder is a fault (R252). -/
theorem execSchLoad_empty {s : State} (hs : s.sched.state = .loading) (hf : s.sched.fault = none)
    (hn : (dirFrames s s.sched.folderIdx).length = 0) :
    execSchLoad s = .next (schedRaise (.emptyFolder s.sched.folderIdx)
      { s with sched := { s.sched with frameCount := 0 } }) := by
  refine (if_pos (schedIn_eq_true hs hf)).trans ((if_pos hn).trans ?_)
  rw [hn]

/-- The scale factors of R254, written before they are tested. -/
def scalesWritten (s : State) : State :=
  { s with sched := { s.sched with scaleX := s.cfg.surfW / s.cfg.frameW, scaleY := s.cfg.surfH / s.cfg.frameH } }

/-- A frame larger than the surface has a scale factor of 0 (R254). -/
theorem loadGeometry_scaleZero {s : State} (hw : 1 ≤ s.cfg.frameW) (hh : 1 ≤ s.cfg.frameH)
    (hlarge : s.cfg.surfW < s.cfg.frameW ∨ s.cfg.surfH < s.cfg.frameH) :
    loadGeometry s = .next (schedRaise .scaleZero (scalesWritten s)) :=
  (if_neg (by omega)).trans (if_pos (hlarge.imp Nat.div_eq_of_lt Nat.div_eq_of_lt))

/-- For a frame no larger than the surface the rows left over decide (R254). -/
theorem loadGeometry_fits {s : State} (hw : 1 ≤ s.cfg.frameW) (hh : 1 ≤ s.cfg.frameH)
    (hfw : s.cfg.frameW ≤ s.cfg.surfW) (hfh : s.cfg.frameH ≤ s.cfg.surfH) :
    loadGeometry s =
      if s.cfg.surfH < s.cfg.offY + s.cfg.frameH * (s.cfg.surfH / s.cfg.frameH) then
        .next (schedRaise .extraNegative (scalesWritten s))
      else .next (loadPacing { scalesWritten s with sched := { (scalesWritten s).sched with
        extraRows := s.cfg.surfH - s.cfg.offY - s.cfg.frameH * (s.cfg.surfH / s.cfg.frameH) } }) :=
  (if_neg (by omega)).trans (if_neg (not_or.2 ⟨(Nat.div_pos hfw hw).ne', (Nat.div_pos hfh hh).ne'⟩))

/-- Settles O37: the tests of R252 and R254 passed in turn, then the pacing of R255. -/
theorem loadStartsPass : Obligations.LoadStartsPass := by
  intro s hs hf n sx sy v hn hw hfw hh hfh hrows
  exact (execSchLoad_frames hs hf hn).trans
    ((loadGeometry_fits (s := framesCounted s) hw hh hfw hfh).trans (if_neg hrows.not_gt))

/-- Settles O38: the tests of R252 and R254 in the order of R310. -/
theorem loadFaults : Obligations.LoadFaults := by
  intro s hs hf n sx sy
  refine ⟨fun hn => execSchLoad_empty hs hf hn, fun hn hw hh => ⟨fun hlarge => ?_, fun hfw hfh hrows => ?_⟩⟩
  · exact (execSchLoad_frames hs hf hn).trans (loadGeometry_scaleZero (s := framesCounted s) hw hh hlarge)
  · exact (execSchLoad_frames hs hf hn).trans
      ((loadGeometry_fits (s := framesCounted s) hw hh hfw hfh).trans (if_pos hrows))

/-! ## The tick, the wait branch and the switch -/

/-- Without the flag SCH.STEP takes the wait branch (R259). -/
theorem execSchStep_waits {s : State} (hr : s.sched.frameReady = false) (hb : s.sched.frameBusy = false) :
    execSchStep s = .next s := by
  simp [execSchStep, frameDue, hr, hb]

/-- Settles O39: each event enabled. -/
theorem tickWaitSwitch : Obligations.TickWaitSwitch :=
  ⟨fun _ harmed => if_pos harmed, fun _ _ hr hb => execSchStep_waits hr hb, fun _ hs hf => if_pos (schedIn_eq_true hs hf)⟩

/-! ## The poll -/

/-- The debounce window is the 200 ms after an accepted switch (R271). -/
theorem inWindow_iff {b : BtnRegs} {now : Nat} :
    inWindow b now = true ↔ ∃ t, b.lastSwitch = some t ∧ now < t + 200 := by
  unfold inWindow
  cases b.lastSwitch with
  | none => simp
  | some t => exact decide_eq_true_iff.trans (by simp [Config.debounceMs])

/-- A rising pressed edge: the level is low now, and the button was released (R270, R272). -/
theorem edge_pressed_iff {level last : Bool} : edge (pressed level) last = true ↔ level = false ∧ last = false := by
  simp [edge, pressed]

/-- A poll that is enabled acts on what the ports read (R270). -/
theorem execSchPoll_enabled {s : State} (hs : s.sched.state = .timedPlayback) (hb : s.sched.frameBusy = false)
    (hf : s.sched.fault = none) : execSchPoll s.nowMs s.pins.a s.pins.b s =
      pollAct s.nowMs (pressed s.pins.a) (pressed s.pins.b) s :=
  (if_pos (pollEnabled_eq_true hs hf hb)).trans (if_pos (readsPorts_self s))

/-- A poll outside TIMED_PLAYBACK, during a frame branch, or with SCHED faulted, is not enabled (R270, R312). -/
theorem pollEnabled_eq_false {s : State}
    (h : s.sched.state ≠ .timedPlayback ∨ s.sched.frameBusy = true ∨ s.sched.fault.isSome = true) :
    pollEnabled s = false := by
  rcases h with h | h | h
  · simp [pollEnabled, schedIn, h]
  · simp [pollEnabled, h]
  · simp [pollEnabled, schedIn, Option.isSome_iff_ne_none.1 h]

/-- Settles O46: the tests of R271 to R274 in their order. -/
theorem pollButtons : Obligations.PollButtons := by
  refine ⟨fun now a b s h => if_neg (by simp [pollEnabled_eq_false (h.imp_right .inl)]), ?_⟩
  intro s hs hb hf hn poll levels recorded window edgeA edgeB switched
  have hpoll : poll = pollAct s.nowMs (pressed s.pins.a) (pressed s.pins.b) s := execSchPoll_enabled hs hb hf
  have hfolders : ¬ s.cfg.folderCount = 0 := Nat.one_le_iff_ne_zero.1 hn
  rw [hpoll]
  unfold pollAct
  simp only [inWindow_iff, edge_pressed_iff]
  refine ⟨fun hw => ?_, fun hw hA => ?_, fun hw hA hB => ?_, fun hw hA hB => ?_⟩
  · exact if_pos hw
  · exact (if_neg hw).trans ((if_pos hA).trans (if_neg hfolders))
  · exact (if_neg hw).trans ((if_neg hA).trans ((if_pos hB).trans (if_neg hfolders)))
  · exact (if_neg hw).trans ((if_neg hA).trans (if_neg hB))

end Sys2Proof.Machine
end

section
/-! PROOFS. O42, O43: the frame branch of SCH.STEP, performed at once or gone on with (44_scheduler.md R260 to R265). -/

namespace Sys2Proof.Machine

/-! ## The beginning of a frame branch -/

/-- The checks of the decode that a frame branch calls (R261). -/
def frameCheck (s : State) : Option ModelFault :=
  drleCheck s.cfg.frameW s.cfg.frameH s.cfg.offX s.cfg.offY s.cfg.surfW s.sched.scaleX s.sched.scaleY s.sched.extraRows
    (2 * s.cfg.surfW * s.cfg.surfH)

/-- That decode with its operands loaded (R143, R261). -/
def frameSetup (file : List Byte) (s : State) : State :=
  drleSetup file s.cfg.frameW s.cfg.frameH s.cfg.offX s.cfg.offY s.cfg.surfW s.sched.scaleX s.sched.scaleY
    s.sched.extraRows (2 * s.cfg.surfW * s.cfg.surfH) s

/-- SCHED's registers while the decode of a frame branch runs (R260). -/
def branchRegs (s : State) : SchedRegs := { s.sched with frameReady := false, frameBusy := true }

/-- A frame branch begun, the file there: the flag cleared, and SCHED faulted or the decode's operands loaded (R260, R261). -/
theorem beginFrame_file {s : State} {file : List Byte} (hdiv : 1 ≤ s.cfg.refreshDiv)
    (hfile : (dirFrames s s.sched.folderIdx)[s.sched.frameIdx]? = some file) :
    beginFrame s = .next ((frameCheck s).elim (frameSetup file { s with sched := branchRegs s })
      fun f => schedRaise f { s with sched := { s.sched with frameReady := false } }) := by
  unfold beginFrame
  rw [if_neg (Nat.one_le_iff_ne_zero.1 hdiv), hfile]
  dsimp only
  split
  · next f hf => rw [show frameCheck s = some f from hf]; rfl
  · next hc => rw [show frameCheck s = none from hc]; rfl

/-- With no frame branch begun there is nothing to go on with. -/
theorem runFrame_idle {s : State} (hb : s.sched.frameBusy = false) : runFrame s = .next s :=
  if_neg (by simp [hb])

/-- Settles O43: the branch stops where it begins. -/
theorem frameDecodeFault : Obligations.FrameDecodeFault := by
  intro s file f hs hf hr hb hdiv hg hfile hc
  calc execSchStep s = andThen (beginFrame s) runFrame := execSchStep_due hs hf hb hr hg
    _ = runFrame (schedRaise f { s with sched := { s.sched with frameReady := false } }) := by
      rw [beginFrame_file hdiv hfile, show frameCheck s = some f from hc, andThen_next, Option.elim_some]
    _ = .next (schedRaise f { s with sched := { s.sched with frameReady := false } }) := runFrame_idle hb

/-! ## The end of a frame branch -/

/-- The count and the presentation throttle of a frame (R262, R263). -/
theorem countFrame_eq (s : State) : countFrame s = { s with
    sched := { s.sched with
      decodedCtr := s.sched.decodedCtr + 1, frameIdx := s.sched.frameIdx + 1, frameBusy := false, pollDue := true }
    out := if (s.sched.decodedCtr + 1) % s.cfg.refreshDiv = 0 then s.out ++ [.present] else s.out } := by
  unfold countFrame presents
  by_cases h : (s.sched.decodedCtr + 1) % s.cfg.refreshDiv = 0
  · simp [h, emit]
  · simp [h]

/-- The end of a frame branch in a pass with an interval (R262 to R265): the next frame, or the pass end. -/
theorem finishFrame_counted {s : State} {v : Nat} (hv : s.sched.interval = some v) :
    ∃ t, finishFrame s = .next t ∧ FrameCounted s v t := by
  have hfinish : finishFrame s = if s.sched.frameIdx + 1 = s.sched.frameCount then passEnd (countFrame s)
      else .next (countFrame s) := by
    unfold finishFrame
    rw [countFrame_eq]
  rw [hfinish]
  split
  · next hlast =>
    have hend : passEnd (countFrame s) = .next (enterLoading { countFrame s with sched := { (countFrame s).sched with
        interval := some (corrected s.cfg.targetLoopMs ((s.nowMs : Int) - s.sched.passStart) s.sched.frameCount v) } }) := by
      unfold passEnd
      rw [countFrame_eq]
      dsimp only
      rw [hv]
    rw [hend, countFrame_eq]
    exact ⟨_, rfl, rfl, fun hne => absurd hlast hne, fun _ => ⟨rfl, rfl⟩⟩
  · next hmore =>
    rw [countFrame_eq]
    exact ⟨_, rfl, rfl, fun _ => ⟨rfl, rfl⟩, fun heq => absurd heq hmore⟩

/-- What a counted frame leaves does not depend on the bit that says its branch is in progress: it is clear afterwards. -/
theorem FrameCounted.of_busy {s t : State} {v : Nat} {busy : Bool}
    (h : FrameCounted { s with sched := { s.sched with frameBusy := busy } } v t) : FrameCounted s v t :=
  ⟨h.frame, h.next, h.passEnd⟩

/-- A frame branch whose decode has ended is finished by the next SCH.STEP. -/
theorem execSchStep_decoded {s : State} (hs : s.sched.state = .timedPlayback) (hf : s.sched.fault = none)
    (hb : s.sched.frameBusy = true) (hc : s.ctl = none) : execSchStep s = finishFrame s := by
  have hrun : drleRun (drleFuel s) s = .next s := drleRun_stopped _ (by simp [hc])
  unfold execSchStep runFrame
  rw [if_pos (schedIn_eq_true hs hf), if_pos hb, if_pos hb, hrun, andThen_next]

/-! ## A decode in a frame branch is the decode called directly -/

/-- A decode's state seen from a frame branch: SCHED's registers are the branch's, and the outcome of a direct call stays
(entry 16). -/
def inBranch (sched : SchedRegs) (ret : Ret) (s : State) : State := { s with sched := sched, ret := ret }

theorem drleStop_inBranch {sched : SchedRegs} (hb : sched.frameBusy = true) (ret : Ret) (s : State) :
    drleStop (inBranch sched ret s) = inBranch sched ret (drleStop s) := by
  simp [drleStop, inBranch, hb]

theorem payloadDone_inBranch {sched : SchedRegs} (hb : sched.frameBusy = true) (ret : Ret) (left : Nat) (s : State) :
    payloadDone left (inBranch sched ret s) = inBranch sched ret (payloadDone left s) :=
  let n := payloadCount left s
  ite_map _ (drleStop_inBranch hb ret (payloadTaken left n s))
    (ite_map _ (drleStop_inBranch hb ret { payloadTaken left n s with sp := s.src.length }) rfl)

theorem recordDone_inBranch {sched : SchedRegs} (hb : sched.frameBusy = true) (ret : Ret) (skip write : Byte)
    (s : State) : recordDone skip write (inBranch sched ret s) = inBranch sched ret (recordDone skip write s) := by
  by_cases h0 : skip = 0 ∧ write = 0
  · have hend : ∀ u, recordDone skip write u =
        drleStop { u with drle := { u.drle with recSkip := skip, recWrite := write } } := fun u => if_pos h0
    rw [hend, hend, ← drleStop_inBranch hb]
    rfl
  · by_cases hskip : s.drle.budget ≤ s.drle.pos + skip.toNat
    · rw [recordDone_skip_to_budget h0 hskip, recordDone_skip_to_budget (s := inBranch sched ret s) h0 hskip,
        ← drleStop_inBranch hb]
      rfl
    · have hlt := Nat.not_le.1 hskip
      rw [recordDone_payload h0 hlt, recordDone_payload (s := inBranch sched ret s) h0 hlt, ← payloadDone_inBranch hb]
      rfl

/-- One turn of the record loop at a header that SRC holds (R144). -/
theorem drleRun_record (fuel : Nat) {s : State} {k w : Byte} (hc : s.ctl = some .drle) (hf : s.drle.fits s.dstLen)
    (hk : s.src[s.sp]? = some k) (hw : s.src[s.sp + 1]? = some w) :
    drleRun (fuel + 1) s = drleRun fuel (recordDone k w { s with sp := s.sp + 2 }) := by
  rw [drleRun, if_pos hc]
  rcases fetchAt_drle s with ⟨k', w', hk', hw', hfetch⟩ | ⟨hn, -⟩
  · cases hk.symm.trans hk'
    cases hw.symm.trans hw'
    rw [hfetch]
    dsimp only
    rw [drleToken_record, drleRecord_eq (s := { s with sp := s.sp + 2 }) k w hf, andThen_next]
  · simp [hk, hw] at hn

/-- The last turn, with SRC at its end (R144). -/
theorem drleRun_sourceEnd (fuel : Nat) {s : State} (hc : s.ctl = some .drle)
    (hn : s.src[s.sp]? = none ∨ s.src[s.sp + 1]? = none) :
    drleRun (fuel + 1) s = .next (drleStop { s with sp := s.src.length }) := by
  rw [drleRun, if_pos hc]
  rcases fetchAt_drle s with ⟨k, w, hk, hw, -⟩ | ⟨-, hfetch⟩
  · simp [hk, hw] at hn
  · rw [hfetch]

/-- The record loop runs in a frame branch as it does in a direct call (R261). -/
theorem drleRun_inBranch {sched : SchedRegs} (hb : sched.frameBusy = true) (ret : Ret) (fuel : Nat) {s t : State}
    (hf : s.drle.fits s.dstLen) (h : drleRun fuel s = .next t) :
    drleRun fuel (inBranch sched ret s) = .next (inBranch sched ret t) := by
  induction fuel generalizing s with
  | zero => cases h; rfl
  | succ fuel ih =>
    by_cases hc : s.ctl = some .drle
    · rcases fetchAt_drle s with ⟨k, w, hk, hw, -⟩ | ⟨hn, -⟩
      · rw [drleRun_record fuel hc hf hk hw] at h
        have hkept := (recordDone_frame k w { s with sp := s.sp + 2 }).operands
        have hf' : (recordDone k w { s with sp := s.sp + 2 }).drle.fits
            (recordDone k w { s with sp := s.sp + 2 }).dstLen := by rw [hkept.fits, hkept.dstLen]; exact hf
        rw [drleRun_record fuel (s := inBranch sched ret s) hc hf hk hw, ← ih hf' h, ← recordDone_inBranch hb]
        rfl
      · rw [drleRun_sourceEnd fuel hc hn] at h
        cases h
        exact (drleRun_sourceEnd fuel (s := inBranch sched ret s) hc hn).trans
          (congrArg _ (drleStop_inBranch hb ret { s with sp := s.src.length }))
    · rw [drleRun_stopped _ hc] at h
      cases h
      exact drleRun_stopped _ hc

/-- A frame branch performed at once (R260 to R265): the direct call's decode, seen from the branch, then the frame's count. -/
theorem execSchStep_frame {s u : State} {file : List Byte} (hs : s.sched.state = .timedPlayback)
    (hf : s.sched.fault = none) (hr : s.sched.frameReady = true) (hb : s.sched.frameBusy = false)
    (hdiv : 1 ≤ s.cfg.refreshDiv) (hg : s.gif.state ≠ .ready)
    (hfile : (dirFrames s s.sched.folderIdx)[s.sched.frameIdx]? = some file) (hc : frameCheck s = none)
    (hu : drleRun (file.length + 1) (frameSetup file s) = .next u) :
    execSchStep s = finishFrame (inBranch (branchRegs s) s.ret u) := by
  have hrun := drleRun_inBranch (sched := branchRegs s) rfl s.ret _ (s := frameSetup file s) hc hu
  rw [execSchStep_due hs hf hb hr hg, beginFrame_file hdiv hfile, hc, andThen_next]
  exact (if_pos rfl).trans (congrArg (andThen · finishFrame) hrun)

/-- Settles O42: the decode of a frame branch is the direct call's, and its end is `finishFrame`. -/
theorem frameBranch : Obligations.FrameBranch := by
  refine ⟨fun s file v hs hf hr hb hv hdiv hg hfile hc => ?_, fun s v hs hf hb hc hv => ?_⟩
  · obtain ⟨u, hu, hframe, hctl, -⟩ := execDrleDecode_eq (file := file) s hg hc
    obtain ⟨t, ht, hcount⟩ := finishFrame_counted (s := inBranch (branchRegs s) s.ret u) hv
    have hstep := execSchStep_frame hs hf hr hb hdiv hg hfile hc ((execDrleDecode_run hg hc).symm.trans hu)
    refine ⟨t, u, hstep.trans ht, hu, ?_⟩
    refine FrameCounted.of_busy (busy := true) ?_
    have hstate : inBranch (branchRegs s) s.ret u = { s with
        src := u.src, sp := u.sp, dst := u.dst, dstLen := u.dstLen, drle := u.drle, ctl := none
        sched := branchRegs s } := by
      conv_lhs => rw [hframe, hctl]
      rw [hframe]
      rfl
    rw [hstate] at hcount
    exact hcount
  · obtain ⟨t, ht, hcount⟩ := finishFrame_counted hv
    exact ⟨t, (execSchStep_decoded hs hf hb hc).trans ht, hcount⟩

end Sys2Proof.Machine
end

section
/-! PROOFS. O49: who moves next, and an operation run token by token (44_scheduler.md R250, R270, R279; entries 1, 2, 4, 27,
37, 41). -/

namespace Sys2Proof.Machine

/-! ## Runs of single steps -/

/-- `t` is reached from `s` by single steps. -/
def Reaches (s t : State) : Prop := ∃ n, Host.Core.run core n s = .next t

theorem Reaches.refl (s : State) : Reaches s s := ⟨0, rfl⟩

theorem run_succ (n : Nat) (s : State) :
    Host.Core.run core (n + 1) s = andThen (step s) (Host.Core.run core n) := by
  have hcore : core.step s = step s := rfl
  simp only [Host.Core.run, hcore]
  cases step s <;> rfl

theorem Reaches.head {s u t : State} (h : step s = .next u) (hu : Reaches u t) : Reaches s t := by
  obtain ⟨n, hn⟩ := hu
  refine ⟨n + 1, ?_⟩
  rw [run_succ, h]
  exact hn

theorem Reaches.trans {s u t : State} (h1 : Reaches s u) (h2 : Reaches u t) : Reaches s t := by
  obtain ⟨n, hn⟩ := h1
  induction n generalizing s with
  | zero => cases hn; exact h2
  | succ n ih =>
    rw [run_succ] at hn
    obtain ⟨v, hv, hr⟩ := andThen_eq_next hn
    exact .head hv (ih hr)

/-- Fetching leaves the inbox as it is. -/
theorem fetchAt_inbox (p : Pos) (s : State) : (fetchAt p s).state.inbox = s.inbox := by
  rcases fetch_keeps p s with h | h
  · exact h.keeps.inbox
  · exact h.keeps.inbox

/-- A token of the stream in progress is one step (R279). -/
theorem Reaches.token {s u v t : State} {p : Pos} {i : Instr} (hi : s.inbox = []) (hc : s.ctl = some p)
    (hf : fetchAt p s = .token i u) (hx : exec i u = .next v) (hv : v.inbox = [] → Reaches v t) : Reaches s t := by
  have hu : u.inbox = [] := by
    have h := fetchAt_inbox p s
    rw [hf] at h
    exact h.trans hi
  refine Reaches.head ?_ (hv ((exec_keeps hx).inbox.trans hu))
  rw [step_at hi hc, hf]
  exact hx

/-- So is the end of a stream in progress. -/
theorem Reaches.ended {s t : State} {p : Pos} (hi : s.inbox = []) (hc : s.ctl = some p)
    (hf : fetchAt p s = .ended t) : Reaches s t := by
  refine Reaches.head ?_ (.refl t)
  rw [step_at hi hc, hf]

/-! ## The loops, token by token -/

/-- The record loop of a delta-RLE decode (R144). -/
theorem drleRun_reaches (fuel : Nat) {s t : State} (hi : s.inbox = []) (h : drleRun fuel s = .next t) :
    Reaches s t := by
  induction fuel generalizing s with
  | zero => cases h; exact .refl _
  | succ fuel ih =>
    unfold drleRun at h
    split at h
    · next hc =>
      rcases fetchAt_drle s with ⟨k, w, -, -, hf⟩ | ⟨-, hf⟩
      · rw [hf] at h
        obtain ⟨v, hv, hr⟩ := andThen_eq_next h
        rw [drleToken_record, ← exec_record] at hv
        exact .token hi hc hf hv fun hvi => ih hvi hr
      · rw [hf] at h
        cases h
        exact .ended hi hc hf
    · cases h; exact .refl _

/-- A token decoded at a position of a GIF stream runs as the GIF stream's tokens do. -/
theorem exec_decoded_gifToken {p : Pos} (hp : gifPos (some p) = some p) {flags : Byte} {l : List Byte} {i : Instr}
    {n : Nat} (h : decodeAt p flags l = .ok (i, n)) : exec i = gifToken i := by
  cases p with
  | drle => cases hp
  | lzwCode => cases hp
  | gifHeader =>
    simp only [decodeAt, decodeHeader] at h
    repeat' split at h
    all_goals cases h
    · rfl
    · rfl
  | gifLsd =>
    simp only [decodeAt, decodeLsd] at h
    split at h
    · cases h; rfl
    · cases h
  | gifGct =>
    simp only [decodeAt, decodeGct] at h
    split at h
    · cases h; rfl
    · cases h
  | gifBlock =>
    rcases decodeBlock_token h with ⟨_, rfl⟩ | ⟨_, rfl⟩ | ⟨_, _, _, _, _, rfl⟩ | rfl | ⟨_, rfl⟩ <;> rfl

theorem exec_fetched_gifToken {p : Pos} (hp : gifPos (some p) = some p) {s u : State} {i : Instr}
    (hf : fetchAt p s = .token i u) : exec i = gifToken i := by
  rw [fetchAt_bytes hp] at hf
  unfold fetchBytes at hf
  split at hf
  · next hd => cases hf; exact exec_decoded_gifToken hp hd
  · cases hf
  · cases hf
  · cases hf

/-- The loop of a GIF stream (R171, R179). -/
theorem gifRun_reaches (fuel : Nat) {s t : State} (hi : s.inbox = []) (h : gifRun fuel s = .next t) :
    Reaches s t := by
  induction fuel generalizing s with
  | zero => cases h; exact .refl _
  | succ fuel ih =>
    unfold gifRun at h
    split at h
    · cases h; exact .refl _
    · next p hp =>
      obtain ⟨hc, hp'⟩ := gifPos_some hp
      split at h
      · next u hf => cases h; exact .ended hi hc hf
      · next i u hf =>
        obtain ⟨v, hv, hr⟩ := andThen_eq_next h
        rw [← exec_fetched_gifToken hp' hf] at hv
        exact .token hi hc hf hv fun hvi => ih hvi hr

/-- A code fetched runs as the code stream's tokens do. -/
theorem exec_fetched_lzwToken {s u : State} {i : Instr} (hf : fetchAt .lzwCode s = .token i u) (v : State) :
    exec i v = (lzwToken i v).settle := by
  have hfetch : fetchCode s = .token i u := hf
  unfold fetchCode at hfetch
  split at hfetch
  · split at hfetch
    · cases hfetch
    · cases hfetch; exact exec_decodeCode _ _ _
  · cases hfetch

/-- The loop of a code stream (R217), a raised fault taken where its token raised it (R312). -/
theorem lzwRun_reaches (fuel : Nat) {s t : State} (hi : s.inbox = []) (h : (lzwRun fuel s).settle = .next t) :
    Reaches s t := by
  induction fuel generalizing s with
  | zero => cases h; exact .refl _
  | succ fuel ih =>
    unfold lzwRun at h
    split at h
    · next hc =>
      split at h
      · next u hf => cases h; exact .ended hi hc hf
      · next i u hf =>
        have hx := exec_fetched_lzwToken hf u
        cases hr : lzwToken i u with
        | ok v =>
          rw [hr] at h hx
          exact .token hi hc hf hx fun hvi => ih hvi h
        | raised f v =>
          rw [hr] at h hx
          cases h
          exact .token hi hc hf hx fun _ => .refl _
        | stuck r =>
          rw [hr] at h
          cases h
    · cases h; exact .refl _

/-! ## Who moves next -/

/-- The main context between operations (R250). -/
theorem step_main {s : State} (hi : s.inbox = []) (hc : s.ctl = none) : step s = mainOp s := by
  rw [step_nil hi]
  unfold advance
  rw [hc]

theorem mainOp_of {s : State} {i : Instr} (h : mainInstr s = some i) : mainOp s = perform i s := by
  unfold mainOp
  rw [h]

/-- Performing an operation is running it, where it is no turn of SCHED's loop, or no poll is due, or none enabled (R270). -/
theorem perform_alone {i : Instr} {s : State}
    (h : i ≠ .schStep ∨ s.sched.pollDue = false ∨ pollEnabled s = false) : perform i s = exec i s := by
  unfold perform
  split
  · rw [owedPoll_none (h.resolve_left (absurd rfl)), andThen_next]
  · rfl

/-- With a poll due and enabled the turn begins with it (R270, entry 41). -/
theorem perform_polled {s : State} (hd : s.sched.pollDue = true) (hs : s.sched.state = .timedPlayback)
    (hf : s.sched.fault = none) (hb : s.sched.frameBusy = false) :
    perform .schStep s = andThen (exec (.schPoll s.nowMs s.pins.a s.pins.b) s) (exec .schStep) :=
  congrArg (andThen · (exec .schStep)) (if_pos (by simp [hd, pollEnabled_eq_true hs hf hb]))

/-- Once the decode of a frame branch has ended, the main context's next step finishes the branch. -/
theorem step_busy {s : State} (hi : s.inbox = []) (hc : s.ctl = none) (hf : s.sched.fault = none)
    (hb : s.sched.frameBusy = true) : step s = exec .schStep s := by
  have hmain : mainInstr s = some .schStep := by simp [mainInstr, hf, hb]
  rw [step_main hi hc, mainOp_of hmain, perform_alone (.inr (.inr (pollEnabled_eq_false (.inr (.inl hb)))))]

/-! ## An operation started -/

/-- SCH.STEP performed at once is SCH.STEP started, and then the rest of its frame branch. -/
theorem execSchStep_started {s : State} (hb : s.sched.frameBusy = false) :
    execSchStep s = andThen (stepStart s) runFrame := by
  unfold execSchStep stepStart
  by_cases hin : schedIn .timedPlayback s = true
  · by_cases hdue : frameDue s = true
    · simp [hin, hb, hdue]
    · simp [hin, hb, hdue, runFrame_idle hb]
  · simp [hin, runFrame_idle hb]

/-- A frame branch whose decode has been loaded goes on token by token to the same end (R261 to R264, R279). -/
theorem runFrame_reaches {s t : State} (hi : s.inbox = []) (hs : s.sched.state = .timedPlayback)
    (hf : s.sched.fault = none) (hb : s.sched.frameBusy = true) (hc : s.ctl = some .drle)
    (hfit : s.drle.fits s.dstLen) (hsp : s.sp = 0) (h : runFrame s = .next t) : Reaches s t := by
  have hrest : runFrame s = andThen (drleRun (drleFuel s) s) finishFrame := if_pos hb
  obtain ⟨u, hu, hframe, hctl, -⟩ := drleRun_eq (drleFuel s) hfit hc (by omega) (by unfold drleFuel; omega)
  have hsched : u.sched = s.sched := by rw [hframe]
  have hui : u.inbox = [] := by rw [hframe]; exact hi
  rw [hrest, hu, andThen_next] at h
  refine (drleRun_reaches _ hi hu).trans (.head ?_ (.refl t))
  rw [step_busy hui hctl (by rw [hsched, hf]) (by rw [hsched, hb]), ← h]
  exact execSchStep_decoded (by rw [hsched, hs]) (by rw [hsched, hf]) (by rw [hsched, hb]) hctl

/-- A frame branch begun, and gone on with token by token. -/
theorem beginFrame_reaches {s u t : State} (hi : s.inbox = []) (hs : s.sched.state = .timedPlayback)
    (hf : s.sched.fault = none) (hb : s.sched.frameBusy = false) (hu : beginFrame s = .next u)
    (h : runFrame u = .next t) : Reaches u t := by
  have hidle : u.sched.frameBusy = false → Reaches u t := fun hub => by
    rw [runFrame_idle hub] at h
    cases h
    exact .refl _
  unfold beginFrame at hu
  dsimp only at hu
  split at hu
  · cases hu
  · split at hu
    · cases hu
    · split at hu
      · cases hu; exact hidle hb
      · next hc => cases hu; exact runFrame_reaches hi hs hf rfl rfl hc rfl h

/-- The poll owed leaves the main context between operations. -/
theorem owedPoll_between {s u : State} (h : owedPoll s = .next u) :
    u.inbox = s.inbox ∧ u.sched.frameBusy = s.sched.frameBusy := by
  refine ⟨(owedPoll_keeps h).inbox, ?_⟩
  rcases owedPoll_cases h with rfl | ⟨-, hp⟩
  · rfl
  · rcases execSchPoll_cases hp with rfl | ⟨-, rfl | ⟨_, rfl⟩⟩ <;> rfl

/-- A turn of SCHED's loop started ends as the one performed at once. -/
theorem schStep_reaches {s t : State} (hi : s.inbox = []) (hb : s.sched.frameBusy = false)
    (h : perform .schStep s = .next t) : ∃ u, startOp .schStep s = .next u ∧ Reaches u t := by
  obtain ⟨v, hv, hx⟩ := andThen_eq_next (h : andThen (owedPoll s) execSchStep = .next t)
  obtain ⟨hvi, hvb⟩ := owedPoll_between hv
  obtain ⟨u, hu, hr⟩ := andThen_eq_next ((execSchStep_started (hvb.trans hb)).symm.trans hx)
  refine ⟨u, (congrArg (andThen · stepStart) hv).trans hu, ?_⟩
  rcases stepStart_cases hu with rfl | ⟨hst, hf, hub, -, hbeg⟩
  · rw [runFrame_idle (hvb.trans hb)] at hr
    cases hr
    exact .refl _
  · exact beginFrame_reaches (hvi.trans hi) hst hf hub hbeg hr

theorem drleDecode_reaches {file : List Byte} {w h x y stride sx sy e len : Nat} {s t : State} (hi : s.inbox = [])
    (hx : execDrleDecode file w h x y stride sx sy e len s = .next t) :
    Reaches (drleStart file w h x y stride sx sy e len s) t := by
  unfold execDrleDecode at hx
  unfold drleStart
  split at hx
  · cases hx; exact .refl _
  · split at hx
    · next hg => cases hx; rw [if_pos hg]; exact .refl _
    · next hg => rw [if_neg hg]; exact drleRun_reaches _ hi hx

theorem gifStart_reaches {w h : Nat} {s t : State} (hi : s.inbox = []) (hx : execGifStart w h s = .next t) :
    Reaches (gifStartStart w h s) t := by
  unfold execGifStart at hx
  unfold gifStartStart
  split at hx
  · next hf => cases hx; rw [if_pos hf]; exact .refl _
  · next hf => rw [if_neg hf]; exact gifRun_reaches _ hi hx

theorem gifNext_reaches {s t : State} (hi : s.inbox = []) (hx : execGifNext s = .next t) :
    Reaches (gifNextStart s) t := by
  unfold execGifNext at hx
  unfold gifNextStart
  split at hx
  · next hr => rw [if_pos hr]; exact gifRun_reaches _ hi hx
  · next hr => cases hx; rw [if_neg hr]; exact .refl _

theorem lzwImage_reaches {s t : State} (hi : s.inbox = []) (hx : execLzwImage s = .next t) :
    Reaches (lzwStart s) t := by
  unfold execLzwImage lzwImage at hx
  unfold lzwStart
  split at hx
  · next hs => cases hx; rw [if_pos hs]; exact .refl _
  · next hs =>
    rw [if_neg hs]
    split at hx
    · next hm => rw [if_pos hm]; exact lzwRun_reaches _ hi hx
    · next hm => cases hx; rw [if_neg hm]; exact .refl _

/-- An operation started and run token by token ends in the state of the one performed at once (entry 1). -/
theorem startOp_reaches {i : Instr} {s t : State} (hi : s.inbox = []) (hb : s.sched.frameBusy = false)
    (h : perform i s = .next t) : ∃ u, startOp i s = .next u ∧ Reaches u t := by
  cases i with
  | drleDecode => exact ⟨_, rfl, drleDecode_reaches hi h⟩
  | gifStart => exact ⟨_, rfl, gifStart_reaches hi h⟩
  | gifNext => exact ⟨_, rfl, gifNext_reaches hi h⟩
  | lzwImage => exact ⟨_, rfl, lzwImage_reaches hi h⟩
  | schStep => exact schStep_reaches hi hb h
  | _ => exact ⟨t, h, .refl t⟩

/-! ## The inbox -/

/-- A command offered between operations is performed. -/
theorem step_op_idle {s : State} {i : Instr} {rest : List Input} (hin : s.inbox = .op i :: rest)
    (hi : isCommand i = true) (hc : s.ctl = none) (hb : s.sched.frameBusy = false) :
    step s = perform i { s with inbox := rest } :=
  (step_cons hin).trans ((if_pos hi).trans (if_neg (by simp [busy, hc, hb])))

/-- A command to be started between operations is started. -/
theorem step_start_idle {s : State} {i : Instr} {rest : List Input} (hin : s.inbox = .start i :: rest)
    (hi : isCommand i = true) (hc : s.ctl = none) (hb : s.sched.frameBusy = false) :
    step s = startOp i { s with inbox := rest } :=
  (step_cons hin).trans ((if_pos hi).trans (if_neg (by simp [busy, hc, hb])))

/-- A command but the tick, offered or to be started while an operation is in progress, is not enabled (R279, entry 4). -/
theorem step_not_enabled {s : State} {i : Instr} {rest : List Input}
    (hin : s.inbox = .op i :: rest ∨ s.inbox = .start i :: rest) (hi : isCommand i = true)
    (hb : s.ctl.isSome = true ∨ s.sched.frameBusy = true) (hne : i ≠ .schTick) :
    step s = .next { s with inbox := rest } := by
  have hbusy : (busy { s with inbox := rest } && i != .schTick) = true := by
    rcases hb with hb | hb <;> simp [busy, hb, hne]
  rcases hin with hin | hin
  · exact (step_cons hin).trans ((if_pos hi).trans (if_pos hbusy))
  · exact (step_cons hin).trans ((if_pos hi).trans (if_pos hbusy))

/-- The tick is the interrupt's: it comes whatever is in progress (R257, R279). -/
theorem step_tick {s : State} {rest : List Input} (hin : s.inbox = .op .schTick :: rest) :
    step s = exec .schTick { s with inbox := rest } := by
  rw [step_cons hin]
  simp [take, offered, isCommand, perform]

/-- A stream's token is no command (R116, entry 37). -/
theorem step_streamToken {s : State} {i : Instr} {rest : List Input}
    (hin : s.inbox = .op i :: rest ∨ s.inbox = .start i :: rest) (hi : isCommand i = false) :
    step s = .refused .streamToken := by
  rcases hin with hin | hin
  · exact (step_cons hin).trans (if_neg (by simp [hi]))
  · exact (step_cons hin).trans (if_neg (by simp [hi]))

/-- An operation performed as one action, and started, its tokens taken one by one (entry 1). -/
theorem reaches_of_op {s t : State} {i : Instr} (hc : s.ctl = none) (hb : s.sched.frameBusy = false)
    (hi : isCommand i = true) (h : step { s with inbox := [.op i] } = .next t) :
    Reaches { s with inbox := [.start i] } t := by
  rw [step_op_idle (s := { s with inbox := [.op i] }) rfl hi hc hb] at h
  obtain ⟨u, hu, hr⟩ := startOp_reaches (s := { s with inbox := [] }) rfl hb h
  exact .head ((step_start_idle (s := { s with inbox := [.start i] }) rfl hi hc hb).trans hu) hr

/-! ## The main context by itself -/

/-- Between operations, and with SCHED not faulted, a delta-RLE folder is played by the operation that `sched_state` enables
(R250). -/
theorem step_folder {s : State} (hin : s.inbox = []) (hc : s.ctl = none) (hf : s.sched.fault = none)
    (hb : s.sched.frameBusy = false) (hm : s.cfg.mode = .drleFolder) :
    (s.sched.state = .loading → step s = perform .schLoad s) ∧
    (s.sched.state = .timedPlayback → step s = perform .schStep s) ∧
    (s.sched.state = .folderSwitch → step s = perform .schSwitch s) := by
  refine ⟨fun hs => ?_, fun hs => ?_, fun hs => ?_⟩ <;>
  · rw [step_main hin hc]
    exact mainOp_of (by simp [mainInstr, hf, hb, hm, hs])

/-- In GIF_FILE mode the main context waits (entry 27). -/
theorem step_gifFile {s : State} (hin : s.inbox = []) (hc : s.ctl = none) (hf : s.sched.fault = none)
    (hb : s.sched.frameBusy = false) (hm : s.cfg.mode = .gifFile) : step s = .next s := by
  have hnone : mainInstr s = none := by simp [mainInstr, hf, hb, hm]
  rw [step_main hin hc, mainOp, hnone]

/-- Settles O49: the inbox, the operation started, and the main context by itself. -/
theorem whoMovesNext : Obligations.WhoMovesNext := by
  refine ⟨fun s i rest hin hi => ⟨fun hc hb halone => ?_, fun hc hb hs hf hstep hd => ?_, step_not_enabled (.inl hin) hi⟩,
    fun s i rest hin hi => ⟨step_start_idle hin hi, step_not_enabled (.inr hin) hi⟩,
    fun s i t _ => reaches_of_op, fun s rest => step_tick, fun s i rest => step_streamToken,
    fun s hin hc hf => ⟨step_busy hin hc hf, step_gifFile hin hc hf, fun hb hm => ?_⟩⟩
  · rw [step_op_idle hin hi hc hb]
    refine perform_alone (halone.imp_right (Or.imp_right fun h => ?_))
    exact pollEnabled_eq_false (h.imp_right .inr)
  · subst hstep
    exact (step_op_idle hin hi hc hb).trans (perform_polled hd hs hf hb)
  · obtain ⟨hload, hstep, hswitch⟩ := step_folder hin hc hf hb hm
    refine ⟨fun hs => ?_, fun hs hd => ?_, fun hs hd => ?_, fun hs => ?_⟩
    · exact (hload hs).trans (perform_alone (.inl nofun))
    · exact (hstep hs).trans (perform_alone (.inr (.inl hd)))
    · exact (hstep hs).trans (perform_polled hd hs hf hb)
    · exact (hswitch hs).trans (perform_alone (.inl nofun))

end Sys2Proof.Machine
end

section
/-! PROOFS. O7, O33: a direct decode, and the set-up of an image's codes (41_delta_rle.md R140 to R153, 43_lzw.md R211 to
R214, 60_exceptions.md R313, R317). -/

namespace Sys2Proof.Machine

/-! ## A direct decode -/

/-- Painting a stream's pixels leaves every byte outside the rectangle of R153 as it is. -/
theorem memRead_paint_stream_outside {d : DrleRegs} {len : Nat} (hf : d.fits len) (src : List Byte) (fuel sp pos : Nat)
    (m : Mem Byte) {b : Nat}
    (hb : ∀ dx dy, d.x ≤ dx → dx < d.x + d.w * d.scaleX → d.y ≤ dy → dy < d.y + d.h * d.scaleY + d.extra →
      b ≠ 2 * (dy * d.stride + dx) ∧ b ≠ 2 * (dy * d.stride + dx) + 1) :
    memRead (paint d (streamPixels src d.budget fuel sp pos) m) b = memRead m b := by
  rw [memRead_paint, painted_outside hf (fun p hp => streamPixels_lt fuel hp) hb, Option.none_or]

/-- Settles O7: the whole decode paints its stream's pixels, which lie inside the budget and so inside the rectangle. -/
theorem decodeEndsInRectangle : Obligations.DecodeEndsInRectangle := by
  intro file w h x y stride sx sy e len s hw hh hS hsx hsy hcols hrows
  let s0 := drleSetup file w h x y stride sx sy e len s
  have hc : s0.drle.fits len := (s0.drle.fits_iff len).2 ⟨hw, hh, hS, hsx, hsy, hcols, hrows⟩
  refine ⟨fun hg => execDrleDecode_active hg hc, fun hg => ?_⟩
  obtain ⟨t, ht, hframe, hctl, hsp, hdst, hret⟩ := execDrleDecode_eq (file := file) s hg hc
  refine ⟨t, ht, ?_, hsp, fun b hb => ?_⟩
  · conv_lhs => rw [hframe, hctl, hret]
    rfl
  · rw [dstByte, hdst]
    exact memRead_paint_stream_outside hc file _ 0 0 s.dst hb

/-! ## The set-up of an image's codes -/

/-- With GIFD idle or a stream open the call is `lzwImage`, its fault taken as GIFD takes it (R312). -/
theorem execLzwImage_live {s : State} (h : s.gif.state = .idle ∨ s.gif.state = .ready) :
    execLzwImage s = (lzwImage s).settle := if_neg (by simp [gifStopped_eq_false h])

/-- An image whose first fetch finds no code is done with what that fetch leaves (R217). -/
theorem lzwImage_ended {s t : State} (hadm : mcsAdmitted s.lzw.mcs = true)
    (hend : fetchAt .lzwCode (lzwSetup s) = .ended t) : lzwImage s = .ok t := by
  have hrun : lzwRun (lzwFuel (lzwSetup s)) (lzwSetup s) = .ok t := by
    simp [lzwFuel, lzwRun, hend]
  exact (if_pos hadm).trans hrun

/-- An image with no pixel left to draw reads no code: the set-up of R212, then the drain (R214, R235). -/
theorem lzwImage_noPixels {s : State} {n : Nat} (hadm : mcsAdmitted s.lzw.mcs = true) (hpix : s.img.npix ≤ s.img.pixN)
    (hsp : s.sp ≤ s.src.length) (hd : Drains (s.src.drop s.sp) n) :
    lzwImage s = .ok { lzwSetup s with sp := s.sp + n, ctl := none } :=
  lzwImage_ended hadm ((fetchAt_budget (s := lzwSetup s) hpix).trans
    (congrArg _ (endImage_between (s := lzwSetup s) rfl rfl rfl hsp hd)))

/-- Settles O33: the refusal of R313, the fault of R211, and the image of no pixels. -/
theorem lzwSetUp : Obligations.LzwSetUp := by
  refine fun s => ⟨fun hstop => if_pos (gifStopped_eq_true_iff.2 hstop), fun hlive =>
    ⟨fun hmcs => ?_, fun h2 h11 hz hsp n hd => ?_⟩⟩
  · exact (execLzwImage_live hlive).trans (congrArg Res.settle (lzwImage_notAdmitted hmcs))
  · have himage := lzwImage_noPixels (decide_eq_true ⟨h2, h11⟩) (hz ▸ Nat.zero_le _) hsp hd
    exact (execLzwImage_live hlive).trans (congrArg Res.settle himage)

end Sys2Proof.Machine
end

section
/-! PROOFS. O40, O47: the scheduler's events where they are not enabled, and a scheduler that has faulted (44_scheduler.md
R250, R257, R270, 60_exceptions.md R312, R317, entries 4, 28, 36). -/

namespace Sys2Proof.Machine

/-! ## Events that are not enabled -/

/-- SCHED performs no operation for `st` in another state, nor once it has faulted (R250, R312). -/
theorem schedIn_eq_false {st : SchedState} {s : State} (h : s.sched.state ≠ st ∨ s.sched.fault.isSome = true) :
    schedIn st s = false := by
  rcases h with h | h
  · simp [schedIn, h]
  · simp [schedIn, h]

theorem execSchTick_disarmed {s : State} (h : s.timer.armed = false) : execSchTick s = .next s :=
  if_neg (by simp [tickEnabled, h])

theorem execSchLoad_notIn {s : State} (h : schedIn .loading s = false) : execSchLoad s = .next s :=
  if_neg (by simp [h])

theorem execSchStep_notIn {s : State} (h : schedIn .timedPlayback s = false) : execSchStep s = .next s :=
  if_neg (by simp [h])

theorem execSchSwitch_notIn {s : State} (h : schedIn .folderSwitch s = false) : execSchSwitch s = .next s :=
  if_neg (by simp [h])

theorem execSchPoll_notEnabled {now : Nat} {a b : Bool} {s : State} (h : pollEnabled s = false) :
    execSchPoll now a b s = .next s := if_neg (by simp [h])

/-- No frame branch begins while a GIF stream is open (R317, entry 28). -/
theorem execSchStep_gifActive {s : State} (hg : s.gif.state = .ready) (hb : s.sched.frameBusy = false) :
    execSchStep s = .next s := by
  have hdue : frameDue s = false := by simp [frameDue, gifActive, hg]
  simp [execSchStep, hb, hdue]

/-- Settles O40: each event at the test that does not enable it. -/
theorem notEnabledChangesNothing : Obligations.NotEnabledChangesNothing := fun _ =>
  ⟨execSchTick_disarmed, fun h => execSchLoad_notIn (schedIn_eq_false (.inl h)),
    fun h => execSchStep_notIn (schedIn_eq_false (.inl h)), execSchStep_gifActive,
    fun h => execSchSwitch_notIn (schedIn_eq_false (.inl h))⟩

/-! ## A scheduler that has faulted -/

/-- SCHED has faulted, its timer disarmed as the fault left it (R312). -/
structure SchedStopped (s : State) : Prop where
  fault : s.sched.fault.isSome = true
  disarmed : s.timer.armed = false

/-- The registers of SCHED, of the timer and of the buttons stay. -/
structure SchedKept (s t : State) : Prop where
  sched : t.sched = s.sched
  timer : t.timer = s.timer
  btn : t.btn = s.btn

theorem SchedKept.refl (s : State) : SchedKept s s := ⟨rfl, rfl, rfl⟩

theorem SchedKept.trans {s t u : State} (h1 : SchedKept s t) (h2 : SchedKept t u) : SchedKept s u :=
  ⟨h2.sched.trans h1.sched, h2.timer.trans h1.timer, h2.btn.trans h1.btn⟩

theorem SchedKept.stopped {s t : State} (h : SchedKept s t) (hs : SchedStopped s) : SchedStopped t :=
  ⟨h.sched ▸ hs.fault, h.timer ▸ hs.disarmed⟩

theorem CodecFrame.schedKept {s t : State} (h : CodecFrame s t) : SchedKept s t := by
  rw [h]; exact ⟨rfl, rfl, rfl⟩

theorem GifKeeps.schedKept {s t : State} (h : GifKeeps s t) : SchedKept s t := by
  obtain ⟨hsched, htimer, hbtn⟩ := h.sched
  exact ⟨hsched, htimer, hbtn⟩

theorem fetchAt_schedKept (p : Pos) (s : State) : SchedKept s (fetchAt p s).state := by
  rcases fetch_keeps p s with hk | hk
  · exact hk.schedKept
  · exact hk.frame.codec.1.schedKept

section Stopped

variable {s : State} (hs : SchedStopped s)
include hs

theorem SchedStopped.load : execSchLoad s = .next s := execSchLoad_notIn (schedIn_eq_false (.inr hs.fault))

theorem SchedStopped.tick : execSchTick s = .next s := execSchTick_disarmed hs.disarmed

theorem SchedStopped.step : execSchStep s = .next s := execSchStep_notIn (schedIn_eq_false (.inr hs.fault))

theorem SchedStopped.noPoll : pollEnabled s = false := pollEnabled_eq_false (.inr (.inr hs.fault))

theorem SchedStopped.poll (now : Nat) (a b : Bool) : execSchPoll now a b s = .next s :=
  execSchPoll_notEnabled hs.noPoll

theorem SchedStopped.switch : execSchSwitch s = .next s := execSchSwitch_notIn (schedIn_eq_false (.inr hs.fault))

/-- A turn of SCHED's loop that is started does not begin a frame branch, nor the poll before it. -/
theorem SchedStopped.startStep : stepStart s = .next s :=
  if_neg (by simp [schedIn_eq_false (.inr hs.fault)])

/-- Whatever is executed, the scheduler's registers stay: the events of SCHED change nothing, and no other unit writes
them. -/
theorem ExecFamily.schedKept {i : Instr} {t : State} (h : ExecFamily s t i) : SchedKept s t := by
  cases h with
  | codec i hf hsrc => exact hf.schedKept
  | decode hf hsrc => exact hf.schedKept
  | gif i hk hg => exact hk.schedKept
  | schLoad h => cases hs.load.symm.trans h; exact .refl s
  | schTick h => cases hs.tick.symm.trans h; exact .refl s
  | schStep h => cases hs.step.symm.trans h; exact .refl s
  | schPoll h => cases (hs.poll _ _ _).symm.trans h; exact .refl s
  | schSwitch h => cases hs.switch.symm.trans h; exact .refl s

theorem SchedStopped.exec {i : Instr} {t : State} (h : exec i s = .next t) : SchedKept s t :=
  (exec_family h).schedKept hs

theorem SchedStopped.perform {i : Instr} {t : State} (h : perform i s = .next t) : SchedKept s t := by
  obtain ⟨u, rfl | ⟨-, -, hp⟩, hx⟩ := perform_cases h
  · exact hs.exec hx
  · exact (hs.exec hp).trans (((hs.exec hp).stopped hs).exec hx)

theorem SchedStopped.startOp {i : Instr} {t : State} (h : startOp i s = .next t) : SchedKept s t := by
  rcases startOp_family h with ⟨-, u, hu, hbegin⟩ | hf
  · cases (owedPoll_none (.inr hs.noPoll)).symm.trans hu
    cases hs.startStep.symm.trans hbegin
    exact .refl s
  · exact hf.schedKept hs

end Stopped

/-- A step of a faulted SCHED that takes no reset (R312). -/
theorem step_schedKept {s t : State} (hs : SchedStopped s) (hno : noReset s) (hx : step s = .next t) : SchedKept s t := by
  have hs' : SchedStopped { s with inbox := s.inbox.tail } := ⟨hs.fault, hs.disarmed⟩
  refine SchedKept.trans (t := { s with inbox := s.inbox.tail }) ⟨rfl, rfl, rfl⟩ ?_
  cases step_moved hx with
  | notEnabled i hd hb hi => exact .refl _
  | op i hd hc hb h => exact hs'.perform h
  | start i hd hc hb h => exact hs'.startOp h
  | main i hd hc hm h => exact hs'.perform h
  | waiting hd hc hm => exact .refl _
  | token p i u hd hc hf h =>
    have hfetch := fetchAt_schedKept p { s with inbox := s.inbox.tail }
    rw [hf] at hfetch
    exact hfetch.trans ((hfetch.stopped hs').exec h)
  | ended p hd hc hf =>
    have hfetch := fetchAt_schedKept p { s with inbox := s.inbox.tail }
    rw [hf] at hfetch
    exact hfetch
  | clock ms hd h => exact ⟨rfl, rfl, rfl⟩
  | buttons a b hd => exact ⟨rfl, rfl, rfl⟩
  | source bytes hd hb => exact ⟨rfl, rfl, rfl⟩
  | reset y full reached hd hr => exact nomatch (hno y hd).symm.trans hr

/-- Settles O47: SCHED's events are not enabled, and every other part of a step leaves its registers alone. -/
theorem faultedSchedStops : Obligations.FaultedSchedStops := by
  refine ⟨fun s now a b hf ha => ?_, fun s t hf ha hno hx => ?_⟩
  · have hs : SchedStopped s := ⟨hf, ha⟩
    exact ⟨hs.load, hs.tick, hs.step, hs.poll now a b, hs.switch⟩
  · obtain ⟨hsched, htimer, hbtn⟩ := step_schedKept ⟨hf, ha⟩ hno hx
    exact ⟨hsched, htimer, hbtn⟩

end Sys2Proof.Machine
end

section
/-! PROOFS. What it means that an operation does not see the tick (60_exceptions.md R308), and that no reader of SRC and no
fetch does. The proofs go along the branches of the definitions: a test, and a value that is read, are the same with the flag
set. -/

namespace Sys2Proof.Machine

/-! ## The flag -/

/-- The state with `frame_ready` set: a tick's whole effect (R258). -/
def ticked (s : State) : State := { s with sched := { s.sched with frameReady := true } }

@[simp] theorem ticked_src (s : State) : (ticked s).src = s.src := rfl
@[simp] theorem ticked_sp (s : State) : (ticked s).sp = s.sp := rfl
@[simp] theorem ticked_ctl (s : State) : (ticked s).ctl = s.ctl := rfl
@[simp] theorem ticked_gif (s : State) : (ticked s).gif = s.gif := rfl
@[simp] theorem ticked_img (s : State) : (ticked s).img = s.img := rfl
@[simp] theorem ticked_lzw (s : State) : (ticked s).lzw = s.lzw := rfl
@[simp] theorem ticked_bits (s : State) : (ticked s).bits = s.bits := rfl
@[simp] theorem ticked_dict (s : State) : (ticked s).dict = s.dict := rfl
@[simp] theorem ticked_stk (s : State) : (ticked s).stk = s.stk := rfl
@[simp] theorem ticked_palette (s : State) : selectedPalette (ticked s) = selectedPalette s := rfl

/-- The tick itself, the timer armed (R257). -/
theorem execSchTick_armed {s : State} (h : s.timer.armed = true) : execSchTick s = .next (ticked s) := if_pos h

/-- `f` on an outcome's next state. -/
def mapNext (f : State → State) : Out → Out
  | .next s => .next (f s)
  | .fault r => .fault r
  | .refused r => .refused r

/-- `f` on the state a code token leaves. -/
def Res.map (f : State → State) : Res → Res
  | .ok s => .ok (f s)
  | .raised e s => .raised e (f s)
  | .stuck r => .stuck r

/-- `f` on the state a fetch leaves. -/
def Fetched.map (f : State → State) : Fetched → Fetched
  | .token i s => .token i (f s)
  | .ended s => .ended (f s)

/-- With the flag set `F` answers as without it, the flag set in the state it leaves, which is what `g` does to an answer. -/
def TickBlind {β : Type} (g : β → β) (F : State → β) : Prop := ∀ s, F (ticked s) = g (F s)

/-- An operation that does not see the tick. -/
abbrev OutTickBlind (F : State → Out) : Prop := TickBlind (mapNext ticked) F

/-- A code token's meaning that does not see the tick. -/
abbrev ResTickBlind (F : State → Res) : Prop := TickBlind (Res.map ticked) F

theorem OutTickBlind.andThen {k : State → Out} (hk : OutTickBlind k) {o o' : Out} (h : o' = mapNext ticked o) :
    andThen o' k = mapNext ticked (andThen o k) := by
  subst h
  cases o with
  | next s => exact hk s
  | fault r => rfl
  | refused r => rfl

theorem ResTickBlind.bind {k : State → Res} (hk : ResTickBlind k) {r r' : Res} (h : r' = r.map ticked) :
    r'.bind k = (r.bind k).map ticked := by
  subst h
  cases r with
  | ok s => exact hk s
  | raised f s => rfl
  | stuck r => rfl

theorem settle_map_ticked (r : Res) : (r.map ticked).settle = mapNext ticked r.settle := by
  cases r <;> rfl

theorem ofExcept_map_ticked (r : Except Fault State) : ofExcept (r.map ticked) = mapNext ticked (ofExcept r) := by
  cases r <;> rfl

theorem ResTickBlind.settle {F : State → Res} (h : ResTickBlind F) : OutTickBlind fun s => (F s).settle := fun s =>
  (congrArg Res.settle (h s)).trans (settle_map_ticked (F s))

theorem TickBlind.ofExcept {F : State → Except Fault State} (h : TickBlind (Except.map ticked) F) :
    OutTickBlind fun s => ofExcept (F s) := fun s =>
  (congrArg Machine.ofExcept (h s)).trans (ofExcept_map_ticked (F s))

/-! ## Reading SRC -/

/-- A reader of SRC that does not see the tick. -/
abbrev ReadTickBlind {β : Type} (F : State → β × State) : Prop := TickBlind (Prod.map id ticked) F

/-- A reader in both runs: nothing more to read, or the same value. -/
theorem ReadTickBlind.cases {β : Type} {F : State → Option β × State} (h : ReadTickBlind F) (s : State) :
    (∃ u, F s = (none, u) ∧ F (ticked s) = (none, ticked u)) ∨
      ∃ b u, F s = (some b, u) ∧ F (ticked s) = (some b, ticked u) := by
  rw [h s]
  obtain ⟨_ | b, u⟩ := F s
  · exact .inl ⟨u, rfl, rfl⟩
  · exact .inr ⟨b, u, rfl, rfl⟩

theorem streamRead_tickBlind (n : Nat) : ReadTickBlind (streamRead n) := fun _ => ite_map _ rfl (ite_map _ rfl rfl)

theorem streamByte_tickBlind : ReadTickBlind streamByte := by
  intro s
  simp only [streamByte, ticked_sp, ticked_src]
  cases s.src[s.sp]? <;> rfl

theorem streamPair_tickBlind : ReadTickBlind streamPair := by
  intro s
  simp only [streamPair, ticked_sp, ticked_src]
  cases s.src[s.sp]? <;> cases s.src[s.sp + 1]? <;> rfl

theorem nextDataByte_tickBlind : ReadTickBlind nextDataByte := by
  intro s
  refine ite_map _ rfl (ite_map _ ?_ ?_)
  · obtain ⟨u, hu, hu'⟩ | ⟨n, u, hu, hu'⟩ := streamByte_tickBlind.cases s
    · rw [hu, hu']; rfl
    · rw [hu, hu']
      refine ite_map _ rfl ?_
      obtain ⟨v, hv, hv'⟩ | ⟨b, v, hv, hv'⟩ := streamByte_tickBlind.cases u
      · rw [hv, hv']; rfl
      · rw [hv, hv']; rfl
  · obtain ⟨u, hu, hu'⟩ | ⟨b, u, hu, hu'⟩ := streamByte_tickBlind.cases s
    · rw [hu, hu']; rfl
    · rw [hu, hu']; rfl

theorem fillBits_tickBlind (fuel : Nat) : ReadTickBlind (fillBits fuel) := by
  induction fuel with
  | zero => exact fun _ => rfl
  | succ fuel ih =>
    intro s
    refine ite_map _ ?_ rfl
    obtain ⟨u, hu, hu'⟩ | ⟨b, u, hu, hu'⟩ := nextDataByte_tickBlind.cases s
    · rw [hu, hu']; rfl
    · rw [hu, hu']
      exact ih (shiftIn b u)

theorem readCode_tickBlind : ReadTickBlind readCode := by
  intro s
  simp only [readCode, ticked_lzw, fillBits_tickBlind _ s]
  obtain ⟨_ | _, u⟩ := fillBits s.lzw.codeSize s <;> rfl

/-! ## Fetching -/

theorem drainImage_tickBlind : TickBlind ticked drainImage := by
  intro s
  refine ite_map _ rfl ?_
  rw [ticked_bits]
  obtain ⟨u, hu, hu'⟩ | ⟨b, u, hu, hu'⟩ := (streamRead_tickBlind s.bits.blkRem.toNat).cases s
  · rw [hu, hu']
  · rw [hu, hu']; rfl

theorem endImage_tickBlind : TickBlind ticked endImage := by
  intro s
  unfold endImage
  rw [drainImage_tickBlind]
  rfl

theorem endOfStream_tickBlind (p : Pos) : TickBlind ticked (endOfStream p) := by
  intro s
  cases p with
  | lzwCode => exact endImage_tickBlind s
  | _ => rfl

theorem fetchBytes_tickBlind (p : Pos) : TickBlind (Fetched.map ticked) (fetchBytes p) := by
  intro s
  simp only [fetchBytes, ticked_gif, ticked_src, ticked_sp]
  cases decodeAt p s.gif.scrFlags (s.src.drop s.sp) with
  | ok r => rfl
  | error e =>
    cases e with
    | truncated => exact congrArg Fetched.ended (endOfStream_tickBlind p { s with sp := s.src.length })
    | badMagic => rfl
    | notBytes => rfl

theorem fetchCode_tickBlind : TickBlind (Fetched.map ticked) fetchCode := by
  intro s
  refine ite_map (Fetched.map ticked) ?_ (congrArg Fetched.ended (endImage_tickBlind s))
  obtain ⟨u, hu, hu'⟩ | ⟨c, u, hu, hu'⟩ := readCode_tickBlind.cases s
  · rw [hu, hu']
    exact congrArg Fetched.ended (endImage_tickBlind u)
  · rw [hu, hu']; rfl

theorem fetchAt_tickBlind (p : Pos) : TickBlind (Fetched.map ticked) (fetchAt p) := by
  cases p with
  | lzwCode => exact fetchCode_tickBlind
  | drle => exact fetchBytes_tickBlind .drle
  | gifHeader => exact fetchBytes_tickBlind .gifHeader
  | gifLsd => exact fetchBytes_tickBlind .gifLsd
  | gifGct => exact fetchBytes_tickBlind .gifGct
  | gifBlock => exact fetchBytes_tickBlind .gifBlock

end Sys2Proof.Machine
end

section
/-! PROOFS. O41: a tick commutes with every instruction that does not test, clear, arm or disarm (60_exceptions.md R308). -/

namespace Sys2Proof.Machine

/-! ## Stores and the delta-RLE decoder -/

theorem storePixel_tickBlind (a : Nat) (hi lo : Byte) : TickBlind (Except.map ticked) (storePixel a hi lo) := fun _ =>
  ite_map (Except.map ticked) rfl rfl

theorem storeAll_tickBlind (as : List Nat) (hi lo : Byte) : TickBlind (Except.map ticked) (storeAll as hi lo) := by
  induction as with
  | nil => exact fun _ => rfl
  | cons a rest ih =>
    intro s
    simp only [storeAll, storePixel_tickBlind a hi lo s]
    cases storePixel a hi lo s with
    | error r => rfl
    | ok t => exact ih t

theorem blit_tickBlind (pos : Nat) (hi lo : Byte) : TickBlind (Except.map ticked) (blit pos hi lo) := fun s =>
  ite_map (Except.map ticked) (storeAll_tickBlind (blitAddrs s.drle pos) hi lo s) rfl

theorem payloadNext_tickBlind {left : Nat} (h : OutTickBlind (drlePayload left)) : OutTickBlind (payloadNext left) :=
  fun s => ite_map _ rfl (h { s with drle := { s.drle with pos := s.drle.pos + 1, recLeft := left } })

theorem drlePayload_tickBlind (left : Nat) : OutTickBlind (drlePayload left) := by
  induction left with
  | zero => exact fun _ => rfl
  | succ left ih =>
    intro s
    obtain ⟨u, hu, hu'⟩ | ⟨⟨hi, lo⟩, u, hu, hu'⟩ := streamPair_tickBlind.cases s
    · simp only [drlePayload, hu, hu']
      rfl
    · rw [drlePayload_succ_some hu, drlePayload_succ_some hu']
      exact (payloadNext_tickBlind ih).andThen
        ((blit_tickBlind u.drle.pos hi lo).ofExcept { u with drle := { u.drle with pxHi := hi, pxLo := lo } })

theorem drleRecord_tickBlind (skip write : Byte) : OutTickBlind (drleRecord skip write) := fun s =>
  ite_map _ rfl (ite_map _ rfl (drlePayload_tickBlind write.toNat { s with drle := { s.drle with
    recSkip := skip, recWrite := write, pos := s.drle.pos + skip.toNat, recLeft := write.toNat } }))

theorem drleToken_tickBlind (i : Instr) : OutTickBlind (drleToken i) := by
  intro s
  cases i with
  | drleEnd => exact drleRecord_tickBlind 0 0 s
  | drleRec skip write => exact drleRecord_tickBlind skip write s
  | _ => rfl

theorem drleRun_tickBlind (fuel : Nat) : OutTickBlind (drleRun fuel) := by
  induction fuel with
  | zero => exact fun _ => rfl
  | succ fuel ih =>
    intro s
    simp only [drleRun, fetchAt_tickBlind .drle s]
    refine ite_map _ ?_ rfl
    cases fetchAt .drle s with
    | ended u => rfl
    | token i u => exact OutTickBlind.andThen ih (drleToken_tickBlind i u)

theorem execDrleDecode_tickBlind (file : List Byte) (w h x y stride sx sy e len : Nat) :
    OutTickBlind (execDrleDecode file w h x y stride sx sy e len) := by
  intro s
  unfold execDrleDecode
  cases drleCheck w h x y stride sx sy e len with
  | some f => rfl
  | none => exact ite_map _ rfl (drleRun_tickBlind _ (drleSetup file w h x y stride sx sy e len s))

/-! ## The LZW decompressor -/

theorem drawPixel_tickBlind (p : Nat) : ResTickBlind (drawPixel p) := by
  intro s
  simp only [drawPixel, ticked_palette]
  refine ite_map _ rfl ?_
  cases memRead (selectedPalette s).1 p with
  | none => rfl
  | some c =>
    simp only [storeColor, ticked_gif, ticked_img, storePixel_tickBlind _ _ _ s]
    cases storePixel (imgAddr s.gif s.img s.img.pixN) (hi8 (pack c.r c.g c.b)) (lo8 (pack c.r c.g c.b)) s <;> rfl

theorem emitPixel_tickBlind (p : Nat) : ResTickBlind (emitPixel p) := fun s =>
  ite_map _ rfl (ResTickBlind.bind (fun _ => rfl) (drawPixel_tickBlind p s))

theorem emitStack_tickBlind (n : Nat) : ResTickBlind (emitStack n) := by
  induction n with
  | zero => exact fun _ => rfl
  | succ n ih =>
    intro s
    simp only [emitStack, ticked_stk]
    refine ite_map _ ?_ (ih { s with stkN := n })
    cases memRead s.stk n with
    | none => rfl
    | some p => exact ResTickBlind.bind ih (emitPixel_tickBlind p { s with stkN := n })

theorem pushStk_tickBlind (v : Nat) : ResTickBlind (pushStk v) := fun _ => ite_map _ rfl rfl

theorem expandOnto_tickBlind (fuel c : Nat) : ResTickBlind (expandOnto fuel c) := by
  induction fuel generalizing c with
  | zero => exact fun _ => rfl
  | succ fuel ih =>
    intro s
    simp only [expandOnto, ticked_dict]
    refine ite_map _ (pushStk_tickBlind c s) ?_
    cases memRead s.dict c with
    | none => rfl
    | some e => exact ResTickBlind.bind (ih e.pfx) (pushStk_tickBlind e.sfx s)

theorem expand_tickBlind (c : Nat) : ResTickBlind (expand c) := fun s => expandOnto_tickBlind _ c { s with stkN := 0 }

theorem chainHead_tickBlind (fuel c : Nat) : TickBlind id (chainHead fuel c) := by
  induction fuel generalizing c with
  | zero => exact fun _ => rfl
  | succ fuel ih =>
    intro s
    simp only [chainHead, ticked_lzw, ticked_dict]
    refine ite_map id rfl ?_
    cases memRead s.dict c with
    | none => rfl
    | some e => exact ih e.pfx s

theorem firstIndex_tickBlind (c : Nat) : TickBlind id (firstIndex c) := chainHead_tickBlind _ c

theorem addEntry_tickBlind (p f : Nat) : TickBlind ticked (addEntry p f) := fun _ => ite_map ticked rfl rfl

theorem finishCode_tickBlind (p f c : Nat) : ResTickBlind (finishCode p f c) := by
  intro s
  unfold finishCode
  rw [addEntry_tickBlind]
  exact ResTickBlind.bind (fun _ => rfl) (emitStack_tickBlind _ (addEntry p f s))

theorem knownCode_tickBlind (c : Nat) : ResTickBlind (knownCode c) := by
  intro s
  simp only [knownCode, ticked_lzw, firstIndex_tickBlind c s, id]
  cases s.lzw.prev with
  | none => rfl
  | some p =>
    cases firstIndex c s with
    | error r => rfl
    | ok f => exact ResTickBlind.bind (finishCode_tickBlind p f c) (expand_tickBlind c s)

theorem codeKwkwk_tickBlind : ResTickBlind codeKwkwk := by
  intro s
  simp only [codeKwkwk, ticked_lzw]
  cases s.lzw.prev with
  | none => rfl
  | some p =>
    refine ite_map _ ?_ rfl
    rw [firstIndex_tickBlind p s, id]
    cases firstIndex p s with
    | error r => rfl
    | ok f =>
      exact ResTickBlind.bind (finishCode_tickBlind p f s.lzw.nextCode)
        (ResTickBlind.bind (expandOnto_tickBlind _ p) (pushStk_tickBlind f { s with stkN := 0 }))

theorem lzwToken_tickBlind (i : Instr) : ResTickBlind (lzwToken i) := by
  intro s
  cases i with
  | lzwClear => rfl
  | lzwEnd => exact congrArg Res.ok (endImage_tickBlind s)
  | lzwFirst c => exact ite_map _ (ResTickBlind.bind (fun _ => rfl) (emitPixel_tickBlind c s)) rfl
  | lzwLit c => exact ite_map _ (knownCode_tickBlind c s) rfl
  | lzwDict c => exact ite_map _ (knownCode_tickBlind c s) rfl
  | lzwKwkwk => exact codeKwkwk_tickBlind s
  | lzwBadCode c => exact ite_map _ rfl rfl
  | _ => rfl

theorem lzwRun_tickBlind (fuel : Nat) : ResTickBlind (lzwRun fuel) := by
  induction fuel with
  | zero => exact fun _ => rfl
  | succ fuel ih =>
    intro s
    simp only [lzwRun, fetchAt_tickBlind .lzwCode s]
    refine ite_map _ ?_ rfl
    cases fetchAt .lzwCode s with
    | ended u => rfl
    | token i u => exact ResTickBlind.bind ih (lzwToken_tickBlind i u)

theorem lzwImage_tickBlind : ResTickBlind lzwImage := fun s => ite_map _ (lzwRun_tickBlind _ (lzwSetup s)) rfl

theorem execLzwImage_tickBlind : OutTickBlind execLzwImage := fun s => ite_map _ rfl (lzwImage_tickBlind.settle s)

/-! ## The GIF container -/

theorem imageEnd_map_ticked (r : Res) : imageEnd (r.map ticked) = mapNext ticked (imageEnd r) := by
  cases r <;> rfl

theorem localTable_tickBlind : TickBlind (Prod.map (Option.map ticked) ticked) localTable := by
  intro s
  simp only [localTable, ticked_img]
  obtain ⟨u, hu, hu'⟩ | ⟨bytes, u, hu, hu'⟩ := (streamRead_tickBlind (3 * tableSize s.img.flags)).cases s
  · rw [hu, hu']; rfl
  · rw [hu, hu']; rfl

theorem imageBody_tickBlind : OutTickBlind imageBody := by
  intro s
  simp only [imageBody, localTable_tickBlind s]
  obtain ⟨_ | v, u⟩ := localTable s
  · rfl
  · simp only [Prod.map, Option.map]
    obtain ⟨w, hw, hw'⟩ | ⟨mcs, w, hw, hw'⟩ := streamByte_tickBlind.cases v
    · rw [hw, hw']; rfl
    · rw [hw, hw']
      exact (congrArg imageEnd (lzwImage_tickBlind (imageData mcs w))).trans (imageEnd_map_ticked _)

theorem execGifImage_tickBlind (left top w h : U16) (flags : Byte) : OutTickBlind (execGifImage left top w h flags) :=
  fun s => ite_map _ rfl (ite_map _ rfl (imageBody_tickBlind (setDescriptor left top w h flags s)))

theorem execGifGce_tickBlind (body : List Byte) : OutTickBlind (execGifGce body) := by
  intro s
  cases body with
  | nil => rfl
  | cons b rest => rfl

theorem gifToken_tickBlind (i : Instr) : OutTickBlind (gifToken i) := by
  intro s
  cases i with
  | gifLsd w h flags bg aspect => exact ite_map _ rfl rfl
  | gifGce body => exact execGifGce_tickBlind body s
  | gifImage left top w h flags => exact execGifImage_tickBlind left top w h flags s
  | _ => rfl

theorem gifRun_tickBlind (fuel : Nat) : OutTickBlind (gifRun fuel) := by
  induction fuel with
  | zero => exact fun _ => rfl
  | succ fuel ih =>
    intro s
    simp only [gifRun, ticked_ctl]
    cases gifPos s.ctl with
    | none => rfl
    | some p =>
      simp only [fetchAt_tickBlind p s]
      cases fetchAt p s with
      | ended u => rfl
      | token i u => exact OutTickBlind.andThen ih (gifToken_tickBlind i u)

theorem execGifStart_tickBlind (expW expH : Nat) : OutTickBlind (execGifStart expW expH) := fun s =>
  ite_map _ rfl (gifRun_tickBlind _ (gifSetup expW expH s))

theorem execGifNext_tickBlind : OutTickBlind execGifNext := fun s =>
  ite_map _ (gifRun_tickBlind _ { s with ctl := some .gifBlock }) rfl

/-! ## The poll -/

theorem pollAct_tickBlind (now : Nat) (pa pb : Bool) : OutTickBlind (pollAct now pa pb) := fun _ =>
  ite_map _ rfl (ite_map _ (ite_map _ rfl rfl) (ite_map _ (ite_map _ rfl rfl) rfl))

theorem execSchPoll_tickBlind (now : Nat) (a b : Bool) : OutTickBlind (execSchPoll now a b) := fun s =>
  ite_map _ (ite_map _ (pollAct_tickBlind now (pressed a) (pressed b) s) rfl) rfl

/-! ## Every instruction -/

/-- The instructions of R308: all but the tick and the operations of SCHED that test or clear the flag, or arm or disarm the
timer. -/
def FlagFree (i : Instr) : Prop := i ≠ .schTick ∧ i ≠ .schStep ∧ i ≠ .schLoad ∧ i ≠ .schSwitch

/-- They do not see the tick. -/
theorem exec_tickBlind {i : Instr} (hi : FlagFree i) : OutTickBlind (exec i) := by
  obtain ⟨htick, hstep, hload, hswitch⟩ := hi
  cases i with
  | pxcPack r g b => exact fun _ => rfl
  | pxcStore a c => exact (storePixel_tickBlind a (hi8 c) (lo8 c)).ofExcept
  | drleEnd => exact drleRecord_tickBlind 0 0
  | drleRec skip write => exact drleRecord_tickBlind skip write
  | drleBlit pos hi lo => exact (blit_tickBlind pos hi lo).ofExcept
  | drleDecode file w h x y S sx sy e len => exact execDrleDecode_tickBlind file w h x y S sx sy e len
  | drleEncode prev cur => exact fun _ => ite_map _ rfl rfl
  | drleEncodeFirst cur => exact fun _ => ite_map _ rfl rfl
  | gifHeader87a => exact gifToken_tickBlind .gifHeader87a
  | gifHeader89a => exact gifToken_tickBlind .gifHeader89a
  | gifLsd w h flags bg aspect => exact gifToken_tickBlind (.gifLsd w h flags bg aspect)
  | gifGct table => exact gifToken_tickBlind (.gifGct table)
  | gifGce body => exact gifToken_tickBlind (.gifGce body)
  | gifExt label => exact gifToken_tickBlind (.gifExt label)
  | gifImage left top w h flags => exact gifToken_tickBlind (.gifImage left top w h flags)
  | gifTrailer => exact gifToken_tickBlind .gifTrailer
  | gifUnknown intro => exact gifToken_tickBlind (.gifUnknown intro)
  | gifStart expW expH => exact execGifStart_tickBlind expW expH
  | gifNext => exact execGifNext_tickBlind
  | lzwImage => exact execLzwImage_tickBlind
  | lzwClear => exact (lzwToken_tickBlind .lzwClear).settle
  | lzwEnd => exact (lzwToken_tickBlind .lzwEnd).settle
  | lzwFirst c => exact (lzwToken_tickBlind (.lzwFirst c)).settle
  | lzwLit c => exact (lzwToken_tickBlind (.lzwLit c)).settle
  | lzwDict c => exact (lzwToken_tickBlind (.lzwDict c)).settle
  | lzwKwkwk => exact (lzwToken_tickBlind .lzwKwkwk).settle
  | lzwBadCode c => exact (lzwToken_tickBlind (.lzwBadCode c)).settle
  | schLoad => exact absurd rfl hload
  | schTick => exact absurd rfl htick
  | schStep => exact absurd rfl hstep
  | schPoll now a b => exact execSchPoll_tickBlind now a b
  | schSwitch => exact absurd rfl hswitch

/-- They leave the timer as it is. -/
theorem exec_timer {i : Instr} (hi : FlagFree i) {s t : State} (h : exec i s = .next t) : t.timer = s.timer := by
  obtain ⟨htick, hstep, hload, hswitch⟩ := hi
  cases exec_family h with
  | codec i hf hsrc => exact hf.sched.2
  | decode hf hsrc => exact hf.sched.2
  | gif i hk hg => exact hk.sched.2.1
  | schLoad h => exact absurd rfl hload
  | schTick h => exact absurd rfl htick
  | schStep h => exact absurd rfl hstep
  | schPoll h =>
    rcases execSchPoll_cases h with rfl | ⟨-, rfl | ⟨folder, rfl⟩⟩
    · rfl
    · rfl
    · rfl
  | schSwitch h => exact absurd rfl hswitch

/-- Settles O41: the instruction does not see the flag, and leaves the timer armed for a tick after it. -/
theorem tickCommutes : Obligations.TickCommutes := by
  intro i s t htick hstep hload hswitch harmed hx
  have hi : FlagFree i := ⟨htick, hstep, hload, hswitch⟩
  have harmed' : t.timer.armed = true := by rw [exec_timer hi hx]; exact harmed
  exact ⟨ticked s, ticked t, execSchTick_armed harmed, (exec_tickBlind hi s).trans (congrArg _ hx),
    execSchTick_armed harmed', rfl⟩

end Sys2Proof.Machine
end

section
/-! PROOFS. O56: the registers after the reset event, and what a reset in the middle of an operation leaves in DST
(70_reset_and_hazards.md R340, R341, 20_memory.md R73). -/

namespace Sys2Proof.Machine

/-! ## The registers -/

/-- The reset event on the machine after reset changes nothing. -/
theorem resetEvent_reset : resetEvent State.reset = State.reset := rfl

/-- Both entries of the inbox that are the reset event end in it, on whatever DST then holds (R340). -/
theorem step_eq_resetEvent {u s : State} {x : Input} {rest : List Input} (hin : u.inbox = x :: rest)
    (hr : isReset x = true) (h : step u = .next s) : ∃ v, s = resetEvent v := by
  rw [step_cons hin] at h
  cases x with
  | reset => cases h; exact ⟨_, rfl⟩
  | cut op count =>
    obtain ⟨v, -, hv⟩ := andThen_eq_next h
    cases hv
    exact ⟨_, rfl⟩
  | op i => cases hr
  | start i => cases hr
  | turn => cases hr
  | clock ms => cases hr
  | buttons a b => cases hr
  | source bytes => cases hr

/-! ## The middle of an operation -/

/-- A reset that lands in an operation which would end in `v` (entry 40). -/
theorem step_cut {u v : State} {op : Option Instr} {count : Nat} {rest : List Input}
    (hin : u.inbox = .cut op count :: rest) (h : inFlight op { u with inbox := rest } = .next v) :
    step u = .next (resetDuring v.dst ((storeOrder (pixelOrder op u.ctl v)).take count) { u with inbox := rest }) := by
  rw [step_cons hin, take, h]
  rfl

/-- What a reset in the middle of an operation that would leave DST as `full` leaves there (R340, R73). -/
theorem dstByte_resetDuring (full : Mem Byte) (reached : List Nat) (s : State) (a : Nat) :
    dstByte (resetDuring full reached s) a =
      if a ∈ reached ∧ (memRead full a).isSome then memRead full a else dstByte s a :=
  memRead_memMerge full reached s.dst a

/-- An image draws its pixels in the order of R233, whether called, offered or gone on with. -/
theorem pixelOrder_image {op : Option Instr} {ctl : Option Pos} (t : State)
    (h : op = some .gifNext ∨ op = some .lzwImage ∨ op = none ∧ (ctl = some .gifBlock ∨ ctl = some .lzwCode)) :
    pixelOrder op ctl t = imagePixels t.gif t.img := by
  rcases h with rfl | rfl | ⟨rfl, rfl | rfl⟩
  · rfl
  · rfl
  · rfl
  · rfl

/-- Any other operation than a single store draws a scaled frame's pixels (R146 to R149), if it draws at all. -/
theorem pixelOrder_frame {op : Option Instr} {ctl : Option Pos} (t : State)
    (himage : ¬ (op = some .gifNext ∨ op = some .lzwImage ∨ op = none ∧ (ctl = some .gifBlock ∨ ctl = some .lzwCode)))
    (hstore : ∀ a c, op ≠ some (.pxcStore a c)) : pixelOrder op ctl t = framePixels t.drle := by
  unfold pixelOrder
  split
  · next a c => exact absurd rfl (hstore a c)
  · exact absurd (.inl rfl) himage
  · exact absurd (.inr (.inl rfl)) himage
  · rfl
  · exact absurd (.inr (.inr ⟨rfl, .inl rfl⟩)) himage
  · exact absurd (.inr (.inr ⟨rfl, .inr rfl⟩)) himage
  · rfl

/-- Settles O56: `State.reset` and both reset entries are the reset event; the stores made before it are the first of the
operation's `pixelOrder`. -/
theorem resetLeaves : Obligations.ResetLeaves := by
  refine ⟨fun s hs => ?_, fun u rest hin => ⟨_, step_cons hin, rfl, rfl⟩, fun u v op count rest hin hv => ?_,
    ⟨.nil, .nil, .nil, .nil, .nil⟩, Nat.le_refl 0, resetEvent_schedOk State.reset, gctOk_of_empty rfl,
    oneDecoder_of_ctl_none rfl⟩
  · have hreset : ∃ v, s = resetEvent v := by
      rcases hs with rfl | ⟨u, x, rest, hin, hr, h⟩
      · exact ⟨State.reset, resetEvent_reset.symm⟩
      · exact step_eq_resetEvent hin hr h
    obtain ⟨v, rfl⟩ := hreset
    and_intros <;> rfl
  · intro leaves image
    have hleaves : leaves (pixelOrder op u.ctl v) :=
      ⟨_, step_cut hin hv, rfl, rfl, dstByte_resetDuring v.dst _ { u with inbox := rest }⟩
    refine ⟨fun a c hop => ?_, fun himage => ?_, fun himage hstore => ?_⟩
    · rw [hop] at hleaves
      exact hleaves
    · rw [pixelOrder_image v himage] at hleaves
      exact hleaves
    · rw [pixelOrder_frame v himage hstore] at hleaves
      exact hleaves

end Sys2Proof.Machine
end

section
/-! PROOFS. O50, O51: decoding and encoding are inverse, token by token (30_encoding.md sections 3 to 5). -/

namespace Sys2Proof

/-! ## Well-formed tokens -/

theorem wf_drleRec {skip write : Byte} : (Instr.drleRec skip write).wf = true ↔ ¬ (skip = 0 ∧ write = 0) := by
  simp [Instr.wf, -not_and, Classical.not_and_iff_not_or_not]

theorem wf_gifExt {label : Byte} : (Instr.gifExt label).wf = true ↔ label ≠ 0xF9 := bne_iff_ne

theorem wf_gifUnknown {b : Byte} : (Instr.gifUnknown b).wf = true ↔ b ≠ 0x21 ∧ b ≠ 0x2C ∧ b ≠ 0x3B := by
  rw [Instr.wf, Bool.and_eq_true, Bool.and_eq_true, bne_iff_ne, bne_iff_ne, bne_iff_ne, and_assoc]

/-! ## Decoding what is encoded -/

theorem decodeLsd_encoded (w h : U16) (flags bg aspect : Byte) (rest : List Byte) :
    decodeLsd ([lo8 w, hi8 w, lo8 h, hi8 h, flags, bg, aspect] ++ rest) = .ok (.gifLsd w h flags bg aspect, 7) := by
  simp [decodeLsd]

/-- A table is read back where the flags announce its length (R102). -/
theorem decodeGct_encoded {table : List Rgb} {flags : Byte} (rest : List Byte) (h : tableSize flags = table.length) :
    decodeGct flags (tableBytes table ++ rest) = .ok (.gifGct table, (tableBytes table).length) := by
  rw [decodeGct, h, readTriples_tableBytes, tableBytes_length]

/-- The data of a control extension of any length its length byte can express (R105, R106). -/
theorem decodeBlock_gce {body : List Byte} (rest : List Byte) (h : body.length ≤ 255) :
    decodeBlock ([0x21, 0xF9, BitVec.ofNat 8 body.length] ++ body ++ rest) = .ok (.gifGce body, 3 + body.length) := by
  have hlen : (BitVec.ofNat 8 body.length).toNat = body.length := by
    rw [BitVec.toNat_ofNat]; exact Nat.mod_eq_of_lt (by omega)
  show decodeGce (BitVec.ofNat 8 body.length :: (body ++ rest)) = _
  rw [decodeGce, hlen, if_pos (by simp), List.take_left]

theorem decodeBlock_ext {label : Byte} (rest : List Byte) (h : label ≠ 0xF9) :
    decodeBlock (0x21 :: label :: rest) = .ok (.gifExt label, 2) :=
  if_neg h

theorem decodeBlock_image (left top w h : U16) (flags : Byte) (rest : List Byte) :
    decodeBlock ([0x2C, lo8 left, hi8 left, lo8 top, hi8 top, lo8 w, hi8 w, lo8 h, hi8 h, flags] ++ rest) =
      .ok (.gifImage left top w h flags, 10) := by
  simp [decodeBlock, decodeImage]

theorem decodeBlock_unknown {b : Byte} (rest : List Byte) (hext : b ≠ 0x21) (himg : b ≠ 0x2C) (hend : b ≠ 0x3B) :
    decodeBlock (b :: rest) = .ok (.gifUnknown b, 1) := by
  rw [decodeBlock, if_neg hext, if_neg himg, if_neg hend]

/-- Settles O50, token by token; every other instruction has no bytes. -/
theorem decodeOfEncode : Obligations.DecodeOfEncode := by
  intro i p bytes rest flags hwf henc htable
  cases i with
  | drleEnd => cases henc; rfl
  | drleRec skip write =>
    cases henc
    show decodeRecord (skip :: write :: rest) = _
    rw [decodeRecord, if_neg (wf_drleRec.1 hwf)]
    rfl
  | gifHeader87a => cases henc; exact Machine.decodeHeader_magic87a rest
  | gifHeader89a => cases henc; exact Machine.decodeHeader_magic89a rest
  | gifLsd w h fl bg aspect => cases henc; exact decodeLsd_encoded w h fl bg aspect rest
  | gifGct table => cases henc; exact decodeGct_encoded rest (htable table rfl)
  | gifGce body =>
    cases henc
    rw [List.length_append, List.length_cons, List.length_cons, List.length_cons]
    exact decodeBlock_gce rest (of_decide_eq_true hwf)
  | gifExt label => cases henc; exact decodeBlock_ext rest (wf_gifExt.1 hwf)
  | gifImage left top w h fl => cases henc; exact decodeBlock_image left top w h fl rest
  | gifTrailer => cases henc; rfl
  | gifUnknown b =>
    cases henc
    obtain ⟨hext, himg, hend⟩ := wf_gifUnknown.1 hwf
    exact decodeBlock_unknown rest hext himg hend
  | _ => cases henc

/-! ## Encoding what is decoded -/

/-- A token read at `p` from `l`, `n` bytes long, is well formed and is written as those bytes. -/
def ReadBack (p : Pos) (l : List Byte) (i : Instr) (n : Nat) : Prop :=
  i.wf = true ∧ encode i = some (p, l.take n)

theorem decodeRecord_readBack {l : List Byte} {i : Instr} {n : Nat} (h : decodeRecord l = .ok (i, n)) :
    ReadBack .drle l i n := by
  match l with
  | [] => cases h
  | [_] => cases h
  | skip :: write :: rest =>
    rw [decodeRecord] at h
    by_cases h0 : skip = 0 ∧ write = 0
    · rw [if_pos h0] at h
      cases h
      obtain ⟨rfl, rfl⟩ := h0
      exact ⟨rfl, rfl⟩
    · rw [if_neg h0] at h
      cases h
      exact ⟨wf_drleRec.2 h0, rfl⟩

theorem decodeHeader_readBack {l : List Byte} {i : Instr} {n : Nat} (h : decodeHeader l = .ok (i, n)) :
    ReadBack .gifHeader l i n := by
  unfold decodeHeader at h
  split at h
  · cases h
  · split at h
    · next hmagic => cases h; exact ⟨rfl, by rw [hmagic]; rfl⟩
    · split at h
      · next hmagic => cases h; exact ⟨rfl, by rw [hmagic]; rfl⟩
      · cases h

theorem decodeLsd_readBack {l : List Byte} {i : Instr} {n : Nat} (h : decodeLsd l = .ok (i, n)) :
    ReadBack .gifLsd l i n := by
  unfold decodeLsd at h
  split at h
  · cases h; exact ⟨rfl, by simp [encode]⟩
  · cases h

/-- The lengths a packed byte can announce (R102). -/
theorem tableSize_mem (flags : Byte) : tableSize flags ∈ tableLengths := by
  unfold tableSize
  split
  · have hle : (flags &&& 7).toNat < 8 := by
      rw [BitVec.toNat_and]
      exact Nat.lt_succ_of_le Nat.and_le_right
    have hpow : ∀ k < 8, 2 ^ (k + 1) ∈ tableLengths := by decide
    exact hpow _ hle
  · exact .head _

theorem decodeGct_readBack {flags : Byte} {l : List Byte} {i : Instr} {n : Nat} (h : decodeGct flags l = .ok (i, n)) :
    ReadBack .gifGct l i n := by
  unfold decodeGct at h
  split at h
  · next table htable =>
    cases h
    obtain ⟨hlen, hl⟩ := readTriples_eq htable
    refine ⟨List.contains_iff_mem.2 (hlen ▸ tableSize_mem flags), ?_⟩
    rw [hl, ← hlen, ← tableBytes_length, List.take_left]
    rfl
  · cases h

theorem decodeGce_readBack {l : List Byte} {i : Instr} {n : Nat} (h : decodeGce l = .ok (i, n)) :
    ReadBack .gifBlock (0x21 :: 0xF9 :: l) i n := by
  unfold decodeGce at h
  split at h
  · next k rest =>
    split at h
    · next hk =>
      cases h
      have hlen : (rest.take k.toNat).length = k.toNat := by simpa using hk
      refine ⟨decide_eq_true ?_, ?_⟩
      · have := k.isLt; omega
      · simp [encode, hlen, Nat.add_comm 3]
    · cases h
  · cases h

theorem decodeExtension_readBack {l : List Byte} {i : Instr} {n : Nat} (h : decodeExtension l = .ok (i, n)) :
    ReadBack .gifBlock (0x21 :: l) i n := by
  unfold decodeExtension at h
  split at h
  · split at h
    · next hlabel => subst hlabel; exact decodeGce_readBack h
    · next hlabel => cases h; exact ⟨wf_gifExt.2 hlabel, rfl⟩
  · cases h

theorem decodeImage_readBack {l : List Byte} {i : Instr} {n : Nat} (h : decodeImage l = .ok (i, n)) :
    ReadBack .gifBlock (0x2C :: l) i n := by
  unfold decodeImage at h
  split at h
  · cases h; exact ⟨rfl, by simp [encode]⟩
  · cases h

theorem decodeBlock_readBack {l : List Byte} {i : Instr} {n : Nat} (h : decodeBlock l = .ok (i, n)) :
    ReadBack .gifBlock l i n := by
  unfold decodeBlock at h
  split at h
  · next b rest =>
    split at h
    · next hb => subst hb; exact decodeExtension_readBack h
    · next hext =>
      split at h
      · next hb => subst hb; exact decodeImage_readBack h
      · next himg =>
        split at h
        · next hb => cases h; subst hb; exact ⟨rfl, rfl⟩
        · next hend => cases h; exact ⟨wf_gifUnknown.2 ⟨hext, himg, hend⟩, rfl⟩
  · cases h

theorem decodeAt_readBack {p : Pos} {flags : Byte} {l : List Byte} {i : Instr} {n : Nat}
    (h : decodeAt p flags l = .ok (i, n)) : ReadBack p l i n := by
  cases p with
  | drle => exact decodeRecord_readBack h
  | gifHeader => exact decodeHeader_readBack h
  | gifLsd => exact decodeLsd_readBack h
  | gifGct => exact decodeGct_readBack h
  | gifBlock => exact decodeBlock_readBack h
  | lzwCode => cases h

/-- The class of a code value keeps the value (R111). -/
theorem encodeCode_decodeCode (x : CodeCtx) (c : Nat) : encodeCode x (decodeCode x c) = some c := by
  rcases Machine.decodeCode_cases x c with ⟨hc, hd⟩ | ⟨-, hc, hd⟩ | ⟨-, -, -, hd⟩ | ⟨-, -, -, -, hd⟩ |
    ⟨-, -, -, -, -, hd⟩ | ⟨-, hc, -, hd⟩ | hd
  · rw [hd, hc]; rfl
  · rw [hd, hc]; rfl
  · rw [hd]; rfl
  · rw [hd]; rfl
  · rw [hd]; rfl
  · rw [hd, hc]; rfl
  · rw [hd]; rfl

/-- Settles O51, by the position the token is read at. -/
theorem encodeOfDecode : Obligations.EncodeOfDecode :=
  ⟨fun _ _ _ _ _ h => ⟨(decodeAt_readBack h).1, decodeAt_length h, (decodeAt_readBack h).2⟩, encodeCode_decodeCode⟩

end Sys2Proof
end

section
/-! PROOFS. O5, O6: the block DRLE.BLIT stores, and the checks of DRLE.DECODE (41_delta_rle.md R141, R142, R149 to
R151). -/

namespace Sys2Proof.Machine

/-! ## One block -/

/-- The rows of a block, by whether its source row is the frame's last (R150). -/
theorem blitRows_eq {d : DrleRegs} {y : Nat} (hh : 1 ≤ d.h) :
    blitRows d y = d.scaleY + if y = d.h - 1 then d.extra else 0 := by
  have hlast : y + 1 = d.h ↔ y = d.h - 1 := by omega
  simp only [blitRows, hlast]

/-- A block of a frame that fits is stored whole, and DST alone changes (R149). -/
theorem exec_drleBlit {pos : Nat} (hi lo : Byte) {s : State} (hf : FrameFits s.drle s.dstLen)
    (hp : pos < s.drle.w * s.drle.h) :
    exec (.drleBlit pos hi lo) s = .next { s with dst := pixelsMem (blitAddrs s.drle pos) hi lo s.dst } :=
  congrArg ofExcept (blit_eq ((s.drle.fits_iff s.dstLen).2 hf) hp)

/-- The bytes of a block's pixels after it is stored. -/
theorem memRead_block_pixel {d : DrleRegs} {pos a : Nat} (hi lo : Byte) (m : Mem Byte) (ha : a ∈ blitAddrs d pos) :
    memRead (pixelsMem (blitAddrs d pos) hi lo m) a = some hi ∧
      memRead (pixelsMem (blitAddrs d pos) hi lo m) (a + 1) = some lo := by
  have hodd : a + 1 ∉ blitAddrs d pos := fun h => by
    have := blitAddrs_even ha
    have := blitAddrs_even h
    omega
  rw [memRead_pixelsMem _ fun _ => blitAddrs_even, memRead_pixelsMem _ fun _ => blitAddrs_even, if_pos ha, if_neg hodd,
    if_pos ⟨a, ha, rfl⟩]
  exact ⟨rfl, rfl⟩

/-- Every other byte stays. -/
theorem memRead_block_outside {d : DrleRegs} {pos b : Nat} (hi lo : Byte) (m : Mem Byte)
    (hb : ∀ a ∈ blitAddrs d pos, b ≠ a ∧ b ≠ a + 1) :
    memRead (pixelsMem (blitAddrs d pos) hi lo m) b = memRead m b := by
  rw [memRead_pixelsMem _ fun _ => blitAddrs_even, if_neg fun h => (hb b h).1 rfl,
    if_neg fun ⟨a, ha, he⟩ => (hb a ha).2 he]

/-- At scale 1, offset 0, no extra rows and the frame's own stride the block is one pixel (R151), as in a frame set up
so. -/
theorem blitAddrs_unscaled_regs {s : State} (hx : s.drle.x = 0) (hy : s.drle.y = 0) (hsx : s.drle.scaleX = 1)
    (hsy : s.drle.scaleY = 1) (he : s.drle.extra = 0) (hS : s.drle.stride = s.drle.w) (pos : Nat) :
    blitAddrs s.drle pos = [2 * pos] := by
  rw [← blitAddrs_unscaled [] s.drle.w s.drle.h 0 s pos]
  simp only [blitAddrs, blitRows, drleSetup, hx, hy, hsx, hsy, he, hS]
  rfl

/-- Settles O5: the block's addresses are those of R149 and R150, stored by `pixelsMem`. -/
theorem blitWritesBlock : Obligations.BlitWritesBlock := by
  refine ⟨fun pos hi lo s hf hp => ?_, fun pos hi lo s hf hp hx hy hsx hsy he hS => ?_⟩
  · intro d rows addr
    have hrows : blitRows d (pos / d.w) = rows := blitRows_eq hf.h
    have hmem : ∀ a, a ∈ blitAddrs d pos ↔ ∃ ry < rows, ∃ rx < d.scaleX, a = addr ry rx := fun a =>
      hrows ▸ mem_blitAddrs
    refine ⟨_, exec_drleBlit hi lo hf hp, rfl, fun ry hry rx hrx => ?_, fun b hb => ?_⟩
    · exact memRead_block_pixel hi lo s.dst ((hmem _).2 ⟨ry, hry, rx, hrx, rfl⟩)
    · refine memRead_block_outside hi lo s.dst fun a ha => ?_
      obtain ⟨ry, hry, rx, hrx, rfl⟩ := (hmem a).1 ha
      exact hb ry hry rx hrx
  · rw [exec_drleBlit hi lo hf hp, blitAddrs_unscaled_regs hx hy hsx hsy he hS]
    rfl

/-! ## The checks of a decode -/

theorem drleCheck_param {w h x y stride sx sy e len : Nat} (h0 : w = 0 ∨ h = 0 ∨ stride = 0 ∨ sx = 0 ∨ sy = 0) :
    drleCheck w h x y stride sx sy e len = some .drleParam :=
  if_pos h0

theorem drleCheck_geometry {w h x y stride sx sy e len : Nat} (h1 : 1 ≤ w ∧ 1 ≤ h ∧ 1 ≤ stride ∧ 1 ≤ sx ∧ 1 ≤ sy)
    (hout : stride < x + w * sx ∨ len / (2 * stride) < y + h * sy + e) :
    drleCheck w h x y stride sx sy e len = some .drleGeometry := by
  rw [drleCheck, if_neg (by omega), if_pos hout]

/-- A check that does not pass is the call's outcome, and nothing else changes (R312). -/
theorem execDrleDecode_raised {file : List Byte} {w h x y stride sx sy e len : Nat} {f : ModelFault} (s : State)
    (hc : drleCheck w h x y stride sx sy e len = some f) :
    execDrleDecode file w h x y stride sx sy e len s = .next (callRaise f s) := by
  rw [execDrleDecode, hc]

/-- Settles O6: the checks in their order; what both leave for the addresses is `blit_in_rect`. -/
theorem decodeChecks : Obligations.DecodeChecks := by
  intro file w h x y stride sx sy e len s
  refine ⟨fun h0 => execDrleDecode_raised s (drleCheck_param h0), fun h1 =>
    ⟨fun hout => execDrleDecode_raised s (drleCheck_geometry h1 hout), fun ⟨hcols, hrows⟩ pos hpos a ha => ?_⟩⟩
  obtain ⟨hw, hh, hS, hsx, hsy⟩ := h1
  let d := (drleSetup file w h x y stride sx sy e len s).drle
  have hfits : d.fits len := (d.fits_iff len).2 ⟨hw, hh, hS, hsx, hsy, hcols, hrows⟩
  obtain ⟨ry, hry, rx, hrx, rfl⟩ := mem_blitAddrs.1 ha
  obtain ⟨hcol, hrow, hlen⟩ := blit_in_rect (d := d) hfits hpos hry hrx
  exact ⟨_, _, rfl, Nat.le_add_right _ _, hcol.trans_le hcols, Nat.le_add_right _ _, hrow.trans_le hrows, hlen⟩

end Sys2Proof.Machine
end

section
/-! PROOFS. O11: the reference encoder's first frame (41_delta_rle.md R156), as the greedy scan in which no pixel is the
same. -/

namespace Sys2Proof.Machine

/-- The pixels of a first frame carry its bytes. -/
theorem pixelBytes_firstPixels {cur : List Byte} (heven : cur.length % 2 = 0) : pixelBytes (firstPixels cur) = cur := by
  fun_induction firstPixels cur with
  | case1 c0 c1 cs ih =>
    simp only [List.length_cons] at heven
    rw [pixelBytes, ih (by omega)]
  | case2 cur hshort =>
    match cur with
    | [] => rfl
    | [_] => exact absurd heven (by simp)
    | c0 :: c1 :: cs => exact absurd rfl (hshort c0 c1 cs)

theorem firstPixels_length {cur : List Byte} (heven : cur.length % 2 = 0) :
    (firstPixels cur).length = cur.length / 2 := by
  have h := pixelBytes_length (firstPixels cur)
  rw [pixelBytes_firstPixels heven] at h
  omega

/-- Every pixel of a first frame counts as changed (R156). -/
theorem firstPixels_changed {cur : List Byte} : ∀ p ∈ firstPixels cur, p.same = false := by
  fun_induction firstPixels cur with
  | case1 c0 c1 cs ih => exact List.forall_mem_cons.2 ⟨rfl, ih⟩
  | case2 => simp

/-- A scan that finds no pixel the same skips nothing and writes 255 pixels, or all that are left. -/
theorem greedy_changed_cons {n i k w : Nat} {rs : List (Nat × Nat)}
    (h : Greedy (fun _ => False) n i ((k, w) :: rs)) :
    k = 0 ∧ w = min 255 (n - i) ∧ i < n ∧ Greedy (fun _ => False) n (i + w) rs := by
  obtain ⟨hi, hle, -, hw, hskip, -, -, hfull, hrest⟩ := h
  have hk : k = 0 := by
    by_contra hk
    exact hskip i (Nat.le_refl i) (by omega)
  subst hk
  have hend : w < 255 → ¬ i + w < n := hfull
  exact ⟨rfl, by omega, hi, hrest⟩

/-- Records of 255 pixels from pixel `i` on, then one of the rest (R156). -/
def fullRecords (cur : List Byte) (n i : Nat) : List Byte :=
  ((List.range ((n - i) / 255)).flatMap fun k => [0, 255] ++ (cur.drop (2 * (i + 255 * k))).take (2 * 255)) ++
    if (n - i) % 255 = 0 then []
    else [0, BitVec.ofNat 8 ((n - i) % 255)] ++ cur.drop (2 * (i + 255 * ((n - i) / 255)))

theorem fullRecords_end (cur : List Byte) (n : Nat) : fullRecords cur n n = [] := by
  simp [fullRecords]

theorem fullRecords_rest (cur : List Byte) {n i : Nat} (hi : i < n) (h : n - i < 255) :
    fullRecords cur n i = 0 :: BitVec.ofNat 8 (n - i) :: cur.drop (2 * i) := by
  simp [fullRecords, Nat.div_eq_of_lt h, Nat.mod_eq_of_lt h, show n - i ≠ 0 by omega]

theorem fullRecords_full (cur : List Byte) {n i : Nat} (h : 255 ≤ n - i) :
    fullRecords cur n i =
      0 :: 255 :: ((cur.drop (2 * i)).take (2 * 255) ++ fullRecords cur n (i + 255)) := by
  obtain ⟨m, hm⟩ := Nat.exists_eq_add_of_le' h
  have hrest : n - (i + 255) = m := by omega
  have hshift : ∀ k, i + 255 * (k + 1) = i + 255 + 255 * k := fun k => by ring
  simp only [fullRecords, hm, hrest, Nat.add_div_right m (show 0 < 255 by decide), Nat.add_mod_right,
    List.range_succ_eq_map, List.flatMap_cons, List.flatMap_map, hshift, Nat.mul_zero, Nat.add_zero]
  simp

/-- The records of such a scan are the full ones and a rest. -/
theorem recordBytes_changed {cur : List Byte} {n : Nat} (hlen : cur.length = 2 * n) {rs : List (Nat × Nat)} {i : Nat}
    (h : Greedy (fun _ => False) n i rs) : recordBytes cur i rs = fullRecords cur n i := by
  induction rs generalizing i with
  | nil => cases h; exact (fullRecords_end cur _).symm
  | cons r rs ih =>
    obtain ⟨k, w⟩ := r
    obtain ⟨rfl, hw, hi, hrest⟩ := greedy_changed_cons h
    rw [recordBytes, Nat.add_zero, ih hrest]
    by_cases hfull : 255 ≤ n - i
    · rw [show w = 255 by omega, fullRecords_full cur hfull]
      rfl
    · rw [show w = n - i by omega, Nat.add_sub_cancel' hi.le, fullRecords_end, fullRecords_rest cur hi (by omega),
        List.take_of_length_le (by rw [List.length_drop]; omega), List.append_nil]
      rfl

theorem drleEncodeFirst_eq {cur : List Byte} (heven : cur.length % 2 = 0) :
    drleEncodeFirst cur = fullRecords cur (cur.length / 2) 0 := by
  have hsame : ∀ j (hj : j < (firstPixels cur).length), (firstPixels cur)[j].same = true ↔ False := fun j hj => by
    simp [firstPixels_changed _ (List.getElem_mem hj)]
  obtain ⟨rs, hrs, hbytes⟩ := encodeLoop_greedy (same := fun _ => False) hsame (firstPixels cur).length 0
    (Nat.zero_le _) (by omega)
  rw [pixelBytes_firstPixels heven] at hbytes
  rw [firstPixels_length heven] at hrs
  exact hbytes.trans (recordBytes_changed (by omega) hrs)

/-- Settles O11: the stream of `drleEncodeFirst_eq`, from pixel 0 on. -/
theorem encodeFirstIsFullFrame : Obligations.EncodeFirstIsFullFrame := by
  intro cur s heven
  have hexec : exec (.drleEncodeFirst cur) s = .next { s with ret := .stream (drleEncodeFirst cur) } := if_pos heven
  rw [hexec, drleEncodeFirst_eq heven]
  simp only [fullRecords, Nat.sub_zero, Nat.zero_add]

end Sys2Proof.Machine
end

section
/-! PROOFS. O14 to O17, O19: the parts of a GIF stream, each as a token and as the bytes it is read from
(42_gif_container.md R173 to R186). -/

namespace Sys2Proof.Machine

/-! ## A step at a token made of bytes -/

/-- A token that SRC holds is run, the cursor moved past it. -/
theorem step_decoded {s : State} {p : Pos} {i : Instr} {n : Nat} (hi : s.inbox = []) (hc : s.ctl = some p)
    (hd : decodeAt p s.gif.scrFlags (s.src.drop s.sp) = .ok (i, n)) : step s = exec i { s with sp := s.sp + n } := by
  rw [step_at hi hc, fetchAt_decoded hd]

/-- Where SRC ends inside a token, the fetch ends as the end of SRC does there. -/
theorem fetchAt_truncated {p : Pos} {s : State}
    (hd : decodeAt p s.gif.scrFlags (s.src.drop s.sp) = .error .truncated) :
    fetchAt p s = .ended (endOfStream p { s with sp := s.src.length }) := by
  have hfetch : fetchBytes p s = .ended (endOfStream p { s with sp := s.src.length }) := by
    unfold fetchBytes
    rw [hd]
  cases p with
  | lzwCode => cases hd
  | _ => exact hfetch

theorem step_truncated {s : State} {p : Pos} (hi : s.inbox = []) (hc : s.ctl = some p)
    (hd : decodeAt p s.gif.scrFlags (s.src.drop s.sp) = .error .truncated) :
    step s = .next (endOfStream p { s with sp := s.src.length }) := by
  rw [step_at hi hc, fetchAt_truncated hd]

/-- Fewer bytes from the cursor on than a token needs. -/
theorem length_drop_lt {α : Type} {l : List α} {a n : Nat} (hn : 0 < n) (h : l.length < a + n) :
    (l.drop a).length < n := by
  rw [List.length_drop]; omega

/-! ## The header -/

theorem fetchAt_badMagic {s : State} (hd : decodeHeader (s.src.drop s.sp) = .error .badMagic) :
    fetchAt .gifHeader s = .ended (formatError .badMagic { s with sp := s.sp + 6 }) := by
  have hd' : decodeAt .gifHeader s.gif.scrFlags (s.src.drop s.sp) = .error .badMagic := hd
  show fetchBytes .gifHeader s = _
  unfold fetchBytes
  rw [hd']

/-- Six bytes that are a magic are a header, whichever it is, and the screen descriptor is next (R173, R174). -/
theorem decodeHeader_magic {l : List Byte} (h : l.take 6 = magic87a ∨ l.take 6 = magic89a) :
    ∃ i, decodeHeader l = .ok (i, 6) ∧ (∀ s, exec i s = .next (headerDone s)) ∧
      ∀ s, gifToken i s = .next (headerDone s) := by
  rw [← List.take_append_drop 6 l]
  rcases h with h | h
  · rw [h]
    exact ⟨_, decodeHeader_magic87a _, fun _ => rfl, fun _ => rfl⟩
  · rw [h]
    exact ⟨_, decodeHeader_magic89a _, fun _ => rfl, fun _ => rfl⟩

theorem decodeHeader_other {l : List Byte} (hlen : 6 ≤ l.length) (h87 : l.take 6 ≠ magic87a)
    (h89 : l.take 6 ≠ magic89a) : decodeHeader l = .error .badMagic := by
  rw [decodeHeader, if_neg (Nat.not_lt.2 hlen), if_neg h87, if_neg h89]

theorem decodeHeader_short {l : List Byte} (h : l.length < 6) : decodeHeader l = .error .truncated := if_pos h

/-- Settles O14: six bytes by their comparison with the two magics, fewer than six as the end of SRC. -/
theorem headerMagic : Obligations.HeaderMagic := by
  refine ⟨fun s => ⟨rfl, rfl⟩, fun s hi hc => ⟨fun hlen => ⟨fun hmagic => ?_, fun h87 h89 => ?_⟩, fun hlen => ?_⟩⟩
  · obtain ⟨i, hdec, hexec, -⟩ := decodeHeader_magic hmagic
    rw [step_decoded hi hc hdec, hexec]
    rfl
  · have hdec := decodeHeader_other (by rw [List.length_drop]; omega) h87 h89
    rw [step_at hi hc, fetchAt_badMagic hdec]
    rfl
  · exact step_truncated hi hc (decodeHeader_short (length_drop_lt (by decide) hlen))

/-! ## The screen descriptor -/

theorem execGifLsd_expected {w h : U16} (flags bg aspect : Byte) {s : State}
    (hsize : w.toNat = s.gif.expW ∧ h.toNat = s.gif.expH) :
    execGifLsd w h flags bg aspect s = .next { s with
      ctl := some .gifGct, gif := { s.gif with scrW := w, scrH := h, scrFlags := flags, bgIndex := bg } } :=
  if_neg (by omega)

theorem execGifLsd_mismatch {w h : U16} (flags bg aspect : Byte) {s : State}
    (hsize : w.toNat ≠ s.gif.expW ∨ h.toNat ≠ s.gif.expH) :
    execGifLsd w h flags bg aspect s = .next (formatError .sizeMismatch { s with
      gif := { s.gif with scrW := w, scrH := h, scrFlags := flags, bgIndex := bg } }) :=
  if_pos hsize

theorem decodeLsd_short {l : List Byte} (h : l.length < 7) : decodeLsd l = .error .truncated := by
  unfold decodeLsd
  split
  · simp only [List.length_cons] at h; omega
  · rfl

/-- Settles O15: the test of the size as two branches of the token; the seven bytes, or fewer, through the decoder. -/
theorem screenDescriptor : Obligations.ScreenDescriptor := by
  refine ⟨fun w h flags bg aspect s => ⟨execGifLsd_expected flags bg aspect, execGifLsd_mismatch flags bg aspect⟩,
    fun s hi hc => ⟨fun w0 w1 h0 h1 flags bg aspect rest hsrc => ?_, fun hlen => ?_⟩⟩
  · refine ⟨le16 w0 w1, le16 h0 h1, le16_toNat w0 w1, le16_toNat h0 h1, step_decoded hi hc ?_⟩
    rw [hsrc]
    rfl
  · exact step_truncated hi hc (decodeLsd_short (length_drop_lt (by decide) hlen))

/-! ## The global colour table -/

theorem exec_gifGct (table : List Rgb) (s : State) :
    exec (.gifGct table) s = .next { s with
      palG := writePalette table 0 s.palG, ctl := none
      gif := { s.gif with gctLen := table.length, state := .ready } } := rfl

theorem tableSize_of_set {flags : Byte} (h : flags.getLsbD 7 = true) :
    tableSize flags = 1 <<< ((flags &&& 7).toNat + 1) := by
  rw [tableSize, if_pos h, Nat.one_shiftLeft]

theorem tableSize_of_clear {flags : Byte} (h : flags.getLsbD 7 = false) : tableSize flags = 0 :=
  if_neg (by rw [h]; exact Bool.false_ne_true)

theorem decodeGct_of_read {flags : Byte} {l : List Byte} {table : List Rgb}
    (h : readTriples (tableSize flags) l = some table) :
    decodeGct flags l = .ok (.gifGct table, 3 * tableSize flags) := by
  rw [decodeGct, h]

theorem decodeGct_short {flags : Byte} {l : List Byte} (h : l.length < 3 * tableSize flags) :
    decodeGct flags l = .error .truncated := by
  rw [decodeGct, readTriples_none _ h]

theorem getD_drop {α : Type} (l : List α) (a k : Nat) (x : α) : (l.drop a).getD k x = l.getD (a + k) x := by
  rw [List.getD_eq_getElem?_getD, List.getElem?_drop, List.getD_eq_getElem?_getD]

/-- A table that SRC holds is written to PALG whole (R178). -/
theorem step_gct_read {s : State} {n : Nat} (hi : s.inbox = []) (hc : s.ctl = some .gifGct)
    (hn : tableSize s.gif.scrFlags = n) (hlen : 3 * n ≤ (s.src.drop s.sp).length) :
    ∃ table : List Rgb, table.length = n ∧ readTriples n (s.src.drop s.sp) = some table ∧
      step s = .next { s with
        sp := s.sp + 3 * n, palG := writePalette table 0 s.palG, ctl := none
        gif := { s.gif with gctLen := n, state := .ready } } := by
  obtain ⟨table, hread, htab⟩ := readTriples_some n hlen
  subst hn
  refine ⟨table, htab, hread, ?_⟩
  rw [step_decoded hi hc (decodeGct_of_read hread), exec_gifGct, htab]

/-- Settles O16: the table read by `step_gct_read`, entry by entry by `readTriples_get`. -/
theorem globalColourTable : Obligations.GlobalColourTable := by
  refine ⟨fun table s => ⟨_, exec_gifGct table s, rfl, fun k => memRead_writePalette table k s.palG⟩,
    fun s hi hc => ⟨fun hset => ?_, fun hclear => ?_⟩⟩
  · intro n
    have hn : tableSize s.gif.scrFlags = n := tableSize_of_set hset
    refine ⟨fun hlen => ?_, fun hlen => ?_⟩
    · obtain ⟨table, htab, hread, hstep⟩ := step_gct_read hi hc hn (by rw [List.length_drop]; omega)
      refine ⟨_, hstep, rfl, fun k hk => ?_, fun k hk => ?_⟩
      · have hentry := readTriples_get hread k hk
        rw [getD_drop, getD_drop, getD_drop, List.getElem?_eq_getElem (by omega)] at hentry
        rw [memRead_writePalette, dif_pos (by omega)]
        exact hentry
      · rw [memRead_writePalette, dif_neg (by omega)]
    · have hpos : 0 < n := by
        rw [← hn, tableSize, if_pos hset]
        exact Nat.two_pow_pos _
      exact step_truncated hi hc (decodeGct_short (hn ▸ length_drop_lt (Nat.mul_pos (by decide) hpos) hlen))
  · obtain ⟨table, htab, -, hstep⟩ := step_gct_read hi hc (tableSize_of_clear hclear) (Nat.zero_le _)
    rw [hstep, List.eq_nil_of_length_eq_zero htab]
    rfl

/-! ## The control extension -/

theorem execGifGce_cons {body : List Byte} {s : State} {n : Nat} (hb : body ≠ []) (hsp : s.sp ≤ s.src.length)
    (hd : Drains (s.src.drop s.sp) n) :
    execGifGce body s = .next { s with sp := s.sp + n, gce := (gceFields body).getD s.gce } := by
  cases body with
  | nil => exact absurd rfl hb
  | cons b bs =>
    exact congrArg _ (drainSubBlocks_eq (s := { s with gce := (gceFields (b :: bs)).getD s.gce }) hd hsp)

/-- A first sub-block of another length than four leaves the registers (R182). -/
theorem gceFields_none {body : List Byte} (h : body.length ≠ 4) : gceFields body = none := by
  unfold gceFields
  split
  · exact absurd rfl h
  · rfl

theorem decodeGce_whole {k : Byte} {d : List Byte} (rest : List Byte) (h : d.length = k.toNat) :
    decodeGce (k :: (d ++ rest)) = .ok (.gifGce d, 3 + d.length) := by
  rw [decodeGce, ← h, if_pos (by simp), List.take_left]

theorem decodeGce_cut {tail : List Byte}
    (h : tail = [] ∨ ∃ (k : Byte) (d : List Byte), tail = k :: d ∧ d.length < k.toNat) :
    decodeGce tail = .error .truncated := by
  rcases h with rfl | ⟨k, d, rfl, hd⟩
  · rfl
  · exact if_neg (Nat.not_le.2 hd)

/-- Settles O17: the first sub-block by its length, then the bytes it is read from. -/
theorem controlExtension : Obligations.ControlExtension := by
  refine ⟨fun body s n hsp hd => ⟨fun hb => ?_, fun packed d0 d1 idx hb => ?_, fun hb hlen => ?_⟩,
    fun s tail hi hc hsp hsrc => ⟨fun k d rest htail hk => ?_, fun hcut => ?_⟩⟩
  · subst hb; rfl
  · subst hb
    exact execGifGce_cons (List.cons_ne_nil _ _) hsp hd
  · refine (execGifGce_cons hb hsp hd).trans ?_
    rw [gceFields_none hlen]
    rfl
  · have hdec : decodeAt .gifBlock s.gif.scrFlags (s.src.drop s.sp) = .ok (.gifGce d, 3 + d.length) := by
      rw [hsrc, htail]
      exact decodeGce_whole rest hk
    rw [step_decoded hi hc hdec, Nat.add_assoc]
  · have hdec : decodeAt .gifBlock s.gif.scrFlags (s.src.drop s.sp) = .error .truncated := by
      rw [hsrc]
      exact decodeGce_cut hcut
    exact step_truncated hi hc hdec

/-! ## The image descriptor -/

theorem execGifImage_interlaced (left top w h : U16) {flags : Byte} (s : State) (hflag : flags.getLsbD 6 = true) :
    execGifImage left top w h flags s = .next (formatError .interlaced (setDescriptor left top w h flags s)) :=
  if_pos hflag

theorem execGifImage_outside {left top w h : U16} {flags : Byte} {s : State} (hflag : flags.getLsbD 6 = false)
    (hout : s.gif.scrW.toNat < left.toNat + w.toNat ∨ s.gif.scrH.toNat < top.toNat + h.toNat) :
    execGifImage left top w h flags s = .next (gifRaise .gifImageRect (setDescriptor left top w h flags s)) := by
  have hflag' : ¬ interlaceFlag flags = true := by rw [interlaceFlag, hflag]; exact Bool.false_ne_true
  exact (if_neg hflag').trans (if_pos hout)

theorem decodeImage_short {l : List Byte} (h : l.length < 9) : decodeImage l = .error .truncated := by
  unfold decodeImage
  split
  · simp only [List.length_cons] at h; omega
  · rfl

/-- Settles O19: the checks in the order of R310; the addresses of an image that passes them by `imgAddr_in`. -/
theorem imageDescriptorChecks : Obligations.ImageDescriptorChecks := by
  refine ⟨fun left top w h flags s => ⟨execGifImage_interlaced left top w h s, execGifImage_outside,
      fun hx hy k hk => ?_⟩,
    fun s hi hc => ⟨fun l0 l1 t0 t1 w0 w1 h0 h1 flags rest hsrc => ?_, fun d hsrc hlen => ?_⟩⟩
  · obtain ⟨hcol, hrow, hlt⟩ := imgAddr_in (g := s.gif) (m := (setDescriptor left top w h flags s).img) hx hy hk
    exact ⟨_, _, rfl, Nat.le_add_right _ _, hcol, Nat.le_add_right _ _, hrow, hlt⟩
  · refine step_decoded hi hc ?_
    rw [hsrc]
    rfl
  · have hdec : decodeAt .gifBlock s.gif.scrFlags (s.src.drop s.sp) = .error .truncated := by
      rw [hsrc]
      exact decodeImage_short hlen
    exact step_truncated hi hc hdec

end Sys2Proof.Machine
end

section
/-! PROOFS. O22, O24: GIF.NEXT and GIF.START as whole commands (42_gif_container.md R171, R172). -/

namespace Sys2Proof.Machine

/-! ## GIF.NEXT -/

/-- Settles O22: the block loop's outcome, and what any run of it keeps. -/
theorem nextEndsInOneOutcome : Obligations.NextEndsInOneOutcome := by
  refine fun s => ⟨fun h => if_neg h, fun hready hcur hgct hfits => ?_⟩
  have hexec : exec .gifNext s = gifRun (gifFuel s) { s with ctl := some .gifBlock } := if_pos hready
  obtain ⟨t, hrun, ho⟩ := gifRun_block (gifFuel s) (s := { s with ctl := some .gifBlock }) rfl hcur hgct hfits
    (by show s.src.length - s.sp < s.src.length + 4; omega)
  have hk := gifRun_keeps _ hrun
  refine ⟨t, hexec.trans hrun, ho.outcome.of_out rfl, ho.ctl, hk.cursor hcur, ?_, fun b hb => ho.dst b hb⟩
  conv_lhs => rw [hk.frame, ho.ctl, ho.palG, ho.gif, ho.dstLen]

/-! ## GIF.START -/

/-! ### Its three parts -/

/-- Where GIF.START ends: READY with no event, or one of the outcomes of the header parts; DST is not touched (R171). -/
structure StartOutcome (s t : State) : Prop where
  dst : t.dst = s.dst
  ctl : t.ctl = none
  exit : t.gif.state = .ready ∧ t.out = s.out ∨
    t.gif.state = .done ∧ t.out = s.out ++ [.streamEnd] ∨
    t.gif.state = .error ∧ (t.out = s.out ++ [.error .badMagic] ∨ t.out = s.out ++ [.error .sizeMismatch])

/-- An operation that the fetch of its next token ends. -/
theorem gifRun_ended (fuel : Nat) {s u : State} {p : Pos} (hp : gifPos s.ctl = some p) (hf : fetchAt p s = .ended u) :
    gifRun (fuel + 1) s = .next u := by
  simp only [gifRun, hp, hf]

/-- One turn at a token that SRC holds. -/
theorem gifRun_decoded (fuel : Nat) {s : State} {p : Pos} {i : Instr} {n : Nat} (hp : gifPos s.ctl = some p)
    (hd : decodeAt p s.gif.scrFlags (s.src.drop s.sp) = .ok (i, n)) :
    gifRun (fuel + 1) s = andThen (gifToken i { s with sp := s.sp + n }) (gifRun fuel) :=
  gifRun_token fuel hp (fetchAt_decoded hd)

/-- One turn at a token inside which SRC ends. -/
theorem gifRun_truncated (fuel : Nat) {s : State} {p : Pos} (hp : gifPos s.ctl = some p)
    (hd : decodeAt p s.gif.scrFlags (s.src.drop s.sp) = .error .truncated) :
    gifRun (fuel + 1) s = .next (endOfStream p { s with sp := s.src.length }) :=
  gifRun_ended fuel hp (fetchAt_truncated hd)

/-- A header with a magic: the screen descriptor is next (R173). -/
theorem gifRun_magic (fuel : Nat) {s : State} (hc : s.ctl = some .gifHeader)
    (hmagic : (s.src.drop s.sp).take 6 = magic87a ∨ (s.src.drop s.sp).take 6 = magic89a) :
    gifRun (fuel + 1) s = gifRun fuel (headerDone { s with sp := s.sp + 6 }) := by
  have hp : gifPos s.ctl = some .gifHeader := by rw [hc]; rfl
  obtain ⟨i, hdec, -, htok⟩ := decodeHeader_magic hmagic
  rw [gifRun_decoded fuel hp hdec, htok, andThen_next]

theorem gifToken_gifLsd (w h : U16) (flags bg aspect : Byte) (s : State) :
    gifToken (.gifLsd w h flags bg aspect) s = execGifLsd w h flags bg aspect s := rfl

/-- A screen descriptor of the expected size read: the table is next (R176). -/
def screenLoaded (w h : U16) (flags bg : Byte) (s : State) : State :=
  { s with
    sp := s.sp + 7, ctl := some .gifGct
    gif := { s.gif with scrW := w, scrH := h, scrFlags := flags, bgIndex := bg } }

theorem gifRun_screen (fuel : Nat) {w h : U16} {flags bg aspect : Byte} {s : State} (hc : s.ctl = some .gifLsd)
    (hdec : decodeLsd (s.src.drop s.sp) = .ok (.gifLsd w h flags bg aspect, 7))
    (hsize : w.toNat = s.gif.expW ∧ h.toNat = s.gif.expH) :
    gifRun (fuel + 1) s = gifRun fuel (screenLoaded w h flags bg s) := by
  have hp : gifPos s.ctl = some .gifLsd := by rw [hc]; rfl
  rw [gifRun_decoded fuel hp hdec, gifToken_gifLsd,
    execGifLsd_expected flags bg aspect (s := { s with sp := s.sp + 7 }) hsize, andThen_next]
  rfl

/-- The global colour table read: the stream is ready (R178, entry 20). -/
def globalTableLoaded (table : List Rgb) (s : State) : State :=
  { s with
    sp := s.sp + 3 * table.length, ctl := none, palG := writePalette table 0 s.palG
    gif := { s.gif with gctLen := table.length, state := .ready } }

theorem gifRun_table (fuel : Nat) {table : List Rgb} {s : State} (hc : s.ctl = some .gifGct)
    (hread : readTriples (tableSize s.gif.scrFlags) (s.src.drop s.sp) = some table) :
    gifRun (fuel + 1) s = .next (globalTableLoaded table s) := by
  have hp : gifPos s.ctl = some .gifGct := by rw [hc]; rfl
  rw [gifRun_decoded fuel hp (decodeGct_of_read hread), ← (readTriples_eq hread).1]
  exact gifRun_stopped fuel rfl

/-! ### Where it ends -/

/-- The run from the global colour table on: READY, or the end of SRC. -/
theorem gifRun_gct_outcome (fuel : Nat) {s : State} (hc : s.ctl = some .gifGct) :
    ∃ t, gifRun (fuel + 1) s = .next t ∧ StartOutcome s t := by
  have hp : gifPos s.ctl = some .gifGct := by rw [hc]; rfl
  cases hread : readTriples (tableSize s.gif.scrFlags) (s.src.drop s.sp) with
  | some table => exact ⟨_, gifRun_table fuel hc hread, rfl, rfl, .inl ⟨rfl, rfl⟩⟩
  | none =>
    have hdec : decodeGct s.gif.scrFlags (s.src.drop s.sp) = .error .truncated := by rw [decodeGct, hread]
    exact ⟨_, gifRun_truncated fuel hp hdec, rfl, rfl, .inr (.inl ⟨rfl, rfl⟩)⟩

theorem decodeLsd_cases (l : List Byte) :
    (∃ w h flags bg aspect, decodeLsd l = .ok (.gifLsd w h flags bg aspect, 7)) ∨ decodeLsd l = .error .truncated := by
  unfold decodeLsd
  split
  · exact .inl ⟨_, _, _, _, _, rfl⟩
  · exact .inr rfl

/-- The run from the screen descriptor on: SIZE_MISMATCH, the end of SRC, or what the table brings. -/
theorem gifRun_lsd_outcome (fuel : Nat) {s : State} (hc : s.ctl = some .gifLsd) :
    ∃ t, gifRun (fuel + 2) s = .next t ∧ StartOutcome s t := by
  have hp : gifPos s.ctl = some .gifLsd := by rw [hc]; rfl
  rcases decodeLsd_cases (s.src.drop s.sp) with ⟨w, h, flags, bg, aspect, hdec⟩ | hdec
  · by_cases hsize : w.toNat = s.gif.expW ∧ h.toNat = s.gif.expH
    · rw [gifRun_screen (fuel + 1) hc hdec hsize]
      obtain ⟨t, hrun, ho⟩ := gifRun_gct_outcome fuel (s := screenLoaded w h flags bg s) rfl
      exact ⟨t, hrun, ho.dst, ho.ctl, ho.exit⟩
    · rw [gifRun_decoded (fuel + 1) hp hdec, gifToken_gifLsd,
        execGifLsd_mismatch flags bg aspect (s := { s with sp := s.sp + 7 }) (not_and_or.1 hsize), andThen_next]
      exact ⟨_, gifRun_stopped (fuel + 1) rfl, rfl, rfl, .inr (.inr ⟨rfl, .inr rfl⟩)⟩
  · exact ⟨_, gifRun_truncated (fuel + 1) hp hdec, rfl, rfl, .inr (.inl ⟨rfl, rfl⟩)⟩

/-- The run from the header on: BAD_MAGIC, or what the screen descriptor brings. -/
theorem gifRun_header_outcome (fuel : Nat) {s : State} (hc : s.ctl = some .gifHeader) :
    ∃ t, gifRun (fuel + 3) s = .next t ∧ StartOutcome s t := by
  have hp : gifPos s.ctl = some .gifHeader := by rw [hc]; rfl
  rcases Nat.lt_or_ge (s.src.drop s.sp).length 6 with hlen | hlen
  · exact ⟨_, gifRun_truncated (fuel + 2) hp (decodeHeader_short hlen), rfl, rfl,
      .inr (.inr ⟨rfl, .inl rfl⟩)⟩
  by_cases hmagic : (s.src.drop s.sp).take 6 = magic87a ∨ (s.src.drop s.sp).take 6 = magic89a
  · rw [gifRun_magic (fuel + 2) hc hmagic]
    obtain ⟨t, hrun, ho⟩ := gifRun_lsd_outcome fuel (s := headerDone { s with sp := s.sp + 6 }) rfl
    exact ⟨t, hrun, ho.dst, ho.ctl, ho.exit⟩
  · obtain ⟨h87, h89⟩ := not_or.1 hmagic
    exact ⟨_, gifRun_ended (fuel + 2) hp (fetchAt_badMagic (decodeHeader_other hlen h87 h89)), rfl, rfl,
      .inr (.inr ⟨rfl, .inl rfl⟩)⟩

/-! ### A good stream -/

theorem exec_gifStart {s : State} (expW expH : Nat) (h : s.gif.state ≠ .faulted) :
    exec (.gifStart expW expH) s = gifRun (s.src.length + 4) (gifSetup expW expH s) :=
  if_neg h

/-- What GIF.START leaves on a stream whose header parts are good (R171). -/
def streamReady (expW expH : Nat) (w h : U16) (flags bg : Byte) (table : List Rgb) (s : State) : State :=
  { gifSetup expW expH s with
    sp := 13 + 3 * table.length, ctl := none, palG := writePalette table 0 s.palG
    gif := { state := .ready, expW := expW, expH := expH, scrW := w, scrH := h, scrFlags := flags
             bgIndex := bg, gctLen := table.length, fault := none } }

/-- The three parts of a good stream, each read behind the one before it. -/
theorem gifRun_goodStream (fuel : Nat) {magic : List Byte} {w h : U16} {flags bg aspect : Byte} {table : List Rgb}
    {rest : List Byte} {s : State} (hmagic : magic = magic87a ∨ magic = magic89a)
    (htable : table.length = tableSize flags)
    (hsrc : s.src = magic ++ [lo8 w, hi8 w, lo8 h, hi8 h, flags, bg, aspect] ++ tableBytes table ++ rest) :
    gifRun (fuel + 3) (gifSetup w.toNat h.toNat s) = .next (streamReady w.toNat h.toNat w h flags bg table s) := by
  let s0 := gifSetup w.toNat h.toNat s
  let s1 := headerDone { s0 with sp := 6 }
  have hsix : magic.length = 6 := by rcases hmagic with rfl | rfl <;> rfl
  rw [List.append_assoc, List.append_assoc] at hsrc
  have hhead : s.src.take 6 = magic := by rw [hsrc, ← hsix, List.take_left]
  have hscreen : s.src.drop 6 = [lo8 w, hi8 w, lo8 h, hi8 h, flags, bg, aspect] ++ (tableBytes table ++ rest) := by
    rw [hsrc, ← hsix, List.drop_left]
  have htab : s.src.drop 13 = tableBytes table ++ rest := by
    rw [show 13 = 6 + 7 from rfl, ← List.drop_drop, hscreen]
    rfl
  calc gifRun (fuel + 3) s0
      = gifRun (fuel + 2) s1 := gifRun_magic (s := s0) (fuel + 2) rfl (hhead ▸ hmagic)
    _ = gifRun (fuel + 1) (screenLoaded w h flags bg s1) :=
      gifRun_screen (s := s1) (fuel + 1) rfl (hscreen ▸ decodeLsd_encoded w h flags bg aspect _) ⟨rfl, rfl⟩
    _ = .next (globalTableLoaded table (screenLoaded w h flags bg s1)) :=
      gifRun_table (s := screenLoaded w h flags bg s1) fuel rfl (by
        show readTriples (tableSize flags) (s.src.drop 13) = some table
        rw [htab, ← htable, readTriples_tableBytes])

/-- Settles O24: the run from the header on, part by part; on a good stream each part is the one expected. -/
theorem startReadsHeader : Obligations.StartReadsHeader := by
  refine fun expW expH s => ⟨fun h => if_pos h, fun h => ⟨?_, ?_⟩⟩
  · obtain ⟨t, hrun, ho⟩ := gifRun_header_outcome (s.src.length + 1) (s := gifSetup expW expH s) rfl
    exact ⟨t, (exec_gifStart expW expH h).trans hrun, ho.dst, ho.ctl, ho.exit⟩
  · intro magic w hh flags bg aspect table rest hmagic hw hhh htable hsrc
    subst hw hhh
    exact ⟨streamReady w.toNat hh.toNat w hh flags bg table s,
      (exec_gifStart _ _ h).trans (gifRun_goodStream _ hmagic htable hsrc), rfl,
      fun k => memRead_writePalette table k s.palG⟩

end Sys2Proof.Machine
end

section
/-! PROOFS. O25: the first code after a reset (43_lzw.md R221, R231 to R233). -/

namespace Sys2Proof.Machine

theorem decodeCode_eq_lzwFirst {x : CodeCtx} {c : Nat} (hp : x.prev = none) (hend : x.endCode = x.clear + 1)
    (hc : c < x.clear) : decodeCode x c = .lzwFirst c := by
  rw [decodeCode, if_neg (by omega), if_neg (by omega), hp]
  exact if_pos hc

/-- The token of a first code is the emission of its one index; the code is then the previous one (R221, R236). -/
theorem exec_lzwFirst {c : Nat} {s : State} (hd : decodeCode (codeCtx s) c = .lzwFirst c) :
    exec (.lzwFirst c) s = ((emitPixel c s).bind fun t => .ok (setPrev c t)).settle :=
  congrArg Res.settle (if_pos hd)

theorem isTransparent_iff {g : GceRegs} {p : Nat} :
    isTransparent g p = true ↔ g.transpOn = true ∧ p = g.transpIdx.toNat := by
  rw [isTransparent, Bool.and_eq_true, beq_iff_eq]

/-- A transparent index is skipped (R231). -/
theorem emitPixel_transparent {p : Nat} {s : State} (h : isTransparent s.gce p = true) :
    emitPixel p s = .ok (nextPixel s) := if_pos h

/-- An index with a colour stores it at the pixel's address (R232, R233). -/
theorem emitPixel_stored {p : Nat} {c : Rgb} {s : State} (ht : isTransparent s.gce p = false)
    (hp : p < (selectedPalette s).2) (hc : memRead (selectedPalette s).1 p = some c)
    (hroom : imgAddr s.gif s.img s.img.pixN + 1 < s.dstLen) :
    emitPixel p s = .ok (nextPixel { s with
      dst := pixelMem (imgAddr s.gif s.img s.img.pixN) (hi8 (pack c.r c.g c.b)) (lo8 (pack c.r c.g c.b)) s.dst }) := by
  have hcolor : paletteColor s p = some c := (if_pos hp).trans hc
  have hdrawn : ∀ k m, drawn s p k m =
      pixelMem (imgAddr s.gif s.img k) (hi8 (pack c.r c.g c.b)) (lo8 (pack c.r c.g c.b)) m := fun k m => by
    rw [drawn, ht, hcolor]
    rfl
  rw [emitPixel_drawable (.inr (Option.isSome_of_eq_some hcolor)) hroom, hdrawn]
  rfl

/-- Settles O25: the three ways `emitPixel` ends. -/
theorem firstCodeEmitsPixel : Obligations.FirstCodeEmitsPixel := by
  intro c s hprev hc hend transparent a
  have hexec := exec_lzwFirst (decodeCode_eq_lzwFirst (x := codeCtx s) hprev hend hc)
  have hopaque : ¬ transparent → isTransparent s.gce c = false := fun h =>
    Bool.eq_false_iff.2 (mt isTransparent_iff.1 h)
  refine ⟨fun ht => ?_, fun ht hp => ?_, fun ht hp rgb hrgb hroom => ?_⟩
  · rw [hexec, emitPixel_transparent (isTransparent_iff.2 ht)]
    rfl
  · rw [hexec, (emitPixel_undrawable (hopaque ht)).1 hp]
    rfl
  · rw [hexec, emitPixel_stored (hopaque ht) hp hrgb hroom]
    refine ⟨_, rfl, rfl, ?_, ?_, fun b hb hb' => ?_⟩
    · exact (memRead_pixelMem a a _ _ s.dst).trans (by rw [if_neg (Nat.lt_succ_self a).ne, if_pos rfl, hi8])
    · exact (memRead_pixelMem a (a + 1) _ _ s.dst).trans (by rw [if_pos rfl, lo8])
    · exact (memRead_pixelMem a b _ _ s.dst).trans (by rw [if_neg hb', if_neg hb]; rfl)

end Sys2Proof.Machine
end
